-- ==== Sys2Proof/Word.lean ====
section
/-!
DEFINITION. The widths of the hardware's words (spec/00_scope.md rules R8, R10; spec/10_state.md
rules R22, R26, R32). Every value is unsigned; nothing here computes.
-/

namespace Sys2Proof

/-- One byte of the array, of the bus and of the 8-bit registers (rule R10). -/
abbrev Byte := BitVec 8

/-- A 24-bit flash address as it goes on the wire (rules R8 `ADDR_BITS`, R62). -/
abbrev FlashAddr := BitVec 24

/-- The 25-bit value of `CURSOR` and `ADDR`, which must hold `END_ADDR + 1` (rules R8
`CURSOR_BITS`, R26, R32; spec/90_conflicts.md C6). -/
abbrev CursorWord := BitVec 25

/-- The 9-bit byte count `LEN` (rule R92). -/
abbrev LenWord := BitVec 9

/-- The 32-bit host command word (rule R92). -/
abbrev HostWord := BitVec 32

end Sys2Proof
end

