-- ==== Sys2Proof/Config.lean ====
section
/-!
DEFINITION. The implementation parameters of spec/00_scope.md rule R8: the values the spec fixes
are constants, the OPEN ones are the fields of `Config` (a machine carries its `Config` in its
state and no step writes it), and `Config.freeByte` is the free value of rule R15's `draw()`.
-/

namespace Sys2Proof

/-- The OPEN parameters of rule R8, fixed for one machine.
The device's size is held as the number of its last page, so that every value of the field is a
legal `END_ADDR` and no other is: `END_ADDR = 256 * lastPage + 255` ranges over exactly the
values with `END_ADDR <= 0xFFFFFF` and `(END_ADDR + 1) mod 256 = 0` (rules R8, R61). -/
structure Config where
  /-- Index of the last page of the array, `NPAGES - 1` (decision D7). -/
  lastPage   : Fin 65536
  /-- `EXP_MFR_ID`, the expected manufacturer byte (decision D12). -/
  expMfr     : Byte
  /-- `EXP_DEV_ID`, the expected device byte (decision D12). -/
  expDev     : Byte
  /-- `DEV_MFR_ID`, the manufacturer byte the attached device returns (rule R42). -/
  devMfr     : Byte
  /-- `DEV_DEV_ID`, the device byte the attached device returns (rule R42). -/
  devDev     : Byte
  /-- `P_ERASE_ABORT`: chip erase aborts when the write-enable gate fails (decision D14). -/
  eraseAbort : Bool
  /-- `DEVICE_PRESENT`: a device answers on the bus (decision D26). -/
  present    : Bool
  /-- `DEVICE_FAIR`: a busy device eventually completes (decision D25, rule R163). -/
  fair       : Bool
  /-- `DEVICE_WREN_REJECT`: the device ignores write-enable (decision D26, rule R147). -/
  wrenReject : Bool
deriving DecidableEq, Repr

/-- The free value of every `draw()` (rule R15): the byte drawn at the `n`-th draw of a run.
It has no body, so a claim that mentions it holds whatever the byte is. -/
opaque Config.freeByte : Nat → Byte

/-- The configuration of the spec's own worked vectors (rule R9, and the head of
spec/95_test_vectors.md): 1024 bytes, both identity pairs `(0xEF, 0x13)`, a present and fair
device that latches write-enable, `P_ERASE_ABORT` true. `State.reset` carries it
(DESIGN CHOICE, notes/assumptions/2.md); no rule depends on it. -/
def Config.vectors : Config where
  lastPage := 3
  expMfr := 0xEF
  expDev := 0x13
  devMfr := 0xEF
  devDev := 0x13
  eraseAbort := true
  present := true
  fair := true
  wrenReject := false

/-- `ERASED`, the value a flash byte reads as after erase (rule R8). -/
def erased : Byte := 0xFF

/-- `PAGE_BYTES` (rule R8). -/
def pageBytes : Nat := 256

/-- `RUN_THRESHOLD`, the consecutive erased bytes SCAN looks for (rule R8). -/
def runThreshold : BitVec 5 := 16

/-- `DUMP_ROW`, the bytes in one output row of DUMP_ALL (rule R8). -/
def dumpRowBytes : Nat := 16

/-- `DUMMY_TX`, the byte sent while only receiving (rule R104, decision D10). -/
def dummyTx : Byte := 0x00

/-- `RDID_ADDR`, the three dummy address bytes of 0x90 (rule R101, decision D11). -/
def rdidAddr : FlashAddr := 0x000000

/-- What every exchange returns when no device is present (rule R128). -/
def absentByte : Byte := 0xFF

/-- `T_POLL` in microseconds: the source's example figure, with no model effect (rules R8, R370). -/
def tPoll : Nat := 1

/-- `T_SETTLE` in microseconds: the source's example figure, with no model effect (rules R8, R370). -/
def tSettle : Nat := 10000

end Sys2Proof
end

