-- ==== Sys2Proof/Syntax.lean ====
section
/-!
DEFINITION. The instructions, one constructor for each row of spec/opcode_table.json: the eight
host operations (spec/30_encoding.md rule R91) and the six SPI frames (rule R101), and the two
forms an encoded instruction has (rules R92, R100).
-/

namespace Sys2Proof

/-- An instruction of the hardware (rules R16, R90): a host operation, or an SPI frame the
controller puts on the wire. Operands are those of rules R92, R101 and R103. -/
inductive Instr where
  | readId
  | readStatus
  | awaitReady
  | writeEnable
  | chipErase
  | scan
  /-- `WRITE_DATA n`: `len` is the `LEN` field of the request word (rule R93). -/
  | writeData (len : LenWord)
  | dumpAll
  | rdid
  | wren
  | rdsr
  | ce
  /-- `READ A, N`: `n` data bytes are clocked from address `addr` (rule R101). -/
  | read (addr : FlashAddr) (n : Nat)
  /-- `PP A, b0, ..., b(L-1)` (rule R101). -/
  | pp (addr : FlashAddr) (bytes : List Byte)
deriving DecidableEq, Repr

/-- The six command bytes a device recognises (rules R4, R141). -/
inductive Command where
  | rdid | wren | rdsr | ce | read | pp
deriving DecidableEq, Repr

/-- An encoded instruction: the 32-bit host command word (rule R92), or the bytes the controller
sends between `Select()` and `Deselect()` (rule R100). A frame carries no length field: its
length is set by the deselect alone (rule R102), so it is the list's length here. -/
inductive Code where
  | word (w : HostWord)
  | frame (bytes : List Byte)
deriving DecidableEq, Repr

/-- Whether an instruction is a host operation (rule R91) and not a frame (rule R101). -/
def Instr.isHostOp : Instr → Bool
  | .readId | .readStatus | .awaitReady | .writeEnable | .chipErase | .scan | .writeData _
  | .dumpAll => true
  | .rdid | .wren | .rdsr | .ce | .read _ _ | .pp _ _ => false

end Sys2Proof
end

