-- ==== Sys2Proof/WellFormed.lean ====
section
/-!
DEFINITION. Which instructions the encoding can express: the operand ranges of
spec/30_encoding.md rule R101. Every other operand range is a fact of its type (`LEN` has nine
bits, an address has 24).
-/

namespace Sys2Proof

/-- What is wrong with an instruction's operands. -/
inductive IllFormed where
  /-- `READ A, N` with `N = 0`; rule R101 has `N >= 1`. -/
  | readEmpty
  /-- `PP` with no data byte; rule R101 has `1 <= L`. -/
  | ppEmpty
  /-- `PP` with more than 256 data bytes; rule R101 has `L <= 256`. -/
  | ppTooLong
deriving DecidableEq, Repr

/-- The first check of rule R101 an instruction fails, if any. -/
def Instr.illFormed : Instr → Option IllFormed
  | .readId | .readStatus | .awaitReady | .writeEnable | .chipErase | .scan | .writeData _
  | .dumpAll | .rdid | .wren | .rdsr | .ce => none
  | .read _ n => if n = 0 then some .readEmpty else none
  | .pp _ bytes =>
    if bytes.length = 0 then some .ppEmpty
    else if bytes.length > 256 then some .ppTooLong
    else none

/-- The instruction's operands are in the ranges of rule R101. -/
def Instr.wellFormed (i : Instr) : Bool := i.illFormed.isNone

end Sys2Proof
end

