-- ==== Sys2Proof/Decode.lean ====
section
/-!
DEFINITION. The decoder, total on every host word and every list of frame bytes and rejecting by
name (spec/30_encoding.md rules R92 to R96, R100 to R105), then the encoder written from the same
tables, and the host's entry `decodeTableWord`.
-/

namespace Sys2Proof

/-- Why an encoded instruction is rejected. -/
inductive DecodeError where
  /-- A host word with one of `CMD[31:17]` set (rule R94). -/
  | reservedBits
  /-- A host word of a known operation other than WRITE_DATA with `LEN != 0` (rule R95). -/
  | lenNotZero
  /-- A host word with `OP` 0x00 or 0x09 to 0xFF (rules R91, R96). -/
  | reservedOp
  /-- A frame with no byte: it has no command (rule R100). -/
  | emptyFrame
  /-- A frame opened by a byte that is none of the six commands (rule R105). -/
  | unknownCommand
  /-- A frame whose length is not its command's (rules R101, R102). -/
  | frameLength
  /-- A frame that sends another byte than the fixed one in a receive-only or dummy-address
  position (rules R101, R104). -/
  | dummyByte
deriving DecidableEq, Repr

/-! ### The host command word -/

/-- One row of the opcode table with `format = "host_cmd"` (rule R95). -/
structure HostRow where
  mask  : HostWord
  value : HostWord
  build : LenWord → Instr

/-- The eight host operations (rule R91; spec/opcode_table.json). -/
def hostRows : List HostRow :=
  [ ⟨0xFFFFFFFF, 0x00000001, fun _ => .readId⟩,
    ⟨0xFFFFFFFF, 0x00000002, fun _ => .readStatus⟩,
    ⟨0xFFFFFFFF, 0x00000003, fun _ => .awaitReady⟩,
    ⟨0xFFFFFFFF, 0x00000004, fun _ => .writeEnable⟩,
    ⟨0xFFFFFFFF, 0x00000005, fun _ => .chipErase⟩,
    ⟨0xFFFFFFFF, 0x00000006, fun _ => .scan⟩,
    ⟨0xFFFE00FF, 0x00000007, fun len => .writeData len⟩,
    ⟨0xFFFFFFFF, 0x00000008, fun _ => .dumpAll⟩ ]

/-- `OP = CMD[7:0]` (rule R92). -/
def wordOp (w : HostWord) : Byte := w.extractLsb' 0 8

/-- `LEN = zext_9(CMD[16:8])` (rules R92, R93). -/
def wordLen (w : HostWord) : LenWord := w.extractLsb' 8 9

/-- `RSV = CMD[31:17]` (rule R92). -/
def wordRsv (w : HostWord) : BitVec 15 := w.extractLsb' 17 15

/-- The name of the rejection of a word that no row matches (rules R94 to R96). -/
def hostReject (w : HostWord) : DecodeError :=
  if wordRsv w ≠ 0 then .reservedBits
  else if 1 ≤ wordOp w ∧ wordOp w ≤ 8 then .lenNotZero
  else .reservedOp

/-- Decoding a request word: the operation of the row with `(w & mask) = match` (rule R95). -/
def decodeHost (w : HostWord) : Except DecodeError Instr :=
  match hostRows.find? (fun r => w &&& r.mask == r.value) with
  | some r => .ok (r.build (wordLen w))
  | none => .error (hostReject w)

/-! ### SPI frames -/

/-- The command byte of each of the six frames (rule R101). -/
def Command.byte : Command → Byte
  | .rdid => 0x90
  | .wren => 0x06
  | .rdsr => 0x05
  | .ce => 0xC7
  | .read => 0x03
  | .pp => 0x02

/-- Command dispatch on the first byte of a frame (rule R141). -/
def commandOf (b : Byte) : Option Command :=
  if b = 0x90 then some .rdid
  else if b = 0x06 then some .wren
  else if b = 0x05 then some .rdsr
  else if b = 0xC7 then some .ce
  else if b = 0x03 then some .read
  else if b = 0x02 then some .pp
  else none

/-- The 24-bit address `{b1, b2, b3}` of three address bytes, big-endian (rules R62, R103). -/
def addrOfBytes (b1 b2 b3 : Byte) : FlashAddr := b1 ++ b2 ++ b3

/-- The three address bytes `A[23:16], A[15:8], A[7:0]` in wire order (rules R62, R103). -/
def addrBytes (a : FlashAddr) : List Byte :=
  [a.extractLsb' 16 8, a.extractLsb' 8 8, a.extractLsb' 0 8]

/-- `n` bytes sent while only receiving (rule R104). -/
def dummies (n : Nat) : List Byte := List.replicate n dummyTx

/-- The data phase of a `READ` frame: one or more dummies, counted (rule R101). -/
def decodeRead (a : FlashAddr) (sent : List Byte) : Except DecodeError Instr :=
  if sent.length = 0 then .error .frameLength
  else if sent = dummies sent.length then .ok (.read a sent.length)
  else .error .dummyByte

/-- The data phase of a `PP` frame: 1 to 256 data bytes (rule R101). -/
def decodePp (a : FlashAddr) (sent : List Byte) : Except DecodeError Instr :=
  if sent.length = 0 then .error .frameLength
  else if sent.length > 256 then .error .frameLength
  else .ok (.pp a sent)

/-- Decoding the bytes the controller sends in one frame (rules R101 to R105). -/
def decodeFrame : List Byte → Except DecodeError Instr
  | [] => .error .emptyFrame
  | c :: rest =>
    match commandOf c with
    | none => .error .unknownCommand
    | some .rdid =>
      if rest.length ≠ 5 then .error .frameLength
      else if rest = addrBytes rdidAddr ++ dummies 2 then .ok .rdid else .error .dummyByte
    | some .wren => if rest = [] then .ok .wren else .error .frameLength
    | some .rdsr =>
      if rest.length ≠ 1 then .error .frameLength
      else if rest = dummies 1 then .ok .rdsr else .error .dummyByte
    | some .ce => if rest = [] then .ok .ce else .error .frameLength
    | some .read =>
      match rest with
      | b1 :: b2 :: b3 :: sent => decodeRead (addrOfBytes b1 b2 b3) sent
      | _ => .error .frameLength
    | some .pp =>
      match rest with
      | b1 :: b2 :: b3 :: sent => decodePp (addrOfBytes b1 b2 b3) sent
      | _ => .error .frameLength

/-- The decoder: every code gives one instruction or a named rejection. -/
def decode : Code → Except DecodeError Instr
  | .word w => decodeHost w
  | .frame bytes => decodeFrame bytes

/-! ### The encoder -/

/-- The request word with operation code `op` and byte count `len`, `RSV` zero (rule R92). -/
def hostWord (op : Byte) (len : LenWord) : HostWord := (0 : BitVec 15) ++ len ++ op

/-- The code of an instruction: its request word (rules R91, R92, R107), or the bytes its frame
sends (rule R101). -/
def encode : Instr → Code
  | .readId => .word (hostWord 0x01 0)
  | .readStatus => .word (hostWord 0x02 0)
  | .awaitReady => .word (hostWord 0x03 0)
  | .writeEnable => .word (hostWord 0x04 0)
  | .chipErase => .word (hostWord 0x05 0)
  | .scan => .word (hostWord 0x06 0)
  | .writeData len => .word (hostWord 0x07 len)
  | .dumpAll => .word (hostWord 0x08 0)
  | .rdid => .frame (Command.rdid.byte :: (addrBytes rdidAddr ++ dummies 2))
  | .wren => .frame [Command.wren.byte]
  | .rdsr => .frame (Command.rdsr.byte :: dummies 1)
  | .ce => .frame [Command.ce.byte]
  | .read a n => .frame (Command.read.byte :: (addrBytes a ++ dummies n))
  | .pp a bytes => .frame (Command.pp.byte :: (addrBytes a ++ bytes))

/-- The number of bytes on the wire (rule R101) or in the request word (rule R96). -/
def Code.length : Code → Nat
  | .word _ => 4
  | .frame bytes => bytes.length

/-! ### The host's entry: words numbered as spec/opcode_table.json numbers them -/

/-- The shortest total length of a frame with this command byte (rule R101: `READ` and `PP` carry
at least one data byte). -/
def minFrameLength (c : Byte) : Nat :=
  match commandOf c with
  | some .rdid => 6
  | some .wren => 1
  | some .rdsr => 2
  | some .ce => 1
  | some .read => 5
  | some .pp => 5
  | none => 1

/-- The first `k` bytes of `w`, least significant first. -/
def bytesOfNat : Nat → Nat → List Byte
  | 0, _ => []
  | k + 1, w => BitVec.ofNat 8 w :: bytesOfNat k (w / 256)

/-- The code of a table row's bits: a 32-bit row is a host word; any other is the first bytes of a
frame, the rest zero up to the shortest frame of its command byte (DESIGN CHOICE,
notes/assumptions/11.md). -/
def tableCode (nbits w : Nat) : Code :=
  if nbits = 32 then .word (BitVec.ofNat 32 w)
  else
    let bytes := bytesOfNat (nbits / 8) w
    let need := minFrameLength (bytes.headD 0)
    .frame (bytes ++ List.replicate (need - bytes.length) 0)

/-- The instruction the decoder reads from a row of spec/opcode_table.json. -/
def decodeTableWord (nbits w : Nat) : Option Instr :=
  match decode (tableCode nbits w) with
  | .ok i => some i
  | .error _ => none

end Sys2Proof
end

