-- ==== Sys2Proof/Machine/State.lean ====
section
/-!
DEFINITION. Every piece of state the spec gives the machine (spec/10_state.md), grouped by the
agent that owns it (spec/00_scope.md rule R18), with the model's own scheduling data; the ways a
step can stop; and the state after reset.
-/

namespace Sys2Proof.Machine

/-! ### How a step can stop -/

/-- The two model faults of rule R327. -/
inductive Fault where
  /-- `BUS_PROTOCOL`: raised by `select` with `CS = 1` and by `xfer` and `deselect` with `CS = 0`
  (rules R121 to R123). Safe: the machine stops where the spec gives no meaning. -/
  | busProtocol
  /-- `DEVICE_UNMODELLED`: raised by the device on a sequential read past `END_ADDR` (rule R152) and
  on a page program that crosses its page, carries more than 256 bytes or passes `END_ADDR` (rules
  R156, R157). Safe: the machine stops where the spec gives no meaning. -/
  | deviceUnmodelled
deriving DecidableEq, Repr

/-- The moves the spec gives no transition. -/
inductive Refusal where
  /-- An instruction with no meaning yet; raised by no arm of this model. Safe. -/
  | notModelled (mnemonic : String)
  /-- A request, or a write to `DATA`, while `SEQ != IDLE`: "The model gives no transition" (rule
  R33, U15). Raised by every host operation and by the host's moves. Safe: the spec assumes the
  host never makes the move, so the model stops. -/
  | hostWriteNotIdle
  /-- A frame asked for while `SEQ = HALTED`, where "the controller takes no step" (rule R313), or
  from the inbox while an operation is in progress. Raised by the six frames and by the host's
  moves. Safe. -/
  | frameNotIdle
  /-- `DEVICE_DONE` while `DBUSY = 0`, when the completion step is not enabled (rule R162). Raised by
  the device's move. Safe. -/
  | completionNotEnabled
deriving DecidableEq, Repr

/-! ### Vocabulary of the fields -/

/-- The sequencer state `SEQ`; the value 3 never occurs (rule R21). -/
inductive Seq where
  | idle | exec | halted
deriving DecidableEq, Repr

/-- The places where an operation's pseudocode waits for ready, each one the label of its poll loop (rule
R182); a step ends with `MPC` at one of them while the wait lasts. -/
inductive Poll where
  /-- In AWAIT_READY (rule R183). -/
  | awaitPoll
  /-- In the gate of WRITE_ENABLE (rules R196, R198). -/
  | enableGate
  /-- In the gate of CHIP_ERASE (rules R196, R211). -/
  | eraseGate
  /-- After the `CE` frame (rules R211, R212). -/
  | eraseWait
  /-- In SCAN (rule R228). -/
  | scanPoll
  /-- In the gate of WRITE_DATA (rules R196, R246). -/
  | writeGate
  /-- In WRITE_DATA before the `PP` frame (rules R246, R250). -/
  | writeReady
  /-- In DUMP_ALL before page `PIDX` (rule R281). -/
  | dumpPoll
deriving DecidableEq, Repr

/-- The values of `MPC`: the labels of the pseudocode (rule R21). A label stands before the statement it
names. The loop positions are the registers the loops count with: `ADDR` in SCAN, `PIDX` and `ADDR` in
DUMP_ALL; inside a frame the position is `CS` and the number of bytes exchanged so far. -/
inductive MicroPos where
  /-- The status read of a poll loop (rule R182). -/
  | poll (p : Poll)
  /-- The gate's `WREN` frame, in the gate whose wait is `here` (rule R196). -/
  | gateWren (here : Poll)
  /-- The gate's second status read (rule R196). -/
  | gateCheck (here : Poll)
  /-- The gate's `Emit(WEL_FAIL)` (rule R197). -/
  | gateReport (here : Poll)
  /-- The gate's `WP <- 0` (rule R197). -/
  | gateOff (here : Poll)
  /-- READ_STATUS's status read (rule R181). -/
  | statusRead
  /-- CHIP_ERASE's `CE` frame (rule R211). -/
  | eraseSend
  /-- SCAN's `Select` and the head of its `READ` frame (rule R228). -/
  | scanOpen
  /-- SCAN's stream loop at the byte `ADDR` (rule R228). -/
  | scanByte
  /-- SCAN's `Deselect` (rule R228). -/
  | scanClose
  /-- SCAN's `CURSOR <- ...` (rule R229). -/
  | scanCursor
  /-- SCAN's `WP <- 1` (rule R229). -/
  | scanPermit
  /-- SCAN's `Emit(NO_REGION)` (rule R230). -/
  | scanReport
  /-- SCAN's `WP <- 0` (rule R230). -/
  | scanOff
  /-- WRITE_DATA's checks (rules R246, R253). -/
  | writeCheck
  /-- WRITE_DATA's event for a failed capacity or page check (rules R247, R248). -/
  | writeReport
  /-- WRITE_DATA's test of `WP` after its gate (rule R249). -/
  | writePermit
  /-- WRITE_DATA's `PP` frame (rule R246). -/
  | writeSend
  /-- WRITE_DATA's settle delay (rule R251). -/
  | writeSettle
  /-- WRITE_DATA's `CURSOR <- A + L` (rule R251). -/
  | writeAdvance
  /-- READ_ID's `RDID` frame (rule R271). -/
  | idFrame
  /-- READ_ID's `IDREG <- ...` (rule R271). -/
  | idPair
  /-- READ_ID's `IDV <- 1` (rule R271). -/
  | idValid
  /-- READ_ID's `Emit(ID_READ)` (rule R271). -/
  | idReport
  /-- READ_ID's comparison and its write to `IDMM` (rule R271). -/
  | idCompare
  /-- READ_ID's `Emit(ID_MISMATCH)` (rule R271). -/
  | idWarn
  /-- DUMP_ALL's `SUM <- 0` (rule R281). -/
  | dumpStart
  /-- DUMP_ALL's `Select` and the head of its `READ` frame (rule R281). -/
  | dumpOpen
  /-- DUMP_ALL's loop over the bytes of page `PIDX` (rule R281). -/
  | dumpByte
  /-- DUMP_ALL's `Deselect` (rule R281). -/
  | dumpClose
  /-- DUMP_ALL's `CHECKSUM <- ...` (rule R281). -/
  | dumpSum
  /-- DUMP_ALL's `Emit(DUMP_CHECKSUM)` (rule R281). -/
  | dumpReport
  /-- The `Finish` or `raise Halt` that ends the operation (rule R14). -/
  | stop
deriving DecidableEq, Repr

/-- The diagnostic events, the only entries of `LOG` (rule R323). -/
inductive Event where
  | idRead (m d : Byte)
  | idMismatch (m d : Byte)
  | welFail
  | eraseProgress
  | noRegion
  | capacityExhausted
  | pageBoundary
  | dumpRow (a : CursorWord)
  | dumpByte (b : Byte)
  | dumpChecksum (c : Byte)
deriving DecidableEq, Repr

/-- The device's pending internal operation `DPEND` (rule R40). -/
inductive Pending where
  | none
  | erase
  | prog (a : FlashAddr) (d : List Byte)
deriving DecidableEq, Repr

/-- One received byte. A status byte is kept as its drawn bits 7:2 and the two bits the controller
examines (rule R148), so that those two are known though the others are drawn; `Rx.toByte` is
the byte itself. -/
inductive Rx where
  | byte (b : Byte)
  | status (upper : BitVec 6) (wel busy : Bool)
deriving DecidableEq, Repr

/-- The array's contents: addresses strictly rising, no entry equal to 0xFF, which is what an
unlisted address reads as (`memWf`). -/
abbrev Memory := List Host.Cell

/-- The host-visible registers (rule R22). -/
inductive HostReg where
  | cmd | ctrlstat | result | cursor | idreg | lastSr | checksum
  | data (i : Fin 256)
deriving DecidableEq, Repr

/-- What can come from outside at a point in the middle of an operation: a host read (rule R33) or the
external reset (rule R341). -/
inductive Interruption where
  | read (r : HostReg)
  | reset
deriving DecidableEq, Repr

/-- An interruption that is due when `after` more micro-positions have passed since the one before it. -/
structure Due where
  after : Nat
  what  : Interruption
deriving DecidableEq, Repr

/-- A move of the environment (rules R33, R106, R340, R341). -/
inductive Input where
  /-- The host writes a request word to `CMD` (rule R33), or the bus-transfer unit is driven with one
  frame (DESIGN CHOICE, notes/assumptions/3.md). -/
  | issue (c : Code)
  /-- `WAIT`: the host waits until `SEQ != EXEC` (rule R106). -/
  | wait
  /-- `DEVICE_DONE`: one completion step of the device (rules R106, R162). -/
  | deviceDone
  /-- The host reads a register, now; a read has no effect (rule R33). -/
  | readReg (r : HostReg)
  /-- The host reads a register `k` micro-positions after the last due interruption, inside an operation
  or a frame (rule R33; decision D38). -/
  | readAfter (k : Nat) (r : HostReg)
  /-- The host writes a register (rules R22, R24, R31); the value is one word whatever the register's width
  (DESIGN CHOICE, notes/assumptions/20.md). -/
  | writeReg (r : HostReg) (v : BitVec 32)
  /-- Power-on or external reset, now (rule R340). -/
  | reset
  /-- External reset `k` micro-positions after the last due interruption, inside a frame or between two
  (rule R341). -/
  | resetAfter (k : Nat)
deriving DecidableEq, Repr

/-! ### The state -/

/-- The controller's registers, host-visible and hidden, and its event stream. -/
structure Controller where
  /-- `SEQ` (rule R21). -/
  seq      : Seq
  /-- `MPC`, the current point in the running operation's pseudocode; it has no meaning when
  `SEQ != EXEC` (rule R21). -/
  mpc      : Option MicroPos
  /-- `CMD` (rule R23). -/
  cmd      : HostWord
  /-- `RESULT` (rules R25, R301). -/
  result   : Byte
  /-- `CURSOR` (rule R26). -/
  cursor   : CursorWord
  /-- `WP`, write permitted (rule R27). -/
  wp       : Bool
  /-- `IDREG` (rule R28). -/
  idreg    : BitVec 16
  /-- `IDV`, identity valid (rule R28). -/
  idv      : Bool
  /-- `IDMM`, identity mismatch (rule R28). -/
  idmm     : Bool
  /-- `LAST_SR` (rule R29). -/
  lastSr   : Byte
  /-- `CHECKSUM` (rule R30). -/
  checksum : Byte
  /-- `DATA[0..255]` (rule R31). -/
  data     : Vector Byte 256
  /-- `OPL`, the latched `OP` (rule R32). -/
  opl      : Byte
  /-- `LENL`, the latched `LEN` (rule R32). -/
  lenl     : LenWord
  /-- `ADDR`, the address of the byte being streamed (rule R32). -/
  addr     : CursorWord
  /-- `RUN`, the count of consecutive erased bytes (rules R32, R226). -/
  run      : BitVec 5
  /-- `SUM`, the running sum mod 256 (rule R32). -/
  sum      : Byte
  /-- `PIDX`, the current page index (rule R32). -/
  pidx     : BitVec 17
  /-- `OK`, the outcome of the last gate (rule R32). -/
  ok       : Bool
  /-- `LOG`, the diagnostic event stream, oldest first (rule R35). -/
  log      : List Event
deriving DecidableEq, Repr

/-- The bus-transfer unit. Only `cs` is the spec's; the byte lists are the model's own record of what
went over the wire (notes/assumptions/6.md). -/
structure Bus where
  /-- `CS`, true while asserted (rule R34). -/
  cs   : Bool
  /-- Bytes sent in the frame in progress, or in the last one. -/
  mosi : List Byte
  /-- Bytes received in the frame in progress, or in the last one: what `Frame` returns (R125). -/
  miso : List Rx
  /-- The bytes sent in each frame closed so far, oldest first. -/
  wire : List (List Byte)
deriving DecidableEq, Repr

/-- The flash device (rules R36 to R41). -/
structure Device where
  /-- `DMEM` (rule R36). -/
  dmem  : Memory
  /-- `DBUSY` (rule R38). -/
  dbusy : Bool
  /-- `DWEL` (rule R39). -/
  dwel  : Bool
  /-- `DPEND` (rule R40). -/
  dpend : Pending
  /-- `FB`, the bytes received in the current frame (rule R41). -/
  fb    : List Byte
  /-- `DADDR`, the address of the next byte a sequential read returns (rules R41, R152). -/
  daddr : CursorWord
deriving DecidableEq, Repr

/-- The model's own data: the free choices of the environment, as plain data. -/
structure Env where
  /-- How many `draw()`s were made; the next is `Config.freeByte drawCount` (rule R15). -/
  drawCount : Nat
  /-- Whether the busy device takes its completion step at each coming opportunity between frames
  (rules R127, R162); past the end, a fair device does and another does not (rule R163). -/
  turns     : List Bool
  /-- The environment's coming moves, first one first. -/
  inbox     : List Input
  /-- The host reads and the external resets that come in the middle of things, in order (rules R33,
  R341): each falls before the statement or bus primitive at whose micro-position it is due. -/
  due       : List Due
  /-- What the host's reads returned, oldest first (rule R33). -/
  seen      : List (HostReg × BitVec 32)
deriving DecidableEq, Repr

/-- The whole machine. -/
structure State where
  cfg : Config
  ctl : Controller
  bus : Bus
  dev : Device
  env : Env
deriving DecidableEq, Repr

/-! ### Reset -/

/-- Every controller register at its reset value (rules R43, R340). The hidden registers of rule R32,
whose reset value the spec calls irrelevant, are zero (DESIGN CHOICE, notes/assumptions/1.md). -/
def Controller.reset : Controller where
  seq := .idle
  mpc := none
  cmd := 0x00000000
  result := 0x00
  cursor := 0
  wp := false
  idreg := 0x0000
  idv := false
  idmm := false
  lastSr := 0x00
  checksum := 0x00
  data := Vector.replicate 256 0x00
  opl := 0
  lenl := 0
  addr := 0
  run := 0
  sum := 0
  pidx := 0
  ok := false
  log := []

/-- The bus at launch: chip-select released (rule R43), nothing recorded. -/
def Bus.reset : Bus where
  cs := false
  mosi := []
  miso := []
  wire := []

/-- A device that meets the launch premise `DEVICE_QUIET` (rule R44), with every byte erased (DESIGN
CHOICE, notes/assumptions/7.md and 8.md: the spec leaves the launch state open). -/
def Device.quiet : Device where
  dmem := []
  dbusy := false
  dwel := false
  dpend := .none
  fb := []
  daddr := 0

/-- No move of the environment is due (DESIGN CHOICE, notes/assumptions/3.md, 4.md, 5.md, 10.md). -/
def Env.reset : Env where
  drawCount := 0
  turns := []
  inbox := []
  due := []
  seen := []

/-- The machine right after power-on reset, with configuration `c`, device `d` and environment `e`
(rules R43, R44, R343). -/
def State.launch (c : Config) (d : Device) (e : Env) : State where
  cfg := c
  ctl := Controller.reset
  bus := Bus.reset
  dev := d
  env := e

/-- The machine right after reset, with the spec's worked configuration and a quiet device. -/
def State.reset : State := State.launch Config.vectors Device.quiet Env.reset

end Sys2Proof.Machine
end

