-- ==== Sys2Proof/Machine/Flags.lean ====
section
/-!
DEFINITION. The flags and codes (spec/10_state.md rules R24, R29, R45; spec/60_exceptions.md rule
R301) and the flag-like computations: the status bits the controller examines, the run counter,
the checksum, and the host's view of the registers (spec/10_state.md rule R22).
-/

namespace Sys2Proof.Machine

/-! ### Result codes (rule R301) -/

/-- `OK`. -/
def resOk : Byte := 0x00
/-- `WARN_ID_MISMATCH`. -/
def resIdMismatch : Byte := 0x01
/-- `ERR_WEL`. -/
def resWel : Byte := 0x02
/-- `ERR_NOT_PERMITTED`. -/
def resNotPermitted : Byte := 0x03
/-- `ERR_PAGE_BOUNDARY`. -/
def resPageBoundary : Byte := 0x04
/-- `ERR_CAPACITY`, the only fatal code. -/
def resCapacity : Byte := 0x05
/-- `ERR_SCAN_EXHAUSTED`. -/
def resScanExhausted : Byte := 0x06
/-- `ERR_LENGTH`. -/
def resLength : Byte := 0x07
/-- `ERR_ILLEGAL_OP`. -/
def resIllegalOp : Byte := 0x08

/-! ### Received bytes and the two status bits -/

/-- The received byte, all 8 bits: a status byte is `{upper, DWEL, DBUSY}` (rule R148). -/
def Rx.toByte : Rx → Byte
  | .byte b => b
  | .status upper wel busy => upper ++ BitVec.ofBool wel ++ BitVec.ofBool busy

/-- `s[0]`, BUSY (rules R29, R180). -/
def Rx.busyBit : Rx → Bool
  | .byte b => b.getLsbD 0
  | .status _ _ busy => busy

/-- `s[1]`, WRITE_ENABLE_LATCH (rules R29, R180). -/
def Rx.welBit : Rx → Bool
  | .byte b => b.getLsbD 1
  | .status _ wel _ => wel

/-! ### Run counter and checksum -/

/-- The run counter after one more byte of the stream (rules R226, R228). -/
def runAfter (run : BitVec 5) (b : Byte) : BitVec 5 := if b = erased then run + 1 else 0

/-- `(256 - SUM) mod 256` (rules R79, R281). -/
def checksumOf (sum : Byte) : Byte := BitVec.ofNat 8 ((256 - sum.toNat) % 256)

/-! ### The host's view -/

/-- The two-bit value of `SEQ` (rule R21). -/
def Seq.bits : Seq → BitVec 2
  | .idle => 0
  | .exec => 1
  | .halted => 2

/-- `CTRLSTAT`: SEQ in 1:0, WP in 4, IDV in 5, IDMM in 6, the other bits 0 (rule R24). -/
def ctrlstat (c : Controller) : Byte :=
  (0 : BitVec 1) ++ BitVec.ofBool c.idmm ++ BitVec.ofBool c.idv ++ BitVec.ofBool c.wp
    ++ (0 : BitVec 2) ++ c.seq.bits

/-- The register's number (rule R22). -/
def HostReg.number : HostReg → Nat
  | .cmd => 0
  | .ctrlstat => 1
  | .result => 2
  | .cursor => 3
  | .idreg => 4
  | .lastSr => 5
  | .checksum => 6
  | .data _ => 7

/-- What a host read of a register returns: the register's value (rules R22, R33), zero-extended to one word
(DESIGN CHOICE, notes/assumptions/20.md). -/
def hostRead (r : HostReg) (c : Controller) : BitVec 32 :=
  match r with
  | .cmd => c.cmd
  | .ctrlstat => (ctrlstat c).setWidth 32
  | .result => c.result.setWidth 32
  | .cursor => c.cursor.setWidth 32
  | .idreg => c.idreg.setWidth 32
  | .lastSr => c.lastSr.setWidth 32
  | .checksum => c.checksum.setWidth 32
  | .data i => c.data[i].setWidth 32

end Sys2Proof.Machine
end

