-- ==== Sys2Proof/Machine/Operands.lean ====
section
/-!
DEFINITION. The operands an operation works on and the exact unsigned arithmetic over them
(spec/20_memory.md rules R61, R62, R79; spec/30_encoding.md rules R93, R103): sizes, addresses,
the write checks, the data of a write, the identity pair.
-/

namespace Sys2Proof.Machine

/-- `END_ADDR`, the highest valid flash address (rule R8). -/
def endAddr (c : Config) : Nat := 256 * c.lastPage.val + 255

/-- `SIZE = END_ADDR + 1` (rule R8). -/
def size (c : Config) : Nat := endAddr c + 1

/-- `NPAGES = SIZE / 256` (rules R8, R61). -/
def npages (c : Config) : Nat := size c / pageBytes

/-- `PageIndex(a) = a / 256` (rule R61). -/
def pageIndex (a : Nat) : Nat := a / pageBytes

/-- The low 24 bits of a 25-bit address, which go on the wire (rule R62). -/
def wireAddr (a : CursorWord) : FlashAddr := a.extractLsb' 0 24

/-- The 25-bit register value of an exact address (rule R79). -/
def cursorOf (a : Nat) : CursorWord := BitVec.ofNat 25 a

/-- Check (a) of WRITE_DATA fails: `A + L > END_ADDR + 1` (rule R247). -/
def overCapacity (c : Config) (a : CursorWord) (l : LenWord) : Bool :=
  a.toNat + l.toNat > endAddr c + 1

/-- Check (b) of WRITE_DATA fails: `(A mod 256) + L > 256` (rules R66, R248). -/
def crossesPage (a : CursorWord) (l : LenWord) : Bool :=
  a.toNat % pageBytes + l.toNat > pageBytes

/-- `CURSOR <- A + L` (rule R251), exact (rule R79). -/
def advanced (a : CursorWord) (l : LenWord) : CursorWord := cursorOf (a.toNat + l.toNat)

/-- `ADDR & ~0xF` at 25 bits (rules R10, R229). -/
def alignDown16 (a : CursorWord) : CursorWord := a &&& ~~~(0xF : CursorWord)

/-- `DATA[0] .. DATA[L-1]` (rules R155, R246). -/
def dataBytes (d : Vector Byte 256) (l : LenWord) : List Byte := d.toList.take l.toNat

/-- `IDREG <- {d, m}`: `IDREG[15:8] = d`, `IDREG[7:0] = m` (rules R28, R271). -/
def idPair (m d : Byte) : BitVec 16 := d ++ m

/-- The pair equals (`EXP_MFR_ID`, `EXP_DEV_ID`) (rule R271). -/
def idMatches (c : Config) (m d : Byte) : Bool := m == c.expMfr && d == c.expDev

/-- A page-program frame the device model gives no meaning: more than 256 bytes, across a page, or
past `END_ADDR` (rules R156, R157). -/
def programIllegal (c : Config) (a : FlashAddr) (d : List Byte) : Bool :=
  d.length > 256 || a.toNat % pageBytes + d.length > pageBytes
    || a.toNat + d.length - 1 > endAddr c

end Sys2Proof.Machine
end

