-- ==== Sys2Proof/Machine/Ops.lean ====
section
/-!
DEFINITION. The shared operations: the array (spec/00_scope.md rule R13), the updates of the state,
the sequencing and outcome primitives (rule R14), the device model (spec/41_flash_commands.md),
the bus-transfer unit (spec/40_bus_transfer.md), ending an operation with an error and returning
from the fatal one by reset (spec/60_exceptions.md rules R311, R312; spec/70_reset_and_hazards.md
rules R340, R341).
-/

namespace Sys2Proof.Machine

/-! ### The array -/

/-- `DMEM[a]`; an unlisted address reads as `ERASED` (DESIGN CHOICE, notes/assumptions/7.md). -/
def readByte : Memory → Nat → Byte
  | [], _ => erased
  | (k, b) :: m, a => if k = a then b else readByte m a

/-- The entry for a byte at an address: none for the value an unlisted address reads as. -/
def cellOf (a : Nat) (v : Byte) : Memory := if v = erased then [] else [(a, v)]

/-- `DMEM[a] <- v`, in canonical form. -/
def writeByte : Memory → Nat → Byte → Memory
  | [], a, v => cellOf a v
  | (k, b) :: m, a, v =>
    if a < k then cellOf a v ++ (k, b) :: m
    else if a = k then cellOf a v ++ m
    else (k, b) :: writeByte m a v

/-- The canonical form from address `lo` up: addresses strictly rising, no entry equal to what an
unlisted address reads as. -/
def memWfFrom : Nat → Memory → Bool
  | _, [] => true
  | lo, (k, b) :: m => lo ≤ k && b != erased && memWfFrom (k + 1) m

/-- The canonical form of the array's contents. -/
def memWf (m : Memory) : Bool := memWfFrom 0 m

/-- Every listed address is below `n`. -/
def memBelow (n : Nat) (m : Memory) : Bool := m.all fun c => c.1 < n

/-- `MemRead(a, n)`: the bytes `DMEM[a] .. DMEM[a+n-1]` (rule R13). -/
def memRead (m : Memory) (a n : Nat) : List Byte := (List.range' a n).map (readByte m)

/-- `MemWrite(a, n, v)`: `DMEM[a+i] <- DMEM[a+i] & v[i]`, a program that can only clear bits (rules
R13, R159). -/
def memWrite : Memory → Nat → List Byte → Memory
  | m, _, [] => m
  | m, a, v :: vs => memWrite (writeByte m a (readByte m a &&& v)) (a + 1) vs

/-- `MemFill(ERASED)`: every byte reads as 0xFF (rules R13, R160). -/
def memErase : Memory := []

/-! ### Updates of the state, one for each agent -/

/-- Update the controller's registers. -/
def State.mapCtl (s : State) (f : Controller → Controller) : State := { s with ctl := f s.ctl }

/-- Update the bus-transfer unit. -/
def State.mapBus (s : State) (f : Bus → Bus) : State := { s with bus := f s.bus }

/-- Update the device. -/
def State.mapDev (s : State) (f : Device → Device) : State := { s with dev := f s.dev }

/-- Update the model's own scheduling data. -/
def State.mapEnv (s : State) (f : Env → Env) : State := { s with env := f s.env }

/-! ### Actions: the pseudocode's statements -/

/-- Why an action ends its step before its last statement. -/
inductive Exit where
  /-- A ready-wait poll read BUSY: the step ends here and the next one polls again (rule R182). -/
  | suspended
  /-- The external reset arrives (rule R341). -/
  | resetArrived
  /-- A model fault (rule R327). -/
  | fault (f : Fault)
deriving DecidableEq, Repr

/-- A piece of pseudocode: it changes the state and gives a value, or ends the step early. -/
abbrev Act := EStateM Exit State

/-- Read the state. -/
def ask : Act State := fun s => .ok s s

/-- Change the state. -/
def upd (f : State → State) : Act Unit := fun s => .ok () (f s)

/-- Change the controller's registers. -/
def updCtl (f : Controller → Controller) : Act Unit := upd fun s => s.mapCtl f

/-- End the step early. -/
def leave {α : Type} (e : Exit) : Act α := fun s => .error e s

/-- A statement that does nothing. -/
def nop : Act Unit := pure ()

/-- `Delay(T)`: it changes no state and takes no model step (rules R14, R345). -/
def delay (_microseconds : Nat) : Act Unit := pure ()

/-- `Emit(E)`: append to the event stream (rules R14, R322). -/
def emit (e : Event) : Act Unit := updCtl fun c => { c with log := c.log ++ [e] }

/-! ### Ending an operation: the non-fatal error entry, and the halt -/

/-- `Finish(code)`: `RESULT <- code`, `SEQ <- IDLE`; nothing else is saved and there is no vector
(rules R14, R311). The hidden registers of rule R32, which hold no value across operations, keep their
last values here (DESIGN CHOICE, notes/assumptions/1.md). -/
def finish (code : Byte) : Act Unit :=
  updCtl fun c => { c with result := code, seq := .idle, mpc := none }

/-- `raise Halt(code)`: `RESULT <- code`, `SEQ <- HALTED` (rules R14, R312). The hidden registers keep their
last values, as at `finish` (DESIGN CHOICE, notes/assumptions/1.md). -/
def halt (code : Byte) : Act Unit :=
  updCtl fun c => { c with result := code, seq := .halted, mpc := none }

/-! ### Micro-positions, and what can come between two statements -/

/-- Serve the interruptions that are due here: a host read records the register's current value and
changes nothing else (rule R33; decision D38), the external reset ends the operation (rule R341). -/
def serve : List Due → Act Unit
  | [], s => .ok () s
  | ⟨n + 1, what⟩ :: rest, s => .ok () (s.mapEnv fun e => { e with due := ⟨n, what⟩ :: rest })
  | ⟨0, .read r⟩ :: rest, s =>
    serve rest (s.mapEnv fun e => { e with due := rest, seen := e.seen ++ [(r, hostRead r s.ctl)] })
  | ⟨0, .reset⟩ :: rest, s => .error .resetArrived (s.mapEnv fun e => { e with due := rest })

/-- A micro-position: every label of the pseudocode and every bus primitive has one before it. -/
def tick : Act Unit := fun s => serve s.env.due s

/-- `MPC` reaches the label `p`, before the statement it names (rule R21). -/
def label (p : MicroPos) : Act Unit := do
  updCtl fun c => { c with mpc := some p }
  tick

/-- An operation's last statement, `Finish(code)` at its label. -/
def endWith (code : Byte) : Act Unit := do
  label .stop
  finish code

/-! ### Draws -/

/-- `draw()`: a free byte (rule R15). -/
def draw : Act Byte := fun s =>
  .ok (Config.freeByte s.env.drawCount) (s.mapEnv fun e => { e with drawCount := e.drawCount + 1 })

/-- A received byte the spec leaves open (rules R142, R144, R161). -/
def drawRx : Act Rx := do
  let b ← draw
  return .byte b

/-! ### The device -/

/-- `DeviceComplete()` on the device's own state (rule R162). -/
def completed (d : Device) : Device :=
  { d with
    dmem := match d.dpend with
      | .none => d.dmem
      | .erase => memErase
      | .prog a bytes => memWrite d.dmem a.toNat bytes
    dpend := .none
    dbusy := false
    dwel := false }

/-- Whether the device takes its completion step at this opportunity: the environment's next choice,
and past the last one what fairness asks (rules R162, R163; DESIGN CHOICE,
notes/assumptions/4.md). -/
def turnTaken (s : State) : Bool :=
  match s.env.turns with
  | t :: _ => t
  | [] => s.cfg.fair

/-- The device's spontaneous step, enabled exactly when `DBUSY = 1`, at an opportunity between frames
(rules R127, R162). -/
def deviceTurn (s : State) : State :=
  if s.dev.dbusy then
    let s' := s.mapEnv fun e => { e with turns := e.turns.tail }
    if turnTaken s then s'.mapDev completed else s'
  else s

/-- The command of the frame in progress (rule R141). -/
def frameCommand (d : Device) : Option Command :=
  match d.fb with
  | [] => none
  | c :: _ => commandOf c

/-- Busy refusal: `DBUSY = 1` and the command is not read-status (rule R142). -/
def refusedFrame (d : Device) : Bool := d.dbusy && frameCommand d != some .rdsr

/-- `StatusByte()`: `{draw()[5:0], DWEL, DBUSY}` (rule R148). -/
def statusByte : Act Rx := do
  let b ← draw
  let s ← ask
  return .status (b.extractLsb' 0 6) s.dev.dwel s.dev.dbusy

/-- After the third address byte of a `READ` frame: `DADDR <- {FB[1], FB[2], FB[3]}` (rule R152). -/
def latchReadAddr (d : Device) : Device :=
  match d.fb with
  | _ :: b1 :: b2 :: b3 :: _ => { d with daddr := (addrOfBytes b1 b2 b3).setWidth 25 }
  | _ => d

/-- `ReadNext()` (rule R152). -/
def readNext : Act Rx := do
  let s ← ask
  if s.dev.daddr.toNat > endAddr s.cfg then
    leave (.fault .deviceUnmodelled)
  else do
    upd fun s => s.mapDev fun d => { d with daddr := d.daddr + 1 }
    return .byte (readByte s.dev.dmem s.dev.daddr.toNat)

/-- `DeviceOut(FB, k)`: the byte the device returns on the `k`-th exchange of the frame (rules R144,
R146, R148, R152). -/
def deviceOut (k : Nat) : Act Rx := do
  let s ← ask
  if k = 0 then drawRx
  else if refusedFrame s.dev then drawRx
  else
    match frameCommand s.dev with
    | some .rdsr => if k = 1 then statusByte else drawRx
    | some .rdid =>
      if k = 4 then return .byte s.cfg.devMfr
      else if k = 5 then return .byte s.cfg.devDev
      else drawRx
    | some .read =>
      if k ≥ 4 then readNext
      else if k = 3 then do
        upd fun s => s.mapDev latchReadAddr
        drawRx
      else drawRx
    | _ => drawRx

/-- `StartErase()` (rule R150). -/
def startErase (d : Device) : Device := { d with dbusy := true, dpend := .erase }

/-- `StartProgram(FB)` (rules R156, R157). -/
def startProgram (a : FlashAddr) (bytes : List Byte) : Act Unit := do
  let s ← ask
  if programIllegal s.cfg a bytes then leave (.fault .deviceUnmodelled)
  else upd fun s => s.mapDev fun d => { d with dbusy := true, dpend := .prog a bytes }

/-- `EndFrame(FB)`: a write-class frame takes effect only here and only if it is complete (rule R143);
read-class and unknown frames have none (rules R146, R148, R153, R161). -/
def endFrame : Act Unit := do
  let s ← ask
  if refusedFrame s.dev then nop
  else
    match frameCommand s.dev with
    | some .wren =>
      if s.dev.fb.length = 1 ∧ s.cfg.wrenReject = false then
        upd fun s => s.mapDev fun d => { d with dwel := true }
      else nop
    | some .ce =>
      if s.dev.fb.length = 1 ∧ s.dev.dwel = true then upd fun s => s.mapDev startErase else nop
    | some .pp =>
      match s.dev.fb with
      | _ :: b1 :: b2 :: b3 :: d :: ds =>
        if s.dev.dwel then startProgram (addrOfBytes b1 b2 b3) (d :: ds) else nop
      | _ => nop
    | _ => nop

/-! ### The bus-transfer unit -/

/-- `Select()` (rule R121). The device may complete an internal operation just before it, never
inside a frame (rule R127); an absent device's hooks do not run (rules R128, R140). -/
def select : Act Unit := do
  tick
  let s ← ask
  if s.bus.cs then leave (.fault .busProtocol)
  else do
    upd deviceTurn
    upd fun s => s.mapBus fun b => { b with cs := true, mosi := [], miso := [] }
    if s.cfg.present then upd fun s => s.mapDev fun d => { d with fb := [] } else nop

/-- One exchange seen by the device: it takes the byte into `FB`, then answers (rules R123, R144). -/
def deviceExchange (t : Byte) : Act Rx := do
  let s ← ask
  let k := s.dev.fb.length
  upd fun s => s.mapDev fun d => { d with fb := d.fb ++ [t] }
  deviceOut k

/-- `r <- Xfer(t)` (rule R123); 0xFF if no device is present (rule R128). -/
def xfer (t : Byte) : Act Rx := do
  tick
  let s ← ask
  if s.bus.cs then do
    let r ← (if s.cfg.present then deviceExchange t else pure (.byte absentByte) : Act Rx)
    upd fun s => s.mapBus fun b => { b with mosi := b.mosi ++ [t], miso := b.miso ++ [r] }
    return r
  else leave (.fault .busProtocol)

/-- The chip-select is released: the frame is over and the device runs `EndFrame` (rules R122, R341). -/
def releaseCs : Act Unit := do
  upd fun s => s.mapBus fun b => { b with cs := false, wire := b.wire ++ [b.mosi] }
  let s ← ask
  if s.cfg.present then endFrame else nop

/-- `Deselect()` (rule R122). -/
def deselect : Act Unit := do
  tick
  let s ← ask
  if s.bus.cs then releaseCs else leave (.fault .busProtocol)

/-- Exchange bytes one after the other (rule R124). -/
def xferAll : List Byte → Act Unit
  | [] => pure ()
  | t :: ts => do
    let _ ← xfer t
    xferAll ts

/-- `Frame(c, s1, ..., sm)`: the complete transaction (rule R125); what it receives stands in the
bus record `miso`. -/
def frame (bytes : List Byte) : Act Unit := do
  select
  xferAll bytes
  deselect

/-! ### Reset: the only return from the fatal error -/

/-- Every controller field at its reset value (rules R43, R340). -/
def resetFields (s : State) : State := s.mapCtl fun _ => Controller.reset

/-- Power-on or external reset: an asserted chip-select is released, so that the device runs
`EndFrame` on what it received (rule R341); every controller field takes its reset value (rule
R340); the device is not reset (rule R44). -/
def resetController : Act Unit := do
  let s ← ask
  if s.bus.cs then do
    releaseCs
    upd resetFields
  else upd resetFields

/-! ### From an action to the outcome of a step -/

/-- The outcome of a completed reset. It can only complete or fault. -/
def afterReset (s : State) : Host.Outcome State Fault Refusal :=
  match resetController s with
  | .ok _ s' => .next s'
  | .error (.fault f) _ => .fault f
  | .error _ s' => .next s'

/-- The outcome of running an action from a state. -/
def runAct (m : Act Unit) (s : State) : Host.Outcome State Fault Refusal :=
  match m s with
  | .ok _ s' => .next s'
  | .error .suspended s' => .next s'
  | .error .resetArrived s' => afterReset s'
  | .error (.fault f) _ => .fault f

/-- The controller takes a request: `CMD <- w`, `OPL <- w[7:0]`, `LENL <- w[16:8]`, `SEQ <- EXEC`
(rule R33). -/
def accept (w : HostWord) : Act Unit :=
  updCtl fun c => { c with cmd := w, opl := wordOp w, lenl := wordLen w, seq := .exec }

/-- A request runs its operation while `SEQ = IDLE`; at another time the spec gives no transition
(rules R33, R97). -/
def request (w : HostWord) (body : Act Unit) (s : State) : Host.Outcome State Fault Refusal :=
  match s.ctl.seq with
  | .idle => runAct (do accept w; body) s
  | .exec => .refused .hostWriteNotIdle
  | .halted => .refused .hostWriteNotIdle

/-- A frame is put on the wire unless the controller is halted, where it takes no step (rule R313). -/
def putFrame (body : Act Unit) (s : State) : Host.Outcome State Fault Refusal :=
  match s.ctl.seq with
  | .halted => .refused .frameNotIdle
  | .idle => runAct body s
  | .exec => runAct body s

end Sys2Proof.Machine
end

