-- ==== Sys2Proof/Machine/Frames.lean ====
section
/-!
DEFINITION. The frames of spec/41_flash_commands.md other than RDSR: the controller side of each,
over the shared bus and device operations of Machine/Ops.lean.
-/

namespace Sys2Proof.Machine

/-- `IssueRDID()`: it gives the two identity bytes `(m, d)` (rule R145). -/
def issueRdid : Act (Byte × Byte) := do
  select
  let _ ← xfer Command.rdid.byte
  xferAll (addrBytes rdidAddr)
  let m ← xfer dummyTx
  let d ← xfer dummyTx
  deselect
  return (m.toByte, d.toByte)

/-- `IssueWREN()` (rule R147). -/
def issueWren : Act Unit := frame [Command.wren.byte]

/-- `IssueCE()` (rule R149). -/
def issueCe : Act Unit := frame [Command.ce.byte]

/-- The head of a sequential read: `Select()`, 0x03 and the three address bytes (rule R151). -/
def openRead (a : FlashAddr) : Act Unit := do
  select
  let _ ← xfer Command.read.byte
  xferAll (addrBytes a)

/-- A sequential read of `n` bytes at `a` (rule R151). -/
def issueRead (a : FlashAddr) (n : Nat) : Act Unit := do
  openRead a
  xferAll (dummies n)
  deselect

/-- `IssuePP(A, L)` with its data bytes (rule R155). -/
def issuePp (a : FlashAddr) (bytes : List Byte) : Act Unit := do
  select
  let _ ← xfer Command.pp.byte
  xferAll (addrBytes a)
  xferAll bytes
  deselect

/-- RDID (rules R145, R146). The bytes received stand in the bus record `miso`. -/
def execRdid (s : State) : Host.Outcome State Fault Refusal :=
  putFrame (do let _ ← issueRdid; nop) s

/-- WREN (rule R147). -/
def execWren (s : State) : Host.Outcome State Fault Refusal := putFrame issueWren s

/-- CE (rules R149, R150). -/
def execCe (s : State) : Host.Outcome State Fault Refusal := putFrame issueCe s

/-- READ (rules R151 to R153). The bytes received stand in the bus record `miso`. -/
def execRead (a : FlashAddr) (n : Nat) (s : State) : Host.Outcome State Fault Refusal :=
  putFrame (issueRead a n) s

/-- PP (rules R155 to R157). -/
def execPp (a : FlashAddr) (bytes : List Byte) (s : State) : Host.Outcome State Fault Refusal :=
  putFrame (issuePp a bytes) s

end Sys2Proof.Machine
end

