-- ==== Sys2Proof/Machine/Status.lean ====
section
/-!
DEFINITION. Status polling and the busy-wait arbiter (spec/42_status_ready.md): the micro-routines
`ReadStatus` and `AwaitReady`, the frame RDSR, and the host operations READ_STATUS and AWAIT_READY.
-/

namespace Sys2Proof.Machine

/-- `ReadStatus()`: one `RDSR` frame; `LAST_SR` takes the byte received (rule R180). -/
def readStatus : Act Rx := do
  select
  let _ ← xfer Command.rdsr.byte
  let r ← xfer dummyTx
  deselect
  updCtl fun c => { c with lastSr := r.toByte }
  return r

/-- `AwaitReady(onBusy)`, one pass of the poll loop (rule R182): ready, it returns; busy, it runs
`onBusy` and the delay, and the step ends with `MPC` at the poll `here`, so that the loop has no
bound and the device may complete between any two polls. -/
def awaitReady (here : Poll) (onBusy : Act Unit) : Act Unit := do
  label (.poll here)
  let r ← readStatus
  if r.busyBit then do
    onBusy
    delay tPoll
    leave .suspended
  else nop

/-- READ_STATUS after its request (rule R181). -/
def readStatusOp : Act Unit := do
  label .statusRead
  let _ ← readStatus
  endWith resOk

/-- AWAIT_READY from its poll (rule R183). -/
def awaitReadyOp : Act Unit := do
  awaitReady .awaitPoll nop
  endWith resOk

/-- READ_STATUS (OP 0x02, rule R181). -/
def execReadStatus (s : State) : Host.Outcome State Fault Refusal :=
  request (hostWord 0x02 0) readStatusOp s

/-- AWAIT_READY (OP 0x03, rule R183). -/
def execAwaitReady (s : State) : Host.Outcome State Fault Refusal :=
  request (hostWord 0x03 0) awaitReadyOp s

/-- RDSR (rules R148, R180): the status byte received goes to `LAST_SR`, which holds the last one
"received in a read-status frame" (rule R29). -/
def execRdsr (s : State) : Host.Outcome State Fault Refusal :=
  putFrame (do let _ ← readStatus; nop) s

end Sys2Proof.Machine
end

