-- ==== Sys2Proof/Machine/Gate.lean ====
section
/-!
DEFINITION. The write-enable gate and the host operation WRITE_ENABLE (spec/43_write_enable.md).
-/

namespace Sys2Proof.Machine

/-- `Gate()` from its ready-wait (rules R196, R197, R201). Its outcome is also latched in `OK` (rule
R32). A success leaves `WP` as it is. -/
def gate (here : Poll) : Act Bool := do
  awaitReady here nop
  label (.gateWren here)
  issueWren
  label (.gateCheck here)
  let r ← readStatus
  if r.welBit then do
    updCtl fun c => { c with ok := true }
    return true
  else do
    label (.gateReport here)
    emit .welFail
    label (.gateOff here)
    updCtl fun c => { c with wp := false, ok := false }
    return false

/-- WRITE_ENABLE from its gate (rule R198). -/
def writeEnableOp : Act Unit := do
  let ok ← gate .enableGate
  if ok then endWith resOk else endWith resWel

/-- WRITE_ENABLE (OP 0x04, rule R198). -/
def execWriteEnable (s : State) : Host.Outcome State Fault Refusal :=
  request (hostWord 0x04 0) writeEnableOp s

end Sys2Proof.Machine
end

