-- ==== Sys2Proof/Machine/Erase.lean ====
section
/-!
DEFINITION. The host operation CHIP_ERASE (spec/44_chip_erase.md).
-/

namespace Sys2Proof.Machine

/-- CHIP_ERASE from the ready-wait after its `CE` frame; each busy poll emits one `ERASE_PROGRESS`
(rules R211, R212). -/
def eraseWaitOp : Act Unit := do
  awaitReady .eraseWait (emit .eraseProgress)
  let s ← ask
  if s.ctl.ok then endWith resOk else endWith resWel

/-- CHIP_ERASE from its gate (rules R211, R214). -/
def chipEraseOp : Act Unit := do
  let ok ← gate .eraseGate
  let s ← ask
  if ok = false ∧ s.cfg.eraseAbort = true then endWith resWel
  else do
    label .eraseSend
    issueCe
    eraseWaitOp

/-- CHIP_ERASE (OP 0x05, rule R211). -/
def execChipErase (s : State) : Host.Outcome State Fault Refusal :=
  request (hostWord 0x05 0) chipEraseOp s

end Sys2Proof.Machine
end

