-- ==== Sys2Proof/Machine/Identity.lean ====
section
/-!
DEFINITION. The host operations READ_ID and DUMP_ALL (spec/47_identity_dump.md).
-/

namespace Sys2Proof.Machine

/-- READ_ID after its request; it does not wait for ready (rules R271 to R273). -/
def readIdOp : Act Unit := do
  label .idFrame
  let (m, d) ← issueRdid
  label .idPair
  updCtl fun c => { c with idreg := idPair m d }
  label .idValid
  updCtl fun c => { c with idv := true }
  label .idReport
  emit (.idRead m d)
  label .idCompare
  let s ← ask
  if idMatches s.cfg m d then do
    updCtl fun c => { c with idmm := false }
    endWith resOk
  else do
    updCtl fun c => { c with idmm := true }
    label .idWarn
    emit (.idMismatch m d)
    endWith resIdMismatch

/-- READ_ID (OP 0x01, rule R271). -/
def execReadId (s : State) : Host.Outcome State Fault Refusal :=
  request (hostWord 0x01 0) readIdOp s

/-- The `DUMP_ROW` event before each 16th byte of a page, with its address (rules R281, R282). -/
def emitRow (i : Nat) : Act Unit := do
  let s ← ask
  if i % dumpRowBytes = 0 then emit (.dumpRow s.ctl.addr) else nop

/-- The dump's loop over the bytes of one page from offset `i` with `n` bytes left, `i + n = 256`
(rules R281, R282). `base` is the page's address. -/
def dumpBytes (base : Nat) : Nat → Nat → Act Unit
  | _, 0 => nop
  | i, n + 1 => do
    label .dumpByte
    updCtl fun c => { c with addr := cursorOf (base + i) }
    emitRow i
    let r ← xfer dummyTx
    emit (.dumpByte r.toByte)
    updCtl fun c => { c with sum := c.sum + r.toByte }
    dumpBytes base (i + 1) n

/-- The dump's loop over the pages from page `p` with `n` pages left, then the checksum (rules R281,
R283). Each page waits for ready and is read in one frame of 256 data bytes (rule R284). -/
def dumpPages : Nat → Nat → Act Unit
  | _, 0 => do
    label .dumpSum
    updCtl fun c => { c with checksum := checksumOf c.sum }
    label .dumpReport
    let s ← ask
    emit (.dumpChecksum s.ctl.checksum)
    endWith resOk
  | p, n + 1 => do
    updCtl fun c => { c with pidx := BitVec.ofNat 17 p }
    awaitReady .dumpPoll nop
    label .dumpOpen
    openRead (wireAddr (cursorOf (p * pageBytes)))
    dumpBytes (p * pageBytes) 0 pageBytes
    label .dumpClose
    deselect
    dumpPages (p + 1) n

/-- DUMP_ALL after its request (rule R281). -/
def dumpAllOp : Act Unit := do
  label .dumpStart
  updCtl fun c => { c with sum := 0 }
  let s ← ask
  dumpPages 0 (npages s.cfg)

/-- DUMP_ALL from the ready-wait before page `PIDX` (rules R281, R286). -/
def dumpResumeOp : Act Unit := do
  let s ← ask
  dumpPages s.ctl.pidx.toNat (npages s.cfg - s.ctl.pidx.toNat)

/-- DUMP_ALL (OP 0x08, rule R281). -/
def execDumpAll (s : State) : Host.Outcome State Fault Refusal :=
  request (hostWord 0x08 0) dumpAllOp s

end Sys2Proof.Machine
end

