-- ==== Sys2Proof/Machine/Scan.lean ====
section
/-!
DEFINITION. The host operation SCAN (spec/45_scan.md).
-/

namespace Sys2Proof.Machine

/-- SCAN's stream loop with `n` bytes of the array left, `n = END_ADDR + 1 - ADDR` (rule R228): true
when the run counter reaches 16, with `ADDR` at the byte that completed the run; false when the
whole space was read. -/
def scanStream : Nat → Act Bool
  | 0 => return false
  | n + 1 => do
    label .scanByte
    let r ← xfer dummyTx
    updCtl fun c => { c with run := runAfter c.run r.toByte }
    let s ← ask
    if s.ctl.run = runThreshold then return true
    else do
      updCtl fun c => { c with addr := c.addr + 1 }
      scanStream n

/-- SCAN from its ready-wait (rules R228 to R230). -/
def scanOp : Act Unit := do
  awaitReady .scanPoll nop
  label .scanOpen
  openRead 0x000000
  updCtl fun c => { c with run := 0, addr := 0 }
  let s ← ask
  let found ← scanStream (size s.cfg)
  label .scanClose
  deselect
  if found then do
    label .scanCursor
    updCtl fun c => { c with cursor := alignDown16 c.addr }
    label .scanPermit
    updCtl fun c => { c with wp := true }
    endWith resOk
  else do
    label .scanReport
    emit .noRegion
    label .scanOff
    updCtl fun c => { c with wp := false }
    endWith resScanExhausted

/-- SCAN (OP 0x06, rule R228). -/
def execScan (s : State) : Host.Outcome State Fault Refusal :=
  request (hostWord 0x06 0) scanOp s

end Sys2Proof.Machine
end

