-- ==== Sys2Proof/Machine/Write.lean ====
section
/-!
DEFINITION. The host operation WRITE_DATA: the page program and its gate logic
(spec/46_page_program.md).
-/

namespace Sys2Proof.Machine

/-- WRITE_DATA from its second ready-wait: the `PP` frame, the settle delay, the advance of the cursor
(rules R246, R250, R251). `A` is `CURSOR` and `L` is `LENL`, which nothing wrote since the checks. -/
def writeReadyOp : Act Unit := do
  awaitReady .writeReady nop
  label .writeSend
  let s ← ask
  issuePp (wireAddr s.ctl.cursor) (dataBytes s.ctl.data s.ctl.lenl)
  label .writeSettle
  delay tSettle
  label .writeAdvance
  updCtl fun c => { c with cursor := advanced s.ctl.cursor s.ctl.lenl }
  endWith resOk

/-- WRITE_DATA from its gate (rules R246, R249). -/
def writeGateOp : Act Unit := do
  let ok ← gate .writeGate
  if ok then do
    label .writePermit
    let s ← ask
    if s.ctl.wp then writeReadyOp else endWith resNotPermitted
  else endWith resWel

/-- WRITE_DATA after its request: the checks in their fixed order, before any frame (rules R246 to
R248, R252 to R254). -/
def writeDataOp : Act Unit := do
  label .writeCheck
  let s ← ask
  if s.ctl.lenl = 0 then endWith resLength
  else if overCapacity s.cfg s.ctl.cursor s.ctl.lenl then do
    label .writeReport
    emit .capacityExhausted
    label .stop
    halt resCapacity
  else if crossesPage s.ctl.cursor s.ctl.lenl then do
    label .writeReport
    emit .pageBoundary
    endWith resPageBoundary
  else writeGateOp

/-- WRITE_DATA (OP 0x07, rule R246). -/
def execWriteData (len : LenWord) (s : State) : Host.Outcome State Fault Refusal :=
  request (hostWord 0x07 len) writeDataOp s

end Sys2Proof.Machine
end

