-- ==== Sys2Proof/Machine/Dispatch.lean ====
section
/-! DEFINITION. One arm for each instruction of spec/opcode_table.json: a direct call of its meaning. -/

namespace Sys2Proof.Machine

def exec (i : Instr) (s : State) : Host.Outcome State Fault Refusal :=
  match i with
  -- host operations (spec/30_encoding.md rule R91)
  | .readId => Sys2Proof.Machine.execReadId s
  | .readStatus => Sys2Proof.Machine.execReadStatus s
  | .awaitReady => Sys2Proof.Machine.execAwaitReady s
  | .writeEnable => Sys2Proof.Machine.execWriteEnable s
  | .chipErase => Sys2Proof.Machine.execChipErase s
  | .scan => Sys2Proof.Machine.execScan s
  | .writeData len => Sys2Proof.Machine.execWriteData len s
  | .dumpAll => Sys2Proof.Machine.execDumpAll s
  -- SPI frames (rule R101)
  | .rdid => Sys2Proof.Machine.execRdid s
  | .wren => Sys2Proof.Machine.execWren s
  | .rdsr => Sys2Proof.Machine.execRdsr s
  | .ce => Sys2Proof.Machine.execCe s
  | .read addr n => Sys2Proof.Machine.execRead addr n s
  | .pp addr bytes => Sys2Proof.Machine.execPp addr bytes s

end Sys2Proof.Machine
end

