-- ==== Sys2Proof/Machine/Moves.lean ====
section
/-!
DEFINITION. What one step does around the instructions: the environment's moves (spec/10_state.md
rule R33, spec/30_encoding.md rules R95, R106, spec/70_reset_and_hazards.md rule R340), an
operation resumed at its ready-wait (spec/42_status_ready.md rules R182, R186), and the place a
program's next instruction is fetched from.
-/

namespace Sys2Proof.Machine

/-- A request word that decodes to no operation: `Finish(ERR_ILLEGAL_OP)`, no frame and no event
(rules R95, R309). -/
def illegalRequest (w : HostWord) (s : State) : Host.Outcome State Fault Refusal :=
  request w (endWith resIllegalOp) s

/-- The pseudocode of the running operation from the poll where it stands (rule R21). -/
def resumeOp : Poll → Act Unit
  | .awaitPoll => awaitReadyOp
  | .enableGate => writeEnableOp
  | .eraseGate => chipEraseOp
  | .eraseWait => eraseWaitOp
  | .scanPoll => scanOp
  | .writeGate => writeGateOp
  | .writeReady => writeReadyOp
  | .dumpPoll => dumpResumeOp

/-- The step of the controller and the device with no move of the host: an operation in progress polls
once more and runs on; idle or halted, only the device may step (rules R182, R186, R312, R313).
A step ends with `SEQ = EXEC` only at a poll, so that no run stands at another micro-position here;
then only the device may step. -/
def machineTurn (s : State) : Host.Outcome State Fault Refusal :=
  match s.ctl.seq, s.ctl.mpc with
  | .exec, some (.poll p) => runAct (resumeOp p) s
  | .exec, _ => .next (deviceTurn s)
  | .idle, _ => .next (deviceTurn s)
  | .halted, _ => .next (deviceTurn s)

/-- What is issued runs as the instruction it decodes to. A host word that does not decode is an
illegal request (rule R95); a frame that does not decode is put on the wire as it is, and the
device gives it no effect or cuts it short (rules R105, R143, R161). A frame is taken only while
`SEQ = IDLE` (notes/assumptions/3.md). -/
def issueCode (c : Code) (s : State) : Host.Outcome State Fault Refusal :=
  match c with
  | .word w =>
    match decode (.word w) with
    | .ok i => exec i s
    | .error _ => illegalRequest w s
  | .frame bytes =>
    if s.ctl.seq = .idle then
      match decode (.frame bytes) with
      | .ok i => exec i s
      | .error _ => putFrame (frame bytes) s
    else .refused .frameNotIdle

/-- A host write of `v` to a register (rules R22, R24, R31, R33): to `CMD` it is a request, to `DATA`
it is taken while `SEQ = IDLE`, to a read-only register it has no effect. The spec writes one byte per index of
`DATA`; of a `v` above 0xFF the low byte is kept (DESIGN CHOICE, notes/assumptions/20.md), and that a read-only
register other than `CTRLSTAT` drops the write is notes/assumptions/16.md. -/
def hostWrite (r : HostReg) (v : BitVec 32) (s : State) : Host.Outcome State Fault Refusal :=
  match r with
  | .cmd => issueCode (.word v) s
  | .data i =>
    if s.ctl.seq = .idle then
      .next (s.mapCtl fun c => { c with data := c.data.set i (v.setWidth 8) })
    else .refused .hostWriteNotIdle
  | .ctrlstat | .result | .cursor | .idreg | .lastSr | .checksum => .next s

/-- The inbox without its first move. -/
def popInbox (s : State) : State := s.mapEnv fun e => { e with inbox := e.inbox.tail }

/-- One more interruption is due, after those that already are. -/
def addDue (d : Due) (s : State) : State := s.mapEnv fun e => { e with due := e.due ++ [d] }

/-- The environment's first coming move; with none due, the machine's own turn. -/
def moveStep (s : State) : Host.Outcome State Fault Refusal :=
  match s.env.inbox with
  | [] => machineTurn s
  | .issue c :: _ => issueCode c (popInbox s)
  | .wait :: _ => if s.ctl.seq = .exec then machineTurn s else .next (popInbox s)
  | .deviceDone :: _ =>
    if s.dev.dbusy then .next ((popInbox s).mapDev completed) else .refused .completionNotEnabled
  | .readReg r :: _ => .next ((popInbox s).mapEnv fun e => { e with seen := e.seen ++ [(r, hostRead r s.ctl)] })
  | .writeReg r v :: _ => hostWrite r v (popInbox s)
  | .reset :: _ => afterReset (popInbox s)
  | .readAfter k r :: _ => .next (addDue ⟨k, .read r⟩ (popInbox s))
  | .resetAfter k :: _ => .next (addDue ⟨k, .reset⟩ (popInbox s))

/-- The instruction of `code` put where the next step fetches: at the head of the inbox. -/
def withNextCode (c : Code) (s : State) : State :=
  s.mapEnv fun e => { e with inbox := .issue c :: e.inbox }

/-! ### Host programs (spec/30_encoding.md rule R106, spec/70_reset_and_hazards.md rule R352) -/

/-- `OPW X`: the operation, then `WAIT` (rule R106). -/
def opw (i : Instr) : List Input := [.issue (encode i), .wait]

/-- `DATA[i..] := bytes` from index `i` on (rule R106); a byte past `DATA[255]`, which the spec gives no place,
is dropped (DESIGN CHOICE, notes/assumptions/19.md). -/
def dataWrites : Nat → List Byte → List Input
  | _, [] => []
  | i, b :: bs =>
    if h : i < 256 then .writeReg (.data ⟨i, h⟩) (b.setWidth 32) :: dataWrites (i + 1) bs else []

/-- `WRITE b0, ..., b(n-1)`: fill `DATA`, then `WRITE_DATA n`, then `WAIT` (rule R106). For `n > 511`, which the
nine bits of `LEN` cannot say, the spec gives no such operation; here `LEN` is then `n mod 512` (DESIGN CHOICE,
notes/assumptions/19.md). -/
def writeProgram (bytes : List Byte) : List Input :=
  dataWrites 0 bytes ++ opw (.writeData (BitVec.ofNat 9 bytes.length))

/-- Dump mode (rule R352). -/
def dumpMode : List Input := opw .readId ++ opw .dumpAll

/-- Erase mode (rule R352). -/
def eraseMode : List Input := opw .readId ++ opw .chipErase

/-- Record mode with the writes the host chooses (rule R352); for a write of more than 256 bytes see
`writeProgram`. -/
def recordMode (writes : List (List Byte)) : List Input :=
  opw .readId ++ opw .scan ++ writes.flatMap writeProgram

end Sys2Proof.Machine
end

