-- ==== Sys2Proof/Machine/Step.lean ====
section
/-! DEFINITION. The machine's step, and the host's way to place one instruction where the next step
fetches it (notes/assumptions/3.md says how a program comes to run from reset). -/

namespace Sys2Proof.Machine

/-- One step of the machine. -/
def step (s : State) : Host.Outcome State Fault Refusal := moveStep s

/-- `s` with the instruction of a table row's bits as the next thing the machine is given. -/
def State.withFetchWord (s : State) (nbits w : Nat) : State := withNextCode (tableCode nbits w) s

end Sys2Proof.Machine
end

