-- ==== Sys2Proof/Safety.lean ====
section
/-!
DEFINITION. What the statements are said in: launch premises (spec/10_state.md rule R44,
spec/70_reset_and_hazards.md rule R343), when a bus or a device is ready, the machine's invariant
(spec/10_state.md rule R46), the end of a run (spec/00_scope.md rule R19), and the runs of erased
bytes, sums and events that SCAN and DUMP_ALL are specified by.
-/

namespace Sys2Proof.Machine

/-! ### Premises -/

/-- The launch premise `DEVICE_QUIET` (rule R44). -/
def DeviceQuiet (d : Device) : Prop := d.dbusy = false ∧ d.dwel = false ∧ d.dpend = .none

/-- The chip-select is released and nothing from outside is due in the middle of things, so that a frame
can run to its end with no one looking. -/
def BusFree (s : State) : Prop := s.bus.cs = false ∧ s.env.due = []

/-- No external reset is due; host reads may be. -/
def NoResetDue (s : State) : Prop := ∀ d ∈ s.env.due, d.what ≠ .reset

/-- How many external resets are due. -/
def resetsDue (s : State) : Nat := s.env.due.countP fun d => d.what == .reset

/-- The state with no interruption due and nothing seen by the host. -/
def State.unwatched (s : State) : State := s.mapEnv fun e => { e with due := [], seen := [] }

/-- An outcome without what is due and what was seen. -/
def unwatchedOutcome : Host.Outcome State Fault Refusal → Host.Outcome State Fault Refusal
  | .next t => .next t.unwatched
  | .fault f => .fault f
  | .refused r => .refused r

/-- The registers that the spec gives a reset value hold it (rule R43); the hidden ones of rule R32 have
none. -/
def AtResetValues (c : Controller) : Prop :=
  c.seq = .idle ∧ c.mpc = none ∧ c.cmd = 0 ∧ c.result = 0 ∧ c.cursor = 0 ∧ c.wp = false ∧ c.idreg = 0 ∧
    c.idv = false ∧ c.idmm = false ∧ c.lastSr = 0 ∧ c.checksum = 0 ∧ (∀ i : Fin 256, c.data[i] = 0) ∧ c.log = []

/-- A device is present and not busy. -/
def DeviceIdle (s : State) : Prop := s.cfg.present = true ∧ s.dev.dbusy = false

/-- A present device that is not busy when the next frame opens: it is idle, or completes just before
(rules R127, R162). -/
def ReadyNext (s : State) : Prop := s.cfg.present = true ∧ (deviceTurn s).dev.dbusy = false

/-- The next status read shows BUSY: no device is present, or it stays busy (rules R128, R186). -/
def BusyNext (s : State) : Prop := s.cfg.present = false ∨ (deviceTurn s).dev.dbusy = true

/-- The latch after a `WREN` frame that the device `d` does not refuse (rule R147). -/
def latchAfterWren (c : Config) (d : Device) : Bool := d.dwel || !c.wrenReject

/-- Where an operation whose pseudocode begins with a ready-wait stands while the wait lasts (rules
R183, R198, R211, R228, R281); WRITE_DATA has its checks first, and READ_ID and READ_STATUS do not
wait. -/
def firstPoll : Instr → Option Poll
  | .awaitReady => some .awaitPoll
  | .writeEnable => some .enableGate
  | .chipErase => some .eraseGate
  | .scan => some .scanPoll
  | .dumpAll => some .dumpPoll
  | .readId | .readStatus | .writeData _ | .rdid | .wren | .rdsr | .ce | .read _ _ | .pp _ _ => none

/-- The controller's registers right after it took the request word `w` (rule R33). -/
def accepted (w : HostWord) (c : Controller) : Controller :=
  { c with cmd := w, opl := wordOp w, lenl := wordLen w, seq := .exec }

/-- The controller's registers after `Finish(code)` (rule R14). -/
def finished (code : Byte) (c : Controller) : Controller :=
  { c with result := code, seq := .idle, mpc := none }

/-- The controller's registers after `raise Halt(code)` (rule R14). -/
def haltedWith (code : Byte) (c : Controller) : Controller :=
  { c with result := code, seq := .halted, mpc := none }

/-- The frames put on the wire between `s` and `t`, oldest first (rule R108). -/
def newFrames (s t : State) : List (List Byte) := t.bus.wire.drop s.bus.wire.length

/-- The bytes a frame of each kind sends (rule R101). -/
def rdsrFrame : List Byte := [0x05, 0x00]
/-- See `rdsrFrame`. -/
def wrenFrame : List Byte := [0x06]
/-- See `rdsrFrame`. -/
def ceFrame : List Byte := [0xC7]
/-- See `rdsrFrame`. -/
def rdidFrame : List Byte := [0x90, 0x00, 0x00, 0x00, 0x00, 0x00]
/-- See `rdsrFrame`. -/
def readFrame (a : FlashAddr) (n : Nat) : List Byte := 0x03 :: (addrBytes a ++ List.replicate n 0x00)
/-- See `rdsrFrame`. -/
def ppFrame (a : FlashAddr) (bytes : List Byte) : List Byte := 0x02 :: (addrBytes a ++ bytes)

/-! ### The invariant -/

/-- The device's data is well formed: canonical array within `0 .. END_ADDR`, an operation pending
exactly while busy (rule R40), and a pending program that rule R156 accepts. -/
structure DeviceInv (c : Config) (d : Device) : Prop where
  memCanonical : memWf d.dmem = true
  memInRange   : memBelow (size c) d.dmem = true
  pendingBusy  : d.dpend = .none ↔ d.dbusy = false
  pendingLegal : ∀ a bytes, d.dpend = .prog a bytes → bytes ≠ [] ∧ programIllegal c a bytes = false

/-- An operation that stands at a poll has what the rest of its pseudocode relies on: WRITE_DATA has
passed its checks (rules R247, R248, R252), and before its `PP` frame the gate and `WP` as well
(rule R249); DUMP_ALL is before a page of the array (rule R281); CHIP_ERASE after a gate that saw
the latch has an erase pending, or completed (rule R213). -/
def PollInv (c : Config) (k : Controller) (d : Device) : Poll → Prop
  | .writeGate =>
    k.lenl ≠ 0 ∧ overCapacity c k.cursor k.lenl = false ∧ crossesPage k.cursor k.lenl = false
  | .writeReady =>
    k.lenl ≠ 0 ∧ overCapacity c k.cursor k.lenl = false ∧ crossesPage k.cursor k.lenl = false
      ∧ k.ok = true ∧ k.wp = true
  | .dumpPoll => k.pidx.toNat < npages c
  | .eraseWait =>
    k.ok = true → d.dpend = .erase ∨ (d.dmem = memErase ∧ d.dbusy = false ∧ d.dwel = false)
  | .awaitPoll | .enableGate | .eraseGate | .scanPoll => True

/-- The invariant between steps (rule R46): `CURSOR <= END_ADDR + 1` (I-a), `CS = 0` (I-d), a device
with well-formed data, and an operation in progress that stands at a poll it may go on from. -/
structure Inv (s : State) : Prop where
  cursorInRange : s.ctl.cursor.toNat ≤ size s.cfg
  csReleased    : s.bus.cs = false
  device        : DeviceInv s.cfg s.dev
  atPoll        : s.ctl.seq = .exec → ∃ p, s.ctl.mpc = some (.poll p) ∧ PollInv s.cfg s.ctl s.dev p

/-- The environment's next move drives no frame directly: what goes on the wire is then what the
host operations put there (rules R97, R184). -/
def NoDirectFrame (s : State) : Prop := ∀ bytes rest, s.env.inbox ≠ .issue (.frame bytes) :: rest

/-- A move that starts something: a request, which is a write to `CMD` (rule R33), or a frame that the
environment drives. -/
def Input.isRequest : Input → Bool
  | .issue _ | .writeReg .cmd _ => true
  | .wait | .deviceDone | .readReg _ | .readAfter _ _ | .reset | .resetAfter _ => false
  | .writeReg .ctrlstat _ | .writeReg .result _ | .writeReg .cursor _ | .writeReg .idreg _ | .writeReg .lastSr _
  | .writeReg .checksum _ | .writeReg (.data _) _ => false

/-- A run is over: idle, with no further request from the host and a device that is not busy (rule R19). -/
def RunOver (s : State) : Prop :=
  s.ctl.seq = .idle ∧ (∀ m ∈ s.env.inbox, m.isRequest = false) ∧ s.dev.dbusy = false

/-- A run has stopped for good (rule R19); the device may still complete. -/
def RunStopped (s : State) : Prop := s.ctl.seq = .halted

/-- The instruction whose pseudocode waits at each poll; WRITE_DATA's `LEN` is the latched one (rule R32). -/
def ownerOf (c : Controller) : Poll → Instr
  | .awaitPoll => .awaitReady
  | .enableGate => .writeEnable
  | .eraseGate | .eraseWait => .chipErase
  | .scanPoll => .scan
  | .writeGate | .writeReady => .writeData c.lenl
  | .dumpPoll => .dumpAll

/-! ### Runs of erased bytes (rules R225 to R233) -/

/-- The bytes `e - 15 .. e` are all erased. -/
def RunEndsAt (m : Memory) (e : Nat) : Prop := 15 ≤ e ∧ ∀ k, k < 16 → readByte m (e - k) = erased

/-- `e` completes the first run of 16 erased bytes of the array. -/
def FirstRunEndsAt (c : Config) (m : Memory) (e : Nat) : Prop :=
  e ≤ endAddr c ∧ RunEndsAt m e ∧ ∀ e', e' < e → ¬ RunEndsAt m e'

/-- The array has no run of 16 erased bytes. -/
def NoRun (c : Config) (m : Memory) : Prop := ∀ e, e ≤ endAddr c → ¬ RunEndsAt m e

/-! ### What a dump reports (rules R282, R283) -/

/-- The events of the dump for the byte at address `a` (rule R282). -/
def dumpEventsAt (m : Memory) (a : Nat) : List Event :=
  (if a % dumpRowBytes = 0 then [Event.dumpRow (cursorOf a)] else []) ++ [Event.dumpByte (readByte m a)]

/-- The events of the dump for the `n` bytes from address `a` (rule R282). -/
def dumpEvents (m : Memory) (a n : Nat) : List Event := (List.range' a n).flatMap (dumpEventsAt m)

/-- `S`, the sum of the `n` bytes from address `a` (rule R283). -/
def byteSum (m : Memory) (a n : Nat) : Nat := ((memRead m a n).map BitVec.toNat).sum

end Sys2Proof.Machine
end

