-- ==== Sys2Proof/Certificates/Slice0/Obligations.lean ====
section
/-!
DEFINITION. The statements for the provers, each with the rule of spec/ it formalises. A statement
about an instruction's result says what the next state holds: the controller's registers as a
whole, the device as a whole, the frames on the wire, so that everything not named is unchanged.
`(deviceTurn s).dev` is the device after the opportunity to complete that comes just before the
first frame (rules R127, R162); it is `s.dev` for a device that is not busy. A status byte `sr` is
said by its two defined bits alone: bits 7:2 are draws (rule R37). `BusFree` asks that nothing from
outside is due in the middle of the step; `HostReadsChangeNothing` carries each such statement over to
a state where host reads are due. A statement that gives the controller as a whole after an operation's end
says with it what the hidden registers of rule R32 hold there; the spec gives them no value across operations,
so that part is the model's choice (log entry 1).
-/

open Sys2Proof Sys2Proof.Machine

/-! ### Encoding -/

/-- Words written out from rules R92, R101 and R107, and their decoding; derived from those tables. -/
def Obligations.WordsOfTheTablesDecode : Prop :=
  decode (.word 0x00000001) = .ok .readId ∧
  decode (.word 0x00000407) = .ok (.writeData 4) ∧
  decode (.word 0x00010007) = .ok (.writeData 256) ∧
  decode (.word 0x00000105) = .error .lenNotZero ∧
  decode (.word 0x00020001) = .error .reservedBits ∧
  decode (.word 0x00000000) = .error .reservedOp ∧
  decode (.frame [0x05, 0x00]) = .ok .rdsr ∧
  decode (.frame [0x03, 0x01, 0x23, 0x45, 0x00, 0x00]) = .ok (.read 0x012345 2) ∧
  decode (.frame [0x02, 0x00, 0x03, 0xF0, 0x11]) = .ok (.pp 0x0003F0 [0x11])

/-- Decoding the code of a well-formed instruction gives it back, with every operand (rules R92, R101
to R103). -/
def Obligations.DecodeOfEncodeIsIdentity : Prop :=
  ∀ i : Instr, i.wellFormed = true → decode (encode i) = .ok i

/-- A code that decodes is the code of the instruction it decodes to, and that instruction is well
formed: no two codes mean the same and no code means two things (rules R95, R101). -/
def Obligations.EncodeOfDecodeIsIdentity : Prop :=
  ∀ (c : Code) (i : Instr), decode c = .ok i → encode i = c ∧ i.wellFormed = true

/-- Decoding is by the opcode table: a host word gives an operation exactly when it has the masked
value of one of the table's rows, and WRITE_DATA takes `LEN` from bits 16:8 (rule R95). -/
def Obligations.HostWordDecodesByMaskAndMatch : Prop :=
  ∀ (w : HostWord) (i : Instr), decode (.word w) = .ok i ↔
    (w &&& 0xFFFE00FF = 0x00000007 ∧ i = .writeData (w.extractLsb' 8 9)) ∨
    (w = 1 ∧ i = .readId) ∨ (w = 2 ∧ i = .readStatus) ∨ (w = 3 ∧ i = .awaitReady) ∨
    (w = 4 ∧ i = .writeEnable) ∨ (w = 5 ∧ i = .chipErase) ∨ (w = 6 ∧ i = .scan) ∨
    (w = 8 ∧ i = .dumpAll)

/-! ### Steps and requests -/

/-- A step runs the instruction that its next code decodes to, from the state without that move
(rules R33, R95, R97). -/
def Obligations.StepRunsTheDecodedInstruction : Prop :=
  ∀ (s : State) (c : Code) (i : Instr) (rest : List Input),
    s.ctl.seq = .idle → s.env.inbox = .issue c :: rest → decode c = .ok i →
    step s = exec i (popInbox s)

/-- A request word that decodes to no operation sets `RESULT` to `ERR_ILLEGAL_OP`: beside the request itself
nothing else is written, no frame and no event (rule R309). What the hidden registers hold after the end is log
entry 1. -/
def Obligations.IllegalWordReportsOnlyItsCode : Prop :=
  ∀ (s : State) (w : HostWord) (e : DecodeError) (rest : List Input),
    s.ctl.seq = .idle → s.env.due = [] → s.env.inbox = .issue (.word w) :: rest →
    decode (.word w) = .error e →
    ∃ t, step s = .next t ∧ t.ctl = finished 0x08 (accepted w s.ctl) ∧ t.bus = s.bus ∧ t.dev = s.dev
      ∧ t.cfg = s.cfg

/-- While `SEQ != IDLE` a request has no transition, whether or not its word decodes to an operation, nor has a
host write to `DATA` (rule R33; U15). -/
def Obligations.RequestNeedsIdle : Prop :=
  ∀ s : State, s.ctl.seq ≠ .idle →
    (∀ i : Instr, i.isHostOp = true → exec i s = .refused .hostWriteNotIdle) ∧
    (∀ (w : HostWord) (rest : List Input),
      s.env.inbox = .issue (.word w) :: rest ∨ s.env.inbox = .writeReg .cmd w :: rest →
      step s = .refused .hostWriteNotIdle) ∧
    (∀ (i : Fin 256) (v : BitVec 32) (rest : List Input), s.env.inbox = .writeReg (.data i) v :: rest →
      step s = .refused .hostWriteNotIdle)

/-- A halted controller takes no step: no instruction runs, every register keeps its value under every
move but a reset, and with no move due only the device may step (rule R313). -/
def Obligations.HaltedControllerKeepsItsRegisters : Prop :=
  ∀ s : State, s.ctl.seq = .halted →
    (∀ i : Instr, ∃ r, exec i s = .refused r) ∧
    (s.env.inbox = [] → ∃ t, step s = .next t ∧ t.ctl = s.ctl ∧ t.bus = s.bus ∧ t.cfg = s.cfg ∧
      t.dev = (deviceTurn s).dev) ∧
    (∀ r rest, s.env.inbox = .readReg r :: rest → ∃ t, step s = .next t ∧ hostRead r t.ctl = hostRead r s.ctl) ∧
    (∀ t, step s = .next t → (∀ rest, s.env.inbox ≠ .reset :: rest) → t.ctl = s.ctl)

/-- A host read between two steps has no effect: the step takes the move, the host sees the register's
current value, and nothing else changes; each register reads as its value (rules R22, R33), zero-extended
to one word (log entry 20). -/
def Obligations.HostReadHasNoEffect : Prop :=
  (∀ (s : State) (r : HostReg) (rest : List Input), s.env.inbox = .readReg r :: rest →
    step s = .next { s with env := { s.env with inbox := rest, seen := s.env.seen ++ [(r, hostRead r s.ctl)] } }) ∧
  ∀ c : Controller,
    hostRead .cmd c = c.cmd ∧ (hostRead .ctrlstat c).toNat = (ctrlstat c).toNat ∧
    (hostRead .result c).toNat = c.result.toNat ∧ (hostRead .cursor c).toNat = c.cursor.toNat ∧
    (hostRead .idreg c).toNat = c.idreg.toNat ∧ (hostRead .lastSr c).toNat = c.lastSr.toNat ∧
    (hostRead .checksum c).toNat = c.checksum.toNat ∧
    ∀ i : Fin 256, (hostRead (.data i) c).toNat = c.data[i].toNat

/-- The host writes one byte of `DATA` while `SEQ = IDLE`; every other byte and all other state is
unchanged (rule R31). That of a value above 0xFF the low byte is written is log entry 20. -/
def Obligations.HostWritesOneDataByte : Prop :=
  ∀ (s : State) (i : Fin 256) (v : BitVec 32) (rest : List Input),
    s.env.inbox = .writeReg (.data i) v :: rest → s.ctl.seq = .idle →
    ∃ t, step s = .next t ∧ t.ctl.data[i] = v.setWidth 8 ∧
      (∀ j : Fin 256, j ≠ i → t.ctl.data[j] = s.ctl.data[j]) ∧
      t = { s with env := { s.env with inbox := rest }, ctl := { s.ctl with data := t.ctl.data } }

/-- `CTRLSTAT` shows `SEQ` in bits 1:0, `WP`, `IDV` and `IDMM` in bits 4, 5 and 6, and 0 elsewhere; it
is 0 at reset, and a host write to it has no effect (rule R24). -/
def Obligations.CtrlstatShowsTheFlags : Prop :=
  (∀ c : Controller,
    ((ctrlstat c).extractLsb' 0 2 = match c.seq with | .idle => 0 | .exec => 1 | .halted => 2) ∧
    (ctrlstat c).extractLsb' 2 2 = 0 ∧ (ctrlstat c).getLsbD 4 = c.wp ∧
    (ctrlstat c).getLsbD 5 = c.idv ∧ (ctrlstat c).getLsbD 6 = c.idmm ∧ (ctrlstat c).getLsbD 7 = false) ∧
  ctrlstat Controller.reset = 0 ∧
  ∀ (s : State) (v : BitVec 32) (rest : List Input), s.env.inbox = .writeReg .ctrlstat v :: rest →
    step s = .next { s with env := { s.env with inbox := rest } }

/-! ### Status and ready-wait -/

/-- READ_STATUS: one `RDSR` frame, busy or not; `LAST_SR` shows the latch and the busy flag, or 0xFF with no
device; the result is `OK`; the device is as the frame found it (rule R181). What the hidden registers hold
after the end is log entry 1. -/
def Obligations.ReadStatusLatchesTheStatusByte : Prop :=
  ∀ s : State, s.ctl.seq = .idle → BusFree s →
    ∃ t sr, exec .readStatus s = .next t ∧
      (s.cfg.present = true →
        sr.getLsbD 0 = (deviceTurn s).dev.dbusy ∧ sr.getLsbD 1 = (deviceTurn s).dev.dwel) ∧
      (s.cfg.present = false → sr = 0xFF) ∧
      t.ctl = finished 0x00 { accepted 0x00000002 s.ctl with lastSr := sr } ∧
      t.dev = { (deviceTurn s).dev with fb := t.dev.fb } ∧
      t.bus.wire = s.bus.wire ++ [rdsrFrame] ∧ t.bus.cs = false ∧ t.cfg = s.cfg

/-- AWAIT_READY on a device that is ready at the first poll: exactly one `RDSR` frame, no event,
`LAST_SR[0] = 0`, result `OK` (rule R183). What the hidden registers hold after the end is log entry 1. -/
def Obligations.AwaitReadyReturnsWhenReady : Prop :=
  ∀ s : State, s.ctl.seq = .idle → BusFree s → ReadyNext s →
    ∃ t sr, exec .awaitReady s = .next t ∧
      sr.getLsbD 0 = false ∧ sr.getLsbD 1 = (deviceTurn s).dev.dwel ∧
      t.ctl = finished 0x00 { accepted 0x00000003 s.ctl with lastSr := sr } ∧
      t.dev = { (deviceTurn s).dev with fb := rdsrFrame } ∧
      t.bus.wire = s.bus.wire ++ [rdsrFrame] ∧ t.bus.cs = false ∧ t.cfg = s.cfg

/-- An operation that begins with a ready-wait, on a device that is absent or stays busy, makes one
status read and stays in progress at its poll; no event, no result, and nothing of the device
changes but its frame buffer (rules R182, R186). -/
def Obligations.ReadyWaitStaysInProgressWhileBusy : Prop :=
  ∀ (s : State) (i : Instr) (p : Poll), firstPoll i = some p →
    s.ctl.seq = .idle → BusFree s → BusyNext s →
    ∃ t, exec i s = .next t ∧ t.ctl.seq = .exec ∧ t.ctl.mpc = some (.poll p) ∧ t.ctl.lastSr.getLsbD 0 = true ∧
      t.ctl.log = s.ctl.log ∧ t.ctl.result = s.ctl.result ∧ t.ctl.cursor = s.ctl.cursor ∧
      t.ctl.wp = s.ctl.wp ∧ t.ctl.data = s.ctl.data ∧
      t.dev = { (deviceTurn s).dev with fb := t.dev.fb } ∧
      t.bus.wire = s.bus.wire ++ [rdsrFrame] ∧ t.bus.cs = false ∧ t.cfg = s.cfg

/-- A device that is busy at the start only delays an operation: it makes one status read, stays in
progress at its first ready-wait with `CURSOR`, `WP`, `DATA`, the events and the array as they were, and
the step that polls again is the operation itself, run from the state the wait left (rules R182, R246).
WRITE_DATA reaches its wait when its checks have passed. -/
def Obligations.BusyStartOnlyDelaysTheOperation : Prop :=
  ∀ (s : State) (i : Instr) (p : Poll),
    (firstPoll i = some p ∨ ∃ len, i = .writeData len ∧ p = .writeGate ∧ len ≠ 0 ∧
      s.ctl.cursor.toNat + len.toNat ≤ endAddr s.cfg + 1 ∧ s.ctl.cursor.toNat % 256 + len.toNat ≤ 256) →
    s.ctl.seq = .idle → BusFree s → s.env.inbox = [] → BusyNext s →
    ∃ t, exec i s = .next t ∧ t.ctl.seq = .exec ∧ t.ctl.mpc = some (.poll p) ∧ t.ctl.result = s.ctl.result ∧
      t.ctl.cursor = s.ctl.cursor ∧ t.ctl.wp = s.ctl.wp ∧ t.ctl.data = s.ctl.data ∧ t.ctl.log = s.ctl.log ∧
      t.dev = { (deviceTurn s).dev with fb := t.dev.fb } ∧ BusFree t ∧
      t.bus.wire = s.bus.wire ++ [rdsrFrame] ∧
      step t = exec i { t with ctl := { t.ctl with seq := .idle } }

/-- On a device that is absent, or busy, not fair and never completing, a ready-wait never ends: after any
number of steps `SEQ` is still `EXEC` at the same poll, with no result, for an operation that begins with
a wait and for any operation that stands at a wait it may go on from (rule R186). -/
def Obligations.NeverReadyDeviceHangsTheReadyWait : Prop :=
  (∀ (s : State) (i : Instr) (p : Poll) (n : Nat), firstPoll i = some p →
    s.ctl.seq = .idle → BusFree s → s.env.inbox = [] →
    (s.cfg.present = false ∨ s.cfg.fair = false ∧ s.dev.dbusy = true ∧ s.env.turns = []) →
    ∃ t u, exec i s = .next t ∧ Host.Core.run Sys2Proof.core n t = .next u ∧ u.ctl.seq = .exec ∧
      u.ctl.mpc = some (.poll p) ∧ u.ctl.result = s.ctl.result) ∧
  (∀ (s : State) (p : Poll) (n : Nat), s.ctl.seq = .exec → s.ctl.mpc = some (.poll p) →
    PollInv s.cfg s.ctl s.dev p → BusFree s → s.env.inbox = [] →
    (s.cfg.present = false ∨ s.cfg.fair = false ∧ s.dev.dbusy = true ∧ s.env.turns = []) →
    ∃ u, Host.Core.run Sys2Proof.core n s = .next u ∧ u.ctl.seq = .exec ∧
      u.ctl.mpc = some (.poll p) ∧ u.ctl.result = s.ctl.result)

/-- With a present and fair device, the ready-wait an operation stands at, whichever operation and
whichever of its waits, ends after finitely many polls, and the operation with it: `SEQ = IDLE` after at
most one step more than the opportunities the environment may still let pass, also for an operation that
waits again later on (rule R187; the bound is the schedule's of log entry 4). AWAIT_READY then has its
result: `OK`, with the last status read not busy. -/
def Obligations.FairDeviceEndsTheReadyWait : Prop :=
  ∀ (s : State) (p : Poll), s.ctl.seq = .exec → s.ctl.mpc = some (.poll p) → PollInv s.cfg s.ctl s.dev p →
    BusFree s → s.env.inbox = [] → s.cfg.present = true → s.cfg.fair = true →
    ∃ n t, 1 ≤ n ∧ n ≤ s.env.turns.length + 1 ∧
      Host.Core.run Sys2Proof.core n s = .next t ∧ t.ctl.seq = .idle ∧
      (p = .awaitPoll → t.ctl.result = 0x00 ∧ t.ctl.lastSr.getLsbD 0 = false ∧ t.dev.dbusy = false)

/-! ### Write-enable gate -/

/-- WRITE_ENABLE on a ready device: `RDSR`, `WREN`, `RDSR`. If the latch is then seen the result is `OK` and
`WP` is unchanged; if not it is `ERR_WEL`, `WP` is cleared and one `WEL_FAIL` is logged (rule R198). What the
hidden registers hold after the end is log entry 1. -/
def Obligations.WriteEnableReportsTheLatch : Prop :=
  ∀ s : State, s.ctl.seq = .idle → BusFree s → ReadyNext s →
    ∃ t sr, exec .writeEnable s = .next t ∧
      sr.getLsbD 0 = false ∧ sr.getLsbD 1 = latchAfterWren s.cfg (deviceTurn s).dev ∧
      t.ctl = (if latchAfterWren s.cfg (deviceTurn s).dev = true then
          finished 0x00 { accepted 0x00000004 s.ctl with lastSr := sr, ok := true }
        else
          finished 0x02 { accepted 0x00000004 s.ctl with
            lastSr := sr, ok := false, wp := false, log := s.ctl.log ++ [.welFail] }) ∧
      t.dev = { (deviceTurn s).dev with dwel := latchAfterWren s.cfg (deviceTurn s).dev, fb := rdsrFrame } ∧
      t.bus.wire = s.bus.wire ++ [rdsrFrame, wrenFrame, rdsrFrame] ∧ t.bus.cs = false ∧ t.cfg = s.cfg

/-- Two WRITE_ENABLE in a row on a present, ready device that does not refuse write-enable both report
`OK` and leave the latch set (rule R200). -/
def Obligations.WriteEnableTwiceKeepsTheLatch : Prop :=
  ∀ s : State, s.ctl.seq = .idle → BusFree s → ReadyNext s → s.cfg.wrenReject = false →
    ∃ t u, exec .writeEnable s = .next t ∧ exec .writeEnable t = .next u ∧
      t.ctl.result = 0x00 ∧ t.dev.dwel = true ∧ u.ctl.result = 0x00 ∧ u.dev.dwel = true

/-! ### Chip erase -/

/-- CHIP_ERASE on a ready device whose latch takes and which completes the erase before the next poll: `OK`,
every byte of the array 0xFF, not busy, latch clear, `CURSOR` and `WP` unchanged (rules R211, R213, R215). What
the hidden registers hold after the end is log entry 1. -/
def Obligations.ChipEraseErasesTheArray : Prop :=
  ∀ s : State, s.ctl.seq = .idle → BusFree s → ReadyNext s →
    latchAfterWren s.cfg (deviceTurn s).dev = true → turnTaken (deviceTurn s) = true →
    ∃ t sr, exec .chipErase s = .next t ∧
      sr.getLsbD 0 = false ∧ sr.getLsbD 1 = false ∧
      t.ctl = finished 0x00 { accepted 0x00000005 s.ctl with lastSr := sr, ok := true } ∧
      (∀ a, a ≤ endAddr s.cfg → readByte t.dev.dmem a = 0xFF) ∧ memWf t.dev.dmem = true ∧
      t.dev.dbusy = false ∧ t.dev.dwel = false ∧ t.dev.dpend = .none ∧
      t.bus.wire = s.bus.wire ++ [rdsrFrame, wrenFrame, rdsrFrame, ceFrame, rdsrFrame] ∧
      t.bus.cs = false ∧ t.cfg = s.cfg

/-- CHIP_ERASE on a ready device whose latch takes and which is still erasing at the poll after `CE`: the
operation stays in progress, the erase is pending, and one `ERASE_PROGRESS` is logged. Each later step of that
wait, with the host waiting or not, makes one more poll: busy, exactly one more event, and the operation stays
where it is; ready, it ends with no event, with `OK` if the gate saw the latch and with `ERR_WEL` if not (rules
R211, R212, R214, R217). What the hidden registers hold after the end is log entry 1. -/
def Obligations.ChipEraseReportsProgressWhileBusy : Prop :=
  (∀ s : State, s.ctl.seq = .idle → BusFree s → ReadyNext s →
    latchAfterWren s.cfg (deviceTurn s).dev = true → turnTaken (deviceTurn s) = false →
    ∃ t sr, exec .chipErase s = .next t ∧
      sr.getLsbD 0 = true ∧ sr.getLsbD 1 = true ∧
      t.ctl = { accepted 0x00000005 s.ctl with
        lastSr := sr, ok := true, mpc := some (.poll .eraseWait), log := s.ctl.log ++ [.eraseProgress] } ∧
      t.dev = { (deviceTurn s).dev with dbusy := true, dwel := true, dpend := .erase, fb := rdsrFrame } ∧
      t.bus.wire = s.bus.wire ++ [rdsrFrame, wrenFrame, rdsrFrame, ceFrame, rdsrFrame] ∧ t.cfg = s.cfg) ∧
  ∀ s : State, s.ctl.seq = .exec → s.ctl.mpc = some (.poll .eraseWait) → BusFree s →
    (s.env.inbox = [] ∨ ∃ rest, s.env.inbox = .wait :: rest) →
    (BusyNext s → ∃ t sr, step s = .next t ∧ sr.getLsbD 0 = true ∧
      t.ctl = { s.ctl with lastSr := sr, log := s.ctl.log ++ [.eraseProgress] } ∧
      t.dev = { (deviceTurn s).dev with fb := t.dev.fb } ∧ t.bus.wire = s.bus.wire ++ [rdsrFrame] ∧
      t.bus.cs = false ∧ t.cfg = s.cfg ∧ t.env.inbox = s.env.inbox) ∧
    (ReadyNext s → ∃ t sr, step s = .next t ∧ sr.getLsbD 0 = false ∧ sr.getLsbD 1 = (deviceTurn s).dev.dwel ∧
      t.ctl = finished (if s.ctl.ok = true then 0x00 else 0x02) { s.ctl with lastSr := sr } ∧
      t.dev = { (deviceTurn s).dev with fb := rdsrFrame } ∧ t.bus.wire = s.bus.wire ++ [rdsrFrame] ∧
      t.bus.cs = false ∧ t.cfg = s.cfg ∧ t.env.inbox = s.env.inbox)

/-- CHIP_ERASE whose gate fails: with `P_ERASE_ABORT` no `CE` frame is sent; without it the frame is sent and
ignored. Either way the result is `ERR_WEL`, `WP` is cleared, `WEL_FAIL` is logged and the array is unchanged
(rules R211, R214, R303). What the hidden registers hold after the end is log entry 1. -/
def Obligations.ChipEraseAfterFailedGate : Prop :=
  ∀ s : State, s.ctl.seq = .idle → BusFree s → ReadyNext s →
    latchAfterWren s.cfg (deviceTurn s).dev = false →
    ∃ t sr, exec .chipErase s = .next t ∧
      sr.getLsbD 0 = false ∧ sr.getLsbD 1 = false ∧
      t.ctl = finished 0x02 { accepted 0x00000005 s.ctl with
        lastSr := sr, ok := false, wp := false, log := s.ctl.log ++ [.welFail] } ∧
      t.dev = { (deviceTurn s).dev with fb := rdsrFrame } ∧
      t.bus.wire = s.bus.wire ++ (if s.cfg.eraseAbort = true then [rdsrFrame, wrenFrame, rdsrFrame]
        else [rdsrFrame, wrenFrame, rdsrFrame, ceFrame, rdsrFrame]) ∧ t.cfg = s.cfg

/-- When CHIP_ERASE finishes with `OK`, at once or from one of its ready-waits, the whole array reads
0xFF and the device is idle with its latch clear (rule R213). -/
def Obligations.FinishedEraseLeavesTheArrayErased : Prop :=
  ∀ s t : State, Inv s → BusFree s →
    (exec .chipErase s = .next t ∨
      s.ctl.seq = .exec ∧ (s.ctl.mpc = some (.poll .eraseGate) ∨ s.ctl.mpc = some (.poll .eraseWait)) ∧
      (s.env.inbox = [] ∨ ∃ rest, s.env.inbox = .wait :: rest) ∧ step s = .next t) →
    t.ctl.seq = .idle → t.ctl.result = 0x00 →
    (∀ a, a ≤ endAddr t.cfg → readByte t.dev.dmem a = 0xFF) ∧ t.dev.dbusy = false ∧ t.dev.dwel = false

/-! ### Scan -/

/-- SCAN with a first run of 16 erased bytes that ends at `e`: `OK`, `WP` set, `CURSOR` the smallest
16-byte-aligned address at or above the run's first byte `e - 15`, exactly `e + 1` data bytes streamed, the
array unchanged (rules R229, R231). That the hidden `RUN` and `ADDR` keep these values after the end, and the
other hidden registers theirs, is log entry 1. -/
def Obligations.ScanFindsTheFirstErasedRun : Prop :=
  ∀ (s : State) (e : Nat), s.ctl.seq = .idle → BusFree s → ReadyNext s →
    FirstRunEndsAt s.cfg (deviceTurn s).dev.dmem e →
    ∃ t sr, exec .scan s = .next t ∧
      sr.getLsbD 0 = false ∧ sr.getLsbD 1 = (deviceTurn s).dev.dwel ∧
      t.ctl.cursor.toNat % 16 = 0 ∧ e - 15 ≤ t.ctl.cursor.toNat ∧ t.ctl.cursor.toNat < e - 15 + 16 ∧
      t.ctl = finished 0x00 { accepted 0x00000006 s.ctl with
        lastSr := sr, wp := true, cursor := t.ctl.cursor, run := 16, addr := cursorOf e } ∧
      t.dev = { (deviceTurn s).dev with fb := readFrame 0 (e + 1), daddr := cursorOf (e + 1) } ∧
      t.bus.wire = s.bus.wire ++ [rdsrFrame, readFrame 0 (e + 1)] ∧ t.bus.cs = false ∧ t.cfg = s.cfg

/-- SCAN with no run of 16 erased bytes: `ERR_SCAN_EXHAUSTED`, `NO_REGION` logged, `WP` cleared, `CURSOR`
unchanged, all `SIZE` bytes streamed (rules R230, R231). That the hidden `ADDR` keeps this value after the end,
and the other hidden registers theirs, is log entry 1. -/
def Obligations.ScanExhaustionDisablesWrites : Prop :=
  ∀ s : State, s.ctl.seq = .idle → BusFree s → ReadyNext s →
    NoRun s.cfg (deviceTurn s).dev.dmem →
    ∃ t sr, exec .scan s = .next t ∧
      sr.getLsbD 0 = false ∧ sr.getLsbD 1 = (deviceTurn s).dev.dwel ∧
      t.ctl = finished 0x06 { accepted 0x00000006 s.ctl with
        lastSr := sr, wp := false, log := s.ctl.log ++ [.noRegion],
        run := t.ctl.run, addr := cursorOf (size s.cfg) } ∧
      t.dev = { (deviceTurn s).dev with fb := readFrame 0 (size s.cfg), daddr := cursorOf (size s.cfg) } ∧
      t.bus.wire = s.bus.wire ++ [rdsrFrame, readFrame 0 (size s.cfg)] ∧ t.bus.cs = false ∧ t.cfg = s.cfg

/-! ### Page program -/

/-- The checks of WRITE_DATA in their order, before any bus traffic: a zero length, then capacity, which halts,
then the page boundary. No frame is sent and the bus, the device, `CURSOR`, `WP` and `DATA` are unchanged (rules
R247, R248, R252 to R254). What the hidden registers hold after the end is log entry 1. -/
def Obligations.WriteChecksComeBeforeTheBus : Prop :=
  ∀ (s : State) (len : LenWord), s.ctl.seq = .idle → s.env.due = [] →
    (len = 0 ∨ s.ctl.cursor.toNat + len.toNat > endAddr s.cfg + 1 ∨
      s.ctl.cursor.toNat % 256 + len.toNat > 256) →
    ∃ t, exec (.writeData len) s = .next t ∧
      t.ctl =
        (if len = 0 then finished 0x07 (accepted (hostWord 0x07 len) s.ctl)
        else if s.ctl.cursor.toNat + len.toNat > endAddr s.cfg + 1 then
          haltedWith 0x05 { accepted (hostWord 0x07 len) s.ctl with
            log := s.ctl.log ++ [.capacityExhausted] }
        else finished 0x04 { accepted (hostWord 0x07 len) s.ctl with
          log := s.ctl.log ++ [.pageBoundary] }) ∧
      t.bus = s.bus ∧ t.dev = s.dev ∧ t.cfg = s.cfg

/-- WRITE_DATA that passes its checks, its gate and `WP` on a ready device: `OK`, the program of `DATA[0..L-1]`
at `CURSOR` is pending in the device, the array is not yet changed, `CURSOR` has advanced by `L` (rules R246,
R250, R251). What the hidden registers hold after the end is log entry 1. -/
def Obligations.WriteDataStartsTheProgram : Prop :=
  ∀ (s : State) (len : LenWord), s.ctl.seq = .idle → BusFree s → ReadyNext s →
    len ≠ 0 → s.ctl.cursor.toNat + len.toNat ≤ endAddr s.cfg + 1 →
    s.ctl.cursor.toNat % 256 + len.toNat ≤ 256 →
    s.ctl.wp = true → latchAfterWren s.cfg (deviceTurn s).dev = true →
    ∃ t sr, exec (.writeData len) s = .next t ∧
      sr.getLsbD 0 = false ∧ sr.getLsbD 1 = true ∧
      t.ctl.cursor.toNat = s.ctl.cursor.toNat + len.toNat ∧
      t.ctl = finished 0x00 { accepted (hostWord 0x07 len) s.ctl with
        lastSr := sr, ok := true, cursor := t.ctl.cursor } ∧
      t.dev = { (deviceTurn s).dev with
        dwel := true, dbusy := true
        dpend := .prog (s.ctl.cursor.setWidth 24) (s.ctl.data.toList.take len.toNat)
        fb := ppFrame (s.ctl.cursor.setWidth 24) (s.ctl.data.toList.take len.toNat) } ∧
      t.bus.wire = s.bus.wire ++ [rdsrFrame, wrenFrame, rdsrFrame, rdsrFrame,
        ppFrame (s.ctl.cursor.setWidth 24) (s.ctl.data.toList.take len.toNat)] ∧
      t.bus.cs = false ∧ t.cfg = s.cfg

/-- WRITE_DATA that passes its checks but not its gate, or finds `WP = 0` after it: `ERR_WEL` with `WEL_FAIL`
and `WP` cleared, or `ERR_NOT_PERMITTED` with no event; no `PP` frame, `CURSOR` unchanged (rule R249). What the
hidden registers hold after the end is log entry 1. -/
def Obligations.WriteWithoutPermissionIsSkipped : Prop :=
  ∀ (s : State) (len : LenWord), s.ctl.seq = .idle → BusFree s → ReadyNext s →
    len ≠ 0 → s.ctl.cursor.toNat + len.toNat ≤ endAddr s.cfg + 1 →
    s.ctl.cursor.toNat % 256 + len.toNat ≤ 256 →
    (s.ctl.wp = false ∨ latchAfterWren s.cfg (deviceTurn s).dev = false) →
    ∃ t sr, exec (.writeData len) s = .next t ∧
      sr.getLsbD 0 = false ∧ sr.getLsbD 1 = latchAfterWren s.cfg (deviceTurn s).dev ∧
      t.ctl = (if latchAfterWren s.cfg (deviceTurn s).dev = true then
          finished 0x03 { accepted (hostWord 0x07 len) s.ctl with lastSr := sr, ok := true }
        else
          finished 0x02 { accepted (hostWord 0x07 len) s.ctl with
            lastSr := sr, ok := false, wp := false, log := s.ctl.log ++ [.welFail] }) ∧
      t.dev = { (deviceTurn s).dev with dwel := latchAfterWren s.cfg (deviceTurn s).dev, fb := rdsrFrame } ∧
      t.bus.wire = s.bus.wire ++ [rdsrFrame, wrenFrame, rdsrFrame] ∧ t.bus.cs = false ∧ t.cfg = s.cfg

/-! ### Identity and dump -/

/-- READ_ID on a device that is absent or not busy: `IDREG`, `IDV`, the `ID_READ` event, and by the comparison
with the expected pair `IDMM = 0` and `OK`, or `IDMM = 1`, `ID_MISMATCH` and the warning (rules R145, R271). An
absent device reads as 0xFF twice. What the hidden registers hold after the end is log entry 1. -/
def Obligations.ReadIdReportsTheIdentity : Prop :=
  ∀ (s : State) (m d : Byte), s.ctl.seq = .idle → BusFree s →
    (s.cfg.present = true ∧ (deviceTurn s).dev.dbusy = false ∧ m = s.cfg.devMfr ∧ d = s.cfg.devDev ∨
      s.cfg.present = false ∧ m = 0xFF ∧ d = 0xFF) →
    ∃ t, exec .readId s = .next t ∧
      t.ctl.idreg.extractLsb' 0 8 = m ∧ t.ctl.idreg.extractLsb' 8 8 = d ∧
      t.ctl = (if m = s.cfg.expMfr ∧ d = s.cfg.expDev then
          finished 0x00 { accepted 0x00000001 s.ctl with
            idreg := t.ctl.idreg, idv := true, idmm := false, log := s.ctl.log ++ [.idRead m d] }
        else
          finished 0x01 { accepted 0x00000001 s.ctl with
            idreg := t.ctl.idreg, idv := true, idmm := true
            log := s.ctl.log ++ [.idRead m d, .idMismatch m d] }) ∧
      t.dev = { (deviceTurn s).dev with fb := t.dev.fb } ∧
      t.bus.wire = s.bus.wire ++ [rdidFrame] ∧ t.bus.cs = false ∧ t.cfg = s.cfg

/-- READ_ID on a busy device does not wait: the frame is refused, the device is unchanged, the two bytes are
draws, and whatever they are the operation ends with `OK` or the warning (rules R273, R361). What the hidden
registers hold after the end is log entry 1. -/
def Obligations.ReadIdOnBusyDeviceEndsAnyway : Prop :=
  ∀ s : State, s.ctl.seq = .idle → BusFree s → s.cfg.present = true → (deviceTurn s).dev.dbusy = true →
    ∃ t m d, exec .readId s = .next t ∧
      m = Config.freeByte (s.env.drawCount + 4) ∧ d = Config.freeByte (s.env.drawCount + 5) ∧
      t.ctl = (if m = s.cfg.expMfr ∧ d = s.cfg.expDev then
          finished 0x00 { accepted 0x00000001 s.ctl with
            idreg := d ++ m, idv := true, idmm := false, log := s.ctl.log ++ [.idRead m d] }
        else
          finished 0x01 { accepted 0x00000001 s.ctl with
            idreg := d ++ m, idv := true, idmm := true
            log := s.ctl.log ++ [.idRead m d, .idMismatch m d] }) ∧
      t.dev = { (deviceTurn s).dev with fb := rdidFrame } ∧ t.bus.wire = s.bus.wire ++ [rdidFrame]

/-- DUMP_ALL on a ready device: every byte of the array once, in ascending order, in rows of 16; one `READ`
frame of 256 data bytes a page after one status read; the checksum is the negated sum; the device's array and
flags are unchanged (rules R282 to R284). What the hidden registers hold after the end is log entry 1. -/
def Obligations.DumpAllReportsEveryByteAndTheChecksum : Prop :=
  ∀ s : State, s.ctl.seq = .idle → BusFree s → ReadyNext s →
    ∃ t, exec .dumpAll s = .next t ∧
      t.ctl.checksum.toNat = (256 - byteSum (deviceTurn s).dev.dmem 0 (size s.cfg) % 256) % 256 ∧
      (byteSum (deviceTurn s).dev.dmem 0 (size s.cfg) + t.ctl.checksum.toNat) % 256 = 0 ∧
      t.ctl = finished 0x00 { accepted 0x00000008 s.ctl with
        checksum := t.ctl.checksum, lastSr := t.ctl.lastSr, addr := t.ctl.addr, sum := t.ctl.sum
        pidx := t.ctl.pidx
        log := s.ctl.log ++ dumpEvents (deviceTurn s).dev.dmem 0 (size s.cfg)
          ++ [.dumpChecksum t.ctl.checksum] } ∧
      t.ctl.lastSr.getLsbD 0 = false ∧
      t.dev = { (deviceTurn s).dev with fb := t.dev.fb, daddr := t.dev.daddr } ∧
      t.bus.wire = s.bus.wire ++ (List.range (npages s.cfg)).flatMap
        (fun p => [rdsrFrame, readFrame (BitVec.ofNat 24 (256 * p)) 256]) ∧
      t.bus.cs = false ∧ t.cfg = s.cfg

/-- If every byte is 0xFF the sum is `255 * SIZE`, which is 0 mod 256, and DUMP_ALL's checksum is 0
(rule R287). -/
def Obligations.ErasedArrayHasChecksumZero : Prop :=
  ∀ s : State, s.ctl.seq = .idle → BusFree s → ReadyNext s →
    (∀ a, a ≤ endAddr s.cfg → readByte (deviceTurn s).dev.dmem a = 0xFF) →
    byteSum (deviceTurn s).dev.dmem 0 (size s.cfg) = 255 * size s.cfg ∧
    255 * size s.cfg % 256 = 0 ∧
    ∃ t, exec .dumpAll s = .next t ∧ t.ctl.checksum = 0x00

/-! ### Frames -/

/-- RDID on a device that is not busy: draws, then the manufacturer and device bytes at positions 4 and
5; no controller register and nothing of the device but its frame buffer changes (rules R145,
R146). -/
def Obligations.RdidReturnsTheIdentityPair : Prop :=
  ∀ s : State, s.ctl.seq ≠ .halted → BusFree s → s.cfg.present = true → s.dev.dbusy = false →
    ∃ t, exec .rdid s = .next t ∧ t.bus.mosi = [0x90, 0x00, 0x00, 0x00, 0x00, 0x00] ∧
      t.bus.miso = (List.range' s.env.drawCount 4).map (fun j => .byte (Config.freeByte j))
        ++ [.byte s.cfg.devMfr, .byte s.cfg.devDev] ∧
      t.ctl = s.ctl ∧ t.dev = { s.dev with fb := rdidFrame } ∧
      t.bus.wire = s.bus.wire ++ [rdidFrame] ∧ t.bus.cs = false ∧ t.cfg = s.cfg

/-- WREN sets the latch, and keeps a latch that is set, unless the device rejects it or is busy and
refuses the frame, when the latch keeps its value (rule R147). -/
def Obligations.WrenSetsTheLatch : Prop :=
  ∀ s : State, s.ctl.seq ≠ .halted → BusFree s → s.cfg.present = true →
    ∃ t, exec .wren s = .next t ∧ t.bus.mosi = [0x06] ∧
      t.ctl = s.ctl ∧ t.dev = { (deviceTurn s).dev with fb := wrenFrame, dwel := t.dev.dwel } ∧
      t.dev.dwel = (if s.cfg.wrenReject = true ∨ (deviceTurn s).dev.dbusy = true then
        (deviceTurn s).dev.dwel else true) ∧
      t.bus.wire = s.bus.wire ++ [wrenFrame] ∧ t.bus.cs = false ∧ t.cfg = s.cfg

/-- RDSR is never refused: bits 1:0 of the byte show the latch and the busy flag, `LAST_SR` takes it,
and nothing of the device but its frame buffer changes (rules R148, R180). -/
def Obligations.RdsrShowsLatchAndBusy : Prop :=
  ∀ s : State, s.ctl.seq ≠ .halted → BusFree s → s.cfg.present = true →
    ∃ t r, exec .rdsr s = .next t ∧ t.bus.mosi = [0x05, 0x00] ∧ t.bus.miso[1]? = some r ∧
      r.toByte.getLsbD 0 = (deviceTurn s).dev.dbusy ∧ r.toByte.getLsbD 1 = (deviceTurn s).dev.dwel ∧
      t.ctl = { s.ctl with lastSr := r.toByte } ∧ t.dev = { (deviceTurn s).dev with fb := rdsrFrame } ∧
      t.bus.wire = s.bus.wire ++ [rdsrFrame] ∧ t.bus.cs = false ∧ t.cfg = s.cfg

/-- CE on a device that is not busy: with the latch set the erase is pending and the device busy, the
latch and the array as before; with the latch clear the frame is ignored (rule R150). -/
def Obligations.CeStartsAnEraseOnlyWithTheLatch : Prop :=
  ∀ s : State, s.ctl.seq ≠ .halted → BusFree s → s.cfg.present = true → s.dev.dbusy = false →
    ∃ t, exec .ce s = .next t ∧ t.bus.mosi = [0xC7] ∧ t.ctl = s.ctl ∧
      t.dev = (if s.dev.dwel = true then { s.dev with fb := ceFrame, dbusy := true, dpend := .erase }
        else { s.dev with fb := ceFrame }) ∧
      t.bus.wire = s.bus.wire ++ [ceFrame] ∧ t.bus.cs = false ∧ t.cfg = s.cfg

/-- READ of `n` bytes within the array on a device that is not busy returns the bytes of the array in
ascending order from position 4 on, and changes no array, flag or controller register (rules R151,
R152). -/
def Obligations.ReadStreamsTheArray : Prop :=
  ∀ (s : State) (a : FlashAddr) (n : Nat), s.ctl.seq ≠ .halted → BusFree s → s.cfg.present = true →
    s.dev.dbusy = false → 1 ≤ n → a.toNat + n ≤ endAddr s.cfg + 1 →
    ∃ t, exec (.read a n) s = .next t ∧
      t.bus.mosi = [0x03, a.extractLsb' 16 8, a.extractLsb' 8 8, a.extractLsb' 0 8] ++ List.replicate n 0x00 ∧
      t.bus.miso.length = 4 + n ∧
      (∀ k, k < n → t.bus.miso[4 + k]? = some (.byte (readByte s.dev.dmem (a.toNat + k)))) ∧
      t.ctl = s.ctl ∧ t.dev = { s.dev with fb := readFrame a n, daddr := cursorOf (a.toNat + n) } ∧
      t.bus.wire = s.bus.wire ++ [readFrame a n] ∧ t.bus.cs = false ∧ t.cfg = s.cfg

/-- READ on a device that is not busy faults when it passes `END_ADDR` (rule R152; U4). -/
def Obligations.ReadPastTheEndFaults : Prop :=
  ∀ (s : State) (a : FlashAddr) (n : Nat), s.ctl.seq ≠ .halted → BusFree s → s.cfg.present = true →
    s.dev.dbusy = false → 1 ≤ n → a.toNat + n > endAddr s.cfg + 1 →
    exec (.read a n) s = .fault .deviceUnmodelled

/-- PP with a legal range on a device that is not busy: with the latch set the program is pending and
the device busy, the array as before; with the latch clear the frame is ignored (rule R156). -/
def Obligations.PpStartsAProgramOnlyWithTheLatch : Prop :=
  ∀ (s : State) (a : FlashAddr) (bytes : List Byte), s.ctl.seq ≠ .halted → BusFree s →
    s.cfg.present = true → s.dev.dbusy = false → bytes ≠ [] → bytes.length ≤ 256 →
    a.toNat % 256 + bytes.length ≤ 256 → a.toNat + bytes.length - 1 ≤ endAddr s.cfg →
    ∃ t, exec (.pp a bytes) s = .next t ∧
      t.bus.mosi = [0x02, a.extractLsb' 16 8, a.extractLsb' 8 8, a.extractLsb' 0 8] ++ bytes ∧
      t.ctl = s.ctl ∧
      t.dev = (if s.dev.dwel = true then
          { s.dev with fb := ppFrame a bytes, dbusy := true, dpend := .prog a bytes }
        else { s.dev with fb := ppFrame a bytes }) ∧
      t.bus.wire = s.bus.wire ++ [ppFrame a bytes] ∧ t.bus.cs = false ∧ t.cfg = s.cfg

/-- PP that crosses its page, carries more than 256 bytes or passes `END_ADDR`, accepted by an idle
device with its latch set, is the fault `DEVICE_UNMODELLED` (rules R156, R157; U5). -/
def Obligations.IllegalProgramFaults : Prop :=
  ∀ (s : State) (a : FlashAddr) (bytes : List Byte), s.ctl.seq ≠ .halted → BusFree s →
    s.cfg.present = true → s.dev.dbusy = false → s.dev.dwel = true → bytes ≠ [] →
    (bytes.length > 256 ∨ a.toNat % 256 + bytes.length > 256 ∨ a.toNat + bytes.length - 1 > endAddr s.cfg) →
    exec (.pp a bytes) s = .fault .deviceUnmodelled

/-- A busy device refuses every frame but one that opens with 0x05, an instruction or not: every byte it
returns is a draw, nothing of it but its frame buffer changes, and its operation in progress goes on (rule
R142). The frame writes no controller register either, which is the model's reading (log entry 13).
Frames that open with 0x05 are in `RdsrShowsLatchAndBusy` and `UndecodedFrameHasNoEffect`. -/
def Obligations.BusyDeviceRefusesFrames : Prop :=
  (∀ (s : State) (i : Instr) (bytes : List Byte), encode i = .frame bytes → i ≠ .rdsr →
    s.ctl.seq ≠ .halted → BusFree s → s.cfg.present = true → (deviceTurn s).dev.dbusy = true →
    ∃ t, exec i s = .next t ∧ t.ctl = s.ctl ∧ t.dev = { (deviceTurn s).dev with fb := bytes } ∧
      t.bus.miso = (List.range' s.env.drawCount bytes.length).map (fun j => .byte (Config.freeByte j)) ∧
      t.bus.mosi = bytes ∧ t.bus.wire = s.bus.wire ++ [bytes] ∧ t.bus.cs = false ∧ t.cfg = s.cfg) ∧
  (∀ (s : State) (c : Byte) (bytes : List Byte) (rest : List Input), c ≠ 0x05 → s.ctl.seq = .idle →
    s.env.inbox = .issue (.frame (c :: bytes)) :: rest → BusFree s → s.cfg.present = true →
    (deviceTurn s).dev.dbusy = true →
    ∃ t, step s = .next t ∧ t.ctl = s.ctl ∧ t.dev = { (deviceTurn s).dev with fb := c :: bytes } ∧
      t.bus.miso = (List.range' s.env.drawCount (bytes.length + 1)).map (fun j => .byte (Config.freeByte j)) ∧
      t.bus.mosi = c :: bytes ∧ t.bus.wire = s.bus.wire ++ [c :: bytes] ∧ t.bus.cs = false ∧ t.cfg = s.cfg)

/-- With no device every exchanged byte comes back 0xFF and no frame, an instruction or not, changes any
device state (rule R128). That `LAST_SR` takes the 0xFF of an RDSR frame driven by itself, and not that
of another frame that opens with 0x05, is the model's reading (log entry 13); so is that the state kept
for an absent device may complete a pending operation, which `deviceTurn` says (log entry 12). -/
def Obligations.AbsentDeviceReturnsAllOnes : Prop :=
  (∀ (s : State) (i : Instr) (bytes : List Byte), encode i = .frame bytes →
    s.ctl.seq ≠ .halted → BusFree s → s.cfg.present = false →
    ∃ t, exec i s = .next t ∧ t.bus.miso = List.replicate bytes.length (.byte 0xFF) ∧
      t.bus.mosi = bytes ∧ t.dev = (deviceTurn s).dev ∧
      t.ctl = (if i = .rdsr then { s.ctl with lastSr := 0xFF } else s.ctl) ∧
      t.bus.wire = s.bus.wire ++ [bytes] ∧ t.bus.cs = false ∧ t.cfg = s.cfg) ∧
  (∀ (s : State) (bytes : List Byte) (e : DecodeError) (rest : List Input), s.ctl.seq = .idle →
    s.env.inbox = .issue (.frame bytes) :: rest → decode (.frame bytes) = .error e → BusFree s →
    s.cfg.present = false →
    ∃ t, step s = .next t ∧ t.bus.miso = List.replicate bytes.length (.byte 0xFF) ∧ t.bus.mosi = bytes ∧
      t.dev = (deviceTurn s).dev ∧ t.ctl = s.ctl ∧ t.bus.wire = s.bus.wire ++ [bytes] ∧ t.bus.cs = false ∧
      t.cfg = s.cfg)

/-- A frame that decodes to no instruction takes no effect: it is unknown, or cut short, or too long for
its command, and on a busy device it is refused or is a status read of another length. Nothing of the
device but its frame buffer and its read address changes beyond the completion that may come just before
(rules R105, R142, R143, R161). No controller register changes either; that `LAST_SR` is left alone by
such a frame that opens with 0x05 is the model's reading of rule R29 (log entry 13). -/
def Obligations.UndecodedFrameHasNoEffect : Prop :=
  ∀ (s t : State) (bytes : List Byte) (e : DecodeError) (rest : List Input), s.ctl.seq = .idle →
    s.env.inbox = .issue (.frame bytes) :: rest → decode (.frame bytes) = .error e → BusFree s →
    step s = .next t →
    t.ctl = s.ctl ∧ t.dev = { (deviceTurn s).dev with fb := t.dev.fb, daddr := t.dev.daddr } ∧
      t.bus.wire = s.bus.wire ++ [bytes] ∧ t.bus.cs = false ∧ t.cfg = s.cfg

/-! ### The device's spontaneous step, and reset -/

/-- The completion of a page program ANDs the data into its bytes, leaves every other byte, and clears
busy, pending and latch; the controller and the bus do not change (rules R159, R162). -/
def Obligations.CompletedProgramClearsBits : Prop :=
  ∀ (s : State) (rest : List Input) (a : FlashAddr) (bytes : List Byte),
    s.env.inbox = .deviceDone :: rest → s.dev.dbusy = true → s.dev.dpend = .prog a bytes →
    memWf s.dev.dmem = true →
    ∃ t, step s = .next t ∧
      (∀ b, readByte t.dev.dmem b =
        if h : a.toNat ≤ b ∧ b - a.toNat < bytes.length then
          readByte s.dev.dmem b &&& bytes[b - a.toNat]'h.2
        else readByte s.dev.dmem b) ∧
      memWf t.dev.dmem = true ∧
      t.dev.dbusy = false ∧ t.dev.dpend = .none ∧ t.dev.dwel = false ∧ t.ctl = s.ctl ∧ t.bus = s.bus ∧
      t.cfg = s.cfg

/-- No instruction but CHIP_ERASE changes the array, whichever way it ends, but for the completion of an
operation that was pending before it: a frame never does, and a program is only pending until it
completes (rules R158, R162). -/
def Obligations.OnlyCompletionChangesTheArray : Prop :=
  ∀ (s t : State) (i : Instr), i ≠ .chipErase → exec i s = .next t →
    (t.dev.dmem = s.dev.dmem ∨ s.dev.dbusy = true ∧ t.dev.dmem = (completed s.dev).dmem) ∧
    (s.dev.dbusy = false → ∀ a, readByte t.dev.dmem a = readByte s.dev.dmem a)

/-- Only an erase sets a bit of the array back to 1: no step does, from a state with no erase pending,
unless the step itself put a complete CE frame on the wire (rule R159). -/
def Obligations.OnlyAnEraseSetsBits : Prop :=
  ∀ s t : State, s.bus.cs = false → memWf s.dev.dmem = true → s.dev.dpend ≠ .erase →
    step s = .next t → ceFrame ∉ newFrames s t →
    ∀ a k, (readByte t.dev.dmem a).getLsbD k = true → (readByte s.dev.dmem a).getLsbD k = true

/-- Reset sets every controller register the spec gives a reset value, whatever state it comes in, and
releases the chip-select; between frames it answers, and leaves the device and the parameters as they
are; it is the way out of `HALTED` (rules R43, R44, R340). -/
def Obligations.ResetSetsTheControllerAlone : Prop :=
  ∀ (s : State) (rest : List Input), s.env.inbox = .reset :: rest →
    (∀ t, step s = .next t → AtResetValues t.ctl ∧ t.bus.cs = false) ∧
    (s.bus.cs = false → ∃ t, step s = .next t ∧ t.dev = s.dev ∧ t.cfg = s.cfg)

/-- An external reset inside a `PP` frame, after the command, the address and `k` data bytes: the device
programs the `k` bytes it received, and with `k = 0` nothing; the controller's registers take the values
rule R43 gives them (rule R341). How a program says when the reset comes is log entry 5. -/
def Obligations.ResetInsideAProgramFrame : Prop :=
  ∀ (s : State) (a : FlashAddr) (bytes : List Byte) (k : Nat) (rest : List Due), s.ctl.seq ≠ .halted →
    s.bus.cs = false →
    s.cfg.present = true → s.dev.dbusy = false → s.dev.dwel = true →
    programIllegal s.cfg a bytes = false → k ≤ bytes.length → s.env.due = ⟨5 + k, .reset⟩ :: rest →
    ∃ t, exec (.pp a bytes) s = .next t ∧ AtResetValues t.ctl ∧ t.bus.cs = false ∧
      t.dev = (if k = 0 then { s.dev with fb := ppFrame a [] }
        else { s.dev with fb := ppFrame a (bytes.take k), dbusy := true, dpend := .prog a (bytes.take k) }) ∧
      t.cfg = s.cfg

/-! ### Whole-machine rules -/

/-- The state after reset meets the invariant. -/
def Obligations.ResetMeetsTheInvariant : Prop := Inv State.reset

/-- Every step keeps the invariant (rules R40, R46 I-a and I-d, R213, R247, R248, R249). That a host write to the
read-only `CURSOR` leaves it in range is log entry 16. -/
def Obligations.StepKeepsTheInvariant : Prop :=
  ∀ s t : State, Inv s → step s = .next t → Inv t

/-- From a state that meets the invariant no step faults, unless the environment drives a frame of its
own (rule R327). -/
def Obligations.HostOperationsNeverFault : Prop :=
  ∀ (s : State) (f : Fault), Inv s → NoDirectFrame s → step s ≠ .fault f

/-- What the host operations put on the wire: a page-program frame lies in one page and in the array
(I-b) and comes only after a gate that saw the latch, with `WP` set; a chip-erase frame likewise,
unless `P_ERASE_ABORT` is false (I-c) (rule R46). That `OK` still shows the gate's outcome where the step has
ended the operation is log entry 1. -/
def Obligations.WireCarriesOnlyGuardedWrites : Prop :=
  ∀ s t : State, Inv s → NoDirectFrame s → NoResetDue s → step s = .next t →
    ∀ f ∈ newFrames s t,
      (f.head? = some 0x02 → ∃ a bytes, f = ppFrame a bytes ∧ bytes ≠ [] ∧
        a.toNat % 256 + bytes.length ≤ 256 ∧ a.toNat + bytes.length ≤ endAddr s.cfg + 1 ∧
        t.ctl.ok = true ∧ t.ctl.wp = true) ∧
      (f.head? = some 0xC7 → t.ctl.ok = true ∨ s.cfg.eraseAbort = false)

/-- Who writes which register (rules R22, R26, R27, R45): without a reset, a register other than those an
operation is given is unchanged by it, in the step that takes the request or drives the frame, and in a
step that resumes the operation at a ready-wait; and a step that runs neither an operation nor a frame
and takes no write to `DATA` writes no register. That `OPL` and `LENL` are as before also where the step has
ended the operation is log entry 1; that a host write to a read-only register other than `CTRLSTAT` writes none
is log entry 16. -/
def Obligations.RegistersAreWrittenOnlyByTheirOperations : Prop :=
  (∀ (s t : State) (i : Instr), NoResetDue s → exec i s = .next t →
    t.ctl.data = s.ctl.data ∧
    (i ≠ .readId → t.ctl.idreg = s.ctl.idreg ∧ t.ctl.idv = s.ctl.idv ∧ t.ctl.idmm = s.ctl.idmm) ∧
    (i ≠ .dumpAll → t.ctl.checksum = s.ctl.checksum) ∧
    (i ≠ .scan → (∀ len, i ≠ .writeData len) → t.ctl.cursor = s.ctl.cursor) ∧
    (i ≠ .scan → t.ctl.wp = true → s.ctl.wp = true) ∧
    (i.isHostOp = false → t.ctl = { s.ctl with lastSr := t.ctl.lastSr }) ∧
    (i.isHostOp = false → i ≠ .rdsr → t.ctl.lastSr = s.ctl.lastSr)) ∧
  (∀ (s t : State) (p : Poll), NoResetDue s → s.ctl.seq = .exec → s.ctl.mpc = some (.poll p) →
    (s.env.inbox = [] ∨ ∃ rest, s.env.inbox = .wait :: rest) → step s = .next t →
    t.ctl.data = s.ctl.data ∧ t.ctl.cmd = s.ctl.cmd ∧ t.ctl.opl = s.ctl.opl ∧ t.ctl.lenl = s.ctl.lenl ∧
    t.ctl.idreg = s.ctl.idreg ∧ t.ctl.idv = s.ctl.idv ∧ t.ctl.idmm = s.ctl.idmm ∧
    (ownerOf s.ctl p ≠ .dumpAll → t.ctl.checksum = s.ctl.checksum) ∧
    (ownerOf s.ctl p ≠ .scan → ownerOf s.ctl p ≠ .writeData s.ctl.lenl → t.ctl.cursor = s.ctl.cursor) ∧
    (ownerOf s.ctl p ≠ .scan → t.ctl.wp = true → s.ctl.wp = true)) ∧
  (∀ s t : State, s.ctl.seq ≠ .exec →
    (∀ m rest, s.env.inbox = m :: rest → m.isRequest = false ∧ m ≠ .reset ∧ ∀ i v, m ≠ .writeReg (.data i) v) →
    step s = .next t → t.ctl = s.ctl)

/-- `WP` becomes 1 only in a step that ends a SCAN with `OK`: one that took its request or resumed it at
its ready-wait (rule R27; I-e). -/
def Obligations.OnlyASuccessfulScanPermitsWrites : Prop :=
  ∀ s t : State, step s = .next t → s.ctl.wp = false → t.ctl.wp = true →
    t.ctl.seq = .idle ∧ t.ctl.result = 0x00 ∧
      (s.ctl.seq = .exec ∧ s.ctl.mpc = some (.poll .scanPoll) ∨ s.ctl.seq = .idle ∧ t.ctl.cmd = 0x00000006)

/-- Nothing removes or rewrites an entry of the event stream but a reset (rules R35, R322). -/
def Obligations.TheEventStreamOnlyGrows : Prop :=
  ∀ s t : State, NoResetDue s → (∀ rest, s.env.inbox ≠ .reset :: rest) → step s = .next t →
    ∃ new, t.ctl.log = s.ctl.log ++ new

/-- No step changes a parameter (rule R8). -/
def Obligations.ParametersNeverChange : Prop :=
  ∀ s t : State, step s = .next t → t.cfg = s.cfg

/-- The end of a run (rule R19). A run that is over stays over, whatever moves without a request are still to
come, reads and writes of `DATA` and a reset among them, with the bus and the device as they are, and with
no move left the step changes nothing; a run that has stopped with `SEQ = HALTED` stays so but for a
reset, sends no frame, and its device may still complete. That a host write to a read-only register other than
`CTRLSTAT` has no effect on a run that is over is log entry 16. -/
def Obligations.AFinishedRunStaysFinished : Prop :=
  (∀ s t : State, RunOver s → s.bus.cs = false → step s = .next t →
    RunOver t ∧ t.bus = s.bus ∧ t.dev = s.dev ∧ t.cfg = s.cfg) ∧
  (∀ s : State, RunOver s → s.env.inbox = [] → step s = .next s) ∧
  (∀ s t : State, RunStopped s → (∀ rest, s.env.inbox ≠ .reset :: rest) → step s = .next t →
    RunStopped t ∧ t.bus = s.bus ∧ (t.dev = s.dev ∨ s.dev.dbusy = true ∧ t.dev = completed s.dev))

/-- Host reads at any time, inside an operation or a frame too, have no effect: with no reset due, every
instruction and every step does what it does with no read due, but for what the host saw and what is
still due (rule R33). That `DATA` too can be read while an operation runs is log entry 20. -/
def Obligations.HostReadsChangeNothing : Prop :=
  (∀ (i : Instr) (s : State), NoResetDue s → unwatchedOutcome (exec i s) = exec i s.unwatched) ∧
  (∀ s : State, NoResetDue s → unwatchedOutcome (step s) = unwatchedOutcome (step s.unwatched))

/-- What the host reads while an operation is in progress (rule R33): `SEQ = EXEC` in `CTRLSTAT`, the
request in `CMD`, the result of the operation before in `RESULT`, and `DATA` as it is; whether the
operation has just been requested, by a word that decodes or by one that does not, or goes on from a ready-wait,
with the host waiting or not, and even if a reset then ends it. A read that is due at once is served at the
operation's first label. Where in an operation a read can fall is log entry 5; that
`DATA` too can be read there is log entry 20. -/
def Obligations.ReadsInsideAnOperationSeeIt : Prop :=
  let shows := fun (x : HostReg × BitVec 32) (c : Controller) (w : HostWord) =>
    (x.1 = .ctrlstat → x.2.extractLsb' 0 2 = 1) ∧ (x.1 = .cmd → x.2 = w) ∧
      (x.1 = .result → x.2 = c.result.setWidth 32) ∧ ∀ j : Fin 256, x.1 = .data j → x.2 = c.data[j].setWidth 32
  (∀ (s t : State) (i : Instr) (w : HostWord), encode i = .word w → exec i s = .next t →
    ∃ new, t.env.seen = s.env.seen ++ new ∧ (∀ x ∈ new, shows x s.ctl w) ∧
      ∀ r rest, s.env.due = ⟨0, .read r⟩ :: rest → (r, hostRead r (accepted w s.ctl)) ∈ new) ∧
  (∀ (s t : State) (w : HostWord) (moves : List Input),
    s.env.inbox = .issue (.word w) :: moves ∨ s.env.inbox = .writeReg .cmd w :: moves → step s = .next t →
    ∃ new, t.env.seen = s.env.seen ++ new ∧ (∀ x ∈ new, shows x s.ctl w) ∧
      ∀ r rest, s.env.due = ⟨0, .read r⟩ :: rest → (r, hostRead r (accepted w s.ctl)) ∈ new) ∧
  (∀ (s t : State) (p : Poll), s.ctl.seq = .exec → s.ctl.mpc = some (.poll p) →
    (s.env.inbox = [] ∨ ∃ rest, s.env.inbox = .wait :: rest) → step s = .next t →
    ∃ new, t.env.seen = s.env.seen ++ new ∧ (∀ x ∈ new, shows x s.ctl s.ctl.cmd) ∧
      ∀ r rest, s.env.due = ⟨0, .read r⟩ :: rest → (r, hostRead r s.ctl) ∈ new)

/-- An external reset inside an operation or a frame, wherever it falls (rule R341). In a step in which a reset
that was due arrives, whatever the step runs, every register ends at its reset value and the chip-select is
released. A reset due at once ends an operation at its first label, just requested or resumed at a ready-wait,
and leaves the bus and the device as they were. And one that falls later than the step changes nothing in it.
How a program says when the reset comes is log entry 5. -/
def Obligations.ResetInsideAnOperationEndsIt : Prop :=
  (∀ (s t : State) (i : Instr), exec i s = .next t → resetsDue t < resetsDue s →
    AtResetValues t.ctl ∧ t.bus.cs = false) ∧
  (∀ s t : State, step s = .next t → resetsDue t < resetsDue s → AtResetValues t.ctl ∧ t.bus.cs = false) ∧
  (∀ (s : State) (i : Instr) (rest : List Due), i.isHostOp = true → s.ctl.seq = .idle → s.bus.cs = false →
    s.env.due = ⟨0, .reset⟩ :: rest →
    ∃ t, exec i s = .next t ∧ AtResetValues t.ctl ∧ t.bus = s.bus ∧ t.dev = s.dev ∧ t.cfg = s.cfg ∧
      t.env.due = rest) ∧
  (∀ (s : State) (p : Poll) (rest : List Due), s.ctl.seq = .exec → s.ctl.mpc = some (.poll p) →
    (s.env.inbox = [] ∨ ∃ moves, s.env.inbox = .wait :: moves) → s.bus.cs = false →
    s.env.due = ⟨0, .reset⟩ :: rest →
    ∃ t, step s = .next t ∧ AtResetValues t.ctl ∧ t.bus = s.bus ∧ t.dev = s.dev ∧ t.cfg = s.cfg ∧
      t.env.due = rest) ∧
  (∀ (s t : State) (i : Instr), exec i s = .next t → resetsDue t = resetsDue s →
    exec i s.unwatched = .next t.unwatched)
end

