-- ==== Sys2Proof/Laws/Memory.lean ====
section
/-!
SUPPORT. The array: reading after a write, the canonical form and the address range are kept by every
operation, and what a program and an erase leave at each address.
-/

namespace Sys2Proof.Machine

/-- Reading one address after writing it or another. -/
theorem readByte_cellOf_append (a b : Nat) (v : Byte) (m : Memory) (h : readByte m a = erased ∨ v ≠ erased) :
    readByte (cellOf a v ++ m) b = if b = a then v else readByte m b := by
  unfold cellOf
  split
  · next hv =>
    subst hv
    rcases h with h | h
    · by_cases hb : b = a
      · subst hb; simpa using h
      · simp [hb]
    · exact absurd rfl h
  · simp only [List.singleton_append, readByte, eq_comm]

theorem memWfFrom_cons {lo k : Nat} {b : Byte} {m : Memory} :
    memWfFrom lo ((k, b) :: m) = true ↔ lo ≤ k ∧ b ≠ erased ∧ memWfFrom (k + 1) m = true := by
  simp [memWfFrom, and_assoc]

theorem memWfFrom_mono {m : Memory} {lo lo' : Nat} (h : memWfFrom lo m = true) (hl : lo' ≤ lo) :
    memWfFrom lo' m = true := by
  cases m with
  | nil => rfl
  | cons c m =>
    obtain ⟨k, b⟩ := c
    rw [memWfFrom_cons] at h ⊢
    exact ⟨hl.trans h.1, h.2⟩

/-- An address below every listed one reads as erased. -/
theorem readByte_below {m : Memory} {lo a : Nat} (h : memWfFrom lo m = true) (ha : a < lo) :
    readByte m a = erased := by
  induction m generalizing lo with
  | nil => rfl
  | cons c m ih =>
    obtain ⟨k, b⟩ := c
    rw [memWfFrom_cons] at h
    have : k ≠ a := by omega
    simp only [readByte, this, if_false]
    exact ih h.2.2 (by omega)

theorem memWfFrom_cellOf {m : Memory} {lo a : Nat} {v : Byte} (hl : lo ≤ a)
    (h : memWfFrom (a + 1) m = true) : memWfFrom lo (cellOf a v ++ m) = true := by
  unfold cellOf
  split
  · exact memWfFrom_mono h (by omega)
  · next hv => exact memWfFrom_cons.2 ⟨hl, hv, h⟩

/-- A read after a write: the written address reads as the value, every other as before. -/
theorem readByte_writeByte {m : Memory} {lo : Nat} (h : memWfFrom lo m = true) (a b : Nat) (v : Byte) :
    readByte (writeByte m a v) b = if b = a then v else readByte m b := by
  induction m generalizing lo with
  | nil =>
    have := readByte_cellOf_append a b v [] (Or.inl rfl)
    simpa [writeByte] using this
  | cons c m ih =>
    obtain ⟨k, w⟩ := c
    have hm := memWfFrom_cons.1 h
    simp only [writeByte]
    split
    · next hak =>
      refine readByte_cellOf_append a b v _ (Or.inl ?_)
      exact readByte_below (lo := k) (memWfFrom_cons.2 ⟨le_rfl, hm.2⟩) hak
    · split
      · next hak =>
        subst hak
        rw [readByte_cellOf_append a b v m (Or.inl (readByte_below hm.2.2 (by omega)))]
        by_cases hb : b = a
        · simp [hb]
        · simp [hb, readByte, Ne.symm hb]
      · next h1 h2 =>
        simp only [readByte]
        by_cases hb : k = b
        · subst hb
          have : k ≠ a := Ne.symm h2
          simp [this]
        · simp only [hb, if_false]
          exact ih hm.2.2

/-- A write keeps the canonical form. -/
theorem memWfFrom_writeByte {m : Memory} {lo a : Nat} (h : memWfFrom lo m = true) (hl : lo ≤ a) (v : Byte) :
    memWfFrom lo (writeByte m a v) = true := by
  induction m generalizing lo with
  | nil => simpa [writeByte] using memWfFrom_cellOf (v := v) hl (m := []) rfl
  | cons c m ih =>
    obtain ⟨k, w⟩ := c
    have hm := memWfFrom_cons.1 h
    simp only [writeByte]
    split
    · next hak => exact memWfFrom_cellOf hl (memWfFrom_cons.2 ⟨by omega, hm.2⟩)
    · split
      · next hak => subst hak; exact memWfFrom_cellOf hl hm.2.2
      · next h1 h2 => exact memWfFrom_cons.2 ⟨hm.1, hm.2.1, ih hm.2.2 (by omega)⟩

theorem memWf_writeByte {m : Memory} (h : memWf m = true) (a : Nat) (v : Byte) :
    memWf (writeByte m a v) = true := memWfFrom_writeByte h (Nat.zero_le a) v

/-- A write within the array lists no address outside it. -/
theorem memBelow_writeByte {n : Nat} {m : Memory} {a : Nat} (h : memBelow n m = true) (ha : a < n) (v : Byte) :
    memBelow n (writeByte m a v) = true := by
  have cell : memBelow n (cellOf a v) = true := by
    unfold cellOf memBelow
    split <;> simp [ha]
  induction m with
  | nil => simpa [writeByte] using cell
  | cons c m ih =>
    obtain ⟨k, w⟩ := c
    simp only [memBelow, List.all_cons, Bool.and_eq_true, decide_eq_true_eq] at h
    simp only [memBelow] at cell ih
    simp only [writeByte]
    split
    · simp [memBelow, List.all_append, cell, h.1, h.2]
    · split
      · simp [memBelow, List.all_append, cell, h.2]
      · simp only [memBelow, List.all_cons, Bool.and_eq_true, decide_eq_true_eq]
        exact ⟨h.1, ih h.2⟩

/-- A program keeps the canonical form. -/
theorem memWf_memWrite {m : Memory} (h : memWf m = true) (a : Nat) (bytes : List Byte) :
    memWf (memWrite m a bytes) = true := by
  induction bytes generalizing m a with
  | nil => exact h
  | cons b bs ih => exact ih (memWf_writeByte h a _) (a + 1)

theorem memBelow_memWrite {n : Nat} {m : Memory} {a : Nat} {bytes : List Byte} (h : memBelow n m = true)
    (ha : a + bytes.length ≤ n) : memBelow n (memWrite m a bytes) = true := by
  induction bytes generalizing m a with
  | nil => exact h
  | cons b bs ih =>
    simp only [List.length_cons] at ha
    exact ih (memBelow_writeByte h (by omega) _) (by omega)

/-- What a program leaves at each address: old AND new inside it, the old byte outside (rule R159). -/
theorem readByte_memWrite {m : Memory} (h : memWf m = true) (a : Nat) (bytes : List Byte) (b : Nat) :
    readByte (memWrite m a bytes) b =
      if h : a ≤ b ∧ b - a < bytes.length then readByte m b &&& bytes[b - a]'h.2 else readByte m b := by
  induction bytes generalizing m a with
  | nil => simp [memWrite]
  | cons v vs ih =>
    have hr := readByte_writeByte h a b (readByte m a &&& v)
    simp only [memWrite]
    rw [ih (memWf_writeByte h a _) (a + 1), hr]
    by_cases hb : b = a
    · subst hb
      simp
    · by_cases hab : a ≤ b
      · obtain ⟨j, rfl⟩ : ∃ j, b = a + 1 + j := ⟨b - (a + 1), by omega⟩
        have e : a + 1 + j - a = j + 1 := by omega
        simp [e, show a ≤ a + 1 + j by omega, show ¬ a + 1 + j = a by omega]
      · simp [hab, show ¬ (a + 1 ≤ b) by omega, hb]

@[simp] theorem readByte_memErase (a : Nat) : readByte memErase a = erased := rfl
@[simp] theorem memWf_memErase : memWf memErase = true := rfl
@[simp] theorem memBelow_memErase (n : Nat) : memBelow n memErase = true := rfl

/-- The array at reset has the canonical form. -/
theorem reset_memWf : memWf State.reset.dev.dmem = true := rfl

end Sys2Proof.Machine
end

