-- ==== Sys2Proof/Laws/State.lean ====
section
/-!
SUPPORT. One lemma for each agent's part of the state under each named update of it, so that no later
proof unfolds a record update; and how the pseudocode's statements act on a state.
-/

namespace Sys2Proof.Machine

variable (s : State)

@[simp] theorem mapCtl_cfg (f) : (s.mapCtl f).cfg = s.cfg := rfl
@[simp] theorem mapCtl_ctl (f) : (s.mapCtl f).ctl = f s.ctl := rfl
@[simp] theorem mapCtl_bus (f) : (s.mapCtl f).bus = s.bus := rfl
@[simp] theorem mapCtl_dev (f) : (s.mapCtl f).dev = s.dev := rfl
@[simp] theorem mapCtl_env (f) : (s.mapCtl f).env = s.env := rfl

@[simp] theorem mapBus_cfg (f) : (s.mapBus f).cfg = s.cfg := rfl
@[simp] theorem mapBus_ctl (f) : (s.mapBus f).ctl = s.ctl := rfl
@[simp] theorem mapBus_bus (f) : (s.mapBus f).bus = f s.bus := rfl
@[simp] theorem mapBus_dev (f) : (s.mapBus f).dev = s.dev := rfl
@[simp] theorem mapBus_env (f) : (s.mapBus f).env = s.env := rfl

@[simp] theorem mapDev_cfg (f) : (s.mapDev f).cfg = s.cfg := rfl
@[simp] theorem mapDev_ctl (f) : (s.mapDev f).ctl = s.ctl := rfl
@[simp] theorem mapDev_bus (f) : (s.mapDev f).bus = s.bus := rfl
@[simp] theorem mapDev_dev (f) : (s.mapDev f).dev = f s.dev := rfl
@[simp] theorem mapDev_env (f) : (s.mapDev f).env = s.env := rfl

@[simp] theorem mapEnv_cfg (f) : (s.mapEnv f).cfg = s.cfg := rfl
@[simp] theorem mapEnv_ctl (f) : (s.mapEnv f).ctl = s.ctl := rfl
@[simp] theorem mapEnv_bus (f) : (s.mapEnv f).bus = s.bus := rfl
@[simp] theorem mapEnv_dev (f) : (s.mapEnv f).dev = s.dev := rfl
@[simp] theorem mapEnv_env (f) : (s.mapEnv f).env = f s.env := rfl

@[simp] theorem popInbox_cfg : (popInbox s).cfg = s.cfg := rfl
@[simp] theorem popInbox_ctl : (popInbox s).ctl = s.ctl := rfl
@[simp] theorem popInbox_bus : (popInbox s).bus = s.bus := rfl
@[simp] theorem popInbox_dev : (popInbox s).dev = s.dev := rfl
@[simp] theorem popInbox_env : (popInbox s).env = { s.env with inbox := s.env.inbox.tail } := rfl

@[simp] theorem addDue_cfg (d) : (addDue d s).cfg = s.cfg := rfl
@[simp] theorem addDue_ctl (d) : (addDue d s).ctl = s.ctl := rfl
@[simp] theorem addDue_bus (d) : (addDue d s).bus = s.bus := rfl
@[simp] theorem addDue_dev (d) : (addDue d s).dev = s.dev := rfl
@[simp] theorem addDue_env (d) : (addDue d s).env = { s.env with due := s.env.due ++ [d] } := rfl

@[simp] theorem withNextCode_inbox (c : Code) :
    (withNextCode c s).env.inbox = .issue c :: s.env.inbox := rfl

/-- The state with `MPC` at the label `p` (rule R21). -/
def State.atLabel (p : MicroPos) : State := s.mapCtl fun c => { c with mpc := some p }

@[simp] theorem atLabel_cfg (p) : (s.atLabel p).cfg = s.cfg := rfl
@[simp] theorem atLabel_ctl (p) : (s.atLabel p).ctl = { s.ctl with mpc := some p } := rfl
@[simp] theorem atLabel_bus (p) : (s.atLabel p).bus = s.bus := rfl
@[simp] theorem atLabel_dev (p) : (s.atLabel p).dev = s.dev := rfl
@[simp] theorem atLabel_env (p) : (s.atLabel p).env = s.env := rfl
@[simp] theorem atLabel_atLabel (p q) : (s.atLabel p).atLabel q = s.atLabel q := rfl

/-! ### Statements of the pseudocode -/

variable {s} {α β : Type}

/-- A statement followed by the rest: the rest runs from where the statement ends. -/
theorem bind_apply (m : Act α) (f : α → Act β) (s : State) :
    (m >>= f) s = (match m s with
      | .ok a s' => f a s'
      | .error e s' => .error e s' : EStateM.Result Exit State β) := by
  show EStateM.bind m f s = _
  unfold EStateM.bind
  cases m s <;> rfl

theorem bind_ok {m : Act α} {f : α → Act β} {s s' : State} {a : α} (h : m s = .ok a s') :
    (m >>= f) s = f a s' := by rw [bind_apply, h]

theorem bind_error {m : Act α} {f : α → Act β} {s s' : State} {e : Exit} (h : m s = .error e s') :
    (m >>= f) s = .error e s' := by rw [bind_apply, h]

theorem map_apply (f : α → β) (m : Act α) (s : State) :
    (f <$> m) s = (match m s with
      | .ok a s' => .ok (f a) s'
      | .error e s' => .error e s' : EStateM.Result Exit State β) := by
  show EStateM.map f m s = _
  unfold EStateM.map
  cases m s <;> rfl

@[simp] theorem pure_apply (a : α) (s : State) : (pure a : Act α) s = .ok a s := rfl
@[simp] theorem nop_apply (s : State) : nop s = .ok () s := rfl
@[simp] theorem delay_apply (t : Nat) (s : State) : delay t s = .ok () s := rfl
@[simp] theorem ask_apply (s : State) : ask s = .ok s s := rfl
@[simp] theorem upd_apply (f : State → State) (s : State) : upd f s = .ok () (f s) := rfl
@[simp] theorem updCtl_apply (f) (s : State) : updCtl f s = .ok () (s.mapCtl f) := rfl
@[simp] theorem leave_apply (e : Exit) (s : State) : (leave e : Act α) s = .error e s := rfl
@[simp] theorem emit_apply (e : Event) (s : State) :
    emit e s = .ok () (s.mapCtl fun c => { c with log := c.log ++ [e] }) := rfl
@[simp] theorem finish_apply (code : Byte) (s : State) :
    finish code s = .ok () (s.mapCtl fun c => { c with result := code, seq := .idle, mpc := none }) := rfl
@[simp] theorem halt_apply (code : Byte) (s : State) :
    halt code s = .ok () (s.mapCtl fun c => { c with result := code, seq := .halted, mpc := none }) := rfl

@[simp] theorem serve_nil (s : State) : serve [] s = .ok () s := rfl

/-- A micro-position at which nothing is due. -/
theorem tick_free {s : State} (h : s.env.due = []) : tick s = .ok () s := by simp [tick, h]

/-- A label at which nothing is due: `MPC` moves on. -/
theorem label_free {s : State} (p : MicroPos) (h : s.env.due = []) :
    label p s = .ok () (s.atLabel p) := by
  rw [label, bind_ok (updCtl_apply _ _), tick_free (by exact h)]
  rfl

theorem endWith_free {s : State} (code : Byte) (h : s.env.due = []) :
    endWith code s = .ok () (s.mapCtl fun c => { c with result := code, seq := .idle, mpc := none }) := by
  rw [endWith, bind_ok (label_free .stop h)]
  rfl

theorem runAct_ok {m : Act Unit} {s s' : State} {a : Unit} (h : m s = .ok a s') :
    runAct m s = .next s' := by simp [runAct, h]

theorem runAct_suspended {m : Act Unit} {s s' : State} (h : m s = .error .suspended s') :
    runAct m s = .next s' := by simp [runAct, h]

theorem runAct_fault {m : Act Unit} {s s' : State} {f : Fault} (h : m s = .error (.fault f) s') :
    runAct m s = .fault f := by simp [runAct, h]

/-- A request at `SEQ = IDLE` runs its operation from the accepted state. -/
theorem request_idle {w : HostWord} {body : Act Unit} {s : State} (h : s.ctl.seq = .idle) :
    request w body s = runAct body (s.mapCtl fun c =>
      { c with cmd := w, opl := wordOp w, lenl := wordLen w, seq := .exec }) := by
  simp only [request, h, runAct, accept, bind_apply, updCtl_apply]

end Sys2Proof.Machine
end

