-- ==== Sys2Proof/Laws/Bus.lean ====
section
/-!
SUPPORT. The bus-transfer unit and the device, said once each: what a device turn keeps, what each
primitive does while the bus is free, and what each complete frame leaves.
-/

namespace Sys2Proof.Machine

/-! ### The device's turn -/

@[simp] theorem deviceTurn_cfg (s : State) : (deviceTurn s).cfg = s.cfg := by
  by_cases hb : s.dev.dbusy <;> by_cases ht : turnTaken s <;> simp [deviceTurn, hb, ht]
@[simp] theorem deviceTurn_ctl (s : State) : (deviceTurn s).ctl = s.ctl := by
  by_cases hb : s.dev.dbusy <;> by_cases ht : turnTaken s <;> simp [deviceTurn, hb, ht]
@[simp] theorem deviceTurn_bus (s : State) : (deviceTurn s).bus = s.bus := by
  by_cases hb : s.dev.dbusy <;> by_cases ht : turnTaken s <;> simp [deviceTurn, hb, ht]
@[simp] theorem deviceTurn_due (s : State) : (deviceTurn s).env.due = s.env.due := by
  by_cases hb : s.dev.dbusy <;> by_cases ht : turnTaken s <;> simp [deviceTurn, hb, ht]
@[simp] theorem deviceTurn_seen (s : State) : (deviceTurn s).env.seen = s.env.seen := by
  by_cases hb : s.dev.dbusy <;> by_cases ht : turnTaken s <;> simp [deviceTurn, hb, ht]
@[simp] theorem deviceTurn_inbox (s : State) : (deviceTurn s).env.inbox = s.env.inbox := by
  by_cases hb : s.dev.dbusy <;> by_cases ht : turnTaken s <;> simp [deviceTurn, hb, ht]
@[simp] theorem deviceTurn_drawCount (s : State) : (deviceTurn s).env.drawCount = s.env.drawCount := by
  by_cases hb : s.dev.dbusy <;> by_cases ht : turnTaken s <;> simp [deviceTurn, hb, ht]

/-- A device that is not busy takes no turn. -/
theorem deviceTurn_idle {s : State} (h : s.dev.dbusy = false) : deviceTurn s = s := by
  simp [deviceTurn, h]

/-- A turn completes the pending operation or leaves the device as it is. -/
theorem deviceTurn_dev (s : State) :
    (deviceTurn s).dev = if s.dev.dbusy = true ∧ turnTaken s = true then completed s.dev else s.dev := by
  unfold deviceTurn
  by_cases hb : s.dev.dbusy = true
  · by_cases ht : turnTaken s = true <;> simp [hb, ht]
  · simp [hb]

theorem deviceTurn_dbusy (s : State) :
    (deviceTurn s).dev.dbusy = (s.dev.dbusy && !turnTaken s) := by
  rw [deviceTurn_dev]
  by_cases hb : s.dev.dbusy = true <;> by_cases ht : turnTaken s = true <;> simp [hb, ht, completed]

/-! ### Received status bits -/

/-- `Rx.busyBit` and `Rx.welBit` are bits 0 and 1 of the byte. -/
theorem toByte_bits (r : Rx) : r.toByte.getLsbD 0 = r.busyBit ∧ r.toByte.getLsbD 1 = r.welBit := by
  cases r with
  | byte b => exact ⟨rfl, rfl⟩
  | status u w b =>
    constructor
    · simp only [Rx.toByte, Rx.busyBit, BitVec.getLsbD_append]; simp
    · simp only [Rx.toByte, Rx.welBit, BitVec.getLsbD_append]; simp

/-! ### Primitives while the bus is free -/

theorem select_free {s : State} (hc : s.bus.cs = false) (hr : s.env.due = []) :
    select s = .ok () { deviceTurn s with
      bus := { s.bus with cs := true, mosi := [], miso := [] }
      dev := if s.cfg.present then { (deviceTurn s).dev with fb := [] } else (deviceTurn s).dev } := by
  cases hp : s.cfg.present <;>
    simp [select, bind_apply, tick, hr, hc, State.mapBus, State.mapDev, hp]

/-- A frame opened on a device that completes just before is the frame opened after that completion (rule
R127). -/
theorem select_deviceTurn {s : State} (hc : s.bus.cs = false) (hr : s.env.due = [])
    (hb : (deviceTurn s).dev.dbusy = false) : select s = select (deviceTurn s) := by
  rw [select_free hc hr, select_free (by simpa using hc) (by simpa using hr), deviceTurn_idle hb]
  simp

theorem xfer_present {s s' : State} {t : Byte} {r : Rx} (hc : s.bus.cs = true) (hr : s.env.due = [])
    (hp : s.cfg.present = true)
    (h : deviceOut s.dev.fb.length { s with dev := { s.dev with fb := s.dev.fb ++ [t] } } = .ok r s') :
    xfer t s = .ok r { s' with bus := { s'.bus with mosi := s'.bus.mosi ++ [t], miso := s'.bus.miso ++ [r] } } := by
  simp [xfer, bind_apply, map_apply, tick, hr, hc, hp, deviceExchange, State.mapBus, State.mapDev, h]

theorem xfer_absent {s : State} {t : Byte} (hc : s.bus.cs = true) (hr : s.env.due = [])
    (hp : s.cfg.present = false) :
    xfer t s = .ok (.byte absentByte) { s with bus :=
      { s.bus with mosi := s.bus.mosi ++ [t], miso := s.bus.miso ++ [.byte absentByte] } } := by
  simp [xfer, bind_apply, map_apply, tick, hr, hc, hp, State.mapBus]

theorem deselect_present {s : State} (hc : s.bus.cs = true) (hr : s.env.due = [])
    (hp : s.cfg.present = true) :
    deselect s = endFrame { s with bus := { s.bus with cs := false, wire := s.bus.wire ++ [s.bus.mosi] } } := by
  simp [deselect, bind_apply, tick, hr, hc, releaseCs, hp, State.mapBus]

theorem deselect_absent {s : State} (hc : s.bus.cs = true) (hr : s.env.due = [])
    (hp : s.cfg.present = false) :
    deselect s = .ok () { s with bus := { s.bus with cs := false, wire := s.bus.wire ++ [s.bus.mosi] } } := by
  simp [deselect, bind_apply, tick, hr, hc, releaseCs, hp, State.mapBus]

/-! ### Complete frames -/

/-- `ReadStatus()` on a present device: the device may have completed just before; the byte shows its
latch and its busy flag (rules R148, R180). -/
theorem readStatus_present {s : State} (hc : s.bus.cs = false) (hr : s.env.due = [])
    (hp : s.cfg.present = true) :
    let s1 := deviceTurn s
    let r := Rx.status ((Config.freeByte (s.env.drawCount + 1)).extractLsb' 0 6) s1.dev.dwel s1.dev.dbusy
    readStatus s = .ok r
      { s1 with
        ctl := { s.ctl with lastSr := r.toByte }
        bus := { cs := false, mosi := [0x05, 0x00], miso := [.byte (Config.freeByte s.env.drawCount), r],
                 wire := s.bus.wire ++ [[0x05, 0x00]] }
        dev := { s1.dev with fb := [0x05, 0x00] }
        env := { s1.env with drawCount := s.env.drawCount + 2 } } := by
  intro s1 r
  simp [readStatus, bind_apply, map_apply, select_free hc hr, xfer, tick, hr, hp, deviceExchange, deviceOut, drawRx, draw,
    refusedFrame, frameCommand, commandOf, Command.byte, statusByte, State.mapBus, State.mapDev, State.mapEnv, State.mapCtl,
    deselect, releaseCs, endFrame, dummyTx, s1, r]

/-- `ReadStatus()` with no device: 0xFF, which reads BUSY (rules R128, R180). -/
theorem readStatus_absent {s : State} (hc : s.bus.cs = false) (hr : s.env.due = [])
    (hp : s.cfg.present = false) :
    readStatus s = .ok (.byte absentByte)
      { deviceTurn s with
        ctl := { s.ctl with lastSr := absentByte }
        bus := { cs := false, mosi := [0x05, 0x00], miso := [.byte absentByte, .byte absentByte],
                 wire := s.bus.wire ++ [[0x05, 0x00]] } } := by
  simp [readStatus, bind_apply, map_apply, select_free hc hr, xfer_absent, hr, hp, deselect_absent, Rx.toByte,
    Command.byte, dummyTx, State.mapCtl]

/-- The bytes of `k` draws from the `n`-th on. -/
def drawn (n k : Nat) : List Rx := (List.range' n k).map fun j => .byte (Config.freeByte j)

/-- The next exchange of a frame returns a draw and does nothing else: the frame is refused, or its
command returns no data there (rules R142, R144). -/
def ReturnsDraw (d : Device) : Prop :=
  d.fb ≠ [] ∧ (refusedFrame d = true ∨ frameCommand d = some .wren ∨ frameCommand d = some .ce
    ∨ frameCommand d = some .pp ∨ frameCommand d = none)

theorem frameCommand_append {d : Device} (h : d.fb ≠ []) (ts : List Byte) :
    frameCommand { d with fb := d.fb ++ ts } = frameCommand d := by
  obtain ⟨_, _, _, _, fb, _⟩ := d
  cases fb with
  | nil => exact absurd rfl h
  | cons c cs => rfl

theorem refusedFrame_append {d : Device} (h : d.fb ≠ []) (ts : List Byte) :
    refusedFrame { d with fb := d.fb ++ ts } = refusedFrame d := by
  unfold refusedFrame
  rw [frameCommand_append h]

theorem ReturnsDraw.append {d : Device} (h : ReturnsDraw d) (ts : List Byte) :
    ReturnsDraw { d with fb := d.fb ++ ts } := by
  refine ⟨by simp [h.1], ?_⟩
  rw [refusedFrame_append h.1, frameCommand_append h.1]
  exact h.2

theorem xfer_returnsDraw {s : State} {t : Byte} (hc : s.bus.cs = true) (hr : s.env.due = [])
    (hp : s.cfg.present = true) (hd : ReturnsDraw s.dev) :
    xfer t s = .ok (.byte (Config.freeByte s.env.drawCount))
      { s with
        bus := { s.bus with mosi := s.bus.mosi ++ [t], miso := s.bus.miso ++ [.byte (Config.freeByte s.env.drawCount)] }
        dev := { s.dev with fb := s.dev.fb ++ [t] }
        env := { s.env with drawCount := s.env.drawCount + 1 } } := by
  have h1 := refusedFrame_append hd.1 [t]
  have h2 := frameCommand_append hd.1 [t]
  refine xfer_present hc hr hp (s' := { s with
    dev := { s.dev with fb := s.dev.fb ++ [t] }
    env := { s.env with drawCount := s.env.drawCount + 1 } }) ?_
  rcases hd.2 with h | h | h | h | h <;>
    simp [deviceOut, bind_apply, map_apply, drawRx, draw, h1, h2, h, hd.1, State.mapEnv]

/-- Bytes sent while the device returns draws. -/
theorem xferAll_returnsDraw {s : State} (ts : List Byte) (hc : s.bus.cs = true) (hr : s.env.due = [])
    (hp : s.cfg.present = true) (hd : ReturnsDraw s.dev) :
    xferAll ts s = .ok ()
      { s with
        bus := { s.bus with mosi := s.bus.mosi ++ ts, miso := s.bus.miso ++ drawn s.env.drawCount ts.length }
        dev := { s.dev with fb := s.dev.fb ++ ts }
        env := { s.env with drawCount := s.env.drawCount + ts.length } } := by
  induction ts generalizing s with
  | nil => simp [xferAll, drawn]
  | cons t ts ih =>
    rw [xferAll, bind_ok (xfer_returnsDraw hc hr hp hd)]
    refine (ih (by exact hc) (by exact hr) (by exact hp) (by exact hd.append [t])).trans ?_
    simp [drawn, List.range'_succ, Nat.add_assoc, Nat.add_comm 1]

/-- Bytes sent with no device: 0xFF for each (rule R128). -/
theorem xferAll_absent {s : State} (ts : List Byte) (hc : s.bus.cs = true) (hr : s.env.due = [])
    (hp : s.cfg.present = false) :
    xferAll ts s = .ok () { s with bus :=
      { s.bus with mosi := s.bus.mosi ++ ts, miso := s.bus.miso ++ List.replicate ts.length (.byte absentByte) } } := by
  induction ts generalizing s with
  | nil => simp [xferAll]
  | cons t ts ih =>
    rw [xferAll, bind_ok (xfer_absent hc hr hp)]
    refine (ih (by exact hc) (by exact hr) (by exact hp)).trans ?_
    simp [List.replicate_succ]

/-- A complete frame with no device changes no device state (rule R128). -/
theorem frame_absent {s : State} (bytes : List Byte) (hc : s.bus.cs = false) (hr : s.env.due = [])
    (hp : s.cfg.present = false) :
    frame bytes s = .ok () { deviceTurn s with bus :=
      { cs := false, mosi := bytes, miso := List.replicate bytes.length (.byte absentByte),
        wire := s.bus.wire ++ [bytes] } } := by
  simp [frame, bind_apply, select_free hc hr, hp, xferAll_absent, hr, deselect_absent]

/-- `IssueWREN()` on a present device (rules R142, R147). -/
theorem issueWren_present {s : State} (hc : s.bus.cs = false) (hr : s.env.due = [])
    (hp : s.cfg.present = true) :
    let s1 := deviceTurn s
    issueWren s = .ok ()
      { s1 with
        bus := { cs := false, mosi := [0x06], miso := drawn s.env.drawCount 1, wire := s.bus.wire ++ [[0x06]] }
        dev := { s1.dev with fb := [0x06], dwel := s1.dev.dwel || (!s1.dev.dbusy && !s.cfg.wrenReject) }
        env := { s1.env with drawCount := s.env.drawCount + 1 } } := by
  intro s1
  cases hb : s1.dev.dbusy <;> cases hw : s.cfg.wrenReject <;>
    simp [s1] at hb <;>
    simp [issueWren, frame, bind_apply, map_apply, select_free hc hr, xferAll, xfer, tick, hr, hp, hb, hw, deviceExchange,
      deviceOut, drawRx, draw, refusedFrame, frameCommand, commandOf, Command.byte, State.mapBus, State.mapDev,
      State.mapEnv, deselect, releaseCs, endFrame, drawn, s1]

/-- `IssueCE()` on a present device (rules R142, R149, R150). -/
theorem issueCe_present {s : State} (hc : s.bus.cs = false) (hr : s.env.due = [])
    (hp : s.cfg.present = true) :
    let s1 := deviceTurn s
    issueCe s = .ok ()
      { s1 with
        bus := { cs := false, mosi := [0xC7], miso := drawn s.env.drawCount 1, wire := s.bus.wire ++ [[0xC7]] }
        dev := if s1.dev.dbusy = false ∧ s1.dev.dwel = true then startErase { s1.dev with fb := [0xC7] }
               else { s1.dev with fb := [0xC7] }
        env := { s1.env with drawCount := s.env.drawCount + 1 } } := by
  intro s1
  cases hb : s1.dev.dbusy <;> cases hw : s1.dev.dwel <;>
    simp [s1] at hb hw <;>
    simp [issueCe, frame, bind_apply, map_apply, select_free hc hr, xferAll, xfer, tick, hr, hp, hb, hw, deviceExchange,
      deviceOut, drawRx, draw, refusedFrame, frameCommand, commandOf, Command.byte, State.mapBus, State.mapDev,
      State.mapEnv, deselect, releaseCs, endFrame, drawn, s1, startErase]

end Sys2Proof.Machine
end

