-- ==== Sys2Proof/Laws/Encoding.lean ====
section
/-!
SUPPORT. The fields of the encodings, said once each: the host word's `LEN` and `OP`, the three address
bytes, the command byte, the dummies.
-/

namespace Sys2Proof

/-- `LEN` of an encoded request (rule R92). -/
@[simp] theorem wordLen_hostWord (op : Byte) (len : LenWord) : wordLen (hostWord op len) = len := by
  apply BitVec.eq_of_getLsbD_eq
  intro i hi
  simp only [wordLen, hostWord, BitVec.getLsbD_extractLsb', BitVec.getLsbD_append]
  simp [hi]

/-- `OP` of an encoded request (rule R92). -/
@[simp] theorem wordOp_hostWord (op : Byte) (len : LenWord) : wordOp (hostWord op len) = op := by
  apply BitVec.eq_of_getLsbD_eq
  intro i hi
  simp only [wordOp, hostWord, BitVec.getLsbD_extractLsb', BitVec.getLsbD_append]
  simp [hi]

/-- The mask and the match of WRITE_DATA's row pick out its encodings (rule R95). -/
theorem writeData_mask (w : HostWord) : w &&& 0xFFFE00FF = 0x00000007 ↔ w = hostWord 0x07 (wordLen w) := by
  constructor
  · intro h
    apply BitVec.eq_of_getLsbD_eq
    intro i hi
    have := congrArg (fun v => v.getLsbD i) h
    simp only [BitVec.getLsbD_and] at this
    simp only [hostWord, wordLen, BitVec.getLsbD_extractLsb', BitVec.getLsbD_append]
    interval_cases i <;> simp at this ⊢ <;> simp_all
  · intro h
    rw [h]
    apply BitVec.eq_of_getLsbD_eq
    intro i hi
    simp only [hostWord, wordLen, BitVec.getLsbD_extractLsb', BitVec.getLsbD_append, BitVec.getLsbD_and]
    interval_cases i <;> simp

/-- The address bytes of an address formed from three bytes are those bytes (rules R62, R103). -/
@[simp] theorem addrBytes_addrOfBytes (x y z : Byte) : addrBytes (addrOfBytes x y z) = [x, y, z] := by
  simp only [addrBytes, addrOfBytes, List.cons.injEq, and_true]
  refine ⟨?_, ?_, ?_⟩ <;>
  · apply BitVec.eq_of_getLsbD_eq
    intro i hi
    simp only [BitVec.getLsbD_extractLsb', BitVec.getLsbD_append]
    interval_cases i <;> simp

/-- Dispatch on a command's own byte (rules R101, R141). -/
@[simp] theorem commandOf_byte (c : Command) : commandOf c.byte = some c := by cases c <;> decide

/-- A byte dispatches to a command only if it is that command's (rule R141). -/
theorem byte_of_commandOf {b : Byte} {c : Command} (h : commandOf b = some c) : b = c.byte := by
  unfold commandOf at h
  split_ifs at h <;> simp at h <;> subst h <;> simp_all [Command.byte]

@[simp] theorem dummies_length (n : Nat) : (dummies n).length = n := by simp [dummies]

end Sys2Proof
end

