-- ==== Sys2Proof/Laws/Frames.lean ====
section
/-!
SUPPORT. The frames that stream bytes: RDID, READ and PP, each said once for a device that is present.
-/

namespace Sys2Proof.Machine

/-- The three address bytes of an address form that address (rules R62, R103). -/
@[simp] theorem addrOfBytes_addrBytes (a : FlashAddr) :
    addrOfBytes (a.extractLsb' 16 8) (a.extractLsb' 8 8) (a.extractLsb' 0 8) = a := by
  apply BitVec.eq_of_getLsbD_eq
  intro i hi
  simp only [addrOfBytes, BitVec.getLsbD_append, BitVec.getLsbD_extractLsb']
  by_cases h1 : i < 8
  · simp [h1]
  · by_cases h2 : i - 8 < 8
    · simp [h1, h2, show 8 + (i - 8) = i by omega]
    · simp [h1, h2, show 16 + (i - 8 - 8) = i by omega, show i - 8 - 8 < 8 by omega]

/-- The first exchange of a frame: a draw (rule R144). -/
theorem xfer_command {s : State} {c : Byte} (hc : s.bus.cs = true) (hr : s.env.due = [])
    (hp : s.cfg.present = true) (hf : s.dev.fb = []) :
    xfer c s = .ok (.byte (Config.freeByte s.env.drawCount))
      { s with
        bus := { s.bus with mosi := s.bus.mosi ++ [c], miso := s.bus.miso ++ [.byte (Config.freeByte s.env.drawCount)] }
        dev := { s.dev with fb := [c] }
        env := { s.env with drawCount := s.env.drawCount + 1 } } := by
  refine xfer_present hc hr hp (s' := { s with
    dev := { s.dev with fb := [c] }, env := { s.env with drawCount := s.env.drawCount + 1 } }) ?_
  simp [deviceOut, bind_apply, map_apply, drawRx, draw, hf, State.mapEnv]

/-- The outcome of `EndFrame` for a `PP` frame of these bytes (rules R143, R156). -/
def ppDevice (c : Config) (d : Device) (a : FlashAddr) (bytes : List Byte) : Option Device :=
  if d.dbusy = false ∧ d.dwel = true ∧ bytes ≠ [] then
    if programIllegal c a bytes then none
    else some { d with dbusy := true, dpend := .prog a bytes, fb := ppFrame a bytes }
  else some { d with fb := ppFrame a bytes }

/-- What the bus and the draw counter hold after a frame on a present device that only drew bytes. -/
def afterDraws (s1 : State) (sent : List Byte) (d : Device) : State :=
  { s1 with
    bus := { cs := false, mosi := sent, miso := drawn s1.env.drawCount sent.length, wire := s1.bus.wire ++ [sent] }
    dev := d
    env := { s1.env with drawCount := s1.env.drawCount + sent.length } }

theorem drawn_append (n j k : Nat) : drawn n j ++ drawn (n + j) k = drawn n (j + k) := by
  simp [drawn, ← List.map_append]

/-- `IssuePP(A, L)` up to its deselect, on a present device. -/
theorem issuePp_sent {s : State} (a : FlashAddr) (bytes : List Byte) (hc : s.bus.cs = false)
    (hr : s.env.due = []) (hp : s.cfg.present = true) :
    issuePp a bytes s = endFrame (afterDraws (deviceTurn s) (ppFrame a bytes)
      { (deviceTurn s).dev with fb := ppFrame a bytes }) := by
  have hd : ∀ d : Device, ReturnsDraw { d with fb := [0x02] } := fun d =>
    ⟨by simp, Or.inr (Or.inr (Or.inr (Or.inl rfl)))⟩
  rw [issuePp, bind_ok (select_free hc hr)]
  simp only [hp, if_true]
  rw [bind_ok (xfer_command (by rfl) (by simpa using hr) (by simpa using hp) (by rfl))]
  rw [bind_ok (xferAll_returnsDraw _ (by rfl) (by simpa using hr) (by simpa using hp) (by exact hd _))]
  rw [bind_ok (xferAll_returnsDraw _ (by rfl) (by simpa using hr) (by simpa using hp)
    (by exact (hd _).append _))]
  rw [deselect_present (by rfl) (by simpa using hr) (by simpa using hp)]
  congr 1
  have h1 : ∀ n k, Rx.byte (Config.freeByte n) :: drawn (n + 1) k = drawn n (k + 1) := fun n k => by
    simp [drawn, List.range'_succ]
  simp [afterDraws, ppFrame, Command.byte, addrBytes, drawn_append, h1]
  exact ⟨by congr 1; omega, by omega⟩

/-- `IssuePP(A, L)` on a present device: ignored, accepted, or a program the model gives no meaning
(rules R142, R155, R156, R157). -/
theorem issuePp_present {s : State} (a : FlashAddr) (bytes : List Byte) (hc : s.bus.cs = false)
    (hr : s.env.due = []) (hp : s.cfg.present = true) :
    match ppDevice s.cfg (deviceTurn s).dev a bytes with
    | some d => issuePp a bytes s = .ok () (afterDraws (deviceTurn s) (ppFrame a bytes) d)
    | none => ∃ t, issuePp a bytes s = .error (.fault .deviceUnmodelled) t := by
  rw [issuePp_sent a bytes hc hr hp]
  generalize hs1 : deviceTurn s = s1
  have hcfg : s1.cfg = s.cfg := by rw [← hs1]; simp
  cases hb : s1.dev.dbusy
  · cases hw : s1.dev.dwel
    · have : ppDevice s.cfg s1.dev a bytes = some { s1.dev with fb := ppFrame a bytes } := by
        simp [ppDevice, hw]
      simp only [this]
      cases bytes <;>
        simp [endFrame, bind_apply, afterDraws, refusedFrame, hb, hw, ppFrame, addrBytes,
          frameCommand, commandOf]
    · cases bytes with
      | nil =>
        simp [ppDevice, endFrame, bind_apply, afterDraws, refusedFrame, hb, hw, frameCommand, commandOf, ppFrame,
          addrBytes]
      | cons b bs =>
        cases hi : programIllegal s.cfg a (b :: bs) <;>
          simp [ppDevice, endFrame, bind_apply, afterDraws, refusedFrame, hb, hw, frameCommand, commandOf, ppFrame,
            addrBytes, startProgram, hcfg, hi, State.mapDev]
  · have : ppDevice s.cfg s1.dev a bytes = some { s1.dev with fb := ppFrame a bytes } := by
      simp [ppDevice, hb]
    simp only [this]
    simp [endFrame, bind_apply, afterDraws, refusedFrame, hb, frameCommand, commandOf, ppFrame]

/-- The head of a sequential read on a present device that is not busy: the address is latched (rule
R152). -/
theorem openRead_idle {s : State} (a : FlashAddr) (hc : s.bus.cs = false) (hr : s.env.due = [])
    (hp : s.cfg.present = true) (hb : s.dev.dbusy = false) :
    openRead a s = .ok ()
      { s with
        bus := { s.bus with cs := true, mosi := readFrame a 0, miso := drawn s.env.drawCount 4 }
        dev := { s.dev with fb := readFrame a 0, daddr := a.setWidth 25 }
        env := { s.env with drawCount := s.env.drawCount + 4 } } := by
  simp [openRead, bind_apply, map_apply, select_free hc hr, deviceTurn_idle hb, xferAll, addrBytes, xfer, tick, hr, hp,
    hb, deviceExchange, deviceOut, drawRx, draw, refusedFrame, frameCommand, commandOf, Command.byte, State.mapBus,
    State.mapDev, State.mapEnv, latchReadAddr, drawn, readFrame, List.range'_succ]

/-- See `select_deviceTurn`. -/
theorem openRead_deviceTurn {s : State} (a : FlashAddr) (hc : s.bus.cs = false) (hr : s.env.due = [])
    (hb : (deviceTurn s).dev.dbusy = false) : openRead a s = openRead a (deviceTurn s) := by
  simp only [openRead, bind_apply, select_deviceTurn hc hr hb]

/-- A sequential read is under way: the device answers with the byte at `a` and the ones above it. -/
structure Reading (s : State) (a : Nat) : Prop where
  cs      : s.bus.cs = true
  noReset : s.env.due = []
  present : s.cfg.present = true
  idle    : s.dev.dbusy = false
  command : ∃ b1 b2 b3 rest, s.dev.fb = 0x03 :: b1 :: b2 :: b3 :: rest
  address : s.dev.daddr.toNat = a

/-- One byte of a sequential read (rules R151, R152). -/
theorem xfer_reading {s : State} {a : Nat} {t : Byte} (h : Reading s a) (ha : a ≤ endAddr s.cfg) :
    let s' : State := { s with
        bus := { s.bus with mosi := s.bus.mosi ++ [t], miso := s.bus.miso ++ [.byte (readByte s.dev.dmem a)] }
        dev := { s.dev with fb := s.dev.fb ++ [t], daddr := s.dev.daddr + 1 } }
    xfer t s = .ok (.byte (readByte s.dev.dmem a)) s' ∧ Reading s' (a + 1) := by
  obtain ⟨b1, b2, b3, rest, hf⟩ := h.command
  have hsz : endAddr s.cfg < 2 ^ 24 := by
    have := s.cfg.lastPage.isLt
    unfold endAddr; omega
  refine ⟨?_, ?_⟩
  · refine xfer_present h.cs h.noReset h.present (s' := { s with
      dev := { s.dev with fb := s.dev.fb ++ [t], daddr := s.dev.daddr + 1 } }) ?_
    simp [deviceOut, bind_apply, map_apply, hf, refusedFrame, frameCommand, commandOf, h.idle, readNext, h.address,
      Nat.not_lt.2 ha, State.mapDev]
  · refine ⟨h.cs, h.noReset, h.present, h.idle, ⟨b1, b2, b3, rest ++ [t], by simp [hf]⟩, ?_⟩
    show (s.dev.daddr + 1).toNat = a + 1
    rw [BitVec.toNat_add, h.address, show (1 : CursorWord).toNat = 1 from rfl]
    omega

/-- The data bytes of a sequential read of `n` bytes (rules R74, R151, R152). -/
theorem xferAll_reading {s : State} {a : Nat} (ts : List Byte) (h : Reading s a)
    (ha : a + ts.length ≤ size s.cfg) :
    let s' : State := { s with
        bus := { s.bus with mosi := s.bus.mosi ++ ts
                            miso := s.bus.miso ++ (memRead s.dev.dmem a ts.length).map Rx.byte }
        dev := { s.dev with fb := s.dev.fb ++ ts, daddr := cursorOf (a + ts.length) } }
    xferAll ts s = .ok () s' ∧ Reading s' (a + ts.length) := by
  induction ts generalizing s a with
  | nil =>
    have hd : cursorOf a = s.dev.daddr := by
      apply BitVec.eq_of_toNat_eq
      have := s.dev.daddr.isLt
      rw [h.address] at this
      simp only [cursorOf, BitVec.toNat_ofNat, h.address]
      omega
    constructor
    · simp [xferAll, memRead, hd]
    · simpa [memRead, hd] using h
  | cons t ts ih =>
    simp only [List.length_cons] at ha
    have hsz : size s.cfg = endAddr s.cfg + 1 := rfl
    obtain ⟨h1, h2⟩ := xfer_reading (t := t) h (by omega)
    obtain ⟨h3, h4⟩ := ih h2 (by show a + 1 + ts.length ≤ size s.cfg; omega)
    have e : a + 1 + ts.length = a + (t :: ts).length := by simp; omega
    rw [e] at h3 h4
    refine ⟨?_, ?_⟩
    · rw [xferAll, bind_ok h1, h3]
      simp [memRead, List.range'_succ]
    · simpa [memRead, List.range'_succ] using h4

/-- A sequential read of `n` bytes on a present device that is not busy, within the array (rules R151,
R152). -/
theorem issueRead_idle {s : State} (a : FlashAddr) (n : Nat) (hc : s.bus.cs = false)
    (hr : s.env.due = []) (hp : s.cfg.present = true) (hb : s.dev.dbusy = false)
    (ha : a.toNat + n ≤ size s.cfg) :
    issueRead a n s = .ok ()
      { s with
        bus := { cs := false, mosi := readFrame a n, wire := s.bus.wire ++ [readFrame a n]
                 miso := drawn s.env.drawCount 4 ++ (memRead s.dev.dmem a.toNat n).map Rx.byte }
        dev := { s.dev with fb := readFrame a n, daddr := cursorOf (a.toNat + n) }
        env := { s.env with drawCount := s.env.drawCount + 4 } } := by
  have ho := openRead_idle a hc hr hp hb
  rw [issueRead, bind_ok ho]
  have hread : Reading { s with
        bus := { s.bus with cs := true, mosi := readFrame a 0, miso := drawn s.env.drawCount 4 }
        dev := { s.dev with fb := readFrame a 0, daddr := a.setWidth 25 }
        env := { s.env with drawCount := s.env.drawCount + 4 } } a.toNat := by
    refine ⟨rfl, hr, hp, hb, ⟨_, _, _, _, rfl⟩, ?_⟩
    simp only [BitVec.toNat_setWidth]
    have := a.isLt
    omega
  obtain ⟨h1, -⟩ := xferAll_reading (dummies n) hread (by simpa [dummies] using ha)
  rw [bind_ok h1, deselect_present (by rfl) (by exact hr) (by exact hp)]
  have hlen : (dummies n).length = n := by simp [dummies]
  have hfr : readFrame a 0 ++ dummies n = readFrame a n := by simp [readFrame, dummies, dummyTx]
  simp only [hlen, hfr]
  simp [endFrame, bind_apply, refusedFrame, hb, readFrame, frameCommand, commandOf]

/-- `IssueRDID()` on a present device that is not busy (rules R145, R146). -/
theorem issueRdid_idle {s : State} (hc : s.bus.cs = false) (hr : s.env.due = [])
    (hp : s.cfg.present = true) (hb : s.dev.dbusy = false) :
    issueRdid s = .ok (s.cfg.devMfr, s.cfg.devDev)
      { s with
        bus := { cs := false, mosi := rdidFrame, wire := s.bus.wire ++ [rdidFrame]
                 miso := drawn s.env.drawCount 4 ++ [.byte s.cfg.devMfr, .byte s.cfg.devDev] }
        dev := { s.dev with fb := rdidFrame }
        env := { s.env with drawCount := s.env.drawCount + 4 } } := by
  simp [issueRdid, bind_apply, map_apply, select_free hc hr, deviceTurn_idle hb, xferAll, addrBytes, xfer, tick, hr, hp,
    hb, deviceExchange, deviceOut, drawRx, draw, refusedFrame, frameCommand, commandOf, Command.byte, State.mapBus,
    State.mapDev, State.mapEnv, drawn, rdidFrame, List.range'_succ, rdidAddr, dummyTx, Rx.toByte, deselect, releaseCs,
    endFrame]

/-- See `select_deviceTurn`. -/
theorem issueRdid_deviceTurn {s : State} (hc : s.bus.cs = false) (hr : s.env.due = [])
    (hb : (deviceTurn s).dev.dbusy = false) : issueRdid s = issueRdid (deviceTurn s) := by
  simp only [issueRdid, bind_apply, select_deviceTurn hc hr hb]

/-- `IssueRDID()` with no device: both bytes are 0xFF (rules R128, R145). -/
theorem issueRdid_absent {s : State} (hc : s.bus.cs = false) (hr : s.env.due = [])
    (hp : s.cfg.present = false) :
    issueRdid s = .ok (absentByte, absentByte)
      { deviceTurn s with bus :=
        { cs := false, mosi := rdidFrame, miso := List.replicate 6 (.byte absentByte)
          wire := s.bus.wire ++ [rdidFrame] } } := by
  simp [issueRdid, bind_apply, map_apply, select_free hc hr, xferAll_absent, xfer_absent, hr, hp, deselect_absent,
    addrBytes, Command.byte, rdidFrame, rdidAddr, dummyTx, Rx.toByte, List.replicate_succ]

/-- `IssueRDID()` on a busy device: the frame is refused and both bytes are draws (rules R142, R145). -/
theorem issueRdid_refused {s : State} (hc : s.bus.cs = false) (hr : s.env.due = [])
    (hp : s.cfg.present = true) (hb : (deviceTurn s).dev.dbusy = true) :
    issueRdid s = .ok (Config.freeByte (s.env.drawCount + 4), Config.freeByte (s.env.drawCount + 5))
      (afterDraws (deviceTurn s) rdidFrame { (deviceTurn s).dev with fb := rdidFrame }) := by
  simp [issueRdid, bind_apply, map_apply, select_free hc hr, xferAll, addrBytes, xfer, tick, hr, hp,
    hb, deviceExchange, deviceOut, drawRx, draw, refusedFrame, frameCommand, commandOf, Command.byte, State.mapBus,
    State.mapDev, State.mapEnv, drawn, rdidFrame, List.range'_succ, rdidAddr, dummyTx, Rx.toByte, deselect, releaseCs,
    endFrame, afterDraws]

end Sys2Proof.Machine
end

