-- ==== Sys2Proof/Laws/Operations.lean ====
section
/-!
SUPPORT. The shared operations of the host operations, said once each: a status read, a ready-wait
that returns and one that stays, the write-enable gate that sees the latch and one that does not.
-/

namespace Sys2Proof.Machine

/-! ### Steps, requests and frames -/

/-- One step of a run. -/
theorem run_succ {s t : State} (n : Nat) (h : step s = .next t) :
    Host.Core.run Sys2Proof.core (n + 1) s = Host.Core.run Sys2Proof.core n t := by
  have h' : Sys2Proof.core.step s = .next t := h
  simp only [Host.Core.run, h']

section
variable (op : Byte) (len : LenWord) (w : HostWord) (c : Controller)
@[simp] theorem accepted_seq : (accepted w c).seq = .exec := rfl
@[simp] theorem accepted_cmd : (accepted w c).cmd = w := rfl
@[simp] theorem accepted_opl : (accepted (hostWord op len) c).opl = op := wordOp_hostWord op len
@[simp] theorem accepted_lenl : (accepted (hostWord op len) c).lenl = len := wordLen_hostWord op len
@[simp] theorem accepted_cursor : (accepted w c).cursor = c.cursor := rfl
@[simp] theorem accepted_wp : (accepted w c).wp = c.wp := rfl
@[simp] theorem accepted_data : (accepted w c).data = c.data := rfl
@[simp] theorem accepted_log : (accepted w c).log = c.log := rfl
end

theorem putFrame_running {body : Act Unit} {s : State} (h : s.ctl.seq ≠ .halted) :
    putFrame body s = runAct body s := by
  cases hs : s.ctl.seq <;> simp_all [putFrame]

/-- A request that runs to its end. -/
theorem request_ok {w : HostWord} {body : Act Unit} {s t : State} (h : s.ctl.seq = .idle)
    (hb : body (s.mapCtl (accepted w)) = .ok () t) : request w body s = .next t := by
  rw [request_idle h]
  exact runAct_ok hb

/-- A request that stops at a ready-wait. -/
theorem request_suspended {w : HostWord} {body : Act Unit} {s t : State} (h : s.ctl.seq = .idle)
    (hb : body (s.mapCtl (accepted w)) = .error .suspended t) : request w body s = .next t := by
  rw [request_idle h]
  exact runAct_suspended hb

theorem BusFree.mapCtl {s : State} (h : BusFree s) (f : Controller → Controller) : BusFree (s.mapCtl f) := h

theorem BusFree.atLabel {s : State} (h : BusFree s) (p : MicroPos) : BusFree (s.atLabel p) := h

/-- The device's turn does not look at the controller's registers. -/
@[simp] theorem deviceTurn_mapCtl (s : State) (f : Controller → Controller) :
    deviceTurn (s.mapCtl f) = (deviceTurn s).mapCtl f := by
  cases hb : s.dev.dbusy <;> cases ht : turnTaken s <;>
    simp_all [deviceTurn, turnTaken, State.mapCtl, State.mapDev, State.mapEnv]

/-- See `deviceTurn_mapCtl`. -/
@[simp] theorem deviceTurn_atLabel (s : State) (p : MicroPos) :
    deviceTurn (s.atLabel p) = (deviceTurn s).atLabel p := deviceTurn_mapCtl s _

/-! ### One status read -/

/-- The status byte the next read of a present device shows (rule R148). -/
def statusSeen (s : State) : Rx :=
  .status ((Config.freeByte (s.env.drawCount + 1)).extractLsb' 0 6)
    (deviceTurn s).dev.dwel (deviceTurn s).dev.dbusy

/-- The state after a status read of a present device (rules R127, R148, R180). -/
def afterStatus (s : State) : State :=
  { cfg := s.cfg
    ctl := { s.ctl with lastSr := (statusSeen s).toByte }
    bus := { cs := false, mosi := rdsrFrame, miso := [.byte (Config.freeByte s.env.drawCount), statusSeen s]
             wire := s.bus.wire ++ [rdsrFrame] }
    dev := { (deviceTurn s).dev with fb := rdsrFrame }
    env := { (deviceTurn s).env with drawCount := s.env.drawCount + 2 } }

@[simp] theorem statusSeen_busyBit (s : State) : (statusSeen s).busyBit = (deviceTurn s).dev.dbusy := rfl
@[simp] theorem statusSeen_welBit (s : State) : (statusSeen s).welBit = (deviceTurn s).dev.dwel := rfl
@[simp] theorem statusSeen_bit0 (s : State) : (statusSeen s).toByte.getLsbD 0 = (deviceTurn s).dev.dbusy :=
  (toByte_bits _).1
@[simp] theorem statusSeen_bit1 (s : State) : (statusSeen s).toByte.getLsbD 1 = (deviceTurn s).dev.dwel :=
  (toByte_bits _).2
@[simp] theorem statusSeen_getElem0 (s : State) : (statusSeen s).toByte[0] = (deviceTurn s).dev.dbusy :=
  (toByte_bits _).1
@[simp] theorem statusSeen_getElem1 (s : State) : (statusSeen s).toByte[1] = (deviceTurn s).dev.dwel :=
  (toByte_bits _).2
@[simp] theorem statusSeen_mapCtl (s : State) (f : Controller → Controller) :
    statusSeen (s.mapCtl f) = statusSeen s := by
  simp [statusSeen, deviceTurn_mapCtl]

@[simp] theorem afterStatus_cfg (s : State) : (afterStatus s).cfg = s.cfg := rfl
@[simp] theorem afterStatus_cs (s : State) : (afterStatus s).bus.cs = false := rfl
@[simp] theorem afterStatus_wire (s : State) : (afterStatus s).bus.wire = s.bus.wire ++ [rdsrFrame] := rfl
@[simp] theorem afterStatus_ctl (s : State) :
    (afterStatus s).ctl = { s.ctl with lastSr := (statusSeen s).toByte } := rfl
@[simp] theorem afterStatus_dev (s : State) :
    (afterStatus s).dev = { (deviceTurn s).dev with fb := rdsrFrame } := rfl
@[simp] theorem afterStatus_due (s : State) : (afterStatus s).env.due = s.env.due :=
  deviceTurn_due s
@[simp] theorem afterStatus_inbox (s : State) : (afterStatus s).env.inbox = s.env.inbox :=
  deviceTurn_inbox s

@[simp] theorem statusSeen_atLabel (s : State) (p : MicroPos) : statusSeen (s.atLabel p) = statusSeen s :=
  statusSeen_mapCtl s _

/-- A status read does not look at `MPC`. -/
theorem afterStatus_atLabel (s : State) (p : MicroPos) :
    afterStatus (s.atLabel p) = (afterStatus s).atLabel p := by
  simp only [afterStatus, State.atLabel, statusSeen_mapCtl, deviceTurn_mapCtl]
  rfl

theorem readStatus_seen {s : State} (h : BusFree s) (hp : s.cfg.present = true) :
    readStatus s = .ok (statusSeen s) (afterStatus s) := by
  have := readStatus_present h.1 h.2 hp
  simp only [this, statusSeen, afterStatus, rdsrFrame, deviceTurn_cfg]

theorem ReadyNext.mapCtl {s : State} (h : ReadyNext s) (f : Controller → Controller) :
    ReadyNext (s.mapCtl f) := by simpa [ReadyNext] using h

theorem BusFree.afterStatus {s : State} (h : BusFree s) : BusFree (afterStatus s) :=
  ⟨rfl, by simpa using h.2⟩

/-! ### The ready-wait -/

/-- The device is ready at the next poll: the wait returns after one status read (rule R182). -/
theorem awaitReady_ready {s : State} (here : Poll) (onBusy : Act Unit) (h : BusFree s) (hr : ReadyNext s) :
    awaitReady here onBusy s = .ok () ((afterStatus s).atLabel (.poll here)) := by
  rw [awaitReady, bind_ok (label_free _ h.2), bind_ok (readStatus_seen (h.atLabel _) hr.1), afterStatus_atLabel]
  simp [hr.2]

/-- The device stays busy at the next poll: the wait logs what it logs and the step ends at its poll
(rules R182, R186). -/
theorem awaitReady_busy {s : State} (here : Poll) (f : Controller → Controller) (h : BusFree s)
    (hp : s.cfg.present = true) (hb : (deviceTurn s).dev.dbusy = true) :
    awaitReady here (updCtl f) s =
      .error .suspended (((afterStatus s).atLabel (.poll here)).mapCtl f) := by
  rw [awaitReady, bind_ok (label_free _ h.2), bind_ok (readStatus_seen (h.atLabel _) hp), afterStatus_atLabel]
  simp only [statusSeen_atLabel, statusSeen_busyBit, hb, if_true]
  rfl

/-- The state after a status read with no device (rules R128, R180). -/
def afterNoStatus (s : State) : State :=
  { deviceTurn s with
    ctl := { s.ctl with lastSr := absentByte }
    bus := { cs := false, mosi := rdsrFrame, miso := [.byte absentByte, .byte absentByte]
             wire := s.bus.wire ++ [rdsrFrame] } }

@[simp] theorem afterNoStatus_cfg (s : State) : (afterNoStatus s).cfg = s.cfg := deviceTurn_cfg s
@[simp] theorem afterNoStatus_dev (s : State) : (afterNoStatus s).dev = (deviceTurn s).dev := rfl
@[simp] theorem afterNoStatus_due (s : State) : (afterNoStatus s).env.due = s.env.due :=
  deviceTurn_due s
@[simp] theorem afterNoStatus_inbox (s : State) : (afterNoStatus s).env.inbox = s.env.inbox :=
  deviceTurn_inbox s

theorem afterNoStatus_atLabel (s : State) (p : MicroPos) :
    afterNoStatus (s.atLabel p) = (afterNoStatus s).atLabel p := by
  simp only [afterNoStatus, State.atLabel, deviceTurn_mapCtl]
  rfl

theorem readStatus_unseen {s : State} (h : BusFree s) (hp : s.cfg.present = false) :
    readStatus s = .ok (.byte absentByte) (afterNoStatus s) := readStatus_absent h.1 h.2 hp

/-- With no device every poll reads BUSY (rules R128, R186). -/
theorem awaitReady_absent {s : State} (here : Poll) (f : Controller → Controller) (h : BusFree s)
    (hp : s.cfg.present = false) :
    awaitReady here (updCtl f) s =
      .error .suspended (((afterNoStatus s).atLabel (.poll here)).mapCtl f) := by
  rw [awaitReady, bind_ok (label_free _ h.2), bind_ok (readStatus_unseen (h.atLabel _) hp), afterNoStatus_atLabel]
  have hb : (Rx.byte absentByte).busyBit = true := by decide
  simp only [hb, if_true]
  rfl

/-- `awaitReady` with an empty `onBusy` is the form the two lemmas above are about. -/
theorem nop_eq_updCtl : nop = updCtl id := rfl

/-! ### The write-enable gate -/

/-- The state after the gate's `RDSR` and `WREN` on a present device that is ready at the poll (rules
R196, R197). -/
def afterWren (s : State) : State :=
  { afterStatus s with
    bus := { cs := false, mosi := wrenFrame, miso := drawn (afterStatus s).env.drawCount 1
             wire := (afterStatus s).bus.wire ++ [wrenFrame] }
    dev := { (afterStatus s).dev with fb := wrenFrame, dwel := latchAfterWren s.cfg (deviceTurn s).dev }
    env := { (afterStatus s).env with drawCount := (afterStatus s).env.drawCount + 1 } }

/-- The state after the gate's `RDSR`, `WREN`, `RDSR`, before its outcome is latched. -/
def afterGate (s : State) : State := afterStatus (afterWren s)

@[simp] theorem afterGate_cfg (s : State) : (afterGate s).cfg = s.cfg := rfl
@[simp] theorem afterGate_present (s : State) : (afterGate s).cfg.present = s.cfg.present := rfl
@[simp] theorem afterGate_cs (s : State) : (afterGate s).bus.cs = false := rfl

theorem afterGate_wire (s : State) :
    (afterGate s).bus.wire = s.bus.wire ++ [rdsrFrame, wrenFrame, rdsrFrame] := by
  simp [afterGate, afterWren]

theorem afterGate_due (s : State) : (afterGate s).env.due = s.env.due := by
  simp [afterGate, afterWren]

theorem afterGate_inbox (s : State) : (afterGate s).env.inbox = s.env.inbox := by
  simp [afterGate, afterWren]

theorem afterGate_turns {s : State} (hr : ReadyNext s) : (afterGate s).env.turns = (deviceTurn s).env.turns := by
  show (deviceTurn (afterWren s)).env.turns = _
  rw [deviceTurn_idle (by exact hr.2)]
  rfl

theorem afterGate_dev {s : State} (hr : ReadyNext s) :
    (afterGate s).dev =
      { (deviceTurn s).dev with dwel := latchAfterWren s.cfg (deviceTurn s).dev, fb := rdsrFrame } := by
  simp only [afterGate, afterStatus_dev]
  rw [deviceTurn_idle (by exact hr.2)]
  rfl

theorem afterGate_ctl {s : State} (hr : ReadyNext s) :
    ∃ sr : Byte, sr.getLsbD 0 = false ∧ sr.getLsbD 1 = latchAfterWren s.cfg (deviceTurn s).dev ∧
      (afterGate s).ctl = { s.ctl with lastSr := sr } := by
  refine ⟨_, ?_, ?_, rfl⟩
  · rw [statusSeen_bit0, deviceTurn_idle (by exact hr.2)]
    exact hr.2
  · rw [statusSeen_bit1, deviceTurn_idle (by exact hr.2)]
    rfl

/-- `IssueWREN()` after a ready poll (rule R147). -/
theorem issueWren_afterStatus {s : State} (h : BusFree s) (hr : ReadyNext s) (p : MicroPos) :
    issueWren ((afterStatus s).atLabel p) = .ok () ((afterWren s).atLabel p) := by
  have hd : deviceTurn ((afterStatus s).atLabel p) = (afterStatus s).atLabel p := deviceTurn_idle (by exact hr.2)
  have hb : (afterStatus s).dev.dbusy = false := hr.2
  have hl : ((afterStatus s).dev.dwel || !(afterStatus s).dev.dbusy && !(afterStatus s).cfg.wrenReject) =
      latchAfterWren s.cfg (deviceTurn s).dev := by rw [hb]; rfl
  have hw := issueWren_present (s := (afterStatus s).atLabel p) rfl (by simpa using h.2) (by exact hr.1)
  simp only [hd, atLabel_dev, atLabel_cfg, hl] at hw
  exact hw

/-- The gate on a present device that is ready at its poll: the outcome is the latch (rules R197,
R201); a failure clears `WP` and logs `WEL_FAIL`. -/
theorem gate_ready {s : State} (here : Poll) (h : BusFree s) (hr : ReadyNext s) :
    gate here s =
      if latchAfterWren s.cfg (deviceTurn s).dev = true then
        .ok true (((afterGate s).atLabel (.gateCheck here)).mapCtl fun c => { c with ok := true })
      else
        .ok false (((afterGate s).atLabel (.gateOff here)).mapCtl fun c =>
          { c with wp := false, ok := false, log := c.log ++ [.welFail] }) := by
  have hw : BusFree (afterWren s) := ⟨rfl, by simpa [afterWren] using h.2⟩
  have hg : (afterGate s).env.due = [] := (afterGate_due s).trans h.2
  have hrs := readStatus_seen (hw.atLabel (.gateCheck here)) hr.1
  rw [afterStatus_atLabel, statusSeen_atLabel] at hrs
  have hwel : (statusSeen (afterWren s)).welBit = latchAfterWren s.cfg (deviceTurn s).dev := by
    rw [statusSeen_welBit, deviceTurn_idle (by exact hr.2)]
    rfl
  rw [gate, bind_ok (awaitReady_ready here nop h hr), bind_ok (label_free _ (by simpa using h.2)),
    atLabel_atLabel, bind_ok (issueWren_afterStatus h hr _), bind_ok (label_free _ (by exact hw.2)),
    atLabel_atLabel, bind_ok hrs, hwel]
  split
  · rfl
  · rw [bind_ok (label_free _ (by exact hg)), bind_ok (emit_apply _ _), bind_ok (label_free _ (by exact hg))]
    rfl

/-- Everything the gate does after a request `w`, on a present device that is ready at its poll. -/
theorem gate_request {s : State} (w : HostWord) (h : BusFree s) (hr : ReadyNext s) :
    ∃ (sr : Byte) (g : State), sr.getLsbD 0 = false ∧ sr.getLsbD 1 = latchAfterWren s.cfg (deviceTurn s).dev ∧
      g.ctl = { accepted w s.ctl with lastSr := sr } ∧
      g.dev = { (deviceTurn s).dev with dwel := latchAfterWren s.cfg (deviceTurn s).dev, fb := rdsrFrame } ∧
      g.bus.wire = s.bus.wire ++ [rdsrFrame, wrenFrame, rdsrFrame] ∧ BusFree g ∧ g.cfg = s.cfg ∧
      g.env.inbox = s.env.inbox ∧ g.env.turns = (deviceTurn s).env.turns ∧
      ∀ here, gate here (s.mapCtl (accepted w)) =
        if latchAfterWren s.cfg (deviceTurn s).dev = true then
          .ok true ((g.atLabel (.gateCheck here)).mapCtl fun c => { c with ok := true })
        else .ok false ((g.atLabel (.gateOff here)).mapCtl fun c =>
          { c with wp := false, ok := false, log := c.log ++ [.welFail] }) := by
  have hr' := hr.mapCtl (accepted w)
  obtain ⟨sr, h0, h1, hc⟩ := afterGate_ctl hr'
  have hd := afterGate_dev hr'
  have ht := afterGate_turns hr'
  have hg := fun here => gate_ready here (h.mapCtl (accepted w)) hr'
  simp only [deviceTurn_mapCtl, mapCtl_cfg, mapCtl_dev, mapCtl_ctl, mapCtl_env] at h1 hc hd ht hg
  exact ⟨sr, afterGate (s.mapCtl (accepted w)), h0, h1, hc, hd, afterGate_wire _,
    ⟨rfl, (afterGate_due _).trans h.2⟩, rfl, afterGate_inbox _, ht, hg⟩

end Sys2Proof.Machine
end

