-- ==== Sys2Proof/Laws/PerInstr.lean ====
section
/-!
SUPPORT. One statement for each instruction, about its code as syntax: how long it is (rules R96, R101,
R102).
-/

namespace Sys2Proof.Laws.FrameLength

/-- The number of bytes of an instruction's code: a request word has four (rule R96), and a frame the
total length rule R101 gives its command. -/
def bytes : Instr → Nat
  | .readId | .readStatus | .awaitReady | .writeEnable | .chipErase | .scan | .writeData _ | .dumpAll => 4
  | .rdid => 6
  | .wren => 1
  | .rdsr => 2
  | .ce => 1
  | .read _ n => 4 + n
  | .pp _ data => 4 + data.length

/-- A well-formed instruction's code has the length of its row, at least one byte and, but for `READ`, at
most 260. -/
def Statement (i : Instr) : Prop :=
  i.wellFormed = true →
    (encode i).length = bytes i ∧ 1 ≤ bytes i ∧ ((∀ a n, i ≠ .read a n) → bytes i ≤ 260)

theorem readId : Statement .readId := fun _ => ⟨rfl, by decide, fun _ => by decide⟩
theorem readStatus : Statement .readStatus := fun _ => ⟨rfl, by decide, fun _ => by decide⟩
theorem awaitReady : Statement .awaitReady := fun _ => ⟨rfl, by decide, fun _ => by decide⟩
theorem writeEnable : Statement .writeEnable := fun _ => ⟨rfl, by decide, fun _ => by decide⟩
theorem chipErase : Statement .chipErase := fun _ => ⟨rfl, by decide, fun _ => by decide⟩
theorem scan : Statement .scan := fun _ => ⟨rfl, by decide, fun _ => by decide⟩
theorem writeData (len : LenWord) : Statement (.writeData len) := fun _ => ⟨rfl, by simp [bytes], fun _ => by simp [bytes]⟩
theorem dumpAll : Statement .dumpAll := fun _ => ⟨rfl, by decide, fun _ => by decide⟩
theorem rdid : Statement .rdid := fun _ => ⟨by decide, by decide, fun _ => by decide⟩
theorem wren : Statement .wren := fun _ => ⟨by decide, by decide, fun _ => by decide⟩
theorem rdsr : Statement .rdsr := fun _ => ⟨by decide, by decide, fun _ => by decide⟩
theorem ce : Statement .ce := fun _ => ⟨by decide, by decide, fun _ => by decide⟩

theorem read (addr : FlashAddr) (n : Nat) : Statement (.read addr n) := fun _ =>
  ⟨by simp [encode, Code.length, bytes, addrBytes]; omega, by simp only [bytes]; omega, fun h => absurd rfl (h addr n)⟩

theorem pp (addr : FlashAddr) (data : List Byte) : Statement (.pp addr data) := by
  intro h
  have hl : data.length ≤ 256 := by
    by_contra hn
    have h1 : data.length ≠ 0 := by omega
    have h2 : data.length > 256 := by omega
    simp [Instr.wellFormed, Instr.illFormed, h1, h2] at h
  exact ⟨by simp [encode, Code.length, bytes, addrBytes]; omega, by simp only [bytes]; omega,
    fun _ => by simp only [bytes]; omega⟩

end Sys2Proof.Laws.FrameLength
end

