-- ==== Sys2Proof/Laws/Triples.lean ====
section
/-!
SUPPORT. Statements about a whole piece of pseudocode, whichever way it ends: `Triple` and its rules;
what no bus action touches (`BusOnly`); the device's invariant, which every bus action keeps; and how
an action that is not cut short by an external reset runs as if none were due (`Erasable`).
-/

namespace Sys2Proof.Machine

variable {α β : Type}

/-! ### Triples -/

/-- From every state with `P`, the action ends with `Q`, or leaves its step with `E`. -/
def Triple (P : State → Prop) (m : Act α) (Q : α → State → Prop) (E : Exit → State → Prop) : Prop :=
  ∀ s, P s → match m s with
    | .ok a t => Q a t
    | .error e t => E e t

variable {P P' : State → Prop} {Q Q' : α → State → Prop} {E E' : Exit → State → Prop}

theorem Triple.bind {R : β → State → Prop} {m : Act α} {f : α → Act β} (h1 : Triple P m Q E)
    (h2 : ∀ a, Triple (Q a) (f a) R E) : Triple P (m >>= f) R E := by
  intro s hs
  have := h1 s hs
  rw [bind_apply]
  cases hm : m s with
  | ok a t => rw [hm] at this; exact h2 a t this
  | error e t => rw [hm] at this; exact this

theorem Triple.conseq {m : Act α} (h : Triple P m Q E) (hp : ∀ s, P' s → P s) (hq : ∀ a s, Q a s → Q' a s)
    (he : ∀ e s, E e s → E' e s) : Triple P' m Q' E' := by
  intro s hs
  have := h s (hp s hs)
  cases hm : m s with
  | ok a t => rw [hm] at this; exact hq a t this
  | error e t => rw [hm] at this; exact he e t this

theorem Triple.pure (a : α) (h : ∀ s, P s → Q a s) : Triple P (Pure.pure a : Act α) Q E := h

theorem Triple.nop {Q : Unit → State → Prop} (h : ∀ s, P s → Q () s) : Triple P nop Q E := h

theorem Triple.ask {Q : State → State → Prop} (h : ∀ s, P s → Q s s) : Triple P ask Q E := h

theorem Triple.upd {Q : Unit → State → Prop} (f : State → State) (h : ∀ s, P s → Q () (f s)) :
    Triple P (upd f) Q E := h

theorem Triple.updCtl {Q : Unit → State → Prop} (f : Controller → Controller)
    (h : ∀ s, P s → Q () (s.mapCtl f)) : Triple P (updCtl f) Q E := h

theorem Triple.leave (e : Exit) (h : ∀ s, P s → E e s) : Triple P (leave e : Act α) Q E := h

theorem Triple.ite {c : Prop} [Decidable c] {m n : Act α} (h1 : c → Triple P m Q E) (h2 : ¬ c → Triple P n Q E) :
    Triple P (if c then m else n) Q E := by
  split
  · exact h1 ‹_›
  · exact h2 ‹_›

/-- `ask` followed by the rest, which then knows the state it runs from. -/
theorem Triple.askThen {f : State → Act α} (h : ∀ s0, P s0 → Triple (fun s => s = s0) (f s0) Q E) :
    Triple P (Machine.ask >>= f) Q E := fun s hs => h s hs s rfl

/-! ### What a bus action does: nothing to the controller, and device moves only -/

/-- One move of the device: it takes a byte or starts a frame, moves its read address, completes, or a
frame that ends takes effect (rules R141 to R157, R162). -/
inductive DeviceMove (c : Config) (d : Device) : Device → Prop
  | fb (x : List Byte) : DeviceMove c d { d with fb := x }
  | daddr (x : CursorWord) : DeviceMove c d { d with daddr := x }
  | complete (busy : d.dbusy = true) : DeviceMove c d (completed d)
  | latch (busy : d.dbusy = false) : DeviceMove c d { d with dwel := true }
  | erase (busy : d.dbusy = false) (latch : d.dwel = true) : DeviceMove c d (startErase d)
  | program (a : FlashAddr) (bytes : List Byte) (busy : d.dbusy = false) (latch : d.dwel = true)
      (some : bytes ≠ []) (legal : programIllegal c a bytes = false) :
      DeviceMove c d { d with dbusy := true, dpend := .prog a bytes }

/-- Any number of device moves. -/
inductive DeviceReach (c : Config) (d : Device) : Device → Prop
  | refl : DeviceReach c d d
  | tail {d' d'' : Device} (reach : DeviceReach c d d') (move : DeviceMove c d' d'') : DeviceReach c d d''

theorem DeviceReach.trans {c : Config} {d d' d'' : Device} (h1 : DeviceReach c d d') (h2 : DeviceReach c d' d'') :
    DeviceReach c d d'' := by
  induction h2 with
  | refl => exact h1
  | tail _ m ih => exact ih.tail m

theorem DeviceMove.reach {c : Config} {d d' : Device} (h : DeviceMove c d d') : DeviceReach c d d' := .tail .refl h

/-- What every device move keeps, any number of them keeps. -/
theorem DeviceReach.keeps {D : Device → Prop} {c : Config} {d d' : Device} (h : DeviceReach c d d')
    (hD : ∀ d d', DeviceMove c d d' → D d → D d') (hd : D d) : D d' := by
  induction h with
  | refl => exact hd
  | tail _ m ih => exact hD _ _ m ih

/-- The host reads that `t` has beyond `s` each saw what its register held in some `k` with `C` (rule R33). -/
def SeenIn (C : Controller → Prop) (s t : State) : Prop :=
  ∃ new, t.env.seen = s.env.seen ++ new ∧ ∀ x ∈ new, ∃ k, C k ∧ x.2 = hostRead x.1 k

section
variable {C D : Controller → Prop} {s t u : State}

theorem SeenIn.same (h : t.env.seen = s.env.seen) : SeenIn C s t := ⟨[], by simp [h], by simp⟩

theorem SeenIn.trans (h1 : SeenIn C s t) (h2 : SeenIn C t u) : SeenIn C s u := by
  obtain ⟨n1, e1, a1⟩ := h1
  obtain ⟨n2, e2, a2⟩ := h2
  refine ⟨n1 ++ n2, by rw [e2, e1, List.append_assoc], fun x hx => ?_⟩
  rcases List.mem_append.mp hx with h | h
  · exact a1 x h
  · exact a2 x h

theorem SeenIn.mono (h : SeenIn C s t) (hc : ∀ k, C k → D k) : SeenIn D s t := by
  obtain ⟨n, e, a⟩ := h
  exact ⟨n, e, fun x hx => (a x hx).imp fun k h => ⟨hc k h.1, h.2⟩⟩

end

/-- The parameters, the controller's registers and the inbox are unchanged, the host saw only those
registers, no reset becomes due, and the device made moves of its own. -/
structure Unmoved (s t : State) : Prop where
  cfg     : t.cfg = s.cfg
  ctl     : t.ctl = s.ctl
  inbox   : t.env.inbox = s.env.inbox
  seen    : SeenIn (· = s.ctl) s t
  noReset : NoResetDue s → NoResetDue t
  dev     : DeviceReach s.cfg s.dev t.dev

theorem Unmoved.refl (s : State) : Unmoved s s := ⟨rfl, rfl, rfl, .same rfl, id, .refl⟩

theorem Unmoved.trans {s t u : State} (h1 : Unmoved s t) (h2 : Unmoved t u) : Unmoved s u :=
  ⟨h2.cfg.trans h1.cfg, h2.ctl.trans h1.ctl, h2.inbox.trans h1.inbox,
    h1.seen.trans (h2.seen.mono fun _ h => h.trans h1.ctl), fun h => h2.noReset (h1.noReset h),
    h1.dev.trans (h1.cfg ▸ h2.dev)⟩

/-- From `s`, an action of the bus and the device alone: it does not wait, and is cut short by a reset
only if one was due. -/
def BusOnlyAt (s : State) (m : Act α) : Prop :=
  match m s with
  | .ok _ t => Unmoved s t
  | .error e t => Unmoved s t ∧ e ≠ .suspended ∧ (NoResetDue s → e ≠ .resetArrived)

/-- An action of the bus and the device alone, from every state. -/
def BusOnly (m : Act α) : Prop := ∀ s, BusOnlyAt s m

theorem BusOnly.bind {m : Act α} {f : α → Act β} (h1 : BusOnly m) (h2 : ∀ a, BusOnly (f a)) :
    BusOnly (m >>= f) := by
  intro s
  have a1 := h1 s
  unfold BusOnlyAt at a1 ⊢
  rw [bind_apply]
  cases hm : m s with
  | error e t => rw [hm] at a1; exact a1
  | ok a t =>
    rw [hm] at a1
    have a2 := h2 a t
    unfold BusOnlyAt at a2
    simp only
    cases hf : f a t with
    | ok b u => rw [hf] at a2; exact a1.trans a2
    | error e u =>
      rw [hf] at a2
      exact ⟨a1.trans a2.1, a2.2.1, fun h => a2.2.2 (a1.noReset h)⟩

theorem BusOnly.pure (a : α) : BusOnly (Pure.pure a : Act α) := Unmoved.refl
theorem BusOnly.nop : BusOnly nop := Unmoved.refl
theorem BusOnly.ask : BusOnly ask := Unmoved.refl
theorem BusOnly.upd {f : State → State} (h : ∀ s, Unmoved s (f s)) : BusOnly (upd f) := h
theorem BusOnly.fault (f : Fault) : BusOnly (leave (.fault f) : Act α) :=
  fun s => ⟨Unmoved.refl s, by simp, by simp⟩
theorem BusOnly.ite {c : Prop} [Decidable c] {m n : Act α} (h1 : BusOnly m) (h2 : BusOnly n) :
    BusOnly (if c then m else n) := by split <;> assumption

/-- `ask` followed by the rest, which then knows the state it runs from. -/
theorem BusOnly.askThen {f : State → Act α} (h : ∀ s, BusOnlyAt s (f s)) : BusOnly (Machine.ask >>= f) := h

theorem BusOnlyAt.nop {s : State} : BusOnlyAt s nop := Unmoved.refl s
theorem BusOnlyAt.fault {s : State} (f : Fault) : BusOnlyAt s (leave (.fault f) : Act α) :=
  ⟨Unmoved.refl s, by simp, by simp⟩
theorem BusOnlyAt.upd {s : State} {f : State → State} (h : Unmoved s (f s)) : BusOnlyAt s (Machine.upd f) := h
theorem BusOnlyAt.ite {s : State} {c : Prop} [Decidable c] {m n : Act α} (h1 : c → BusOnlyAt s m)
    (h2 : ¬ c → BusOnlyAt s n) : BusOnlyAt s (if c then m else n) := by
  split
  · exact h1 ‹_›
  · exact h2 ‹_›

theorem Unmoved.mapDev {s : State} {f : Device → Device} (h : DeviceMove s.cfg s.dev (f s.dev)) :
    Unmoved s (s.mapDev f) := ⟨rfl, rfl, rfl, .same rfl, id, h.reach⟩
theorem Unmoved.mapBus (s : State) (f : Bus → Bus) : Unmoved s (s.mapBus f) := ⟨rfl, rfl, rfl, .same rfl, id, .refl⟩
theorem Unmoved.draw (s : State) (n : Nat) : Unmoved s (s.mapEnv fun e => { e with drawCount := n }) :=
  ⟨rfl, rfl, rfl, .same rfl, id, .refl⟩
theorem Unmoved.deviceTurn (s : State) : Unmoved s (deviceTurn s) := by
  refine ⟨by simp, by simp, by simp, .same (by simp), by simp [NoResetDue], ?_⟩
  rw [deviceTurn_dev]
  split
  · exact (DeviceMove.complete (And.left ‹_›)).reach
  · exact .refl

/-- A micro-position changes only what is due and what was seen, and the host saw the registers as they
are. -/
structure Looked (s t : State) : Prop where
  cfg   : t.cfg = s.cfg
  ctl   : t.ctl = s.ctl
  bus   : t.bus = s.bus
  dev   : t.dev = s.dev
  env   : t.env = { s.env with due := t.env.due, seen := t.env.seen }
  seen  : SeenIn (· = s.ctl) s t

/-- What is due at a micro-position is served there (rules R33, R341): nothing moves but what is due and what
was seen, and the step ends only for a reset that is due. -/
theorem serve_looked (due : List Due) (s : State) :
    match serve due s with
    | .ok _ t => Looked s t ∧ ((∀ d ∈ due, d.what ≠ .reset) → NoResetDue s → NoResetDue t)
    | .error e t => Looked s t ∧ e = .resetArrived ∧ ¬ ∀ d ∈ due, d.what ≠ .reset := by
  induction due generalizing s with
  | nil => exact ⟨⟨rfl, rfl, rfl, rfl, rfl, .same rfl⟩, fun _ h => h⟩
  | cons d rest ih =>
    obtain ⟨n, what⟩ := d
    cases n with
    | succ n => exact ⟨⟨rfl, rfl, rfl, rfl, rfl, .same rfl⟩, fun h _ => by simpa [NoResetDue] using h⟩
    | zero =>
      cases what with
      | reset => exact ⟨⟨rfl, rfl, rfl, rfl, rfl, .same rfl⟩, rfl, by simp⟩
      | read r =>
        have := ih (s.mapEnv fun e => { e with due := rest, seen := e.seen ++ [(r, hostRead r s.ctl)] })
        have h0 : SeenIn (· = s.ctl) s
            (s.mapEnv fun e => { e with due := rest, seen := e.seen ++ [(r, hostRead r s.ctl)] }) :=
          ⟨[(r, hostRead r s.ctl)], rfl, by simp⟩
        simp only [serve]
        cases hm : serve rest (s.mapEnv fun e => { e with due := rest, seen := e.seen ++ [(r, hostRead r s.ctl)] }) <;>
          rw [hm] at this
        · refine ⟨⟨this.1.cfg, this.1.ctl, this.1.bus, this.1.dev, this.1.env, h0.trans this.1.seen⟩, fun h _ => ?_⟩
          have hr : ∀ d ∈ rest, d.what ≠ .reset := fun d hd => h d (List.mem_cons_of_mem _ hd)
          exact this.2 hr hr
        · exact ⟨⟨this.1.cfg, this.1.ctl, this.1.bus, this.1.dev, this.1.env, h0.trans this.1.seen⟩, this.2.1,
            fun h => this.2.2 fun d hd => h d (List.mem_cons_of_mem _ hd)⟩

/-- See `serve_looked`. -/
theorem tick_looked (s : State) :
    match tick s with
    | .ok _ t => Looked s t ∧ (NoResetDue s → NoResetDue t)
    | .error e t => Looked s t ∧ e = .resetArrived ∧ ¬ NoResetDue s := by
  have := serve_looked s.env.due s
  unfold tick
  cases hm : serve s.env.due s <;> rw [hm] at this
  · exact ⟨this.1, fun h => this.2 h h⟩
  · exact this

theorem Looked.unmoved {s t : State} (h : Looked s t) (hr : NoResetDue s → NoResetDue t) : Unmoved s t :=
  ⟨h.cfg, h.ctl, by rw [h.env], h.seen, hr, h.dev ▸ .refl⟩

theorem busOnly_tick : BusOnly tick := by
  intro s
  have := tick_looked s
  unfold BusOnlyAt
  cases hm : tick s <;> rw [hm] at this
  · exact this.1.unmoved this.2
  · obtain ⟨h, rfl, hr⟩ := this
    exact ⟨h.unmoved fun h => absurd h hr, by simp, fun h => absurd h hr⟩

theorem busOnly_drawRx : BusOnly drawRx :=
  .bind (fun _ => Unmoved.draw _ _) fun _ => .pure _

theorem busOnly_deviceOut (k : Nat) : BusOnly (deviceOut k) := by
  refine .bind .ask fun s => .ite busOnly_drawRx (.ite busOnly_drawRx ?_)
  split
  · exact .ite (.bind (fun _ => Unmoved.draw _ _) fun _ => .bind .ask fun _ => .pure _) busOnly_drawRx
  · exact .ite (.pure _) (.ite (.pure _) busOnly_drawRx)
  · refine .ite ?_ (.ite (.bind (.upd fun s => .mapDev ?_) fun _ => busOnly_drawRx) busOnly_drawRx)
    · exact .bind .ask fun _ => .ite (.fault _) (.bind (.upd fun s => .mapDev (.daddr _)) fun _ => .pure _)
    · unfold latchReadAddr
      split
      · exact .daddr _
      · exact .fb s.dev.fb
  · exact busOnly_drawRx

theorem busOnly_endFrame : BusOnly endFrame := by
  refine .askThen fun s => .ite (fun _ => .nop) fun hr => ?_
  have idle : frameCommand s.dev ≠ some .rdsr → s.dev.dbusy = false := by
    intro h
    simpa [refusedFrame, h] using hr
  split
  · exact .ite (fun _ => .upd (.mapDev (.latch (idle (by simp [*]))))) fun _ => .nop
  · exact .ite (fun h => .upd (.mapDev (.erase (idle (by simp [*])) h.2))) fun _ => .nop
  · split
    · refine .ite (fun hw => ?_) fun _ => .nop
      show BusOnlyAt s (if programIllegal s.cfg _ _ then _ else _)
      exact .ite (fun _ => .fault _) fun hl =>
        .upd (.mapDev (.program _ _ (idle (by simp [*])) hw (by simp) (by simpa using hl)))
    · exact .nop
  · exact .nop

theorem busOnly_select : BusOnly select :=
  .bind busOnly_tick fun _ => .bind .ask fun _ => .ite (.fault _) <|
    .bind (.upd Unmoved.deviceTurn) fun _ => .bind (.upd fun s => .mapBus s _) fun _ =>
      .ite (.upd fun _ => .mapDev (.fb _)) .nop

theorem busOnly_xfer (t : Byte) : BusOnly (xfer t) := by
  refine .bind busOnly_tick fun _ => .bind .ask fun _ => .ite (.bind ?_ fun _ =>
    .bind (.upd fun s => .mapBus s _) fun _ => .pure _) (.fault _)
  exact .ite (.bind .ask fun _ => .bind (.upd fun _ => .mapDev (.fb _)) fun _ => busOnly_deviceOut _) (.pure _)

theorem busOnly_releaseCs : BusOnly releaseCs :=
  .bind (.upd fun s => .mapBus s _) fun _ => .bind .ask fun _ => .ite busOnly_endFrame .nop

theorem busOnly_deselect : BusOnly deselect :=
  .bind busOnly_tick fun _ => .bind .ask fun _ => .ite busOnly_releaseCs (.fault _)

theorem busOnly_xferAll (ts : List Byte) : BusOnly (xferAll ts) := by
  induction ts with
  | nil => exact .pure _
  | cons t ts ih => exact .bind (busOnly_xfer t) fun _ => ih

theorem busOnly_frame (bytes : List Byte) : BusOnly (frame bytes) :=
  .bind busOnly_select fun _ => .bind (busOnly_xferAll _) fun _ => busOnly_deselect

theorem busOnly_openRead (a : FlashAddr) : BusOnly (openRead a) :=
  .bind busOnly_select fun _ => .bind (busOnly_xfer _) fun _ => busOnly_xferAll _

theorem busOnly_issueRead (a : FlashAddr) (n : Nat) : BusOnly (issueRead a n) :=
  .bind (busOnly_openRead a) fun _ => .bind (busOnly_xferAll _) fun _ => busOnly_deselect

theorem busOnly_issuePp (a : FlashAddr) (bytes : List Byte) : BusOnly (issuePp a bytes) :=
  .bind busOnly_select fun _ => .bind (busOnly_xfer _) fun _ => .bind (busOnly_xferAll _) fun _ =>
    .bind (busOnly_xferAll _) fun _ => busOnly_deselect

theorem busOnly_issueRdid : BusOnly issueRdid :=
  .bind busOnly_select fun _ => .bind (busOnly_xfer _) fun _ => .bind (busOnly_xferAll _) fun _ =>
    .bind (busOnly_xfer _) fun _ => .bind (busOnly_xfer _) fun _ => .bind busOnly_deselect fun _ => .pure _

/-- The bus part of a status read. -/
theorem busOnly_rdsr : BusOnly (do
    select
    let _ ← xfer Command.rdsr.byte
    let r ← xfer dummyTx
    deselect
    return r : Act Rx) :=
  .bind busOnly_select fun _ => .bind (busOnly_xfer _) fun _ => .bind (busOnly_xfer _) fun _ =>
    .bind busOnly_deselect fun _ => .pure _

/-- A bus action keeps what is about the controller and the parameters alone. -/
theorem BusOnly.triple {m : Act α} (h : BusOnly m) (hP : ∀ s t, Unmoved s t → P s → P t)
    (hE : ∀ e s t, Unmoved s t → P s → e ≠ .suspended → (NoResetDue s → e ≠ .resetArrived) → E e t) :
    Triple P m (fun _ => P) E := by
  intro s hs
  have := h s
  unfold BusOnlyAt at this
  cases hm : m s with
  | ok a t => rw [hm] at this; exact hP s t this hs
  | error e t => rw [hm] at this; exact hE e s t this.1 hs this.2.1 this.2.2

/-- A label moves `MPC` and serves what is due there. -/
theorem Triple.label {p : MicroPos} {Q : Unit → State → Prop} (h : Triple (fun s => ∃ s0, P s0 ∧ s = s0.atLabel p) tick Q E) :
    Triple P (label p) Q E := fun s hs => h (s.atLabel p) ⟨s, hs, rfl⟩

/-! ### A frame instruction is one frame of its bytes -/

theorem xferAll_append (xs ys : List Byte) : xferAll (xs ++ ys) = (do xferAll xs; xferAll ys : Act Unit) := by
  induction xs with
  | nil => simp [xferAll]
  | cons x xs ih => simp [xferAll, ih]

theorem issueRead_frame (a : FlashAddr) (n : Nat) : issueRead a n = frame (readFrame a n) := by
  have h : dummies n = List.replicate n 0x00 := rfl
  simp [issueRead, openRead, frame, readFrame, xferAll, xferAll_append, h, Command.byte]

theorem issuePp_frame (a : FlashAddr) (bytes : List Byte) : issuePp a bytes = frame (ppFrame a bytes) := by
  simp [issuePp, frame, ppFrame, xferAll, xferAll_append, Command.byte]

theorem issueRdid_frame : (do let _ ← issueRdid; nop : Act Unit) = frame rdidFrame := by
  have h : addrBytes rdidAddr = [0x00, 0x00, 0x00] := by decide
  simp [issueRdid, frame, rdidFrame, xferAll, h, Command.byte, dummyTx, nop]

/-- Every frame instruction but RDSR puts exactly the bytes of its code on the wire (rules R100, R125). -/
theorem exec_frame {i : Instr} {bytes : List Byte} (h : encode i = .frame bytes) (hi : i ≠ .rdsr) (s : State) :
    exec i s = putFrame (frame bytes) s := by
  cases i <;> simp [encode] at h <;> subst h
  case rdid => simp only [exec, execRdid, issueRdid_frame]; rfl
  case wren => rfl
  case rdsr => exact absurd rfl hi
  case ce => rfl
  case read a n => simp only [exec, execRead, issueRead_frame]; rfl
  case pp a b => simp only [exec, execPp, issuePp_frame]; rfl

/-- A complete frame that a busy device refuses (rule R142). -/
theorem frame_refused {s : State} {c : Byte} (rest : List Byte) (hcmd : commandOf c ≠ some .rdsr) (h : BusFree s)
    (hp : s.cfg.present = true) (hb : (deviceTurn s).dev.dbusy = true) :
    frame (c :: rest) s = .ok () (afterDraws (deviceTurn s) (c :: rest) { (deviceTurn s).dev with fb := c :: rest }) := by
  rw [frame, bind_ok (select_free h.1 h.2)]
  simp only [hp, if_true, xferAll]
  have href : ∀ ts, refusedFrame { (deviceTurn s).dev with fb := c :: ts } = true := by
    intro ts; simpa [refusedFrame, hb, frameCommand] using hcmd
  have hrd : ReturnsDraw { (deviceTurn s).dev with fb := [c] } := ⟨by simp, Or.inl (href [])⟩
  simp only [bind_assoc]
  rw [bind_ok (xfer_command (by rfl) (by simpa using h.2) (by simpa using hp) (by rfl))]
  rw [bind_ok (xferAll_returnsDraw _ (by rfl) (by simpa using h.2) (by simpa using hp) (by exact hrd))]
  rw [deselect_present (by rfl) (by simpa using h.2) (by simpa using hp)]
  have hlen : ∀ n k, Rx.byte (Config.freeByte n) :: drawn (n + 1) k = drawn n (k + 1) := fun n k => by
    simp [drawn, List.range'_succ]
  simp [endFrame, bind_apply, href, afterDraws, hlen]
  omega

/-- A sequential read that passes `END_ADDR` is the fault `DEVICE_UNMODELLED` (rule R152). -/
theorem xferAll_reading_past {s : State} {a : Nat} (ts : List Byte) (h : Reading s a)
    (ha : a + ts.length > size s.cfg) (hn : ts ≠ []) :
    ∃ t, xferAll ts s = .error (.fault .deviceUnmodelled) t := by
  induction ts generalizing s a with
  | nil => exact absurd rfl hn
  | cons t ts ih =>
    have hsz : size s.cfg = endAddr s.cfg + 1 := rfl
    by_cases hle : a ≤ endAddr s.cfg
    · obtain ⟨h1, h2⟩ := xfer_reading (t := t) h hle
      simp only [List.length_cons] at ha
      have hne : ts ≠ [] := by rintro rfl; simp at ha; omega
      rw [xferAll, bind_ok h1]
      exact ih h2 (by show a + 1 + ts.length > size s.cfg; omega) hne
    · obtain ⟨b1, b2, b3, rest, hf⟩ := h.command
      have : ∃ u, xfer t s = .error (.fault .deviceUnmodelled) u := by
        simp [xfer, bind_apply, tick, h.noReset, h.cs, h.present, deviceExchange, deviceOut, hf, refusedFrame,
          frameCommand, commandOf, h.idle, readNext, h.address, Nat.lt_of_not_le hle, State.mapDev]
      obtain ⟨u, hu⟩ := this
      exact ⟨u, by rw [xferAll, bind_error hu]⟩

end Sys2Proof.Machine
end

