-- ==== Sys2Proof/Laws/Resets.lean ====
section
/-!
SUPPORT. What comes from outside in the middle of things: the ways a step can end, with the external
reset (rules R340, R341), and that host reads change nothing (rule R33): an action which no reset
cuts short runs as it does with nothing due (`Erasable`).
-/

namespace Sys2Proof.Machine

variable {α β : Type}

/-! ### How a step ends -/

/-- The reset itself ends at once, or with the device's fault. -/
theorem resetController_exit : Triple (fun _ => True) resetController (fun _ _ => True)
    (fun e _ => e = .fault .deviceUnmodelled) := by
  have hend : Triple (fun _ => True) endFrame (fun _ _ => True) (fun e _ => e = .fault .deviceUnmodelled) := by
    refine .bind (Q := fun _ _ => True) (.ask fun _ h => h) fun s => .ite (fun _ => .nop fun _ h => h) fun _ => ?_
    split
    · exact .ite (fun _ => .upd _ fun _ h => h) fun _ => .nop fun _ h => h
    · exact .ite (fun _ => .upd _ fun _ h => h) fun _ => .nop fun _ h => h
    · split
      · exact .ite (fun _ => .bind (Q := fun _ _ => True) (.ask fun _ h => h) fun _ =>
          .ite (fun _ => .leave _ fun _ _ => rfl) fun _ => .upd _ fun _ h => h) fun _ => .nop fun _ h => h
      · exact .nop fun _ h => h
    · exact .nop fun _ h => h
  have hrel : Triple (fun _ => True) releaseCs (fun _ _ => True) (fun e _ => e = .fault .deviceUnmodelled) :=
    .bind (Q := fun _ _ => True) (.upd _ fun _ h => h) fun _ => .bind (Q := fun _ _ => True) (.ask fun _ h => h)
      fun _ => .ite (fun _ => hend) fun _ => .nop fun _ h => h
  exact .bind (Q := fun _ _ => True) (.ask fun _ h => h) fun _ =>
    .ite (fun _ => .bind hrel fun _ => .upd _ fun _ h => h) fun _ => .upd _ fun _ h => h

theorem afterReset_next {s t : State} (h : afterReset s = .next t) : resetController s = .ok () t := by
  have hx := resetController_exit s trivial
  unfold afterReset at h
  cases hr : resetController s with
  | ok a u => rw [hr] at h; cases h; rfl
  | error e u => rw [hr] at h hx; subst hx; cases h

theorem afterReset_fault {s : State} {f : Fault} (h : afterReset s = .fault f) :
    ∃ t, resetController s = .error (.fault f) t := by
  unfold afterReset at h
  cases hr : resetController s with
  | ok a u => rw [hr] at h; cases h
  | error e u => cases e <;> rw [hr] at h <;> cases h; exact ⟨u, rfl⟩

theorem runAct_next {m : Act Unit} {s t : State} (h : runAct m s = .next t) :
    m s = .ok () t ∨ m s = .error .suspended t ∨
      ∃ u, m s = .error .resetArrived u ∧ resetController u = .ok () t := by
  unfold runAct at h
  cases hm : m s with
  | ok a u => rw [hm] at h; cases h; exact .inl rfl
  | error e u =>
    cases e <;> rw [hm] at h <;> simp only at h
    · cases h; exact .inr (.inl rfl)
    · exact .inr (.inr ⟨u, rfl, afterReset_next h⟩)
    · cases h

/-- What a triple says about a step. -/
theorem runAct_triple {P Q R : State → Prop} {m : Act Unit}
    (h : Triple P m (fun _ => Q) (fun e s => (e = .suspended → Q s) ∧ (e = .resetArrived → R s)))
    (hr : Triple R resetController (fun _ => Q) (fun _ _ => True)) {s t : State} (hs : P s)
    (ht : runAct m s = .next t) : Q t := by
  have h1 := h s hs
  rcases runAct_next ht with hm | hm | ⟨u, hm, hu⟩ <;> rw [hm] at h1
  · exact h1
  · exact h1.1 rfl
  · have := hr u (h1.2 rfl)
    rw [hu] at this
    exact this

theorem request_next {w : HostWord} {body : Act Unit} {s t : State} (h : request w body s = .next t) :
    s.ctl.seq = .idle ∧ runAct body (s.mapCtl (accepted w)) = .next t := by
  cases hs : s.ctl.seq
  · exact ⟨rfl, (request_idle hs).symm.trans h⟩
  · simp [request, hs] at h
  · simp [request, hs] at h

theorem putFrame_next {body : Act Unit} {s t : State} (h : putFrame body s = .next t) :
    s.ctl.seq ≠ .halted ∧ runAct body s = .next t := by
  cases hs : s.ctl.seq <;> simp [putFrame, hs] at h ⊢ <;> exact h

/-! ### Reads in the middle of things -/

/-- The state with other interruptions due and other reads seen. -/
def State.watch (s : State) (d : List Due) (w : List (HostReg × BitVec 32)) : State :=
  s.mapEnv fun e => { e with due := d, seen := w }

section
variable (s : State) (d : List Due) (w : List (HostReg × BitVec 32))
@[simp] theorem watch_cfg : (s.watch d w).cfg = s.cfg := rfl
@[simp] theorem watch_ctl : (s.watch d w).ctl = s.ctl := rfl
@[simp] theorem watch_bus : (s.watch d w).bus = s.bus := rfl
@[simp] theorem watch_dev : (s.watch d w).dev = s.dev := rfl
@[simp] theorem watch_due : (s.watch d w).env.due = d := rfl
@[simp] theorem watch_seen : (s.watch d w).env.seen = w := rfl
@[simp] theorem unwatched_cfg : s.unwatched.cfg = s.cfg := rfl
@[simp] theorem unwatched_ctl : s.unwatched.ctl = s.ctl := rfl
@[simp] theorem unwatched_bus : s.unwatched.bus = s.bus := rfl
@[simp] theorem unwatched_dev : s.unwatched.dev = s.dev := rfl
@[simp] theorem unwatched_due : s.unwatched.env.due = [] := rfl
@[simp] theorem unwatched_inbox : s.unwatched.env.inbox = s.env.inbox := rfl
@[simp] theorem unwatched_drawCount : s.unwatched.env.drawCount = s.env.drawCount := rfl
@[simp] theorem unwatched_turns : s.unwatched.env.turns = s.env.turns := rfl
@[simp] theorem unwatched_unwatched : s.unwatched.unwatched = s.unwatched := rfl
@[simp] theorem unwatched_mapCtl (f) : (s.mapCtl f).unwatched = s.unwatched.mapCtl f := rfl
@[simp] theorem unwatched_popInbox : (popInbox s).unwatched = popInbox s.unwatched := rfl
end

theorem deviceTurn_watch (s : State) (d w) : deviceTurn (s.watch d w) = (deviceTurn s).watch d w := by
  cases hb : s.dev.dbusy <;> cases ht : turnTaken s <;>
    simp_all [deviceTurn, turnTaken, State.watch, State.mapDev, State.mapEnv]

theorem deviceTurn_unwatched (s : State) : deviceTurn s.unwatched = (deviceTurn s).unwatched :=
  deviceTurn_watch s [] []

@[simp] theorem turnTaken_unwatched (s : State) : turnTaken s.unwatched = turnTaken s := rfl

theorem Looked.unwatched {s t : State} (h : Looked s t) : t.unwatched = s.unwatched := by
  obtain ⟨h1, h2, h3, h4, h5, -⟩ := h
  obtain ⟨c, k, b, d, e⟩ := t
  cases h1; cases h2; cases h3; cases h4
  simp only at h5
  rw [h5]
  rfl

/-- A result with other interruptions due and other reads seen. -/
def resultWatch (d : List Due) (w : List (HostReg × BitVec 32)) :
    EStateM.Result Exit State α → EStateM.Result Exit State α
  | .ok a t => .ok a (t.watch d w)
  | .error e t => .error e (t.watch d w)

/-- The action does not look at what is due or was seen. -/
def Blind (m : Act α) : Prop := ∀ d w s, m (s.watch d w) = resultWatch d w (m s)

theorem Blind.bind {m : Act α} {f : α → Act β} (h1 : Blind m) (h2 : ∀ a, Blind (f a)) : Blind (m >>= f) := by
  intro d w s
  rw [bind_apply, bind_apply, h1 d w s]
  cases m s with
  | ok a t => exact h2 a d w t
  | error e t => rfl

theorem Blind.askThen {f : State → Act α} (h1 : ∀ s d w, f (s.watch d w) = f s) (h2 : ∀ s, Blind (f s)) :
    Blind (ask >>= f) := by
  intro d w s
  show f (s.watch d w) (s.watch d w) = _
  rw [h1]
  exact h2 s d w s

theorem Blind.pure (a : α) : Blind (Pure.pure a : Act α) := fun _ _ _ => rfl
theorem Blind.nop : Blind nop := fun _ _ _ => rfl
theorem Blind.leave (e : Exit) : Blind (leave e : Act α) := fun _ _ _ => rfl
theorem Blind.upd {f : State → State} (h : ∀ s d w, f (s.watch d w) = (f s).watch d w) : Blind (upd f) :=
  fun d w s => congrArg (EStateM.Result.ok ()) (h s d w)
theorem Blind.updCtl (f : Controller → Controller) : Blind (updCtl f) := fun _ _ _ => rfl
theorem Blind.ite {c : Prop} [Decidable c] {m n : Act α} (h1 : Blind m) (h2 : Blind n) :
    Blind (if c then m else n) := by split <;> assumption

theorem blind_drawRx : Blind drawRx := .bind (fun _ _ _ => rfl) fun _ => .pure _

theorem blind_deviceOut (k : Nat) : Blind (deviceOut k) := by
  refine .askThen (fun _ _ _ => rfl) fun s => .ite blind_drawRx (.ite blind_drawRx ?_)
  split
  · exact .ite (.bind (fun _ _ _ => rfl) fun _ => .askThen (fun _ _ _ => rfl) fun _ => .pure _) blind_drawRx
  · exact .ite (.pure _) (.ite (.pure _) blind_drawRx)
  · refine .ite ?_ (.ite (.bind (.upd fun _ _ _ => rfl) fun _ => blind_drawRx) blind_drawRx)
    exact .askThen (fun _ _ _ => rfl) fun _ => .ite (.leave _) (.bind (.upd fun _ _ _ => rfl) fun _ => .pure _)
  · exact blind_drawRx

theorem blind_endFrame : Blind endFrame := by
  refine .askThen (fun _ _ _ => rfl) fun s => .ite .nop ?_
  split
  · exact .ite (.upd fun _ _ _ => rfl) .nop
  · exact .ite (.upd fun _ _ _ => rfl) .nop
  · split
    · exact .ite (.askThen (fun _ _ _ => rfl) fun _ => .ite (.leave _) (.upd fun _ _ _ => rfl)) .nop
    · exact .nop
  · exact .nop

theorem blind_releaseCs : Blind releaseCs :=
  .bind (.upd fun _ _ _ => rfl) fun _ => .askThen (fun _ _ _ => rfl) fun _ => .ite blind_endFrame .nop

/-- The parts of the bus primitives after their micro-position. -/
theorem blind_primitives :
    (Blind (do
      let s ← ask
      if s.bus.cs then Machine.leave (.fault .busProtocol)
      else do
        Machine.upd deviceTurn
        Machine.upd fun s => s.mapBus fun b => { b with cs := true, mosi := [], miso := [] }
        if s.cfg.present then Machine.upd fun s => s.mapDev fun d => { d with fb := [] } else Machine.nop : Act Unit)) ∧
    (∀ t, Blind (do
      let s ← ask
      if s.bus.cs then do
        let r ← (if s.cfg.present then deviceExchange t else Pure.pure (.byte absentByte) : Act Rx)
        Machine.upd fun s => s.mapBus fun b => { b with mosi := b.mosi ++ [t], miso := b.miso ++ [r] }
        return r
      else Machine.leave (.fault .busProtocol) : Act Rx)) ∧
    Blind (do
      let s ← ask
      if s.bus.cs then releaseCs else Machine.leave (.fault .busProtocol) : Act Unit) := by
  refine ⟨.askThen (fun _ _ _ => rfl) fun s => .ite (.leave _) ?_,
    fun t => .askThen (fun _ _ _ => rfl) fun s => .ite ?_ (.leave _),
    .askThen (fun _ _ _ => rfl) fun _ => .ite blind_releaseCs (.leave _)⟩
  · exact .bind (.upd deviceTurn_watch) fun _ => .bind (.upd fun _ _ _ => rfl) fun _ =>
      .ite (.upd fun _ _ _ => rfl) .nop
  · refine .bind (.ite ?_ (.pure _)) fun _ => .bind (.upd fun _ _ _ => rfl) fun _ => .pure _
    exact .askThen (fun _ _ _ => rfl) fun _ => .bind (.upd fun _ _ _ => rfl) fun _ => blind_deviceOut _

theorem noResetDue_iff {s : State} : NoResetDue s ↔ resetsDue s = 0 := by
  simp [NoResetDue, resetsDue, List.countP_eq_zero]

/-- Unless a reset arrives, the action does what it does with no one looking, and every reset that was due
still is; one that arrives is taken off (rules R33, R341). -/
def Erasable (m : Act α) : Prop :=
  ∀ s, match m s with
    | .ok a t => m s.unwatched = .ok a t.unwatched ∧ resetsDue t = resetsDue s
    | .error .resetArrived t => resetsDue t < resetsDue s
    | .error e t => m s.unwatched = .error e t.unwatched ∧ resetsDue t = resetsDue s

theorem Erasable.bind {m : Act α} {f : α → Act β} (h1 : Erasable m) (h2 : ∀ a, Erasable (f a)) :
    Erasable (m >>= f) := by
  intro s
  have a1 := h1 s
  rw [bind_apply]
  cases hm : m s with
  | error e t =>
    rw [hm] at a1
    cases e
    · exact ⟨bind_error a1.1, a1.2⟩
    · exact a1
    · exact ⟨bind_error a1.1, a1.2⟩
  | ok a t =>
    rw [hm] at a1
    have a2 := h2 a t
    simp only
    cases hf : f a t with
    | ok b u => rw [hf] at a2; exact ⟨(bind_ok a1.1).trans a2.1, a2.2.trans a1.2⟩
    | error e u =>
      rw [hf] at a2
      cases e
      · exact ⟨(bind_ok a1.1).trans a2.1, a2.2.trans a1.2⟩
      · exact a1.2 ▸ a2
      · exact ⟨(bind_ok a1.1).trans a2.1, a2.2.trans a1.2⟩

theorem Erasable.askThen {f : State → Act α} (h1 : ∀ s, f s.unwatched = f s) (h2 : ∀ s, Erasable (f s)) :
    Erasable (ask >>= f) := by
  intro s
  have a := h2 s s
  show match f s s with
    | .ok a t => f s.unwatched s.unwatched = .ok a t.unwatched ∧ resetsDue t = resetsDue s
    | .error .resetArrived t => resetsDue t < resetsDue s
    | .error e t => f s.unwatched s.unwatched = .error e t.unwatched ∧ resetsDue t = resetsDue s
  rw [h1]
  exact a

theorem Erasable.pure (a : α) : Erasable (Pure.pure a : Act α) := fun _ => ⟨rfl, rfl⟩
theorem Erasable.nop : Erasable nop := .pure ()
theorem Erasable.leave {e : Exit} (h : e ≠ .resetArrived) : Erasable (leave e : Act α) := by
  intro s
  cases e
  · exact ⟨rfl, rfl⟩
  · exact absurd rfl h
  · exact ⟨rfl, rfl⟩
theorem Erasable.updCtl (f : Controller → Controller) : Erasable (updCtl f) := fun _ => ⟨rfl, rfl⟩
theorem Erasable.ite {c : Prop} [Decidable c] {m n : Act α} (h1 : Erasable m) (h2 : Erasable n) :
    Erasable (if c then m else n) := by split <;> assumption

/-- A blind action keeps the resets that are due. -/
theorem Blind.resets {m : Act α} (h : Blind m) (s : State) :
    match m s with
    | .ok _ t => resetsDue t = resetsDue s
    | .error _ t => resetsDue t = resetsDue s := by
  have h1 : m s = resultWatch s.env.due s.env.seen (m s) := h s.env.due s.env.seen s
  cases hm : m s <;> rw [hm] at h1
  all_goals
    injection h1 with _ h2
    rw [h2]; rfl

theorem Erasable.bus {m : Act α} (h : Blind m) (hb : BusOnly m) : Erasable m := by
  intro s
  have h1 : m s.unwatched = _ := h [] [] s
  have h2 := hb s.unwatched
  have h3 := h.resets s
  unfold BusOnlyAt at h2
  cases hm : m s with
  | ok a t => rw [hm] at h1 h3; exact ⟨h1, h3⟩
  | error e t =>
    rw [hm] at h1 h3
    rw [h1] at h2
    cases e
    · exact ⟨h1, h3⟩
    · exact absurd rfl (h2.2.2 (by simp [NoResetDue]))
    · exact ⟨h1, h3⟩

/-- What is served at a micro-position is taken off: reads alone, or reads and then the reset that arrives. -/
theorem serve_resets (due : List Due) (s : State) (hs : s.env.due = due) :
    match serve due s with
    | .ok _ t => resetsDue t = resetsDue s
    | .error _ t => resetsDue t < resetsDue s := by
  induction due generalizing s with
  | nil => rfl
  | cons d rest ih =>
    obtain ⟨n, what⟩ := d
    cases n with
    | succ n => simp [serve, resetsDue, hs, List.countP_cons]
    | zero =>
      cases what with
      | reset => simp [serve, resetsDue, hs]
      | read r =>
        have h0 : resetsDue s = resetsDue (s.mapEnv fun e =>
            { e with due := rest, seen := e.seen ++ [(r, hostRead r s.ctl)] }) := by
          simp [resetsDue, hs]
        rw [h0]
        exact ih _ rfl

theorem erasable_tick : Erasable tick := by
  intro s
  have h := tick_looked s
  have hr := serve_resets s.env.due s rfl
  have h0 : tick s.unwatched = .ok () s.unwatched := rfl
  change match tick s with
    | .ok _ t => resetsDue t = resetsDue s
    | .error _ t => resetsDue t < resetsDue s at hr
  cases hm : tick s <;> rw [hm] at h hr
  · exact ⟨by rw [h0, h.1.unwatched], hr⟩
  · obtain ⟨-, rfl, -⟩ := h
    exact hr

theorem erasable_label (p : MicroPos) : Erasable (label p) := .bind (.updCtl _) fun _ => erasable_tick

theorem erasable_endWith (code : Byte) : Erasable (endWith code) := .bind (erasable_label _) fun _ => .updCtl _

theorem erasable_select : Erasable select :=
  .bind erasable_tick fun _ => .bus blind_primitives.1 <| .bind .ask fun _ => .ite (.fault _) <|
    .bind (.upd Unmoved.deviceTurn) fun _ => .bind (.upd fun s => .mapBus s _) fun _ =>
      .ite (.upd fun _ => .mapDev (.fb _)) .nop

theorem erasable_xfer (t : Byte) : Erasable (xfer t) := by
  refine .bind erasable_tick fun _ => .bus (blind_primitives.2.1 t) (.bind .ask fun _ => .ite (.bind ?_ fun _ =>
    .bind (.upd fun s => .mapBus s _) fun _ => .pure _) (.fault _))
  exact .ite (.bind .ask fun _ => .bind (.upd fun _ => .mapDev (.fb _)) fun _ => busOnly_deviceOut _) (.pure _)

theorem erasable_deselect : Erasable deselect :=
  .bind erasable_tick fun _ => .bus blind_primitives.2.2 (.bind .ask fun _ => .ite busOnly_releaseCs (.fault _))

theorem erasable_xferAll (ts : List Byte) : Erasable (xferAll ts) := by
  induction ts with
  | nil => exact .pure _
  | cons t ts ih => exact .bind (erasable_xfer t) fun _ => ih

theorem erasable_frame (bytes : List Byte) : Erasable (frame bytes) :=
  .bind erasable_select fun _ => .bind (erasable_xferAll _) fun _ => erasable_deselect

theorem erasable_openRead (a : FlashAddr) : Erasable (openRead a) :=
  .bind erasable_select fun _ => .bind (erasable_xfer _) fun _ => erasable_xferAll _

theorem erasable_issueRead (a : FlashAddr) (n : Nat) : Erasable (issueRead a n) :=
  .bind (erasable_openRead a) fun _ => .bind (erasable_xferAll _) fun _ => erasable_deselect

theorem erasable_issuePp (a : FlashAddr) (bytes : List Byte) : Erasable (issuePp a bytes) :=
  .bind erasable_select fun _ => .bind (erasable_xfer _) fun _ => .bind (erasable_xferAll _) fun _ =>
    .bind (erasable_xferAll _) fun _ => erasable_deselect

theorem erasable_issueRdid : Erasable issueRdid :=
  .bind erasable_select fun _ => .bind (erasable_xfer _) fun _ => .bind (erasable_xferAll _) fun _ =>
    .bind (erasable_xfer _) fun _ => .bind (erasable_xfer _) fun _ => .bind erasable_deselect fun _ => .pure _

theorem erasable_readStatus : Erasable readStatus :=
  .bind erasable_select fun _ => .bind (erasable_xfer _) fun _ => .bind (erasable_xfer _) fun _ =>
    .bind erasable_deselect fun _ => .bind (.updCtl _) fun _ => .pure _

theorem erasable_awaitReady (here : Poll) (f : Controller → Controller) : Erasable (awaitReady here (updCtl f)) :=
  .bind (erasable_label _) fun _ => .bind erasable_readStatus fun _ => .ite (.bind (.updCtl _) fun _ =>
    .bind (.pure ()) fun _ => .leave (by simp)) .nop

theorem erasable_gate (here : Poll) : Erasable (gate here) :=
  .bind (erasable_awaitReady here id) fun _ => .bind (erasable_label _) fun _ => .bind (erasable_frame _) fun _ =>
    .bind (erasable_label _) fun _ => .bind erasable_readStatus fun _ =>
      .ite (.bind (.updCtl _) fun _ => .pure _) (.bind (erasable_label _) fun _ => .bind (.updCtl _) fun _ =>
        .bind (erasable_label _) fun _ => .bind (.updCtl _) fun _ => .pure _)

/-! ### The operations in full -/

theorem erasable_readStatusOp : Erasable readStatusOp :=
  .bind (erasable_label _) fun _ => .bind erasable_readStatus fun _ => erasable_endWith _

theorem erasable_awaitReadyOp : Erasable awaitReadyOp :=
  .bind (erasable_awaitReady _ id) fun _ => erasable_endWith _

theorem erasable_writeEnableOp : Erasable writeEnableOp :=
  .bind (erasable_gate _) fun _ => .ite (erasable_endWith _) (erasable_endWith _)

theorem erasable_eraseWaitOp : Erasable eraseWaitOp :=
  .bind (erasable_awaitReady _ _) fun _ => .askThen (fun _ => rfl) fun _ => .ite (erasable_endWith _) (erasable_endWith _)

theorem erasable_chipEraseOp : Erasable chipEraseOp :=
  .bind (erasable_gate _) fun _ => .askThen (fun _ => rfl) fun _ => .ite (erasable_endWith _)
    (.bind (erasable_label _) fun _ => .bind (erasable_frame _) fun _ => erasable_eraseWaitOp)

theorem erasable_scanStream (n : Nat) : Erasable (scanStream n) := by
  induction n with
  | zero => exact .pure _
  | succ n ih =>
    exact .bind (erasable_label _) fun _ => .bind (erasable_xfer _) fun _ => .bind (.updCtl _) fun _ =>
      .askThen (fun _ => rfl) fun _ => .ite (.pure _) (.bind (.updCtl _) fun _ => ih)

theorem erasable_scanOp : Erasable scanOp :=
  .bind (erasable_awaitReady _ id) fun _ => .bind (erasable_label _) fun _ => .bind (erasable_openRead _) fun _ =>
    .bind (.updCtl _) fun _ => .askThen (fun _ => rfl) fun _ => .bind (erasable_scanStream _) fun _ =>
      .bind (erasable_label _) fun _ => .bind erasable_deselect fun _ =>
        .ite (.bind (erasable_label _) fun _ => .bind (.updCtl _) fun _ => .bind (erasable_label _) fun _ =>
            .bind (.updCtl _) fun _ => erasable_endWith _)
          (.bind (erasable_label _) fun _ => .bind (.updCtl _) fun _ => .bind (erasable_label _) fun _ =>
            .bind (.updCtl _) fun _ => erasable_endWith _)

theorem erasable_writeReadyOp : Erasable writeReadyOp :=
  .bind (erasable_awaitReady _ id) fun _ => .bind (erasable_label _) fun _ => .askThen (fun _ => rfl) fun _ =>
    .bind (erasable_issuePp _ _) fun _ => .bind (erasable_label _) fun _ => .bind (.pure ()) fun _ =>
      .bind (erasable_label _) fun _ => .bind (.updCtl _) fun _ => erasable_endWith _

theorem erasable_writeGateOp : Erasable writeGateOp :=
  .bind (erasable_gate _) fun _ => .ite (.bind (erasable_label _) fun _ => .askThen (fun _ => rfl) fun _ =>
    .ite erasable_writeReadyOp (erasable_endWith _)) (erasable_endWith _)

theorem erasable_writeDataOp : Erasable writeDataOp :=
  .bind (erasable_label _) fun _ => .askThen (fun _ => rfl) fun _ => .ite (erasable_endWith _)
    (.ite (.bind (erasable_label _) fun _ => .bind (.updCtl _) fun _ => .bind (erasable_label _) fun _ => .updCtl _)
      (.ite (.bind (erasable_label _) fun _ => .bind (.updCtl _) fun _ => erasable_endWith _) erasable_writeGateOp))

theorem erasable_readIdOp : Erasable readIdOp :=
  .bind (erasable_label _) fun _ => .bind erasable_issueRdid fun _ => .bind (erasable_label _) fun _ =>
    .bind (.updCtl _) fun _ => .bind (erasable_label _) fun _ => .bind (.updCtl _) fun _ =>
      .bind (erasable_label _) fun _ => .bind (.updCtl _) fun _ => .bind (erasable_label _) fun _ =>
        .askThen (fun _ => rfl) fun _ => .ite (.bind (.updCtl _) fun _ => erasable_endWith _)
          (.bind (.updCtl _) fun _ => .bind (erasable_label _) fun _ => .bind (.updCtl _) fun _ => erasable_endWith _)

theorem erasable_dumpBytes (base i n : Nat) : Erasable (dumpBytes base i n) := by
  induction n generalizing i with
  | zero => exact .nop
  | succ n ih =>
    exact .bind (erasable_label _) fun _ => .bind (.updCtl _) fun _ =>
      .bind (.askThen (fun _ => rfl) fun _ => .ite (.updCtl _) .nop) fun _ => .bind (erasable_xfer _) fun _ =>
        .bind (.updCtl _) fun _ => .bind (.updCtl _) fun _ => ih _

theorem erasable_dumpPages (p n : Nat) : Erasable (dumpPages p n) := by
  induction n generalizing p with
  | zero =>
    exact .bind (erasable_label _) fun _ => .bind (.updCtl _) fun _ => .bind (erasable_label _) fun _ =>
      .askThen (fun _ => rfl) fun _ => .bind (.updCtl _) fun _ => erasable_endWith _
  | succ n ih =>
    exact .bind (.updCtl _) fun _ => .bind (erasable_awaitReady _ id) fun _ => .bind (erasable_label _) fun _ =>
      .bind (erasable_openRead _) fun _ => .bind (erasable_dumpBytes _ _ _) fun _ => .bind (erasable_label _) fun _ =>
        .bind erasable_deselect fun _ => ih _

theorem erasable_dumpAllOp : Erasable dumpAllOp :=
  .bind (erasable_label _) fun _ => .bind (.updCtl _) fun _ => .askThen (fun _ => rfl) fun _ => erasable_dumpPages _ _

theorem erasable_dumpResumeOp : Erasable dumpResumeOp := .askThen (fun _ => rfl) fun _ => erasable_dumpPages _ _

/-- The operation in progress at each poll. -/
theorem erasable_resumeOp (p : Poll) : Erasable (resumeOp p) := by
  cases p
  · exact erasable_awaitReadyOp
  · exact erasable_writeEnableOp
  · exact erasable_chipEraseOp
  · exact erasable_eraseWaitOp
  · exact erasable_scanOp
  · exact erasable_writeGateOp
  · exact erasable_writeReadyOp
  · exact erasable_dumpResumeOp

/-- A step of such an action, with no reset due, is the step it takes with no one looking, but for what is
due and what was seen. -/
theorem Erasable.run {m : Act Unit} (h : Erasable m) {s : State} (hn : NoResetDue s) :
    unwatchedOutcome (runAct m s) = runAct m s.unwatched := by
  have a := h s
  unfold runAct
  cases hm : m s with
  | ok _ t => rw [hm] at a; rw [a.1]; rfl
  | error e t =>
    rw [hm] at a
    cases e with
    | suspended => rw [a.1]; rfl
    | resetArrived => rw [noResetDue_iff.mp hn] at a; exact absurd a (Nat.not_lt_zero _)
    | fault f => rw [a.1]; rfl

theorem blind_resetController : Blind resetController :=
  .askThen (fun _ _ _ => rfl) fun _ => .ite (.bind blind_releaseCs fun _ => .upd fun _ _ _ => rfl)
    (.upd fun _ _ _ => rfl)

/-- Everything such a step can do to a next state: no reset arrives and it is the step taken with no one looking,
or one arrives, and the state is the one the reset leaves. -/
theorem Erasable.run_cases {m : Act Unit} (h : Erasable m) {s t : State} (ht : runAct m s = .next t) :
    (resetsDue t = resetsDue s ∧ runAct m s.unwatched = .next t.unwatched) ∨
    (resetsDue t < resetsDue s ∧ ∃ u, m s = .error .resetArrived u ∧ resetController u = .ok () t) := by
  have a := h s
  rcases runAct_next ht with hm | hm | ⟨u, hm, hu⟩ <;> rw [hm] at a
  · exact .inl ⟨a.2, runAct_ok a.1⟩
  · exact .inl ⟨a.2, runAct_suspended a.1⟩
  · have h3 := blind_resetController.resets u
    rw [hu] at h3
    exact .inr ⟨Nat.lt_of_le_of_lt (Nat.le_of_eq h3) a, u, hm, hu⟩

/-! ### A reset due inside a frame -/

/-- A bus primitive before the one where something is due: it runs as if nothing were, and counts down. -/
theorem tick_bind_later {g : Act α} (hg : Blind g) {s : State} {n : Nat} {what : Interruption} {rest : List Due}
    (h : s.env.due = ⟨n + 1, what⟩ :: rest) :
    (tick >>= fun _ => g) s = resultWatch (⟨n, what⟩ :: rest) s.env.seen ((tick >>= fun _ => g) s.unwatched) := by
  have h1 : tick s = .ok () (s.watch (⟨n, what⟩ :: rest) s.env.seen) := by simp [tick, h, serve]; rfl
  have h2 : tick s.unwatched = .ok () s.unwatched := rfl
  have h3 : g s.unwatched = resultWatch [] [] (g s) := hg [] [] s
  rw [bind_ok h1, bind_ok h2, hg, h3]
  cases g s <;> rfl

theorem select_later {s : State} {n : Nat} {what : Interruption} {rest : List Due}
    (h : s.env.due = ⟨n + 1, what⟩ :: rest) :
    select s = resultWatch (⟨n, what⟩ :: rest) s.env.seen (select s.unwatched) :=
  tick_bind_later blind_primitives.1 h

theorem xfer_later {s : State} {t : Byte} {n : Nat} {what : Interruption} {rest : List Due}
    (h : s.env.due = ⟨n + 1, what⟩ :: rest) :
    xfer t s = resultWatch (⟨n, what⟩ :: rest) s.env.seen (xfer t s.unwatched) :=
  tick_bind_later (blind_primitives.2.1 t) h

/-- What an action leaves with no one looking is a state no one looks at. -/
theorem Erasable.unwatched {m : Act α} (h : Erasable m) {s t : State} {a : α} (hm : m s.unwatched = .ok a t) :
    t.unwatched = t := by
  have := h s.unwatched
  rw [hm] at this
  have h1 : m s.unwatched = .ok a t.unwatched := this.1
  rw [hm] at h1
  injection h1 with _ h2
  exact h2.symm

/-- Bytes sent before something is due. -/
theorem xferAll_later {ts : List Byte} {s u : State} {n : Nat} {what : Interruption} {rest : List Due}
    (h : s.env.due = ⟨n + ts.length, what⟩ :: rest) (hu : xferAll ts s.unwatched = .ok () u) :
    xferAll ts s = .ok () (u.watch (⟨n, what⟩ :: rest) s.env.seen) := by
  induction ts generalizing s with
  | nil =>
    cases hu
    show EStateM.Result.ok () s = .ok () (s.watch (⟨n, what⟩ :: rest) s.env.seen)
    rw [show (⟨n, what⟩ :: rest : List Due) = s.env.due from h.symm]
    rfl
  | cons t ts ih =>
    rw [xferAll] at hu ⊢
    have hx := xfer_later (t := t) (n := n + ts.length) h
    cases hm : xfer t s.unwatched with
    | error e v => rw [bind_error hm] at hu; cases hu
    | ok a v =>
      have hv := (erasable_xfer t).unwatched hm
      rw [hm] at hx
      rw [bind_ok hm] at hu
      rw [bind_ok hx]
      refine ih rfl ?_
      show xferAll ts v.unwatched = _
      rw [hv]
      exact hu

end Sys2Proof.Machine
end

