-- ==== Sys2Proof/Laws/Registers.lean ====
section
/-!
SUPPORT. Which controller registers each operation can write, said once each: a predicate on the
registers that an operation's own updates keep is kept by the whole operation, however its step ends,
and so are the parameters; the device only makes moves of its own; and what the host reads in between (rule R33).
-/

namespace Sys2Proof.Machine

variable {α β : Type} {C D : Controller → Prop} {b : Prop}

/-- Register predicates that the updates around a ready-wait keep. -/
structure Polls (C : Controller → Prop) : Prop where
  lastSr : ∀ c v, C c → C { c with lastSr := v }
  mpc    : ∀ c v, C c → C { c with mpc := v }
  log    : ∀ c e, C c → C { c with log := c.log ++ [e] }

/-- The end of an operation leads from `C` to `D`. -/
def Ends (C D : Controller → Prop) : Prop := ∀ c r q, C c → D { c with result := r, seq := q, mpc := none }

/-- Register predicates that the bookkeeping updates of all the operations keep. -/
structure Stable (C : Controller → Prop) : Prop extends Polls C where
  ok    : ∀ c v, C c → C { c with ok := v }
  wpOff : ∀ c, C c → C { c with wp := false }
  run   : ∀ c v, C c → C { c with run := v }
  addr  : ∀ c v, C c → C { c with addr := v }
  sum   : ∀ c v, C c → C { c with sum := v }
  pidx  : ∀ c v, C c → C { c with pidx := v }

theorem Stable.of (lastSr : ∀ c v, C c → C { c with lastSr := v }) (mpc : ∀ c v, C c → C { c with mpc := v })
    (log : ∀ c e, C c → C { c with log := c.log ++ [e] }) (ok : ∀ c v, C c → C { c with ok := v })
    (wpOff : ∀ c, C c → C { c with wp := false }) (run : ∀ c v, C c → C { c with run := v })
    (addr : ∀ c v, C c → C { c with addr := v }) (sum : ∀ c v, C c → C { c with sum := v })
    (pidx : ∀ c v, C c → C { c with pidx := v }) : Stable C :=
  ⟨⟨lastSr, mpc, log⟩, ok, wpOff, run, addr, sum, pidx⟩

/-- Since `s0` the parameters are the same, the device has made moves of its own, every host read saw
registers with `C`, and now they satisfy `D`; and if `b` is asked for, no reset is due. -/
structure Holds (C D : Controller → Prop) (b : Prop) (s0 s : State) : Prop where
  ctl     : D s.ctl
  noReset : b → NoResetDue s
  cfg     : s.cfg = s0.cfg
  dev     : DeviceReach s0.cfg s0.dev s.dev
  seen    : SeenIn C s0 s

/-- The action leads from registers with `C` to registers with `D`, with registers in `C` at every
micro-position in between; it keeps the parameters, the device only makes moves of its own, and with no
reset due the action is cut short by none. -/
def Keeps (C D : Controller → Prop) (b : Prop) (m : Act α) : Prop :=
  ∀ s0, Triple (Holds C C b s0) m (fun _ => Holds C D b s0) fun e s => Holds C C b s0 s ∧ (b → e ≠ .resetArrived)

theorem Holds.refl {s : State} (hc : C s.ctl) (hr : b → NoResetDue s) : Holds C C b s s :=
  ⟨hc, hr, rfl, .refl, .same rfl⟩

theorem Holds.unmoved {s0 s t : State} (hu : Unmoved s t) (hs : Holds C C b s0 s) : Holds C C b s0 t :=
  ⟨by rw [hu.ctl]; exact hs.ctl, fun hb => hu.noReset (hs.noReset hb), hu.cfg.trans hs.cfg,
    hs.dev.trans (hs.cfg ▸ hu.dev), hs.seen.trans (hu.seen.mono fun _ h => h ▸ hs.ctl)⟩

theorem Holds.mapCtl {s0 s : State} {f : Controller → Controller} (h : Holds C C b s0 s) (hd : D (f s.ctl)) :
    Holds C D b s0 (s.mapCtl f) := ⟨hd, h.noReset, h.cfg, h.dev, h.seen⟩

theorem Keeps.bus {m : Act α} (h : BusOnly m) : Keeps C C b m := fun _ =>
  h.triple (fun _ _ hu => .unmoved hu) fun _ _ _ hu hs _ hr => ⟨.unmoved hu hs, fun hb => hr (hs.noReset hb)⟩

theorem Keeps.bind {m : Act α} {f : α → Act β} (h1 : Keeps C C b m) (h2 : ∀ a, Keeps C D b (f a)) :
    Keeps C D b (m >>= f) := fun s0 => Triple.bind (h1 s0) fun a => h2 a s0
theorem Keeps.updCtl {f : Controller → Controller} (h : ∀ c, C c → D (f c)) : Keeps C D b (updCtl f) :=
  fun _ => Triple.updCtl _ fun _ hs => hs.mapCtl (h _ hs.ctl)
theorem Keeps.pure (a : α) : Keeps C C b (Pure.pure a : Act α) := fun _ => Triple.pure _ fun _ h => h
theorem Keeps.nop : Keeps C C b nop := fun _ => Triple.nop fun _ h => h
theorem Keeps.ask : Keeps C C b ask := fun _ => Triple.ask fun _ h => h
theorem Keeps.suspend : Keeps C D b (leave .suspended : Act α) := fun _ => Triple.leave _ fun _ h => ⟨h, fun _ => by simp⟩
theorem Keeps.ite {c : Prop} [Decidable c] {m n : Act α} (h1 : Keeps C D b m) (h2 : Keeps C D b n) :
    Keeps C D b (if c then m else n) := by split <;> assumption

/-- With no reset due, the registers after the step satisfy `D`, or `C` if the operation still waits. -/
theorem Keeps.run {m : Act Unit} (h : Keeps C C True m) {s t : State} (hr : NoResetDue s) (hc : C s.ctl)
    (ht : runAct m s = .next t) : C t.ctl :=
  runAct_triple (Q := fun s => C s.ctl) (R := fun _ => False)
    (Triple.conseq (h s) (fun _ h => h) (fun _ _ h => h.ctl) fun _ _ h =>
      ⟨fun _ => h.1.ctl, fun he => h.2 trivial he⟩)
    (fun _ hs => hs.elim) (.refl hc fun _ => hr) ht

/-- Whether or not a reset arrives: every host read in the step saw registers with `C`. -/
theorem Keeps.run_seen {m : Act Unit} (h : Keeps C D False m) {s t : State} (hc : C s.ctl)
    (ht : runAct m s = .next t) : SeenIn C s t :=
  runAct_triple (Q := SeenIn C s) (R := fun u => C u.ctl ∧ SeenIn C s u)
    (Triple.conseq (h s) (fun _ h => h) (fun _ _ h => h.seen) fun _ _ h =>
      ⟨fun _ => h.1.seen, fun _ => ⟨h.1.ctl, h.1.seen⟩⟩)
    (.bind (Q := fun _ u => C u.ctl ∧ SeenIn C s u) (.ask fun _ h => h) fun _ =>
      .ite (fun _ => .bind (busOnly_releaseCs.triple (fun _ _ hu hs => ⟨by rw [hu.ctl]; exact hs.1,
          hs.2.trans (hu.seen.mono fun _ h => h ▸ hs.1)⟩) fun _ _ _ _ _ _ _ => trivial) fun _ => .upd _ fun _ h => h.2)
        fun _ => .upd _ fun _ h => h.2)
    (.refl hc fun h => h.elim) ht

/-- A completed reset leaves the controller at its reset values and the chip-select released (rules R340,
R341). -/
theorem resetController_ok : Triple (fun _ => True) resetController
    (fun _ s => s.ctl = Controller.reset ∧ s.bus.cs = false) (fun _ _ => True) := by
  have hend : Triple (fun s => s.bus.cs = false) endFrame (fun _ s => s.bus.cs = false) (fun _ _ => True) := by
    refine .bind (Q := fun _ s => s.bus.cs = false) (.ask fun _ h => h) fun s => .ite (fun _ => .nop fun _ h => h)
      fun _ => ?_
    split
    · exact .ite (fun _ => .upd _ fun _ h => h) fun _ => .nop fun _ h => h
    · exact .ite (fun _ => .upd _ fun _ h => h) fun _ => .nop fun _ h => h
    · split
      · exact .ite (fun _ => .bind (Q := fun _ s => s.bus.cs = false) (.ask fun _ h => h) fun _ =>
          .ite (fun _ => .leave _ fun _ _ => trivial) fun _ => .upd _ fun _ h => h) fun _ => .nop fun _ h => h
      · exact .nop fun _ h => h
    · exact .nop fun _ h => h
  refine .askThen fun s0 _ => .ite (fun _ => .bind (Q := fun _ s => s.bus.cs = false) ?_ fun _ => .upd _ fun s h => ?_)
    fun hc => .upd _ fun s h => ?_
  · exact .bind (Q := fun _ s => s.bus.cs = false) (.upd _ fun _ _ => rfl) fun _ =>
      .bind (Q := fun _ s => s.bus.cs = false) (.ask fun _ h => h) fun _ =>
        .ite (fun _ => hend) fun _ => .nop fun _ h => h
  · exact ⟨rfl, h⟩
  · exact ⟨rfl, by rw [h]; show s0.bus.cs = false; simpa using hc⟩

/-- Whether or not a reset arrives: the predicate holds of the registers after the step, or they are the
reset values. -/
theorem Keeps.run_or_reset {m : Act Unit} (h : Keeps C C False m) {s t : State} (hc : C s.ctl)
    (ht : runAct m s = .next t) : C t.ctl ∨ t.ctl = Controller.reset :=
  runAct_triple (Q := fun s => C s.ctl ∨ s.ctl = Controller.reset) (R := fun _ => True)
    (Triple.conseq (h s) (fun _ h => h) (fun _ _ h => .inl h.ctl) fun _ _ h => ⟨fun _ => .inl h.1.ctl, fun _ => trivial⟩)
    (resetController_ok.conseq (fun _ h => h) (fun _ _ h => .inr h.1) fun _ _ h => h) (.refl hc fun h => h.elim) ht

/-- A reset changes no parameter, and the device only makes moves of its own (rules R8, R44, R340). -/
theorem resetController_device (g : Config) (d : Device) :
    Triple (fun s => s.cfg = g ∧ DeviceReach g d s.dev) resetController
      (fun _ s => s.cfg = g ∧ DeviceReach g d s.dev) (fun _ _ => True) := by
  refine .bind (Q := fun _ s => s.cfg = g ∧ DeviceReach g d s.dev) (.ask fun _ h => h) fun _ =>
    .ite (fun _ => .bind (busOnly_releaseCs.triple (fun _ _ hu hs => ⟨hu.cfg.trans hs.1, ?_⟩)
      fun _ _ _ _ _ _ _ => trivial) fun _ => .upd _ fun _ h => h) fun _ => .upd _ fun _ h => h
  exact hs.2.trans (hs.1 ▸ hu.dev)

/-- A step of such an action changes no parameter and makes only device moves, whether or not a reset
arrives. -/
theorem Keeps.run_device {m : Act Unit} (h : Keeps (fun _ => True) (fun _ => True) False m) {s t : State}
    (ht : runAct m s = .next t) : t.cfg = s.cfg ∧ DeviceReach s.cfg s.dev t.dev :=
  runAct_triple (Q := fun u => u.cfg = s.cfg ∧ DeviceReach s.cfg s.dev u.dev)
    (R := fun u => u.cfg = s.cfg ∧ DeviceReach s.cfg s.dev u.dev)
    (Triple.conseq (h s) (fun _ h => h) (fun _ _ h => ⟨h.cfg, h.dev⟩) fun _ _ h =>
      ⟨fun _ => ⟨h.1.cfg, h.1.dev⟩, fun _ => ⟨h.1.cfg, h.1.dev⟩⟩)
    (resetController_device s.cfg s.dev) (.refl trivial fun h => h.elim) ht

theorem keeps_emit (S : Polls C) (e : Event) : Keeps C C b (emit e) := .updCtl fun c h => S.log c e h
theorem keeps_label (S : Polls C) (p : MicroPos) : Keeps C C b (label p) :=
  .bind (.updCtl fun c h => S.mpc c _ h) fun _ => .bus busOnly_tick
theorem keeps_halt (Z : Ends C D) (code : Byte) : Keeps C D b (halt code) := .updCtl fun c h => Z c _ _ h
theorem keeps_endWith (S : Polls C) (Z : Ends C D) (code : Byte) : Keeps C D b (endWith code) :=
  .bind (keeps_label S _) fun _ => .updCtl fun c h => Z c _ _ h

theorem keeps_readStatus (h : ∀ c v, C c → C { c with lastSr := v }) : Keeps C C b readStatus :=
  .bind (.bus busOnly_select) fun _ => .bind (.bus (busOnly_xfer _)) fun _ => .bind (.bus (busOnly_xfer _)) fun _ =>
    .bind (.bus busOnly_deselect) fun _ => .bind (.updCtl fun c hc => h c _ hc) fun _ => .pure _

theorem keeps_awaitReady (S : Polls C) (here : Poll) {m : Act Unit} (h : Keeps C C b m) :
    Keeps C C b (awaitReady here m) :=
  .bind (keeps_label S _) fun _ => .bind (keeps_readStatus S.lastSr) fun _ => .ite (.bind h fun _ =>
    .bind (.pure _) fun _ => .suspend) .nop

theorem keeps_gate (S : Stable C) (here : Poll) : Keeps C C b (gate here) :=
  .bind (keeps_awaitReady S.toPolls here .nop) fun _ => .bind (keeps_label S.toPolls _) fun _ =>
    .bind (.bus (busOnly_frame _)) fun _ => .bind (keeps_label S.toPolls _) fun _ =>
      .bind (keeps_readStatus S.lastSr) fun _ => .ite (.bind (.updCtl fun c h => S.ok c _ h) fun _ => .pure _)
        (.bind (keeps_label S.toPolls _) fun _ => .bind (keeps_emit S.toPolls _) fun _ =>
          .bind (keeps_label S.toPolls _) fun _ => .bind (.updCtl fun c h => S.ok _ false (S.wpOff c h)) fun _ => .pure _)

theorem keeps_readStatusOp (S : Polls C) (Z : Ends C D) : Keeps C D b readStatusOp :=
  .bind (keeps_label S _) fun _ => .bind (keeps_readStatus S.lastSr) fun _ => keeps_endWith S Z _

theorem keeps_awaitReadyOp (S : Polls C) (Z : Ends C D) : Keeps C D b awaitReadyOp :=
  .bind (keeps_awaitReady S _ .nop) fun _ => keeps_endWith S Z _

theorem keeps_writeEnableOp (S : Stable C) (Z : Ends C D) : Keeps C D b writeEnableOp :=
  .bind (keeps_gate S _) fun _ => .ite (keeps_endWith S.toPolls Z _) (keeps_endWith S.toPolls Z _)

theorem keeps_eraseWaitOp (S : Polls C) (Z : Ends C D) : Keeps C D b eraseWaitOp :=
  .bind (keeps_awaitReady S _ (keeps_emit S _)) fun _ => .bind .ask fun _ =>
    .ite (keeps_endWith S Z _) (keeps_endWith S Z _)

theorem keeps_chipEraseOp (S : Stable C) (Z : Ends C D) : Keeps C D b chipEraseOp :=
  .bind (keeps_gate S _) fun _ => .bind .ask fun _ => .ite (keeps_endWith S.toPolls Z _)
    (.bind (keeps_label S.toPolls _) fun _ => .bind (.bus (busOnly_frame _)) fun _ => keeps_eraseWaitOp S.toPolls Z)

theorem keeps_scanStream (S : Stable C) (n : Nat) : Keeps C C b (scanStream n) := by
  induction n with
  | zero => exact .pure _
  | succ n ih =>
    exact .bind (keeps_label S.toPolls _) fun _ => .bind (.bus (busOnly_xfer _)) fun _ =>
      .bind (.updCtl fun c h => S.run c _ h) fun _ => .bind .ask fun _ =>
        .ite (.pure _) (.bind (.updCtl fun c h => S.addr c _ h) fun _ => ih)

/-- SCAN up to the end of its frame, then its outcome. -/
theorem keeps_scanOp (S : Stable C) (Z : Ends C D) (hc : ∀ c v, C c → C { c with cursor := v })
    (hw : ∀ c, C c → C { c with wp := true }) : Keeps C D b scanOp :=
  .bind (keeps_awaitReady S.toPolls _ .nop) fun _ => .bind (keeps_label S.toPolls _) fun _ =>
    .bind (.bus (busOnly_openRead _)) fun _ => .bind (.updCtl fun c h => S.addr _ 0 (S.run c 0 h)) fun _ =>
      .bind .ask fun _ => .bind (keeps_scanStream S _) fun _ => .bind (keeps_label S.toPolls _) fun _ =>
        .bind (.bus busOnly_deselect) fun _ =>
          .ite (.bind (keeps_label S.toPolls _) fun _ => .bind (.updCtl fun c h => hc c _ h) fun _ =>
              .bind (keeps_label S.toPolls _) fun _ => .bind (.updCtl fun c h => hw c h) fun _ => keeps_endWith S.toPolls Z _)
            (.bind (keeps_label S.toPolls _) fun _ => .bind (keeps_emit S.toPolls _) fun _ =>
              .bind (keeps_label S.toPolls _) fun _ => .bind (.updCtl fun c h => S.wpOff c h) fun _ =>
                keeps_endWith S.toPolls Z _)

theorem keeps_writeReadyOp (S : Polls C) (Z : Ends C D) (hs : ∀ c v, C c → C { c with cursor := v }) :
    Keeps C D b writeReadyOp :=
  .bind (keeps_awaitReady S _ .nop) fun _ => .bind (keeps_label S _) fun _ => .bind .ask fun _ =>
    .bind (.bus (busOnly_issuePp _ _)) fun _ => .bind (keeps_label S _) fun _ => .bind (.pure _) fun _ =>
      .bind (keeps_label S _) fun _ => .bind (.updCtl fun c h => hs c _ h) fun _ => keeps_endWith S Z _

theorem keeps_writeGateOp (S : Stable C) (Z : Ends C D) (hs : ∀ c v, C c → C { c with cursor := v }) :
    Keeps C D b writeGateOp :=
  .bind (keeps_gate S _) fun _ => .ite (.bind (keeps_label S.toPolls _) fun _ => .bind .ask fun _ =>
    .ite (keeps_writeReadyOp S.toPolls Z hs) (keeps_endWith S.toPolls Z _)) (keeps_endWith S.toPolls Z _)

theorem keeps_writeDataOp (S : Stable C) (Z : Ends C D) (hs : ∀ c v, C c → C { c with cursor := v }) :
    Keeps C D b writeDataOp :=
  .bind (keeps_label S.toPolls _) fun _ => .bind .ask fun _ => .ite (keeps_endWith S.toPolls Z _)
    (.ite (.bind (keeps_label S.toPolls _) fun _ => .bind (keeps_emit S.toPolls _) fun _ =>
        .bind (keeps_label S.toPolls _) fun _ => keeps_halt Z _)
      (.ite (.bind (keeps_label S.toPolls _) fun _ => .bind (keeps_emit S.toPolls _) fun _ => keeps_endWith S.toPolls Z _)
        (keeps_writeGateOp S Z hs)))

theorem keeps_readIdOp (S : Stable C) (Z : Ends C D) (hs : ∀ c v, C c → C { c with idreg := v })
    (hv : ∀ c, C c → C { c with idv := true }) (hm : ∀ c v, C c → C { c with idmm := v }) : Keeps C D b readIdOp :=
  .bind (keeps_label S.toPolls _) fun _ => .bind (.bus busOnly_issueRdid) fun _ => .bind (keeps_label S.toPolls _) fun _ =>
    .bind (.updCtl fun c h => hs c _ h) fun _ => .bind (keeps_label S.toPolls _) fun _ =>
      .bind (.updCtl fun c h => hv c h) fun _ => .bind (keeps_label S.toPolls _) fun _ =>
        .bind (keeps_emit S.toPolls _) fun _ => .bind (keeps_label S.toPolls _) fun _ => .bind .ask fun _ =>
          .ite (.bind (.updCtl fun c h => hm c _ h) fun _ => keeps_endWith S.toPolls Z _)
            (.bind (.updCtl fun c h => hm c _ h) fun _ => .bind (keeps_label S.toPolls _) fun _ =>
              .bind (keeps_emit S.toPolls _) fun _ => keeps_endWith S.toPolls Z _)

theorem keeps_dumpBytes (S : Stable C) (base i n : Nat) : Keeps C C b (dumpBytes base i n) := by
  induction n generalizing i with
  | zero => exact .nop
  | succ n ih =>
    exact .bind (keeps_label S.toPolls _) fun _ => .bind (.updCtl fun c h => S.addr c _ h) fun _ =>
      .bind (.bind .ask fun _ => .ite (keeps_emit S.toPolls _) .nop) fun _ => .bind (.bus (busOnly_xfer _)) fun _ =>
        .bind (keeps_emit S.toPolls _) fun _ => .bind (.updCtl fun c h => S.sum c _ h) fun _ => ih _

theorem keeps_dumpPages (S : Stable C) (Z : Ends C D) (hs : ∀ c v, C c → C { c with checksum := v }) (p n : Nat) :
    Keeps C D b (dumpPages p n) := by
  induction n generalizing p with
  | zero =>
    exact .bind (keeps_label S.toPolls _) fun _ => .bind (.updCtl fun c h => hs c _ h) fun _ =>
      .bind (keeps_label S.toPolls _) fun _ => .bind .ask fun _ => .bind (keeps_emit S.toPolls _) fun _ =>
        keeps_endWith S.toPolls Z _
  | succ n ih =>
    exact .bind (.updCtl fun c h => S.pidx c _ h) fun _ => .bind (keeps_awaitReady S.toPolls _ .nop) fun _ =>
      .bind (keeps_label S.toPolls _) fun _ => .bind (.bus (busOnly_openRead _)) fun _ =>
        .bind (keeps_dumpBytes S _ _ _) fun _ => .bind (keeps_label S.toPolls _) fun _ =>
          .bind (.bus busOnly_deselect) fun _ => ih _

theorem keeps_dumpAllOp (S : Stable C) (Z : Ends C D) (hs : ∀ c v, C c → C { c with checksum := v }) :
    Keeps C D b dumpAllOp :=
  .bind (keeps_label S.toPolls _) fun _ => .bind (.updCtl fun c h => S.sum c _ h) fun _ => .bind .ask fun _ =>
    keeps_dumpPages S Z hs _ _

theorem keeps_dumpResumeOp (S : Stable C) (Z : Ends C D) (hs : ∀ c v, C c → C { c with checksum := v }) :
    Keeps C D b dumpResumeOp := .bind .ask fun _ => keeps_dumpPages S Z hs _ _

end Sys2Proof.Machine
end

