-- ==== Sys2Proof/Laws/Steps.lean ====
section
/-!
SUPPORT. What a step can be, said once: the pseudocode of each instruction as one piece
(`exec_body`), the cases of a step (`step_cases`), and what every instruction and every resumed
operation keeps of the registers.
-/

namespace Sys2Proof.Machine

variable {C D : Controller → Prop} {b : Prop}

/-- What running an instruction is: a request with its operation's pseudocode, or a frame's. -/
inductive Body where
  | request (w : HostWord) (m : Act Unit)
  | frame (m : Act Unit)

/-- The pseudocode of each instruction. -/
def bodyOf : Instr → Body
  | .readId => .request (hostWord 0x01 0) readIdOp
  | .readStatus => .request (hostWord 0x02 0) readStatusOp
  | .awaitReady => .request (hostWord 0x03 0) awaitReadyOp
  | .writeEnable => .request (hostWord 0x04 0) writeEnableOp
  | .chipErase => .request (hostWord 0x05 0) chipEraseOp
  | .scan => .request (hostWord 0x06 0) scanOp
  | .writeData len => .request (hostWord 0x07 len) writeDataOp
  | .dumpAll => .request (hostWord 0x08 0) dumpAllOp
  | .rdid => .frame (do let _ ← issueRdid; nop)
  | .wren => .frame issueWren
  | .rdsr => .frame (do let _ ← readStatus; nop)
  | .ce => .frame issueCe
  | .read a n => .frame (issueRead a n)
  | .pp a bytes => .frame (issuePp a bytes)

theorem exec_body (i : Instr) (s : State) :
    exec i s = match bodyOf i with
      | .request w m => request w m s
      | .frame m => putFrame m s := by cases i <;> rfl

/-- A step that answers a next state is one of these. -/
inductive StepCase (s t : State) : Prop
  /-- The controller takes a request and runs its operation. -/
  | request (i : Instr) (w : HostWord) (m : Act Unit) (hb : bodyOf i = .request w m) (idle : s.ctl.seq = .idle)
      (run : runAct m ((popInbox s).mapCtl (accepted w)) = .next t)
  /-- The controller takes a request word that decodes to no operation. -/
  | illegal (w : HostWord) (idle : s.ctl.seq = .idle)
      (run : runAct (endWith resIllegalOp) ((popInbox s).mapCtl (accepted w)) = .next t)
  /-- A frame that is an instruction is put on the wire. -/
  | frame (i : Instr) (m : Act Unit) (rest : List Input) (bytes : List Byte) (hb : bodyOf i = .frame m)
      (inbox : s.env.inbox = .issue (.frame bytes) :: rest) (idle : s.ctl.seq = .idle)
      (run : runAct m (popInbox s) = .next t)
  /-- Any other frame is put on the wire. -/
  | rawFrame (rest : List Input) (bytes : List Byte) (inbox : s.env.inbox = .issue (.frame bytes) :: rest)
      (idle : s.ctl.seq = .idle) (run : runAct (Machine.frame bytes) (popInbox s) = .next t)
  /-- The operation in progress polls once more and runs on. -/
  | resume (p : Poll) (busy : s.ctl.seq = .exec) (mpc : s.ctl.mpc = some (.poll p))
      (run : runAct (resumeOp p) s = .next t)
  /-- Only the device may step. -/
  | turn (ht : t = deviceTurn s)
  /-- A reset. -/
  | reset (rest : List Input) (inbox : s.env.inbox = .reset :: rest)
      (run : resetController (popInbox s) = .ok () t)
  /-- The host writes a data byte. -/
  | data (i : Fin 256) (v : Byte) (idle : s.ctl.seq = .idle)
      (ht : t = (popInbox s).mapCtl fun c => { c with data := c.data.set i v })
  /-- The device completes. -/
  | done (busy : s.dev.dbusy = true) (ht : t = (popInbox s).mapDev completed)
  /-- A move without effect is taken. -/
  | pop (ht : t = popInbox s)
  /-- The host reads a register. -/
  | read (r : HostReg) (ht : t = (popInbox s).mapEnv fun e => { e with seen := e.seen ++ [(r, hostRead r s.ctl)] })
  /-- A read or a reset becomes due. -/
  | due (d : Due) (ht : t = addDue d (popInbox s))

theorem machineTurn_cases {s t : State} (h : machineTurn s = .next t) : StepCase s t := by
  unfold machineTurn at h
  split at h
  · exact .resume _ ‹_› ‹_› h
  all_goals cases h; exact .turn rfl

theorem issueWord_cases {s t : State} {w : HostWord} (h : issueCode (.word w) (popInbox s) = .next t) :
    StepCase s t := by
  simp only [issueCode] at h
  split at h
  · rename_i i hd
    have hi : ∃ v m, bodyOf i = .request v m := by
      have : ∀ r ∈ hostRows, ∀ len, ∃ v m, bodyOf (r.build len) = .request v m := by
        intro r hr len
        simp only [hostRows, List.mem_cons, List.not_mem_nil, or_false] at hr
        rcases hr with rfl | rfl | rfl | rfl | rfl | rfl | rfl | rfl <;> exact ⟨_, _, rfl⟩
      simp only [decode, decodeHost] at hd
      split at hd
      · cases hd; exact this _ (List.mem_of_find?_eq_some ‹_›) _
      · cases hd
    obtain ⟨v, m, hb⟩ := hi
    rw [exec_body, hb] at h
    have := request_next h
    exact .request i v m hb this.1 this.2
  · have := request_next h
    exact .illegal _ this.1 this.2

theorem step_cases {s t : State} (h : step s = .next t) : StepCase s t := by
  unfold step moveStep at h
  split at h
  · exact machineTurn_cases h
  · rename_i c rest hin
    cases c with
    | word w => exact issueWord_cases h
    | frame bytes =>
      simp only [issueCode] at h
      split at h
      · rename_i hidle
        split at h
        · rename_i i hd
          rw [exec_body] at h
          cases hb : bodyOf i with
          | frame m =>
            rw [hb] at h
            exact .frame i m rest bytes hb hin hidle (putFrame_next h).2
          | request w m =>
            rw [hb] at h
            have := request_next h
            exact .request i w m hb this.1 this.2
        · exact .rawFrame rest bytes hin hidle (putFrame_next h).2
      · cases h
  · split at h
    · exact machineTurn_cases h
    · cases h; exact .pop rfl
  · split at h
    · cases h; exact .done ‹_› rfl
    · cases h
  · cases h; exact .read _ rfl
  · unfold hostWrite at h
    split at h
    · exact issueWord_cases h
    · split at h
      · cases h; exact .data _ _ ‹_› rfl
      · cases h
    all_goals cases h; exact .pop rfl
  · rename_i rest hin; exact .reset rest hin (afterReset_next h)
  · cases h; exact .due _ rfl
  · cases h; exact .due _ rfl

/-! ### The registers -/

/-- What an instruction needs of a register predicate beside `Stable` (rules R26 to R28, R30). -/
structure Allows (C : Controller → Prop) (i : Instr) : Prop where
  idreg    : i = .readId → ∀ c v, C c → C { c with idreg := v }
  idv      : i = .readId → ∀ c, C c → C { c with idv := true }
  idmm     : i = .readId → ∀ c v, C c → C { c with idmm := v }
  checksum : i = .dumpAll → ∀ c v, C c → C { c with checksum := v }
  permit   : i = .scan → ∀ c, C c → C { c with wp := true }
  cursor   : (i = .scan ∨ ∃ len, i = .writeData len) → ∀ c v, C c → C { c with cursor := v }

theorem keeps_request {i : Instr} (S : Stable C) (Z : Ends C D) (A : Allows C i) {w : HostWord} {m : Act Unit}
    (h : bodyOf i = .request w m) : Keeps C D b m := by
  cases i <;> cases h
  · exact keeps_readIdOp S Z (A.idreg rfl) (A.idv rfl) (A.idmm rfl)
  · exact keeps_readStatusOp S.toPolls Z
  · exact keeps_awaitReadyOp S.toPolls Z
  · exact keeps_writeEnableOp S Z
  · exact keeps_chipEraseOp S Z
  · exact keeps_scanOp S Z (A.cursor (.inl rfl)) (A.permit rfl)
  · exact keeps_writeDataOp S Z (A.cursor (.inr ⟨_, rfl⟩))
  · exact keeps_dumpAllOp S Z (A.checksum rfl)

theorem keeps_frameBody {i : Instr} (hl : ∀ c v, C c → C { c with lastSr := v }) {m : Act Unit}
    (h : bodyOf i = .frame m) : Keeps C C b m := by
  cases i <;> cases h
  · exact .bind (.bus busOnly_issueRdid) fun _ => .nop
  · exact .bus (busOnly_frame _)
  · exact .bind (keeps_readStatus hl) fun _ => .nop
  · exact .bus (busOnly_frame _)
  · exact .bus (busOnly_issueRead _ _)
  · exact .bus (busOnly_issuePp _ _)

/-- An operation resumed at a poll writes what its instruction does. -/
theorem keeps_resumeOp {p : Poll} (S : Stable C) (Z : Ends C D)
    (hck : p = .dumpPoll → ∀ c v, C c → C { c with checksum := v })
    (hcu : p = .scanPoll ∨ p = .writeGate ∨ p = .writeReady → ∀ c v, C c → C { c with cursor := v })
    (hf : p = .scanPoll → ∀ c, C c → C { c with wp := true }) : Keeps C D b (resumeOp p) := by
  cases p
  · exact keeps_awaitReadyOp S.toPolls Z
  · exact keeps_writeEnableOp S Z
  · exact keeps_chipEraseOp S Z
  · exact keeps_eraseWaitOp S.toPolls Z
  · exact keeps_scanOp S Z (hcu (.inl rfl)) (hf rfl)
  · exact keeps_writeGateOp S Z (hcu (.inr (.inl rfl)))
  · exact keeps_writeReadyOp S.toPolls Z (hcu (.inr (.inr rfl)))
  · exact keeps_dumpResumeOp S Z (hck rfl)

/-- With no reset due, a predicate that an instruction's updates keep holds after it. -/
theorem exec_keeps {i : Instr} (S : Stable C) (Z : Ends C C) (A : Allows C i) {s t : State} (hr : NoResetDue s)
    (hc : C s.ctl) (hacc : ∀ w, C (accepted w s.ctl)) (ht : exec i s = .next t) : C t.ctl := by
  rw [exec_body] at ht
  cases hb : bodyOf i with
  | request w m =>
    rw [hb] at ht
    exact (keeps_request S Z A hb).run (s := s.mapCtl (accepted w)) hr (hacc w) (request_next ht).2
  | frame m =>
    rw [hb] at ht
    exact (keeps_frameBody S.lastSr hb).run hr hc (putFrame_next ht).2

/-! ### Host reads change nothing -/

/-- The pseudocode of every instruction runs as it does with no one looking (rule R33). -/
theorem erasable_body (i : Instr) : match bodyOf i with
    | .request _ m => Erasable m
    | .frame m => Erasable m := by
  cases i
  · exact erasable_readIdOp
  · exact erasable_readStatusOp
  · exact erasable_awaitReadyOp
  · exact erasable_writeEnableOp
  · exact erasable_chipEraseOp
  · exact erasable_scanOp
  · exact erasable_writeDataOp
  · exact erasable_dumpAllOp
  · exact .bind erasable_issueRdid fun _ => .nop
  · exact erasable_frame _
  · exact .bind erasable_readStatus fun _ => .nop
  · exact erasable_frame _
  · exact erasable_issueRead _ _
  · exact erasable_issuePp _ _

theorem request_unwatched {w : HostWord} {m : Act Unit} (h : Erasable m) {s : State} (hn : NoResetDue s) :
    unwatchedOutcome (request w m s) = request w m s.unwatched := by
  cases hs : s.ctl.seq
  · rw [request_idle hs, request_idle (by exact hs)]
    exact h.run (s := s.mapCtl _) hn
  · simp [request, hs, unwatchedOutcome]
  · simp [request, hs, unwatchedOutcome]

theorem putFrame_unwatched {m : Act Unit} (h : Erasable m) {s : State} (hn : NoResetDue s) :
    unwatchedOutcome (putFrame m s) = putFrame m s.unwatched := by
  cases hs : s.ctl.seq <;> simp only [putFrame, hs, unwatched_ctl]
  · exact h.run hn
  · exact h.run hn
  · rfl

/-- An instruction with no reset due does what it does with no one looking. -/
theorem exec_unwatched (i : Instr) {s : State} (hn : NoResetDue s) :
    unwatchedOutcome (exec i s) = exec i s.unwatched := by
  have h := erasable_body i
  rw [exec_body, exec_body]
  cases hb : bodyOf i <;> rw [hb] at h
  · exact request_unwatched h hn
  · exact putFrame_unwatched h hn

theorem machineTurn_unwatched {s : State} (hn : NoResetDue s) :
    unwatchedOutcome (machineTurn s) = machineTurn s.unwatched := by
  have ht : unwatchedOutcome (.next (deviceTurn s)) = .next (deviceTurn s.unwatched) := by
    rw [deviceTurn_unwatched]; rfl
  unfold machineTurn
  rw [unwatched_ctl]
  split
  · exact (erasable_resumeOp _).run hn
  all_goals exact ht

/-- An answer with no one looking is the answer but for what was seen. -/
theorem next_of_unwatched {o : Host.Outcome State Fault Refusal} {u : State}
    (h : unwatchedOutcome o = .next u) : ∃ t, o = .next t ∧ t.unwatched = u := by
  cases o with
  | next t => exact ⟨t, rfl, by injection h⟩
  | fault f => cases h
  | refused r => cases h

end Sys2Proof.Machine
end

