-- ==== Sys2Proof/Laws/Streams.lean ====
section
/-!
SUPPORT. The two loops over a streamed read, SCAN's and DUMP_ALL's, said once each; and the arithmetic
of runs, sums, alignment and pages they rest on.
-/

namespace Sys2Proof.Machine

/-! ### Runs -/

/-- How many consecutive erased bytes end just before address `a` (rule R226, with no bound on the
count). -/
def runAt (m : Memory) : Nat → Nat
  | 0 => 0
  | a + 1 => if readByte m a = erased then runAt m a + 1 else 0

theorem runAt_le (m : Memory) (a : Nat) : runAt m a ≤ a := by
  induction a with
  | zero => simp [runAt]
  | succ a ih => simp only [runAt]; split <;> omega

theorem runAt_erased (m : Memory) (a : Nat) : ∀ j, j < runAt m a → readByte m (a - 1 - j) = erased := by
  induction a with
  | zero => simp [runAt]
  | succ a ih =>
    intro j hj
    simp only [runAt] at hj
    split at hj
    · cases j with
      | zero => simpa
      | succ j =>
        have := ih j (by omega)
        rwa [show a + 1 - 1 - (j + 1) = a - 1 - j by omega]
    · omega

theorem le_runAt {m : Memory} {a n : Nat} (h : n ≤ a) (he : ∀ j, j < n → readByte m (a - 1 - j) = erased) :
    n ≤ runAt m a := by
  induction n generalizing a with
  | zero => omega
  | succ n ih =>
    cases a with
    | zero => omega
    | succ a =>
      have h0 := he 0 (by omega)
      simp only [Nat.add_sub_cancel, Nat.sub_zero] at h0
      simp only [runAt, h0, if_true]
      have := @ih a (by omega) fun j hj => by
        have := he (j + 1) (by omega)
        rwa [show a + 1 - 1 - (j + 1) = a - 1 - j by omega] at this
      omega

/-- A run of 16 ends at `e` exactly when 16 or more erased bytes end there (rule R225). -/
theorem runEndsAt_iff {m : Memory} {e : Nat} : RunEndsAt m e ↔ 16 ≤ runAt m (e + 1) := by
  constructor
  · rintro ⟨h1, h2⟩
    exact le_runAt (by omega) fun j hj => by simpa using h2 j hj
  · intro h
    have := runAt_le m (e + 1)
    refine ⟨by omega, fun k hk => ?_⟩
    simpa using runAt_erased m (e + 1) k (by omega)

/-- `ADDR & ~0xF` (rules R10, R229). -/
theorem alignDown16_cursorOf (e : Nat) (h : e < 2 ^ 24) : (alignDown16 (cursorOf e)).toNat = e - e % 16 := by
  have key : ∀ x : CursorWord, (alignDown16 x).toNat = x.toNat / 16 * 16 := by
    intro x
    have : alignDown16 x = (x >>> 4) <<< 4 := by
      apply BitVec.eq_of_getLsbD_eq
      intro i hi
      simp only [alignDown16, BitVec.getLsbD_and, BitVec.getLsbD_not, BitVec.getLsbD_shiftLeft,
        BitVec.getLsbD_ushiftRight]
      by_cases h4 : i < 4
      · have : (0xF : CursorWord).getLsbD i = true := by interval_cases i <;> decide
        rw [this]; simp [h4]
      · have : (0xF : CursorWord).getLsbD i = false := by
          have h25 : i < 25 := hi
          interval_cases i <;> decide
        rw [this]; simp [h4, hi, show 4 + (i - 4) = i by omega]
    rw [this]
    have := x.isLt
    simp [BitVec.toNat_shiftLeft, BitVec.toNat_ushiftRight, Nat.shiftLeft_eq, Nat.shiftRight_eq_div_pow]
    omega
  rw [key]
  simp [cursorOf]
  omega

/-! ### SCAN's stream -/

/-- The size of the array fits a 24-bit address space (rules R8, R61). -/
theorem size_le (c : Config) : size c ≤ 2 ^ 24 := by
  have := c.lastPage.isLt
  unfold size endAddr
  omega

/-- The address of a read under way, as a register value. -/
theorem Reading.daddr {s : State} {a : Nat} (h : Reading s a) : s.dev.daddr = cursorOf a := by
  apply BitVec.eq_of_toNat_eq
  have := s.dev.daddr.isLt
  rw [h.address] at this
  simp only [cursorOf, BitVec.toNat_ofNat, h.address]
  omega

theorem Reading.atLabel {s : State} {a : Nat} (h : Reading s a) (p : MicroPos) : Reading (s.atLabel p) a :=
  ⟨h.cs, h.noReset, h.present, h.idle, h.command, h.address⟩

/-- SCAN's stream stopped at the byte at `e`, which completes the first run of 16 from `a` on. -/
structure ScanHit (s t : State) (a e : Nat) : Prop where
  le    : a ≤ e
  lt    : e < size s.cfg
  run16 : runAt s.dev.dmem (e + 1) = 16
  first : ∀ e', a ≤ e' → e' < e → runAt s.dev.dmem (e' + 1) ≤ 15
  run   : t.ctl.run = 16
  addr  : t.ctl.addr = cursorOf e
  fb    : t.dev.fb = s.dev.fb ++ List.replicate (e + 1 - a) 0
  mosi  : t.bus.mosi = s.bus.mosi ++ List.replicate (e + 1 - a) 0
  daddr : t.dev.daddr = cursorOf (e + 1)

/-- SCAN's stream read the last `n` bytes of the array, those from `a` on, with no run of 16. -/
structure ScanMiss (s t : State) (a n : Nat) : Prop where
  none  : ∀ e', a ≤ e' → e' < size s.cfg → runAt s.dev.dmem (e' + 1) ≤ 15
  addr  : t.ctl.addr = cursorOf (size s.cfg)
  fb    : t.dev.fb = s.dev.fb ++ List.replicate n 0
  mosi  : t.bus.mosi = s.bus.mosi ++ List.replicate n 0
  daddr : t.dev.daddr = cursorOf (size s.cfg)

/-- SCAN's stream of the bytes from `a` on: it stops at the byte that completes the first run of 16, or
reads the whole array (rules R226 to R231). -/
theorem scanStream_spec {n : Nat} {s : State} {a : Nat} (h : Reading s a) (hn : n + a = size s.cfg)
    (hr : s.ctl.run.toNat = runAt s.dev.dmem a) (hle : runAt s.dev.dmem a ≤ 15) (had : s.ctl.addr = cursorOf a) :
    ∃ t found, scanStream n s = .ok found t ∧ t.cfg = s.cfg ∧ t.env = s.env ∧ t.bus.cs = true ∧
      t.bus.wire = s.bus.wire ∧ t.ctl = { s.ctl with mpc := t.ctl.mpc, run := t.ctl.run, addr := t.ctl.addr } ∧
      t.dev = { s.dev with fb := t.dev.fb, daddr := t.dev.daddr } ∧
      (found = true → ∃ e, ScanHit s t a e) ∧ (found = false → ScanMiss s t a n) := by
  have hsz := size_le s.cfg
  induction n generalizing s a with
  | zero =>
    refine ⟨s, false, rfl, rfl, rfl, h.cs, rfl, rfl, rfl, by simp,
      fun _ => ⟨fun e' h1 h2 => by omega, ?_, by simp, by simp, ?_⟩⟩
    · rw [had]; congr 1; omega
    · rw [h.daddr]; congr 1; omega
  | succ n ih =>
    have hszd : size s.cfg = endAddr s.cfg + 1 := rfl
    obtain ⟨h1, h2⟩ := xfer_reading (t := dummyTx) (h.atLabel .scanByte) (by simp only [atLabel_cfg]; omega)
    simp only [scanStream, bind_apply]
    rw [label_free _ h.noReset]
    simp only
    rw [h1]
    simp only [updCtl_apply, ask_apply, Rx.toByte]
    have hrun : (runAfter s.ctl.run (readByte s.dev.dmem a)).toNat = runAt s.dev.dmem (a + 1) := by
      simp only [runAfter, runAt]
      split
      · rw [BitVec.toNat_add, hr, show (1 : BitVec 5).toNat = 1 from rfl]; omega
      · rfl
    have hrt : runThreshold.toNat = 16 := rfl
    by_cases hf : runAfter s.ctl.run (readByte s.dev.dmem a) = runThreshold
    · rw [if_pos (by exact hf)]
      refine ⟨_, true, rfl, rfl, rfl, h.cs, rfl, rfl, rfl, fun _ => ⟨a, le_rfl, by omega, ?_,
        fun e' _ _ => by omega, hf, had, ?_, ?_, ?_⟩, by simp⟩
      · rw [← hrun, hf, hrt]
      · simp [dummyTx]
      · simp [dummyTx]
      · simp only [mapCtl_dev, atLabel_dev, h.daddr]
        apply BitVec.eq_of_toNat_eq
        simp [cursorOf]
    · rw [if_neg (by exact hf)]
      have hlt : runAt s.dev.dmem (a + 1) ≤ 15 := by
        have : runAt s.dev.dmem (a + 1) ≤ runAt s.dev.dmem a + 1 := by simp only [runAt]; split <;> omega
        have hne : runAt s.dev.dmem (a + 1) ≠ 16 := by
          intro h16
          apply hf
          apply BitVec.eq_of_toNat_eq
          rw [hrun, h16, hrt]
        omega
      obtain ⟨u, hu⟩ : ∃ u : State, State.mapCtl (State.mapCtl ({ s.atLabel .scanByte with
          bus := { s.bus with mosi := s.bus.mosi ++ [dummyTx]
                              miso := s.bus.miso ++ [.byte (readByte s.dev.dmem a)] }
          dev := { s.dev with fb := s.dev.fb ++ [dummyTx], daddr := s.dev.daddr + 1 } })
          (fun c => { c with run := runAfter c.run (readByte s.dev.dmem a) }))
          (fun c => { c with addr := c.addr + 1 }) = u := ⟨_, rfl⟩
      have hread : Reading u (a + 1) := by
        rw [← hu]; exact ⟨h2.cs, h2.noReset, h2.present, h2.idle, h2.command, h2.address⟩
      have hum : u.dev.dmem = s.dev.dmem := by rw [← hu]; rfl
      have hucfg : u.cfg = s.cfg := by rw [← hu]; rfl
      have hua : u.ctl.addr = cursorOf (a + 1) := by
        rw [← hu]
        simp only [mapCtl_ctl, atLabel_ctl, had]
        apply BitVec.eq_of_toNat_eq
        simp [cursorOf]
      obtain ⟨t, found, ht, hcfg, henv, hcs, hwire, hctl, hdev, hT, hF⟩ := ih hread (by rw [hucfg]; omega)
        (by rw [hum, ← hrun, ← hu]; rfl) (by rw [hum]; exact hlt) hua (by rw [hucfg]; exact hsz)
      have ef : u.dev.fb = s.dev.fb ++ [0] := by rw [← hu]; rfl
      have em : u.bus.mosi = s.bus.mosi ++ [0] := by rw [← hu]; rfl
      have hbound : ∀ {k}, (∀ e', a + 1 ≤ e' → e' < k → runAt s.dev.dmem (e' + 1) ≤ 15) →
          ∀ e', a ≤ e' → e' < k → runAt s.dev.dmem (e' + 1) ≤ 15 := by
        intro k hk e' h1 h2
        rcases Nat.lt_or_ge a e' with h | h
        · exact hk e' (by omega) h2
        · rw [show e' = a by omega]; exact hlt
      refine ⟨t, found, (bind_ok (updCtl_apply _ _)).trans ((congrArg _ hu).trans ht), by rw [hcfg, hucfg],
        by rw [henv, ← hu]; rfl, hcs, by rw [hwire, ← hu]; rfl, ?_, ?_, ?_, ?_⟩
      · rw [hctl, ← hu]; rfl
      · rw [hdev, ← hu]; rfl
      · intro hfd
        obtain ⟨e, e1, e2, e3, e4, e5, e6, e7, e8, e9⟩ := hT hfd
        rw [hum] at e3 e4
        rw [hucfg] at e2
        have hrep : e + 1 - a = (e + 1 - (a + 1)) + 1 := by omega
        refine ⟨e, by omega, e2, e3, hbound e4, e5, e6, ?_, ?_, e9⟩
        · rw [e7, ef, hrep, List.replicate_succ]; simp
        · rw [e8, em, hrep, List.replicate_succ]; simp
      · intro hfd
        obtain ⟨e1, e2, e3, e4, e5⟩ := hF hfd
        rw [hum, hucfg] at e1
        rw [hucfg] at e2 e5
        refine ⟨hbound e1, e2, ?_, ?_, e5⟩
        · rw [e3, ef, List.replicate_succ]; simp
        · rw [e4, em, List.replicate_succ]; simp

/-! ### DUMP_ALL's stream -/

/-- The end of a read frame has no device effect (rule R153). -/
theorem deselect_read {t : State} {a : FlashAddr} {n : Nat} (hc : t.bus.cs = true) (hr : t.env.due = [])
    (hp : t.cfg.present = true) (hfb : t.dev.fb = readFrame a n) :
    deselect t = .ok () { t with bus := { t.bus with cs := false, wire := t.bus.wire ++ [t.bus.mosi] } } := by
  rw [deselect_present hc hr hp]
  simp [endFrame, bind_apply, refusedFrame, frameCommand, hfb, readFrame, commandOf]

theorem readFrame_append (a : FlashAddr) (n : Nat) : readFrame a 0 ++ List.replicate n 0 = readFrame a n := by
  simp [readFrame]

theorem dumpEvents_succ (m : Memory) (a n : Nat) :
    dumpEvents m a (n + 1) = dumpEventsAt m a ++ dumpEvents m (a + 1) n := by
  simp [dumpEvents, List.range'_succ]

theorem byteSum_succ (m : Memory) (a n : Nat) :
    byteSum m a (n + 1) = (readByte m a).toNat + byteSum m (a + 1) n := by
  simp [byteSum, memRead, List.range'_succ]

theorem dumpEvents_add (m : Memory) (a n k : Nat) :
    dumpEvents m a (n + k) = dumpEvents m a n ++ dumpEvents m (a + n) k := by
  induction n generalizing a with
  | zero => simp [dumpEvents]
  | succ n ih =>
    rw [show n + 1 + k = (n + k) + 1 by omega, dumpEvents_succ, dumpEvents_succ, ih]
    simp [show a + 1 + n = a + (n + 1) by omega]

theorem byteSum_add (m : Memory) (a n k : Nat) :
    byteSum m a (n + k) = byteSum m a n + byteSum m (a + n) k := by
  induction n generalizing a with
  | zero => simp [byteSum, memRead]
  | succ n ih =>
    rw [show n + 1 + k = (n + k) + 1 by omega, byteSum_succ, byteSum_succ, ih]
    simp [show a + 1 + n = a + (n + 1) by omega, Nat.add_assoc]

/-- The dump of the bytes of one page from offset `i` on (rules R281, R282). -/
theorem dumpBytes_spec {base n : Nat} {s : State} {i : Nat} (h : Reading s (base + i)) (hb : base % 16 = 0)
    (hsz : base + i + n ≤ size s.cfg) :
    ∃ t, dumpBytes base i n s = .ok () t ∧ t.cfg = s.cfg ∧ t.env = s.env ∧ t.bus.cs = true ∧
      t.bus.wire = s.bus.wire ∧
      t.ctl = { s.ctl with mpc := t.ctl.mpc, addr := t.ctl.addr, sum := t.ctl.sum
                           log := s.ctl.log ++ dumpEvents s.dev.dmem (base + i) n } ∧
      t.ctl.sum = s.ctl.sum + BitVec.ofNat 8 (byteSum s.dev.dmem (base + i) n) ∧
      t.dev = { s.dev with fb := s.dev.fb ++ List.replicate n 0, daddr := t.dev.daddr } ∧
      t.bus.mosi = s.bus.mosi ++ List.replicate n 0 := by
  induction n generalizing s i with
  | zero =>
    exact ⟨s, rfl, rfl, rfl, h.cs, rfl, by simp [dumpEvents], by simp [byteSum, memRead], by simp, by simp⟩
  | succ n ih =>
    have hszd : size s.cfg = endAddr s.cfg + 1 := rfl
    obtain ⟨sA, hsA⟩ : ∃ u : State, (s.mapCtl fun c => { c with
        mpc := some .dumpByte
        addr := cursorOf (base + i)
        log := c.log ++ (if i % dumpRowBytes = 0 then [.dumpRow (cursorOf (base + i))] else []) }) = u := ⟨_, rfl⟩
    have hrA : Reading sA (base + i) := by
      rw [← hsA]; exact ⟨h.cs, h.noReset, h.present, h.idle, h.command, h.address⟩
    obtain ⟨h1, h2⟩ := xfer_reading (t := dummyTx) hrA (by rw [← hsA]; show _ ≤ endAddr s.cfg; omega)
    simp only at h1 h2
    generalize hB : State.mk _ _ _ _ _ = sB at h1 h2
    have hmA : sA.dev.dmem = s.dev.dmem := by rw [← hsA]; rfl
    obtain ⟨sC, hsC⟩ : ∃ u : State, (sB.mapCtl fun c => { c with
        sum := c.sum + readByte s.dev.dmem (base + i)
        log := c.log ++ [.dumpByte (readByte s.dev.dmem (base + i))] }) = u := ⟨_, rfl⟩
    have hrC : Reading sC (base + (i + 1)) := by
      rw [← hsC]; exact ⟨h2.cs, h2.noReset, h2.present, h2.idle, h2.command, h2.address⟩
    have hcfgC : sC.cfg = s.cfg := by rw [← hsC, ← hB, ← hsA]; rfl
    have hmC : sC.dev.dmem = s.dev.dmem := by rw [← hsC, ← hB, ← hsA]; rfl
    obtain ⟨t, ht, hcfg, henv, hcs, hw, hctl, hsum, hdev, hmosi⟩ := ih hrC (by rw [hcfgC]; omega)
    have hstep : dumpBytes base i (n + 1) s = dumpBytes base (i + 1) n sC := by
      rw [dumpBytes, bind_ok (label_free _ h.noReset), bind_ok (updCtl_apply _ _)]
      have hif : emitRow i ((s.atLabel .dumpByte).mapCtl fun c => { c with addr := cursorOf (base + i) }) = .ok () sA := by
        rw [← hsA, emitRow, bind_ok (ask_apply _)]
        split <;> simp [State.mapCtl, State.atLabel]
      rw [bind_ok hif, bind_ok h1, bind_ok (emit_apply _ _), bind_ok (updCtl_apply _ _), hmA, ← hsC]
      rfl
    refine ⟨t, hstep.trans ht, by rw [hcfg, hcfgC], ?_, hcs, ?_, ?_, ?_, ?_, ?_⟩
    · rw [henv, ← hsC, ← hB, ← hsA]; rfl
    · rw [hw, ← hsC, ← hB, ← hsA]; rfl
    · rw [hctl, hmC, ← hsC, ← hB, ← hsA, dumpEvents_succ]
      have hr : (base + i) % dumpRowBytes = 0 ↔ i % dumpRowBytes = 0 := by simp only [dumpRowBytes]; omega
      simp [dumpEventsAt, Nat.add_assoc, hr]
    · rw [hsum, hmC, ← hsC, ← hB, ← hsA, byteSum_succ]
      apply BitVec.eq_of_toNat_eq
      simp [BitVec.toNat_add, Nat.add_assoc]
    · rw [hdev, ← hsC, ← hB, ← hsA]; simp [List.replicate_succ, dummyTx]
    · rw [hmosi, ← hsC, ← hB, ← hsA]; simp [List.replicate_succ, dummyTx]

/-- The frames of the dump of `n` pages from page `p` on (rule R284). -/
def pageFrames (p n : Nat) : List (List Byte) :=
  (List.range' p n).flatMap fun p => [rdsrFrame, readFrame (BitVec.ofNat 24 (256 * p)) 256]

theorem wireAddr_page (p : Nat) : wireAddr (cursorOf (p * pageBytes)) = BitVec.ofNat 24 (256 * p) := by
  apply BitVec.eq_of_toNat_eq
  simp [wireAddr, cursorOf, pageBytes]
  omega

theorem size_eq_npages (c : Config) : size c = 256 * npages c := by
  simp [npages, size, endAddr, pageBytes]
  omega

theorem npages_pos (c : Config) : 0 < npages c := by unfold npages size endAddr pageBytes; omega

theorem npages_le (c : Config) : npages c ≤ 65536 := by
  have := c.lastPage.isLt
  unfold npages size endAddr pageBytes
  omega

/-- See `select_deviceTurn`. -/
theorem awaitReady_deviceTurn {s : State} (here : Poll) (h : BusFree s) (hr : ReadyNext s) :
    awaitReady here nop s = awaitReady here nop (deviceTurn s) := by
  have hd : deviceTurn (s.atLabel (.poll here)) = (deviceTurn s).atLabel (.poll here) := deviceTurn_mapCtl s _
  have : readStatus (s.atLabel (.poll here)) = readStatus ((deviceTurn s).atLabel (.poll here)) := by
    rw [← hd]
    simp only [readStatus, bind_apply, select_deviceTurn (s := s.atLabel (.poll here)) h.1 h.2 (by rw [hd]; exact hr.2)]
  rw [awaitReady, bind_ok (label_free _ h.2), bind_ok (label_free _ (by simpa using h.2))]
  simp only [bind_apply, this]

/-- The dump of `n` pages from page `p` on, to the checksum (rules R281 to R284). -/
theorem dumpPages_spec {n : Nat} {s : State} {p : Nat} (hf : BusFree s) (hp : s.cfg.present = true)
    (hb : s.dev.dbusy = false) (hn : p + n = npages s.cfg) (hlast : n = 0 → s.ctl.lastSr.getLsbD 0 = false) :
    ∃ t, dumpPages p n s = .ok () t ∧ t.cfg = s.cfg ∧ t.env.due = [] ∧ t.bus.cs = false ∧
      t.bus.wire = s.bus.wire ++ pageFrames p n ∧
      t.ctl = finished 0 { s.ctl with
        addr := t.ctl.addr, sum := t.ctl.sum, pidx := t.ctl.pidx, lastSr := t.ctl.lastSr
        checksum := t.ctl.checksum
        log := s.ctl.log ++ dumpEvents s.dev.dmem (256 * p) (256 * n) ++ [.dumpChecksum t.ctl.checksum] } ∧
      t.ctl.checksum = checksumOf (s.ctl.sum + BitVec.ofNat 8 (byteSum s.dev.dmem (256 * p) (256 * n))) ∧
      t.ctl.lastSr.getLsbD 0 = false ∧ t.dev = { s.dev with fb := t.dev.fb, daddr := t.dev.daddr } := by
  induction n generalizing s p with
  | zero =>
    have hend : dumpPages p 0 s = .ok () (s.mapCtl fun c => finished 0 { c with
        checksum := checksumOf c.sum, log := c.log ++ [.dumpChecksum (checksumOf c.sum)] }) := by
      rw [dumpPages, bind_ok (label_free _ hf.2), bind_ok (updCtl_apply _ _), bind_ok (label_free _ (by exact hf.2)),
        bind_ok (ask_apply _), bind_ok (emit_apply _ _), endWith_free _ (by exact hf.2)]
      rfl
    refine ⟨_, hend, rfl, hf.2, hf.1, by simp [pageFrames], ?_, ?_, hlast rfl, rfl⟩
    · simp [dumpEvents, finished]
    · simp [byteSum, memRead, finished]
  | succ n ih =>
    have hsz := size_eq_npages s.cfg
    have hnp := npages_le s.cfg
    obtain ⟨s0, hs0⟩ : ∃ u : State, (s.mapCtl fun c => { c with pidx := BitVec.ofNat 17 p }) = u := ⟨_, rfl⟩
    have hf0 : BusFree s0 := by rw [← hs0]; exact hf
    have hb0 : s0.dev.dbusy = false := by rw [← hs0]; exact hb
    have hr0 : ReadyNext s0 := ⟨by rw [← hs0]; exact hp, by rw [deviceTurn_idle hb0]; exact hb0⟩
    have haw := awaitReady_ready .dumpPoll nop hf0 hr0
    obtain ⟨s1, hs1⟩ : ∃ u, ((afterStatus s0).atLabel (.poll .dumpPoll)).atLabel .dumpOpen = u := ⟨_, rfl⟩
    have hlo : label .dumpOpen ((afterStatus s0).atLabel (.poll .dumpPoll)) = .ok () s1 := by
      rw [label_free _ (by simpa using hf0.2), hs1]
    have hs1d : s1.dev = { s.dev with fb := rdsrFrame } := by
      rw [← hs1, atLabel_dev, atLabel_dev, afterStatus_dev, deviceTurn_idle hb0, ← hs0]; rfl
    have hf1 : BusFree s1 := by rw [← hs1]; exact hf0.afterStatus
    have hp1 : s1.cfg.present = true := by rw [← hs1, ← hs0]; exact hp
    have hb1 : s1.dev.dbusy = false := by rw [hs1d]; exact hb
    have ho := openRead_idle (wireAddr (cursorOf (p * pageBytes))) hf1.1 hf1.2 hp1 hb1
    generalize hu : State.mk _ _ _ _ _ = s2 at ho
    have haddr : (wireAddr (cursorOf (p * pageBytes))).toNat = p * 256 := by
      rw [wireAddr_page]; simp; omega
    have hr2 : Reading s2 (p * pageBytes + 0) := by
      rw [← hu]
      refine ⟨rfl, hf1.2, hp1, hb1, ⟨_, _, _, _, rfl⟩, ?_⟩
      simp only [BitVec.toNat_setWidth]
      rw [haddr]; simp only [pageBytes]
      omega
    have hc2 : s2.cfg = s.cfg := by rw [← hu, ← hs1, ← hs0]; rfl
    obtain ⟨s3, hd3, h3cfg, h3env, h3cs, h3w, h3ctl, h3sum, h3dev, h3mosi⟩ :=
      dumpBytes_spec (n := pageBytes) hr2 (by simp only [pageBytes]; omega)
        (by rw [hc2, hsz]; simp only [pageBytes]; omega)
    have h3fb : s3.dev.fb = readFrame (wireAddr (cursorOf (p * pageBytes))) 256 := by
      rw [h3dev, ← hu]; exact readFrame_append _ 256
    have h3mo : s3.bus.mosi = readFrame (wireAddr (cursorOf (p * pageBytes))) 256 := by
      rw [h3mosi, ← hu]; exact readFrame_append _ 256
    have h3r : s3.env.due = [] := by rw [h3env, ← hu]; exact hf1.2
    have hds := deselect_read (t := s3.atLabel .dumpClose) h3cs h3r (by rw [atLabel_cfg, h3cfg, hc2]; exact hp) h3fb
    generalize h4 : State.mk _ _ _ _ _ = s4 at hds
    have hm2 : s2.dev.dmem = s.dev.dmem := by rw [← hu]; simp [hs1d]
    have hdev4 : s4.dev = { s.dev with fb := s4.dev.fb, daddr := s4.dev.daddr } := by
      have : s2.dev = { s.dev with fb := s2.dev.fb, daddr := s2.dev.daddr } := by rw [← hu]; simp only [hs1d]
      rw [← h4]; simp only [atLabel_dev]; rw [h3dev, this]
    have hm4 : s4.dev.dmem = s.dev.dmem := by rw [hdev4]
    have hc4 : s4.cfg = s.cfg := by rw [← h4]; exact h3cfg.trans hc2
    have e1 : s1.ctl = { s.ctl with mpc := s1.ctl.mpc, pidx := BitVec.ofNat 17 p, lastSr := s1.ctl.lastSr } := by
      rw [← hs1, ← hs0]; rfl
    have e1b : s1.ctl.lastSr.getLsbD 0 = false := by
      rw [← hs1]; simp only [atLabel_ctl, afterStatus_ctl, statusSeen_bit0]; exact hr0.2
    have e2 : s2.ctl = s1.ctl := by rw [← hu]
    have e4 : s4.ctl = { s3.ctl with mpc := some .dumpClose } := by rw [← h4]; rfl
    have hlog4 : s4.ctl.log = s.ctl.log ++ dumpEvents s.dev.dmem (256 * p) 256 := by
      rw [e4, h3ctl, hm2, e2, e1]; simp [pageBytes, Nat.mul_comm]
    have hsum4 : s4.ctl.sum = s.ctl.sum + BitVec.ofNat 8 (byteSum s.dev.dmem (256 * p) 256) := by
      rw [e4, h3sum, hm2, e2, e1]; simp [pageBytes, Nat.mul_comm]
    obtain ⟨t, ht, tcfg, tr, tcs, tw, tctl, tck, tsr, tdev⟩ := ih (s := s4) (p := p + 1)
      (by rw [← h4]; exact ⟨rfl, h3r⟩) (by rw [hc4]; exact hp) (by rw [hdev4]; exact hb) (by rw [hc4]; omega)
      (fun _ => by rw [e4, h3ctl, e2]; exact e1b)
    have hlen : 256 * (n + 1) = 256 + 256 * n := by omega
    have hnext : 256 * p + 256 = 256 * (p + 1) := by omega
    refine ⟨t, ?_, by rw [tcfg, hc4], tr, tcs, ?_, ?_, ?_, tsr, ?_⟩
    · rw [dumpPages, bind_ok (updCtl_apply _ _)]
      have : (s.mapCtl fun c => { c with pidx := BitVec.ofNat 17 p }) = s0 := hs0
      rw [this, bind_ok haw, bind_ok hlo, bind_ok ho, bind_ok hd3, bind_ok (label_free _ h3r), bind_ok hds]
      exact ht
    · have : s4.bus.wire = s.bus.wire ++ [rdsrFrame, readFrame (BitVec.ofNat 24 (256 * p)) 256] := by
        have : s2.bus.wire = s.bus.wire ++ [rdsrFrame] := by rw [← hu, ← hs1, ← hs0]; rfl
        rw [← h4]; simp only [atLabel_bus, h3w, h3mo, wireAddr_page, this]; simp
      rw [tw, this]
      have : pageFrames p (n + 1) =
          [rdsrFrame, readFrame (BitVec.ofNat 24 (256 * p)) 256] ++ pageFrames (p + 1) n := by
        simp only [pageFrames, List.range'_succ, List.flatMap_cons]
      rw [this, List.append_assoc]
    · rw [tctl, hlog4, hm4, hlen, dumpEvents_add, hnext, e4, h3ctl, e2, e1]
      simp [finished]
    · rw [tck, hsum4, hm4, hlen, byteSum_add, hnext, BitVec.ofNat_add, BitVec.add_assoc]
    · rw [tdev, hdev4]

end Sys2Proof.Machine
end

