-- ==== Sys2Proof/Laws/Wire.lean ====
section
/-!
SUPPORT. What goes on the wire, said once for each bus primitive and each frame, whichever way it ends:
the chip-select, the bytes sent so far, and the frames closed so far (rules R34, R108, R121 to R126).
-/

namespace Sys2Proof.Machine

variable {α : Type} {P P' : State → Prop} {Q Q' : α → State → Prop} {E E' : Exit → State → Prop}

theorem Triple.and {m : Act α} (h1 : Triple P m Q E) (h2 : Triple P' m Q' E') :
    Triple (fun s => P s ∧ P' s) m (fun a s => Q a s ∧ Q' a s) (fun e s => E e s ∧ E' e s) := by
  intro s hs
  have a1 := h1 s hs.1
  have a2 := h2 s hs.2
  cases hm : m s <;> rw [hm] at a1 a2 <;> exact ⟨a1, a2⟩

/-- Between two frames, with the frames `w` closed so far. -/
def Between (w : List (List Byte)) (s : State) : Prop := s.bus.cs = false ∧ s.bus.wire = w

/-- Inside a frame: the bytes sent so far satisfy `F`, and a present device received them. -/
structure Inside (w : List (List Byte)) (F : List Byte → Prop) (s : State) : Prop where
  cs       : s.bus.cs = true
  wire     : s.bus.wire = w
  sent     : F s.bus.mosi
  received : s.cfg.present = true → s.dev.fb = s.bus.mosi

/-- At an external reset the bus is between frames or inside one whose bytes satisfy `F`. -/
def AtReset (w : List (List Byte)) (F : List Byte → Prop) (e : Exit) (s : State) : Prop :=
  e = .resetArrived → Between w s ∨ Inside w F s

/-- The bus and the device's frame buffer are unchanged. -/
def SameBus (s0 s : State) : Prop := s.bus = s0.bus ∧ s.dev.fb = s0.dev.fb ∧ s.cfg = s0.cfg

theorem sameBus_tick (s0 : State) :
    Triple (SameBus s0) tick (fun _ => SameBus s0) (fun _ => SameBus s0) := by
  intro s hs
  have h := tick_looked s
  cases hm : tick s <;> rw [hm] at h <;>
    exact ⟨h.1.bus.trans hs.1, (congrArg Device.fb h.1.dev).trans hs.2.1, h.1.cfg.trans hs.2.2⟩

theorem sameBus_deviceOut (s0 : State) (k : Nat) :
    Triple (SameBus s0) (deviceOut k) (fun _ => SameBus s0) (fun e _ => e ≠ .resetArrived) := by
  have hd : Triple (SameBus s0) drawRx (fun _ => SameBus s0) (fun e _ => e ≠ .resetArrived) :=
    .bind (Q := fun _ => SameBus s0) (fun _ h => h) fun _ => .pure _ fun _ h => h
  refine .bind (Q := fun _ => SameBus s0) (.ask fun _ h => h) fun s => .ite (fun _ => hd) fun _ =>
    .ite (fun _ => hd) fun _ => ?_
  split
  · exact .ite (fun _ => .bind (Q := fun _ => SameBus s0) (fun _ h => h) fun _ =>
      .bind (Q := fun _ => SameBus s0) (.ask fun _ h => h) fun _ => .pure _ fun _ h => h) fun _ => hd
  · exact .ite (fun _ => .pure _ fun _ h => h) fun _ => .ite (fun _ => .pure _ fun _ h => h) fun _ => hd
  · refine .ite (fun _ => ?_) fun _ => .ite (fun _ => .bind (Q := fun _ => SameBus s0) (.upd _ fun s h => ?_)
      fun _ => hd) fun _ => hd
    · exact .bind (Q := fun _ => SameBus s0) (.ask fun _ h => h) fun _ => .ite (fun _ => .leave _ fun _ _ => by simp)
        fun _ => .bind (Q := fun _ => SameBus s0) (.upd _ fun _ h => h) fun _ => .pure _ fun _ h => h
    · refine ⟨h.1, ?_, h.2.2⟩
      rw [← h.2.1]
      simp only [mapDev_dev, latchReadAddr]
      split <;> rfl
  · exact hd

/-- `EndFrame` touches neither the bus nor the frame buffer. -/
theorem sameBus_endFrame (s0 : State) :
    Triple (SameBus s0) endFrame (fun _ => SameBus s0) (fun e _ => e ≠ .resetArrived) := by
  refine .bind (Q := fun _ => SameBus s0) (.ask fun _ h => h) fun s => .ite (fun _ => .nop fun _ h => h) fun _ => ?_
  split
  · exact .ite (fun _ => .upd _ fun _ h => h) fun _ => .nop fun _ h => h
  · exact .ite (fun _ => .upd _ fun _ h => h) fun _ => .nop fun _ h => h
  · split
    · exact .ite (fun _ => .bind (Q := fun _ => SameBus s0) (.ask fun _ h => h) fun _ =>
        .ite (fun _ => .leave _ fun _ _ => by simp) fun _ => .upd _ fun _ h => h) fun _ => .nop fun _ h => h
    · exact .nop fun _ h => h
  · exact .nop fun _ h => h

section
variable {w : List (List Byte)} {F G : List Byte → Prop}

theorem Between.same {s t : State} (h : SameBus s t) (hs : Between w s) : Between w t := by
  unfold Between at hs ⊢; rw [h.1]; exact hs

theorem Inside.same {s t : State} (h : SameBus s t) (hs : Inside w F s) : Inside w F t :=
  ⟨by rw [h.1]; exact hs.cs, by rw [h.1]; exact hs.wire, by rw [h.1]; exact hs.sent,
    fun hp => by rw [h.2.1, h.1]; exact hs.received (by rw [← h.2.2]; exact hp)⟩

theorem deviceTurn_fb (s : State) : (deviceTurn s).dev.fb = s.dev.fb := by
  rw [deviceTurn_dev]; split <;> rfl

/-- `Select()` opens a frame with nothing sent (rule R121). -/
theorem select_wire : Triple (Between w) select (fun _ => Inside w (· = [])) (AtReset w F) := by
  intro s hs
  have ht := sameBus_tick s s ⟨rfl, rfl, rfl⟩
  unfold select
  rw [bind_apply]
  cases htk : tick s with
  | error e u => rw [htk] at ht; exact fun _ => .inl (hs.same ht)
  | ok a u =>
    rw [htk] at ht
    have hu := hs.same ht
    simp only [bind_apply, ask_apply, hu.1, Bool.false_eq_true, if_false, upd_apply]
    cases hp : u.cfg.present
    · rw [if_neg (by simp)]
      exact ⟨rfl, by simpa using hu.2, rfl, fun h => by simp [hp] at h⟩
    · rw [if_pos (by simp)]
      exact ⟨rfl, by simpa using hu.2, rfl, fun _ => rfl⟩

/-- `Xfer(t)` sends one byte more (rule R123). -/
theorem xfer_wire {t : Byte} (hF : ∀ l, F l → G (l ++ [t])) :
    Triple (Inside w F) (xfer t) (fun _ => Inside w G) (AtReset w F) := by
  intro s hs
  have ht := sameBus_tick s s ⟨rfl, rfl, rfl⟩
  unfold xfer
  rw [bind_apply]
  cases htk : tick s with
  | error e u => rw [htk] at ht; exact fun _ => .inr (hs.same ht)
  | ok a u =>
    rw [htk] at ht
    have hu := hs.same ht
    simp only [bind_apply, ask_apply, hu.cs, if_true]
    cases hp : u.cfg.present
    · rw [if_neg (by simp)]
      exact ⟨hu.cs, hu.wire, hF _ hu.sent, fun h => by simp [hp] at h⟩
    · rw [if_pos rfl]
      simp only [deviceExchange, bind_apply, ask_apply, upd_apply]
      have hd := sameBus_deviceOut (u.mapDev fun d => { d with fb := d.fb ++ [t] }) u.dev.fb.length _ ⟨rfl, rfl, rfl⟩
      cases hdo : deviceOut u.dev.fb.length (u.mapDev fun d => { d with fb := d.fb ++ [t] }) with
      | error e v => rw [hdo] at hd; exact fun h => absurd h hd
      | ok r v =>
        rw [hdo] at hd
        refine ⟨?_, ?_, ?_, fun _ => ?_⟩
        · show v.bus.cs = true
          rw [hd.1]; exact hu.cs
        · show v.bus.wire = w
          rw [hd.1]; exact hu.wire
        · show G (v.bus.mosi ++ [t])
          rw [hd.1]; exact hF _ hu.sent
        · show v.dev.fb = v.bus.mosi ++ [t]
          rw [hd.1, hd.2.1]
          show u.dev.fb ++ [t] = u.bus.mosi ++ [t]
          rw [hu.received hp]

/-- `Deselect()` closes the frame: the bytes sent go on the record (rules R122, R108). -/
theorem deselect_wire : Triple (Inside w F) deselect (fun _ s => ∃ f, F f ∧ Between (w ++ [f]) s) (AtReset w F) := by
  intro s hs
  have ht := sameBus_tick s s ⟨rfl, rfl, rfl⟩
  unfold deselect
  rw [bind_apply]
  cases htk : tick s with
  | error e u => rw [htk] at ht; exact fun _ => .inr (hs.same ht)
  | ok a u =>
    rw [htk] at ht
    have hu := hs.same ht
    simp only [bind_apply, ask_apply, hu.cs, if_true, releaseCs, upd_apply]
    have hout : Between (w ++ [u.bus.mosi]) (u.mapBus fun b => { b with cs := false, wire := b.wire ++ [b.mosi] }) :=
      ⟨rfl, by simp [hu.wire]⟩
    cases hp : u.cfg.present
    · rw [if_neg (by simp [hp])]
      exact ⟨_, hu.sent, hout⟩
    · rw [if_pos (by simp [hp])]
      have he := sameBus_endFrame (u.mapBus fun b => { b with cs := false, wire := b.wire ++ [b.mosi] }) _ ⟨rfl, rfl, rfl⟩
      cases hef : endFrame (u.mapBus fun b => { b with cs := false, wire := b.wire ++ [b.mosi] }) with
      | ok a v => rw [hef] at he; exact ⟨_, hu.sent, hout.same he⟩
      | error e v => rw [hef] at he; exact fun h => absurd h he

/-- The bytes of a list sent one after the other, whatever is sent first (rule R124). -/
theorem xferAll_wire (ts : List Byte) (hF : ∀ l n, F l → F (l ++ ts.take n)) :
    Triple (Inside w F) (xferAll ts) (fun _ => Inside w fun l => ∃ l0, F l0 ∧ l = l0 ++ ts) (AtReset w F) := by
  have key : ∀ us vs, us ++ vs = ts → Triple (Inside w fun l => ∃ l0, F l0 ∧ l = l0 ++ us) (xferAll vs)
      (fun _ => Inside w fun l => ∃ l0, F l0 ∧ l = l0 ++ ts) (AtReset w F) := by
    intro us vs
    induction vs generalizing us with
    | nil =>
      intro h
      exact .pure _ fun s hs => by rw [← h, List.append_nil]; exact hs
    | cons v vs ih =>
      intro h
      refine .bind (Q := fun _ => Inside w fun l => ∃ l0, F l0 ∧ l = l0 ++ (us ++ [v])) ?_ fun _ =>
        ih (us ++ [v]) (by simpa using h)
      refine (xfer_wire (F := fun l => ∃ l0, F l0 ∧ l = l0 ++ us) ?_).conseq (fun _ h => h) (fun _ _ h => h) ?_
      · rintro l ⟨l0, h0, rfl⟩
        exact ⟨l0, h0, by simp⟩
      · intro e s hs he
        refine (hs he).imp id fun hi => ⟨hi.cs, hi.wire, ?_, hi.received⟩
        obtain ⟨l0, h0, hl⟩ := hi.sent
        rw [hl]
        have : us = ts.take us.length := by rw [← h]; simp
        rw [this]
        exact hF _ _ h0
  exact (key [] ts rfl).conseq (fun s hs => ⟨hs.cs, hs.wire, ⟨_, hs.sent, by simp⟩, hs.received⟩) (fun _ _ h => h)
    fun _ _ h => h

/-- A complete frame puts exactly its bytes on the record; a reset inside it has sent some first part of
them (rules R108, R125, R341). -/
theorem frame_wire (bytes : List Byte) : Triple (Between w) (frame bytes) (fun _ => Between (w ++ [bytes]))
    (AtReset w fun l => ∃ n, l = bytes.take n) := by
  have hin : ∀ {s}, Inside w (· = []) s → Inside w (fun l => ∃ n, l = bytes.take n) s :=
    fun h => ⟨h.cs, h.wire, ⟨0, by simp [h.sent]⟩, h.received⟩
  have hx : Triple (Inside w (· = [])) (xferAll bytes) (fun _ => Inside w (· = bytes))
      (AtReset w fun l => ∃ n, l = bytes.take n) := by
    have key : ∀ us vs, us ++ vs = bytes → Triple (Inside w (· = us)) (xferAll vs) (fun _ => Inside w (· = bytes))
        (AtReset w fun l => ∃ n, l = bytes.take n) := by
      intro us vs
      induction vs generalizing us with
      | nil => intro h; exact .pure _ fun s hs => by rw [← h, List.append_nil]; exact hs
      | cons v vs ih =>
        intro h
        refine .bind (Q := fun _ => Inside w (· = us ++ [v])) ?_ fun _ => ih (us ++ [v]) (by simpa using h)
        refine (xfer_wire (F := (· = us)) fun l hl => by rw [hl]).conseq (fun _ h => h) (fun _ _ h => h) ?_
        intro e s hs he
        refine (hs he).imp id fun hi => ⟨hi.cs, hi.wire, ⟨us.length, ?_⟩, hi.received⟩
        rw [hi.sent, ← h]; simp
    exact key [] bytes rfl
  refine .bind select_wire fun _ => .bind hx fun _ => deselect_wire.conseq (fun _ h => h) ?_ ?_
  · rintro _ s ⟨f, rfl, h⟩; exact h
  · intro e s hs he
    exact (hs he).imp id fun hi => ⟨hi.cs, hi.wire, ⟨bytes.length, by rw [hi.sent]; simp⟩, hi.received⟩

end

end Sys2Proof.Machine
end

