-- ==== Sys2Proof/Tests/Slice0.lean ====
section
/-!
SUPPORT. Tests. Expected results are those of spec/95_test_vectors.md (the vector's name stands at each
test) or of the encoding tables of spec/30_encoding.md; then, for every statement with hypotheses, a
named theorem that shows a state and operands that meet them.
-/

namespace Sys2Proof.Tests

open Sys2Proof.Machine

/-! ### Helpers -/

/-- The machine after reset with these parts in place of its own. -/
def at0 (ctl : Controller := Controller.reset) (dev : Device := Device.quiet) (env : Env := Env.reset)
    (cfg : Config := Config.vectors) : State :=
  { State.launch cfg dev env with ctl := ctl }

/-- The outcome is a next state of which `P` holds. -/
def nextIs (o : Host.Outcome State Fault Refusal) (P : State → Bool) : Bool :=
  match o with
  | .next t => P t
  | .fault _ => false
  | .refused _ => false

/-- The outcome is this fault. -/
def faultIs (o : Host.Outcome State Fault Refusal) (f : Fault) : Bool :=
  match o with
  | .next _ => false
  | .fault g => g == f
  | .refused _ => false

/-- The outcome is this refusal. -/
def refusedIs (o : Host.Outcome State Fault Refusal) (r : Refusal) : Bool :=
  match o with
  | .next _ => false
  | .fault _ => false
  | .refused q => q == r

theorem nextIs_iff {o : Host.Outcome State Fault Refusal} {P : State → Bool} (h : nextIs o P = true) :
    ∃ t, o = .next t ∧ P t = true := by
  cases o with
  | next t => exact ⟨t, rfl, h⟩
  | fault f => cases h
  | refused r => cases h

/-- The device runs a chip erase. -/
def erasing : Device := { Device.quiet with dbusy := true, dwel := true, dpend := .erase }

/-- The device runs a page program of four bytes at address 0. -/
def programming : Device :=
  { Device.quiet with dbusy := true, dwel := true, dpend := .prog 0 [0x01, 0x02, 0x03, 0x63] }

/-- Write-enable is latched. -/
def latched : Device := { Device.quiet with dwel := true }

/-- An array of one page. -/
def onePage : Config := { Config.vectors with lastPage := 0 }

/-- The bytes from `a` on are 0x00, `n` of them; every other byte is erased. -/
def zeros (a n : Nat) : Memory := (List.range' a n).map fun k => (k, 0x00)

/-- Every 16th byte of one page is 0x00, so that no 16 bytes in a row are erased. -/
def striped : Memory := (List.range 16).map fun k => (16 * k + 15, 0x00)

/-- Opportunities to complete that the device lets pass, then one it takes. -/
def passing (n : Nat) : Env := { Env.reset with turns := List.replicate n false ++ [true] }

/-- One coming move. -/
def comes (i : Input) : Env := { Env.reset with inbox := [i] }

/-- What is due in the middle of the step. -/
def isDue (d : List Due) : Env := { Env.reset with due := d }

/-! ### Well-formedness: each check refuses an ill-formed term -/

theorem test_read_of_no_byte_refused :
    (Instr.read 0x000100 0).illFormed = some .readEmpty ∧ (Instr.read 0x000100 0).wellFormed = false := by decide
theorem test_pp_of_no_byte_refused :
    (Instr.pp 0 []).illFormed = some .ppEmpty ∧ (Instr.pp 0 []).wellFormed = false := by decide
theorem test_pp_of_257_bytes_refused :
    (Instr.pp 0 (List.replicate 257 0)).illFormed = some .ppTooLong ∧
      (Instr.pp 0 (List.replicate 257 0)).wellFormed = false := by decide +kernel
theorem test_pp_of_256_bytes_accepted : (Instr.pp 0 (List.replicate 256 0)).wellFormed = true := by decide +kernel

/-! ### Decoding: words and frames written out from the encoding tables -/

/-- Section 2.1, every legal word. -/
theorem test_decode_host_words :
    decode (.word 0x00000001) = .ok .readId ∧ decode (.word 0x00000002) = .ok .readStatus ∧
    decode (.word 0x00000003) = .ok .awaitReady ∧ decode (.word 0x00000004) = .ok .writeEnable ∧
    decode (.word 0x00000005) = .ok .chipErase ∧ decode (.word 0x00000006) = .ok .scan ∧
    decode (.word 0x00000407) = .ok (.writeData 4) ∧ decode (.word 0x00010007) = .ok (.writeData 256) ∧
    decode (.word 0x0001FF07) = .ok (.writeData 511) ∧ decode (.word 0x00000007) = .ok (.writeData 0) ∧
    decode (.word 0x00000008) = .ok .dumpAll := by decide

/-- `WRITE_DATA 4` bit by bit (rule R92): fifteen reserved bits, nine bits of `LEN`, eight of `OP`. -/
theorem test_decode_write_data_bits :
    decode (.word 0b00000000000000000000010000000111) = .ok (.writeData 0b000000100) := by decide

/-- Section 2.1, every illegal word. -/
theorem test_decode_illegal_words :
    decode (.word 0x00000000) = .error .reservedOp ∧ decode (.word 0x00000009) = .error .reservedOp ∧
    decode (.word 0x000000FF) = .error .reservedOp ∧ decode (.word 0x00000105) = .error .lenNotZero ∧
    decode (.word 0x00000101) = .error .lenNotZero ∧ decode (.word 0x00020001) = .error .reservedBits ∧
    decode (.word 0x00020007) = .error .reservedBits ∧ decode (.word 0x80000007) = .error .reservedBits := by decide

/-- Section 2.2, one frame of each command; the command bytes bit by bit (rule R101). -/
theorem test_decode_frames :
    decode (.frame [0b10010000, 0x00, 0x00, 0x00, 0x00, 0x00]) = .ok .rdid ∧
    decode (.frame [0b00000110]) = .ok .wren ∧ decode (.frame [0b00000101, 0x00]) = .ok .rdsr ∧
    decode (.frame [0b11000111]) = .ok .ce ∧
    decode (.frame [0b00000011, 0x00, 0x01, 0x00, 0x00, 0x00, 0x00]) = .ok (.read 0x000100 3) ∧
    decode (.frame [0b00000010, 0x00, 0x00, 0x04, 0xAA, 0x55]) = .ok (.pp 0x000004 [0xAA, 0x55]) := by decide

/-- A `PP` cut after its address, an empty frame and an unknown command are no instructions. -/
theorem test_decode_bad_frames :
    decode (.frame [0x02, 0x00, 0x00, 0x00]) = .error .frameLength ∧ decode (.frame []) = .error .emptyFrame ∧
    decode (.frame [0x9F]) = .error .unknownCommand ∧ decode (.frame [0x05, 0x01]) = .error .dummyByte := by decide

/-- No word matches two rows of the host table: two rows differ in a bit both fix (rule R95). -/
theorem test_host_rows_disjoint :
    hostRows.Pairwise (fun a b => a.mask &&& b.mask &&& (a.value ^^^ b.value) ≠ 0) := by
  unfold hostRows; decide

/-- The host's numbering: the first word's bits 7:0 are the command byte of a frame row. -/
theorem test_decode_table_word :
    decodeTableWord 32 0x00000407 = some (.writeData 4) ∧ decodeTableWord 8 0x90 = some .rdid ∧
    decodeTableWord 8 0x03 = some (.read 0 1) ∧ decodeTableWord 8 0x02 = some (.pp 0 [0]) ∧
    decodeTableWord 32 0 = none := by decide

/-- What `withFetchWord` places, the next step runs. -/
theorem test_fetch_word_runs :
    nextIs (step (State.reset.withFetchWord 8 0x06)) (fun t => t.dev.dwel && t.bus.wire == [[0x06]]) = true := by
  decide

/-! ### The array -/

/-- Section 2.7, the table of program semantics (rule R159). -/
theorem test_program_ands :
    (readByte (memWrite [] 7 [0x3C]) 7, readByte (memWrite [(7, 0xF0)] 7 [0x0F]) 7,
      readByte (memWrite [(7, 0xAA)] 7 [0x55]) 7, readByte (memWrite [(7, 0x63)] 7 [0x63]) 7,
      readByte (memWrite [(7, 0x00)] 7 [0xFF]) 7) = (0x3C, 0x00, 0x00, 0x63, 0x00) := by decide

/-- Writing 0xFF removes the entry, so equal arrays are equal lists. -/
theorem test_write_keeps_canonical_form :
    writeByte [(1, 0x01), (5, 0x05)] 3 0x03 = [(1, 0x01), (3, 0x03), (5, 0x05)] ∧
    writeByte [(1, 0x01), (5, 0x05)] 5 0xFF = [(1, 0x01)] := by decide

/-! ### One step of each instruction -/

/-- I-1; with reads due inside (rules R33, R271; decision D38): `IDREG` before the statement that writes it, which
comes after a label and the eight primitives of the `RDID` frame, and after it, with `SEQ = EXEC` and `IDV` still
clear; then, two statements later, with `IDV` set. -/
theorem test_read_id_match :
    nextIs (exec .readId (at0 (env := isDue [⟨9, .read .idreg⟩, ⟨1, .read .idreg⟩, ⟨0, .read .ctrlstat⟩,
        ⟨2, .read .ctrlstat⟩])))
      (fun t => t.ctl.idreg == 0x13EF && t.ctl.idv && !t.ctl.idmm && t.ctl.result == 0x00
      && t.ctl.log == [.idRead 0xEF 0x13]
      && t.env.seen == [(.idreg, 0), (.idreg, 0x13EF), (.ctrlstat, 0x01), (.ctrlstat, 0x21)]) = true := by decide
/-- I-2. -/
theorem test_read_id_mismatch :
    nextIs (exec .readId (at0 (cfg := { Config.vectors with devMfr := 0xC2, devDev := 0x20 })))
      (fun t => t.ctl.idreg == 0x20C2 && t.ctl.idmm && t.ctl.result == 0x01 && t.ctl.seq == .idle
        && t.ctl.log == [.idRead 0xC2 0x20, .idMismatch 0xC2 0x20]) = true := by decide
/-- T2: the device stays busy; bits 1:0 read 11. -/
theorem test_read_status_busy :
    nextIs (exec .readStatus (at0 (dev := programming) (env := passing 1)))
      (fun t => t.ctl.result == 0x00 && t.dev.dbusy && t.bus.miso[1]?.map Rx.welBit == some true
        && t.bus.miso[1]?.map Rx.busyBit == some true) = true := by decide
/-- T3, its first poll. -/
theorem test_await_ready_busy :
    nextIs (exec .awaitReady (at0 (dev := programming) (env := passing 2)))
      (fun t => t.ctl.seq == .exec && t.bus.wire == [[0x05, 0x00]]) = true := by decide
/-- T4. -/
theorem test_await_ready_idle :
    nextIs (exec .awaitReady (at0)) (fun t => t.ctl.seq == .idle && t.ctl.result == 0x00
      && t.bus.wire == [[0x05, 0x00]]) = true := by decide
/-- G-1. -/
theorem test_write_enable_keeps_wp :
    nextIs (exec .writeEnable (at0 (ctl := { Controller.reset with wp := true })))
      (fun t => t.ctl.result == 0x00 && t.dev.dwel && t.ctl.wp
        && t.bus.wire == [[0x05, 0x00], [0x06], [0x05, 0x00]]) = true := by decide
/-- G-3. -/
theorem test_write_enable_rejected :
    nextIs (exec .writeEnable (at0 (ctl := { Controller.reset with wp := true })
        (cfg := { Config.vectors with wrenReject := true })))
      (fun t => t.ctl.result == 0x02 && !t.ctl.wp && t.ctl.log == [.welFail]) = true := by decide
/-- E-1, up to its busy poll. -/
theorem test_chip_erase_busy_poll :
    nextIs (exec .chipErase (at0 (env := passing 1)))
      (fun t => t.ctl.log == [.eraseProgress] && t.dev.dpend == .erase && t.ctl.seq == .exec
        && t.bus.wire == [[0x05, 0x00], [0x06], [0x05, 0x00], [0xC7], [0x05, 0x00]]) = true := by decide
/-- E-4. -/
theorem test_chip_erase_no_abort :
    nextIs (exec .chipErase (at0 (dev := { Device.quiet with dmem := [(0, 0x12)] })
        (cfg := { Config.vectors with wrenReject := true, eraseAbort := false })))
      (fun t => t.ctl.result == 0x02 && !t.ctl.wp && t.ctl.log == [.welFail] && t.dev.dmem == [(0, 0x12)]
        && t.bus.wire == [[0x05, 0x00], [0x06], [0x05, 0x00], [0xC7], [0x05, 0x00]]) = true := by decide
/-- SC-2 (S3): the run starts at byte 37; the cursor is 48 and 53 bytes are streamed. With reads due inside (rules
R33, R228, R229; decision D38): `CURSOR` before and after the statement that writes it, which comes after the frame,
then `WP` before and after its own. -/
theorem test_scan_rounds_up :
    nextIs (exec .scan (at0 (dev := { Device.quiet with dmem := zeros 0 37 })
        (env := isDue [⟨119, .read .cursor⟩, ⟨1, .read .cursor⟩, ⟨0, .read .ctrlstat⟩, ⟨1, .read .ctrlstat⟩])))
      (fun t => t.ctl.cursor == 0x030 && t.ctl.wp && t.ctl.result == 0x00
        && t.bus.wire.map List.length == [2, 4 + 53]
        && t.env.seen == [(.cursor, 0), (.cursor, 0x030), (.ctrlstat, 0x01), (.ctrlstat, 0x11)]) = true := by
  decide +kernel
/-- SC-12, on one page. -/
theorem test_scan_exhausted :
    nextIs (exec .scan (at0 (ctl := { Controller.reset with cursor := 0x100, wp := true })
        (dev := { Device.quiet with dmem := striped }) (cfg := onePage)))
      (fun t => t.ctl.cursor == 0x100 && !t.ctl.wp && t.ctl.result == 0x06 && t.ctl.log == [.noRegion]
        && t.bus.wire.map List.length == [2, 4 + 256]) = true := by decide +kernel
/-- W-7. -/
theorem test_write_data_ends_page :
    nextIs (exec (.writeData 1) (at0 (ctl := { Controller.reset with cursor := 0x0FF, wp := true })))
      (fun t => t.ctl.cursor == 0x100 && t.ctl.result == 0x00 && t.dev.dpend == .prog 0x0000FF [0x00]
        && t.bus.wire == [[0x05, 0x00], [0x06], [0x05, 0x00], [0x05, 0x00], [0x02, 0x00, 0x00, 0xFF, 0x00]]) = true := by
  decide +kernel
/-- W-11: both checks fail, and capacity comes first. -/
theorem test_write_data_capacity_first :
    nextIs (exec (.writeData 17) (at0 (ctl := { Controller.reset with cursor := 0x3F0, wp := true })))
      (fun t => t.ctl.seq == .halted && t.ctl.result == 0x05 && t.ctl.cursor == 0x3F0 && t.ctl.wp
        && t.ctl.log == [.capacityExhausted] && t.bus.wire == []) = true := by decide
/-- Section 2.8, the fifth image, on one page: its sum is 109 mod 256 there too. -/
theorem test_dump_checksum :
    nextIs (exec .dumpAll (at0 (dev := { Device.quiet with dmem := [(0, 0x01), (1, 0x02), (2, 0x03), (3, 0x63)] })
        (cfg := onePage)))
      (fun t => t.ctl.checksum == 0x93 && t.ctl.log.length == 16 + 256 + 1
        && t.ctl.log.take 3 == [.dumpRow 0, .dumpByte 0x01, .dumpByte 0x02]) = true := by decide +kernel
/-- Section 2.2, `RDID` idle: positions 4 and 5. -/
theorem test_rdid_idle :
    nextIs (exec .rdid (at0)) (fun t => t.bus.miso[4]? == some (.byte 0xEF) && t.bus.miso[5]? == some (.byte 0x13)
      && t.bus.mosi == [0x90, 0x00, 0x00, 0x00, 0x00, 0x00]) = true := by decide
/-- Section 2.2, `RDID` absent. -/
theorem test_rdid_absent :
    nextIs (exec .rdid (at0 (cfg := { Config.vectors with present := false })))
      (fun t => t.bus.miso == List.replicate 6 (.byte 0xFF)) = true := by decide
/-- Section 2.2, `WREN` idle. -/
theorem test_wren_idle : nextIs (exec .wren (at0)) (fun t => t.dev.dwel) = true := by decide
/-- Section 2.2, `WREN` busy: refused. -/
theorem test_wren_busy :
    nextIs (exec .wren (at0 (dev := { erasing with dwel := false }) (env := passing 1)))
      (fun t => !t.dev.dwel && t.dev.dbusy) = true := by decide
/-- Section 2.2, `RDSR` erasing: bits 1:0 are 11. -/
theorem test_rdsr_erasing :
    nextIs (exec .rdsr (at0 (dev := erasing) (env := passing 1)))
      (fun t => t.bus.miso[1]?.map Rx.welBit == some true && t.bus.miso[1]?.map Rx.busyBit == some true) = true := by
  decide
/-- Section 2.2, `CE` with the latch. -/
theorem test_ce_latched :
    nextIs (exec .ce (at0 (dev := latched))) (fun t => t.dev.dbusy && t.dev.dpend == .erase && t.dev.dwel) = true := by
  decide
/-- Section 2.2, `CE` without it: ignored. -/
theorem test_ce_unlatched : nextIs (exec .ce (at0)) (fun t => !t.dev.dbusy && t.dev.dpend == .none) = true := by decide
/-- Section 2.2, `READ 0x000100, 3`. -/
theorem test_read_three :
    nextIs (exec (.read 0x000100 3) (at0 (dev := { Device.quiet with dmem := [(0x100, 0x0A), (0x101, 0x0B), (0x102, 0x0C)] })))
      (fun t => t.bus.miso.drop 4 == [.byte 0x0A, .byte 0x0B, .byte 0x0C] && t.dev.daddr == 0x103
        && t.bus.mosi == [0x03, 0x00, 0x01, 0x00, 0x00, 0x00, 0x00]) = true := by decide
/-- Rule R152: one byte past `END_ADDR`. -/
theorem test_read_past_end : faultIs (exec (.read 0x0003FF 2) (at0)) .deviceUnmodelled = true := by decide
/-- Section 2.2, `PP 0x000000, 01 02 03 63`. -/
theorem test_pp_latched :
    nextIs (exec (.pp 0x000000 [0x01, 0x02, 0x03, 0x63]) (at0 (dev := latched)))
      (fun t => t.dev.dbusy && t.dev.dpend == .prog 0x000000 [0x01, 0x02, 0x03, 0x63] && t.dev.dmem == []
        && t.bus.mosi == [0x02, 0x00, 0x00, 0x00, 0x01, 0x02, 0x03, 0x63]) = true := by decide
/-- X-4: a reset after two data bytes; the device programs those two. -/
theorem test_pp_reset_after_two :
    nextIs (exec (.pp 0x000000 [0x01, 0x02, 0x03, 0x63]) (at0 (dev := latched) (env := isDue [⟨7, .reset⟩])))
      (fun t => t.dev.dpend == .prog 0x000000 [0x01, 0x02] && t.dev.dbusy && !t.bus.cs) = true := by decide

/-! ### Steps that are no instruction -/

/-- X-1. -/
theorem test_halted_refuses_requests :
    refusedIs (step (at0 (ctl := { Controller.reset with seq := .halted }) (env := comes (.issue (.word 0x00000001)))))
      .hostWriteNotIdle = true := by decide
/-- X-2. -/
theorem test_halted_device_completes :
    nextIs (step (at0 (ctl := { Controller.reset with seq := .halted }) (dev := programming) (env := comes .deviceDone)))
      (fun t => t.dev.dmem == [(0, 0x01), (1, 0x02), (2, 0x03), (3, 0x63)] && !t.dev.dbusy && !t.dev.dwel
        && t.ctl.seq == .halted) = true := by decide
/-- X-3. -/
theorem test_reset_from_halted :
    nextIs (step (at0 (ctl := { Controller.reset with seq := .halted, cursor := 0x400, wp := true, result := 0x05 })
        (dev := programming) (env := comes .reset)))
      (fun t => t.ctl.seq == .idle && t.ctl.cursor == 0 && !t.ctl.wp && t.ctl.result == 0 && t.dev.dbusy && t.dev.dwel) =
      true := by decide
/-- P4, step 4. -/
theorem test_illegal_word :
    nextIs (step (at0 (env := comes (.issue (.word 0x00000000)))))
      (fun t => t.ctl.result == 0x08 && t.bus.wire == [] && t.ctl.log == []) = true := by decide
/-- Rules R24 and R33: the host reads `CTRLSTAT` with the identity valid and writing permitted. -/
theorem test_host_reads_ctrlstat :
    hostRead .ctrlstat { Controller.reset with wp := true, idv := true } = 0x00000030 := by decide

/-! ### Witnesses: the hypotheses of each statement, met together -/

theorem nothingDue {s : State} (h : s.env.due = []) : NoResetDue s := by simp [NoResetDue, h]

/-- The controller idle, the bus free and the device ready at the next frame: what most statements ask. -/
theorem witness_ready : (at0).ctl.seq = .idle ∧ BusFree (at0) ∧ ReadyNext (at0) := ⟨rfl, ⟨rfl, rfl⟩, rfl, rfl⟩
/-- The same on a device that is busy and completes just before the next frame. -/
theorem witness_ready_after_turn :
    let s := at0 (dev := programming) (env := passing 0)
    s.ctl.seq = .idle ∧ BusFree s ∧ ReadyNext s ∧ s.dev.dbusy = true := ⟨rfl, ⟨rfl, rfl⟩, ⟨rfl, rfl⟩, rfl⟩

theorem witness_DecodeOfEncodeIsIdentity :
    (Instr.writeData 511).wellFormed = true ∧ (Instr.read 0xFFFFFF 1).wellFormed = true ∧
      (Instr.pp 0xFFFFFF [0xFF]).wellFormed = true := by decide
theorem witness_EncodeOfDecodeIsIdentity :
    decode (.word 0x0001FF07) = .ok (.writeData 511) ∧ decode (.frame [0xC7]) = .ok .ce := by decide
theorem witness_StepRunsTheDecodedInstruction :
    let s := at0 (env := comes (.issue (.frame [0x06])))
    s.ctl.seq = .idle ∧ s.env.inbox = [.issue (.frame [0x06])] ∧ decode (.frame [0x06]) = .ok .wren :=
  ⟨rfl, rfl, by decide⟩
theorem witness_IllegalWordReportsOnlyItsCode :
    let s := at0 (env := comes (.issue (.word 0x00000009)))
    s.ctl.seq = .idle ∧ s.env.due = [] ∧ s.env.inbox = [.issue (.word 0x00000009)] ∧
      decode (.word 0x00000009) = .error .reservedOp := ⟨rfl, rfl, rfl, by decide⟩
/-- Each clause: the instruction, in progress and halted; an illegal word issued in progress; a word written to
`CMD` while halted; and the last byte of `DATA` written in progress. -/
theorem witness_RequestNeedsIdle :
    let busy := { Controller.reset with seq := .exec }
    let halted := { Controller.reset with seq := .halted }
    let s := at0 (ctl := busy) (env := comes (.issue (.word 0x00000000)))
    let u := at0 (ctl := halted) (env := comes (.writeReg .cmd 0x00000001))
    let v := at0 (ctl := busy) (env := comes (.writeReg (.data 255) 0x12))
    (Instr.scan.isHostOp = true ∧ s.ctl.seq ≠ .idle ∧ u.ctl.seq ≠ .idle ∧ v.ctl.seq ≠ .idle) ∧
      s.env.inbox = .issue (.word 0x00000000) :: [] ∧ u.env.inbox = .writeReg .cmd 0x00000001 :: [] ∧
      v.env.inbox = .writeReg (.data 255) 0x12 :: [] :=
  ⟨⟨rfl, by decide, by decide, by decide⟩, rfl, rfl, rfl⟩
/-- Each clause: with no move due, a step that takes a move that is no reset, and a read. -/
theorem witness_HaltedControllerKeepsItsRegisters :
    let s := at0 (ctl := { Controller.reset with seq := .halted })
    let u := at0 (ctl := { Controller.reset with seq := .halted }) (env := comes .wait)
    let v := at0 (ctl := { Controller.reset with seq := .halted }) (env := comes (.readReg .result))
    s.ctl.seq = .halted ∧ s.env.inbox = [] ∧ u.ctl.seq = .halted ∧ (∃ t, step u = .next t) ∧
      (∀ rest, u.env.inbox ≠ .reset :: rest) ∧ v.ctl.seq = .halted ∧ v.env.inbox = [.readReg .result] :=
  ⟨rfl, rfl, rfl, ⟨_, rfl⟩, (fun _ h => by cases h), rfl, rfl⟩
theorem witness_HostReadHasNoEffect :
    (at0 (env := comes (.readReg (.data 255)))).env.inbox = [.readReg (.data 255)] := rfl
/-- An instruction and a step, with a read due inside; the read is served. -/
theorem witness_HostReadsChangeNothing :
    let s := at0 (env := isDue [⟨3, .read .lastSr⟩])
    let u := at0 (env := { isDue [⟨3, .read .lastSr⟩] with inbox := [.issue (.frame [0x05, 0x00])] })
    (NoResetDue s ∧ s.env.due ≠ [] ∧ ∃ t, exec .readStatus s = .next t ∧ (t.env.seen == [(.lastSr, 0)]) = true) ∧
    NoResetDue u ∧ u.env.due ≠ [] ∧ ∃ t, step u = .next t ∧ (t.env.seen == [(.lastSr, 0)]) = true := by
  refine ⟨⟨by unfold NoResetDue; decide, by decide, ?_⟩, by unfold NoResetDue; decide, by decide, ?_⟩
  · exact nextIs_iff (P := fun t => t.env.seen == [(.lastSr, 0)]) (by decide)
  · exact nextIs_iff (P := fun t => t.env.seen == [(.lastSr, 0)]) (by decide)
/-- Each clause, with a read due at once and served: a request; an illegal word, issued and written to `CMD`; a wait
resumed with no move due and with the host waiting. And a wait resumed with a read due later. -/
theorem witness_ReadsInsideAnOperationSeeIt :
    let now := isDue [⟨0, .read .cmd⟩]
    let k := { Controller.reset with seq := .exec, mpc := some (.poll .awaitPoll), cmd := 0x00000003 }
    let s := at0 (env := now)
    let x := at0 (env := { now with inbox := [.issue (.word 0x00000009)] })
    let y := at0 (env := { now with inbox := [.writeReg .cmd 0x00000009] })
    let u := at0 (ctl := k) (env := now)
    let v := at0 (ctl := k) (env := { now with inbox := [.wait] })
    let w := at0 (ctl := k) (env := isDue [⟨2, .read .cmd⟩])
    (encode .readId = .word 0x00000001 ∧ s.env.due = ⟨0, .read .cmd⟩ :: [] ∧
      ∃ t, exec .readId s = .next t ∧ (t.env.seen == [(.cmd, 1)]) = true) ∧
    (x.env.inbox = .issue (.word 0x00000009) :: [] ∧ x.env.due = ⟨0, .read .cmd⟩ :: [] ∧
      ∃ t, step x = .next t ∧ (t.env.seen == [(.cmd, 9)]) = true) ∧
    (y.env.inbox = .writeReg .cmd 0x00000009 :: [] ∧ y.env.due = ⟨0, .read .cmd⟩ :: [] ∧
      ∃ t, step y = .next t ∧ (t.env.seen == [(.cmd, 9)]) = true) ∧
    (u.ctl.seq = .exec ∧ u.ctl.mpc = some (.poll .awaitPoll) ∧ u.env.inbox = [] ∧ u.env.due = ⟨0, .read .cmd⟩ :: [] ∧
      ∃ t, step u = .next t ∧ (t.env.seen == [(.cmd, 3)]) = true) ∧
    (v.ctl.seq = .exec ∧ v.ctl.mpc = some (.poll .awaitPoll) ∧ v.env.inbox = .wait :: [] ∧
      v.env.due = ⟨0, .read .cmd⟩ :: [] ∧ ∃ t, step v = .next t ∧ (t.env.seen == [(.cmd, 3)]) = true) ∧
    w.ctl.seq = .exec ∧ w.ctl.mpc = some (.poll .awaitPoll) ∧ w.env.inbox = [] ∧
      ∃ t, step w = .next t ∧ (t.env.seen == [(.cmd, 3)]) = true := by
  refine ⟨⟨by decide, rfl, ?_⟩, ⟨rfl, rfl, ?_⟩, ⟨rfl, rfl, ?_⟩, ⟨rfl, rfl, rfl, rfl, ?_⟩, ⟨rfl, rfl, rfl, rfl, ?_⟩,
    rfl, rfl, rfl, ?_⟩
  · exact nextIs_iff (P := fun t => t.env.seen == [(.cmd, 1)]) (by decide)
  · exact nextIs_iff (P := fun t => t.env.seen == [(.cmd, 9)]) (by decide)
  · exact nextIs_iff (P := fun t => t.env.seen == [(.cmd, 9)]) (by decide)
  · exact nextIs_iff (P := fun t => t.env.seen == [(.cmd, 3)]) (by decide)
  · exact nextIs_iff (P := fun t => t.env.seen == [(.cmd, 3)]) (by decide)
  · exact nextIs_iff (P := fun t => t.env.seen == [(.cmd, 3)]) (by decide)
/-- Each clause: a reset due inside READ_ID's frame, as an instruction and as a step; one due at once in DUMP_ALL;
one due at once at a wait resumed with no move due and with the host waiting; and one that falls after READ_ID. -/
theorem witness_ResetInsideAnOperationEndsIt :
    let inFrame := isDue [⟨5, .reset⟩]
    let now := isDue [⟨0, .reset⟩]
    let k := { Controller.reset with seq := .exec, mpc := some (.poll .eraseWait), ok := true }
    let s := at0 (env := inFrame)
    let x := at0 (env := { inFrame with inbox := [.issue (.word 0x00000001)] })
    let v := at0 (ctl := { Controller.reset with wp := true }) (env := now)
    let u := at0 (ctl := k) (dev := erasing) (env := now)
    let y := at0 (ctl := k) (dev := erasing) (env := { now with inbox := [.wait] })
    let z := at0 (env := isDue [⟨500, .reset⟩])
    (∃ t, exec .readId s = .next t ∧ resetsDue t < resetsDue s) ∧
    (∃ t, step x = .next t ∧ resetsDue t < resetsDue x) ∧
    (Instr.dumpAll.isHostOp = true ∧ v.ctl.seq = .idle ∧ v.bus.cs = false ∧ v.env.due = ⟨0, .reset⟩ :: []) ∧
    (u.ctl.seq = .exec ∧ u.ctl.mpc = some (.poll .eraseWait) ∧ u.env.inbox = [] ∧ u.bus.cs = false ∧
      u.env.due = ⟨0, .reset⟩ :: []) ∧
    (y.ctl.seq = .exec ∧ y.ctl.mpc = some (.poll .eraseWait) ∧ y.env.inbox = .wait :: [] ∧ y.bus.cs = false ∧
      y.env.due = ⟨0, .reset⟩ :: []) ∧
    ∃ t, exec .readId z = .next t ∧ resetsDue t = resetsDue z ∧ t.ctl.idv = true := by
  refine ⟨?_, ?_, ⟨rfl, rfl, rfl, rfl⟩, ⟨rfl, rfl, rfl, rfl, rfl⟩, ⟨rfl, rfl, rfl, rfl, rfl⟩, ?_⟩
  · obtain ⟨t, h, hp⟩ := nextIs_iff (o := exec .readId (at0 (env := isDue [⟨5, .reset⟩])))
      (P := fun t => decide (resetsDue t < 1)) (by decide)
    exact ⟨t, h, of_decide_eq_true hp⟩
  · obtain ⟨t, h, hp⟩ := nextIs_iff
      (o := step (at0 (env := { isDue [⟨5, .reset⟩] with inbox := [.issue (.word 0x00000001)] })))
      (P := fun t => decide (resetsDue t < 1)) (by decide)
    exact ⟨t, h, of_decide_eq_true hp⟩
  · obtain ⟨t, h, hp⟩ := nextIs_iff (o := exec .readId (at0 (env := isDue [⟨500, .reset⟩])))
      (P := fun t => decide (resetsDue t = 1 ∧ t.ctl.idv = true)) (by decide)
    exact ⟨t, h, of_decide_eq_true hp⟩
theorem witness_HostWritesOneDataByte :
    let s := at0 (env := comes (.writeReg (.data 255) 0x1FF))
    s.env.inbox = [.writeReg (.data 255) 0x1FF] ∧ s.ctl.seq = .idle := ⟨rfl, rfl⟩
theorem witness_CtrlstatShowsTheFlags :
    (at0 (env := comes (.writeReg .ctrlstat 0xFF))).env.inbox = [.writeReg .ctrlstat 0xFF] := rfl
/-- Both clauses: a device that is present and one that is absent. -/
theorem witness_ReadStatusLatchesTheStatusByte :
    let s := at0 (cfg := { Config.vectors with present := false })
    ((at0).ctl.seq = .idle ∧ BusFree (at0) ∧ (at0).cfg.present = true) ∧
      s.ctl.seq = .idle ∧ BusFree s ∧ s.cfg.present = false := ⟨⟨rfl, ⟨rfl, rfl⟩, rfl⟩, rfl, ⟨rfl, rfl⟩, rfl⟩
theorem witness_AwaitReadyReturnsWhenReady : (at0).ctl.seq = .idle ∧ BusFree (at0) ∧ ReadyNext (at0) := witness_ready
/-- For each of the five operations, on a busy device and on an absent one. -/
theorem witness_ReadyWaitStaysInProgressWhileBusy :
    let s := at0 (dev := erasing) (env := passing 1)
    let u := at0 (cfg := { Config.vectors with present := false })
    (firstPoll .awaitReady = some .awaitPoll ∧ firstPoll .writeEnable = some .enableGate ∧
      firstPoll .chipErase = some .eraseGate ∧ firstPoll .scan = some .scanPoll ∧ firstPoll .dumpAll = some .dumpPoll) ∧
    (s.ctl.seq = .idle ∧ BusFree s ∧ BusyNext s ∧ s.cfg.present = true) ∧ u.ctl.seq = .idle ∧ BusFree u ∧ BusyNext u :=
  ⟨⟨rfl, rfl, rfl, rfl, rfl⟩, ⟨rfl, ⟨rfl, rfl⟩, .inr rfl, rfl⟩, rfl, ⟨rfl, rfl⟩, .inl rfl⟩
/-- An operation whose wait comes first, on a busy and on an absent device; and a write that just fits its page
and the array. -/
theorem witness_BusyStartOnlyDelaysTheOperation :
    let s := at0 (dev := erasing) (env := passing 1)
    let u := at0 (cfg := { Config.vectors with present := false })
    let v := at0 (ctl := { Controller.reset with cursor := 0x3FF }) (dev := programming) (env := passing 1)
    (firstPoll .dumpAll = some .dumpPoll ∧ s.ctl.seq = .idle ∧ BusFree s ∧ s.env.inbox = [] ∧ BusyNext s) ∧
    (firstPoll .scan = some .scanPoll ∧ u.ctl.seq = .idle ∧ BusFree u ∧ u.env.inbox = [] ∧ BusyNext u) ∧
    (1 : LenWord) ≠ 0 ∧ v.ctl.cursor.toNat + (1 : LenWord).toNat ≤ endAddr v.cfg + 1 ∧
      v.ctl.cursor.toNat % 256 + (1 : LenWord).toNat ≤ 256 ∧ v.ctl.seq = .idle ∧ BusFree v ∧ v.env.inbox = [] ∧
      BusyNext v :=
  ⟨⟨rfl, rfl, ⟨rfl, rfl⟩, rfl, .inr rfl⟩, ⟨rfl, rfl, ⟨rfl, rfl⟩, rfl, .inl rfl⟩, by decide, by decide, by decide,
    rfl, ⟨rfl, rfl⟩, rfl, .inr rfl⟩
/-- The start, on an absent device and on an unfair one; and in progress, on an absent device whose erase is
pending and on an unfair one before the last page of a dump. -/
theorem witness_NeverReadyDeviceHangsTheReadyWait :
    let absent := { Config.vectors with present := false }
    let unfair := { Config.vectors with fair := false }
    let s := at0 (cfg := absent)
    let u := at0 (dev := erasing) (cfg := unfair)
    let v := at0 (ctl := { Controller.reset with seq := .exec, mpc := some (.poll .eraseWait), ok := true }) (dev := erasing)
      (cfg := absent)
    let x := at0 (ctl := { Controller.reset with seq := .exec, mpc := some (.poll .dumpPoll), pidx := 3 }) (dev := erasing)
      (cfg := unfair)
    (firstPoll .scan = some .scanPoll ∧ s.ctl.seq = .idle ∧ BusFree s ∧ s.env.inbox = [] ∧ s.cfg.present = false) ∧
    (u.ctl.seq = .idle ∧ BusFree u ∧ u.env.inbox = [] ∧ u.cfg.fair = false ∧ u.dev.dbusy = true ∧ u.env.turns = []) ∧
    (v.ctl.seq = .exec ∧ v.ctl.mpc = some (.poll .eraseWait) ∧ PollInv v.cfg v.ctl v.dev .eraseWait ∧ BusFree v ∧
      v.env.inbox = [] ∧ v.cfg.present = false) ∧
    x.ctl.seq = .exec ∧ x.ctl.mpc = some (.poll .dumpPoll) ∧ PollInv x.cfg x.ctl x.dev .dumpPoll ∧ BusFree x ∧
      x.env.inbox = [] ∧ x.cfg.fair = false ∧ x.dev.dbusy = true ∧ x.env.turns = [] :=
  ⟨⟨rfl, rfl, ⟨rfl, rfl⟩, rfl, rfl⟩, ⟨rfl, ⟨rfl, rfl⟩, rfl, rfl, rfl, rfl⟩,
    ⟨rfl, rfl, fun _ => .inl rfl, ⟨rfl, rfl⟩, rfl, rfl⟩, rfl, rfl, by unfold PollInv; decide, ⟨rfl, rfl⟩, rfl, rfl, rfl, rfl⟩
/-- AWAIT_READY busy for two more polls; CHIP_ERASE before its gate on an idle device; and WRITE_DATA before its
`PP` frame, at the end of the array, while the gate's device still erases. -/
theorem witness_FairDeviceEndsTheReadyWait :
    let k := { Controller.reset with seq := .exec, mpc := some (.poll .awaitPoll) }
    let s := at0 (ctl := k) (dev := erasing) (env := passing 2)
    let u := at0 (ctl := { k with mpc := some (.poll .eraseGate) })
    let v := at0 (ctl := { k with mpc := some (.poll .writeReady), cursor := 0x3FF, lenl := 1, ok := true, wp := true })
      (dev := erasing) (env := passing 1)
    (s.ctl.seq = .exec ∧ s.ctl.mpc = some (.poll .awaitPoll) ∧ PollInv s.cfg s.ctl s.dev .awaitPoll ∧ BusFree s ∧
      s.env.inbox = [] ∧ s.cfg.present = true ∧ s.cfg.fair = true) ∧
    (u.ctl.seq = .exec ∧ u.ctl.mpc = some (.poll .eraseGate) ∧ PollInv u.cfg u.ctl u.dev .eraseGate ∧ BusFree u ∧
      u.env.inbox = [] ∧ u.cfg.present = true ∧ u.cfg.fair = true ∧ u.env.turns = []) ∧
    v.ctl.seq = .exec ∧ v.ctl.mpc = some (.poll .writeReady) ∧ PollInv v.cfg v.ctl v.dev .writeReady ∧ BusFree v ∧
      v.env.inbox = [] ∧ v.cfg.present = true ∧ v.cfg.fair = true :=
  ⟨⟨rfl, rfl, trivial, ⟨rfl, rfl⟩, rfl, rfl, rfl⟩, ⟨rfl, rfl, trivial, ⟨rfl, rfl⟩, rfl, rfl, rfl, rfl⟩, rfl, rfl,
    by unfold PollInv; decide, ⟨rfl, rfl⟩, rfl, rfl, rfl⟩
/-- Both outcomes: the latch is seen, and it is not. -/
theorem witness_WriteEnableReportsTheLatch :
    let s := at0 (cfg := { Config.vectors with wrenReject := true })
    ((at0).ctl.seq = .idle ∧ BusFree (at0) ∧ ReadyNext (at0) ∧
      latchAfterWren (at0).cfg (deviceTurn (at0)).dev = true) ∧
    s.ctl.seq = .idle ∧ BusFree s ∧ ReadyNext s ∧ latchAfterWren s.cfg (deviceTurn s).dev = false :=
  ⟨⟨rfl, ⟨rfl, rfl⟩, ⟨rfl, rfl⟩, rfl⟩, rfl, ⟨rfl, rfl⟩, ⟨rfl, rfl⟩, rfl⟩
theorem witness_WriteEnableTwiceKeepsTheLatch :
    (at0).ctl.seq = .idle ∧ BusFree (at0) ∧ ReadyNext (at0) ∧ (at0).cfg.wrenReject = false :=
  ⟨rfl, ⟨rfl, rfl⟩, ⟨rfl, rfl⟩, rfl⟩
theorem witness_ChipEraseErasesTheArray :
    let s := at0 (dev := { Device.quiet with dmem := [(0, 0x12)] }) (env := passing 0)
    s.ctl.seq = .idle ∧ BusFree s ∧ ReadyNext s ∧ latchAfterWren s.cfg (deviceTurn s).dev = true ∧
      turnTaken (deviceTurn s) = true := ⟨rfl, ⟨rfl, rfl⟩, ⟨rfl, rfl⟩, rfl, rfl⟩
/-- The request; then a later poll that finds the device busy, with no move due and with the host waiting, and one
that finds it ready, after a gate that saw the latch and after one that did not. -/
theorem witness_ChipEraseReportsProgressWhileBusy :
    let s := at0 (dev := { Device.quiet with dmem := [(0, 0x12)] }) (env := passing 1)
    let k := { Controller.reset with seq := .exec, mpc := some (.poll .eraseWait), ok := true }
    let u := at0 (ctl := k) (dev := erasing) (env := passing 1)
    let v := at0 (ctl := k) (dev := erasing) (env := { passing 1 with inbox := [.wait] })
    let x := at0 (ctl := k) (dev := erasing) (env := passing 0)
    let y := at0 (ctl := { k with ok := false }) (env := comes .wait)
    (s.ctl.seq = .idle ∧ BusFree s ∧ ReadyNext s ∧ latchAfterWren s.cfg (deviceTurn s).dev = true ∧
      turnTaken (deviceTurn s) = false) ∧
    (u.ctl.seq = .exec ∧ u.ctl.mpc = some (.poll .eraseWait) ∧ BusFree u ∧ u.env.inbox = [] ∧ BusyNext u) ∧
    (v.ctl.seq = .exec ∧ v.ctl.mpc = some (.poll .eraseWait) ∧ BusFree v ∧ v.env.inbox = .wait :: [] ∧ BusyNext v) ∧
    (x.ctl.seq = .exec ∧ x.ctl.mpc = some (.poll .eraseWait) ∧ BusFree x ∧ x.env.inbox = [] ∧ ReadyNext x ∧
      x.ctl.ok = true) ∧
    y.ctl.seq = .exec ∧ y.ctl.mpc = some (.poll .eraseWait) ∧ BusFree y ∧ y.env.inbox = .wait :: [] ∧ ReadyNext y ∧
      y.ctl.ok = false :=
  ⟨⟨rfl, ⟨rfl, rfl⟩, ⟨rfl, rfl⟩, rfl, rfl⟩, ⟨rfl, rfl, ⟨rfl, rfl⟩, rfl, .inr rfl⟩, ⟨rfl, rfl, ⟨rfl, rfl⟩, rfl, .inr rfl⟩,
    ⟨rfl, rfl, ⟨rfl, rfl⟩, rfl, ⟨rfl, rfl⟩, rfl⟩, rfl, rfl, ⟨rfl, rfl⟩, rfl, ⟨rfl, rfl⟩, rfl⟩
/-- With `P_ERASE_ABORT` and without. -/
theorem witness_ChipEraseAfterFailedGate :
    let s := at0 (cfg := { Config.vectors with wrenReject := true })
    let u := at0 (cfg := { Config.vectors with wrenReject := true, eraseAbort := false })
    (s.ctl.seq = .idle ∧ BusFree s ∧ ReadyNext s ∧ latchAfterWren s.cfg (deviceTurn s).dev = false ∧
      s.cfg.eraseAbort = true) ∧
    u.ctl.seq = .idle ∧ BusFree u ∧ ReadyNext u ∧ latchAfterWren u.cfg (deviceTurn u).dev = false ∧
      u.cfg.eraseAbort = false :=
  ⟨⟨rfl, ⟨rfl, rfl⟩, ⟨rfl, rfl⟩, rfl, rfl⟩, rfl, ⟨rfl, rfl⟩, ⟨rfl, rfl⟩, rfl, rfl⟩

/-- The state after reset meets the invariant, with any controller that is idle or halted with a cursor in
range. -/
theorem inv_at0 (k : Controller) (e : Env) (hc : k.cursor.toNat ≤ 1024) (hs : k.seq ≠ .exec) :
    Inv (at0 (ctl := k) (env := e)) :=
  ⟨hc, rfl, ⟨rfl, rfl, ⟨fun _ => rfl, fun _ => rfl⟩, fun _ _ h => by cases h⟩, fun h => absurd h hs⟩

/-- Both clauses: a CHIP_ERASE that finishes at once, and one that finishes from its last ready-wait. -/
theorem witness_FinishedEraseLeavesTheArrayErased :
    let u := at0 (ctl := { Controller.reset with seq := .exec, mpc := some (.poll .eraseWait), ok := true }) (dev := erasing)
    (Inv (at0) ∧ BusFree (at0) ∧ ∃ t, exec .chipErase (at0) = .next t ∧ t.ctl.seq = .idle ∧ t.ctl.result = 0x00) ∧
    Inv u ∧ BusFree u ∧ u.ctl.seq = .exec ∧ u.ctl.mpc = some (.poll .eraseWait) ∧ u.env.inbox = [] ∧
      ∃ t, step u = .next t ∧ t.ctl.seq = .idle ∧ t.ctl.result = 0x00 := by
  refine ⟨⟨inv_at0 _ _ (by decide) (by decide), ⟨rfl, rfl⟩, ?_⟩,
    ⟨by decide, rfl, ⟨rfl, rfl, by decide, fun _ _ h => by cases h⟩, fun _ => ⟨.eraseWait, rfl, fun _ => .inl rfl⟩⟩,
    ⟨rfl, rfl⟩, rfl, rfl, rfl, ?_⟩
  · obtain ⟨t, h, hp⟩ := nextIs_iff (o := exec .chipErase (at0)) (P := fun t => t.ctl.seq == .idle && t.ctl.result == 0x00)
      (by decide)
    exact ⟨t, h, by simpa using hp⟩
  · obtain ⟨t, h, hp⟩ := nextIs_iff (P := fun t => t.ctl.seq == .idle && t.ctl.result == 0x00)
      (o := step (at0 (ctl := { Controller.reset with seq := .exec, mpc := some (.poll .eraseWait), ok := true }) (dev := erasing)))
      (by decide)
    exact ⟨t, h, by simpa using hp⟩

/-- The lowest and the highest end of a run: byte 15 of an erased array, and the last byte of an array whose
only erased bytes are its last 16. -/
theorem witness_ScanFindsTheFirstErasedRun :
    let s := at0 (dev := { Device.quiet with dmem := zeros 0 240 }) (cfg := onePage)
    ((at0).ctl.seq = .idle ∧ BusFree (at0) ∧ ReadyNext (at0) ∧
      FirstRunEndsAt (at0).cfg (deviceTurn (at0)).dev.dmem 15) ∧
    s.ctl.seq = .idle ∧ BusFree s ∧ ReadyNext s ∧ FirstRunEndsAt s.cfg (deviceTurn s).dev.dmem 255 := by
  refine ⟨⟨rfl, ⟨rfl, rfl⟩, ⟨rfl, rfl⟩, ?_⟩, rfl, ⟨rfl, rfl⟩, ⟨rfl, rfl⟩, ?_⟩ <;>
    unfold FirstRunEndsAt RunEndsAt <;> decide +kernel
theorem witness_ScanExhaustionDisablesWrites :
    let s := at0 (dev := { Device.quiet with dmem := striped }) (cfg := onePage)
    s.ctl.seq = .idle ∧ BusFree s ∧ ReadyNext s ∧ NoRun s.cfg (deviceTurn s).dev.dmem := by
  refine ⟨rfl, ⟨rfl, rfl⟩, ⟨rfl, rfl⟩, ?_⟩
  have h : ∀ e, e < 256 → ¬ (15 ≤ e ∧ ∀ k, k < 16 → readByte striped (e - k) = erased) := by decide +kernel
  exact fun e he => h e (Nat.lt_succ_of_le he)
/-- Each clause at its boundary: no length; one byte past the array; one byte past the page. -/
theorem witness_WriteChecksComeBeforeTheBus :
    let s := at0 (ctl := { Controller.reset with cursor := 0x400 })
    let u := at0 (ctl := { Controller.reset with cursor := 0x0FF })
    ((at0).ctl.seq = .idle ∧ (at0).env.due = [] ∧ (0 : LenWord) = 0) ∧
    (s.ctl.seq = .idle ∧ s.env.due = [] ∧ (1 : LenWord) ≠ 0 ∧ s.ctl.cursor.toNat + (1 : LenWord).toNat > endAddr s.cfg + 1) ∧
    u.ctl.seq = .idle ∧ u.env.due = [] ∧ (2 : LenWord) ≠ 0 ∧ ¬ u.ctl.cursor.toNat + (2 : LenWord).toNat > endAddr u.cfg + 1 ∧
      u.ctl.cursor.toNat % 256 + (2 : LenWord).toNat > 256 := by decide
/-- The last page, whole: both bounds are met with equality. -/
theorem witness_WriteDataStartsTheProgram :
    let s := at0 (ctl := { Controller.reset with cursor := 0x300, wp := true })
    s.ctl.seq = .idle ∧ BusFree s ∧ ReadyNext s ∧ (256 : LenWord) ≠ 0 ∧
      s.ctl.cursor.toNat + (256 : LenWord).toNat = endAddr s.cfg + 1 ∧
      s.ctl.cursor.toNat % 256 + (256 : LenWord).toNat = 256 ∧ s.ctl.wp = true ∧
      latchAfterWren s.cfg (deviceTurn s).dev = true :=
  ⟨rfl, ⟨rfl, rfl⟩, ⟨rfl, rfl⟩, by decide, by decide, by decide, rfl, rfl⟩
/-- Both clauses: `WP` clear with the latch set, and the latch not set with `WP` set. -/
theorem witness_WriteWithoutPermissionIsSkipped :
    let s := at0 (ctl := { Controller.reset with cursor := 0x010 })
    let u := at0 (ctl := { Controller.reset with cursor := 0x010, wp := true })
      (cfg := { Config.vectors with wrenReject := true })
    (s.ctl.seq = .idle ∧ BusFree s ∧ ReadyNext s ∧ (4 : LenWord) ≠ 0 ∧
      s.ctl.cursor.toNat + (4 : LenWord).toNat ≤ endAddr s.cfg + 1 ∧
      s.ctl.cursor.toNat % 256 + (4 : LenWord).toNat ≤ 256 ∧ s.ctl.wp = false ∧
      latchAfterWren s.cfg (deviceTurn s).dev = true) ∧
    u.ctl.seq = .idle ∧ BusFree u ∧ ReadyNext u ∧ u.ctl.cursor.toNat + (4 : LenWord).toNat ≤ endAddr u.cfg + 1 ∧
      u.ctl.cursor.toNat % 256 + (4 : LenWord).toNat ≤ 256 ∧ u.ctl.wp = true ∧
      latchAfterWren u.cfg (deviceTurn u).dev = false :=
  ⟨⟨rfl, ⟨rfl, rfl⟩, ⟨rfl, rfl⟩, by decide, by decide, by decide, rfl, rfl⟩, rfl, ⟨rfl, rfl⟩, ⟨rfl, rfl⟩, by decide,
    by decide, rfl, rfl⟩
/-- Both clauses: an idle device, and none. -/
theorem witness_ReadIdReportsTheIdentity :
    let s := at0 (cfg := { Config.vectors with present := false })
    ((at0).ctl.seq = .idle ∧ BusFree (at0) ∧ (at0).cfg.present = true ∧ (deviceTurn (at0)).dev.dbusy = false ∧
      (at0).cfg.devMfr = 0xEF ∧ (at0).cfg.devDev = 0x13) ∧
    s.ctl.seq = .idle ∧ BusFree s ∧ s.cfg.present = false :=
  ⟨⟨rfl, ⟨rfl, rfl⟩, rfl, rfl, rfl, rfl⟩, rfl, ⟨rfl, rfl⟩, rfl⟩
theorem witness_ReadIdOnBusyDeviceEndsAnyway :
    let s := at0 (dev := erasing) (env := passing 1)
    s.ctl.seq = .idle ∧ BusFree s ∧ s.cfg.present = true ∧ (deviceTurn s).dev.dbusy = true :=
  ⟨rfl, ⟨rfl, rfl⟩, rfl, rfl⟩
theorem witness_DumpAllReportsEveryByteAndTheChecksum :
    (at0).ctl.seq = .idle ∧ BusFree (at0) ∧ ReadyNext (at0) := witness_ready
theorem witness_ErasedArrayHasChecksumZero :
    (at0).ctl.seq = .idle ∧ BusFree (at0) ∧ ReadyNext (at0) ∧
      ∀ a, a ≤ endAddr (at0).cfg → readByte (deviceTurn (at0)).dev.dmem a = 0xFF :=
  ⟨rfl, ⟨rfl, rfl⟩, ⟨rfl, rfl⟩, fun _ _ => rfl⟩

/-- RDID and CE ask the same of the state: not halted, the bus free, a present device that is not busy. -/
theorem witness_RdidReturnsTheIdentityPair :
    (at0).ctl.seq ≠ .halted ∧ BusFree (at0) ∧ (at0).cfg.present = true ∧ (at0).dev.dbusy = false :=
  ⟨by decide, ⟨rfl, rfl⟩, rfl, rfl⟩
/-- The latch is set; it is not on a device that rejects; a busy device refuses. -/
theorem witness_WrenSetsTheLatch :
    let s := at0 (cfg := { Config.vectors with wrenReject := true })
    let u := at0 (dev := erasing) (env := passing 1)
    ((at0).ctl.seq ≠ .halted ∧ BusFree (at0) ∧ (at0).cfg.present = true) ∧
    (s.ctl.seq ≠ .halted ∧ BusFree s ∧ s.cfg.present = true ∧ s.cfg.wrenReject = true) ∧
    u.ctl.seq ≠ .halted ∧ BusFree u ∧ u.cfg.present = true ∧ (deviceTurn u).dev.dbusy = true :=
  ⟨⟨by decide, ⟨rfl, rfl⟩, rfl⟩, ⟨by decide, ⟨rfl, rfl⟩, rfl, rfl⟩, by decide, ⟨rfl, rfl⟩, rfl, rfl⟩
theorem witness_RdsrShowsLatchAndBusy :
    let s := at0 (dev := erasing) (env := passing 1)
    s.ctl.seq ≠ .halted ∧ BusFree s ∧ s.cfg.present = true := ⟨by decide, ⟨rfl, rfl⟩, rfl⟩
/-- With the latch set, and without. -/
theorem witness_CeStartsAnEraseOnlyWithTheLatch :
    let s := at0 (dev := latched)
    (s.ctl.seq ≠ .halted ∧ BusFree s ∧ s.cfg.present = true ∧ s.dev.dbusy = false ∧ s.dev.dwel = true) ∧
      (at0).ctl.seq ≠ .halted ∧ BusFree (at0) ∧ (at0).cfg.present = true ∧ (at0).dev.dbusy = false ∧
      (at0).dev.dwel = false :=
  ⟨⟨by decide, ⟨rfl, rfl⟩, rfl, rfl, rfl⟩, by decide, ⟨rfl, rfl⟩, rfl, rfl, rfl⟩
/-- The whole array, and its last byte. -/
theorem witness_ReadStreamsTheArray :
    (at0).ctl.seq ≠ .halted ∧ BusFree (at0) ∧ (at0).cfg.present = true ∧ (at0).dev.dbusy = false ∧
      (0 : FlashAddr).toNat + 1024 ≤ endAddr (at0).cfg + 1 ∧ (0x3FF : FlashAddr).toNat + 1 ≤ endAddr (at0).cfg + 1 :=
  ⟨by decide, ⟨rfl, rfl⟩, rfl, rfl, by decide, by decide⟩
theorem witness_ReadPastTheEndFaults :
    (at0).ctl.seq ≠ .halted ∧ BusFree (at0) ∧ (at0).cfg.present = true ∧ (at0).dev.dbusy = false ∧
      (0x3FF : FlashAddr).toNat + 2 > endAddr (at0).cfg + 1 := ⟨by decide, ⟨rfl, rfl⟩, rfl, rfl, by decide⟩
/-- The last page, whole, with the latch set; the last byte, without it. -/
theorem witness_PpStartsAProgramOnlyWithTheLatch :
    let s := at0 (dev := latched)
    let bytes := List.replicate 256 (0x5A : Byte)
    (s.ctl.seq ≠ .halted ∧ BusFree s ∧ s.cfg.present = true ∧ s.dev.dbusy = false ∧ s.dev.dwel = true ∧
      bytes ≠ [] ∧ bytes.length ≤ 256 ∧ (0x300 : FlashAddr).toNat % 256 + bytes.length ≤ 256 ∧
      (0x300 : FlashAddr).toNat + bytes.length - 1 ≤ endAddr s.cfg) ∧
    (at0).dev.dwel = false ∧ (0x3FF : FlashAddr).toNat % 256 + [(0x77 : Byte)].length ≤ 256 ∧
      (0x3FF : FlashAddr).toNat + [(0x77 : Byte)].length - 1 ≤ endAddr (at0).cfg :=
  ⟨⟨by decide, ⟨rfl, rfl⟩, rfl, rfl, rfl, List.cons_ne_nil _ _, by decide +kernel,
      by decide +kernel, by decide +kernel⟩, rfl, by decide, by decide⟩
/-- Each clause alone: 257 bytes; one byte past the page; one byte past the array. -/
theorem witness_IllegalProgramFaults :
    let s := at0 (dev := latched)
    (s.ctl.seq ≠ .halted ∧ BusFree s ∧ s.cfg.present = true ∧ s.dev.dbusy = false ∧ s.dev.dwel = true) ∧
      (List.replicate 257 (0 : Byte)).length > 256 ∧
      (0x0FF : FlashAddr).toNat % 256 + [(1 : Byte), 2].length > 256 ∧
      (0x400 : FlashAddr).toNat + [(1 : Byte)].length - 1 > endAddr s.cfg :=
  ⟨⟨by decide, ⟨rfl, rfl⟩, rfl, rfl, rfl⟩, by decide +kernel, by decide, by decide⟩
/-- Both clauses: a frame that is an instruction, and one that is not. -/
theorem witness_BusyDeviceRefusesFrames :
    let s := at0 (dev := erasing) (env := passing 1)
    let u := at0 (dev := erasing) (env := { passing 1 with inbox := [.issue (.frame [0x9F])] })
    (encode .wren = .frame [0x06] ∧ Instr.wren ≠ .rdsr ∧ s.ctl.seq ≠ .halted ∧ BusFree s ∧ s.cfg.present = true ∧
      (deviceTurn s).dev.dbusy = true) ∧
    (0x9F : Byte) ≠ 0x05 ∧ u.ctl.seq = .idle ∧ u.env.inbox = [.issue (.frame [0x9F])] ∧ BusFree u ∧
      u.cfg.present = true ∧ (deviceTurn u).dev.dbusy = true :=
  ⟨⟨rfl, by decide, by decide, ⟨rfl, rfl⟩, rfl, rfl⟩, by decide, rfl, rfl, ⟨rfl, rfl⟩, rfl, rfl⟩
/-- Both clauses: a frame that is an instruction, and one that is not. -/
theorem witness_AbsentDeviceReturnsAllOnes :
    let absent := { Config.vectors with present := false }
    let s := at0 (cfg := absent)
    let u := at0 (env := comes (.issue (.frame [0x9F, 0x00]))) (cfg := absent)
    (encode .rdsr = .frame [0x05, 0x00] ∧ s.ctl.seq ≠ .halted ∧ BusFree s ∧ s.cfg.present = false) ∧
    u.ctl.seq = .idle ∧ u.env.inbox = [.issue (.frame [0x9F, 0x00])] ∧
      decode (.frame [0x9F, 0x00]) = .error .unknownCommand ∧ BusFree u ∧ u.cfg.present = false :=
  ⟨⟨rfl, by decide, ⟨rfl, rfl⟩, rfl⟩, rfl, rfl, by decide, ⟨rfl, rfl⟩, rfl⟩
/-- A page program cut short after its address (section 2.2), with the latch set; and on a busy device a status
read without its dummy byte. -/
theorem witness_UndecodedFrameHasNoEffect :
    let s := at0 (dev := latched) (env := comes (.issue (.frame [0x02, 0x00, 0x00, 0x00])))
    let u := at0 (dev := erasing) (env := { passing 1 with inbox := [.issue (.frame [0x05])] })
    (s.ctl.seq = .idle ∧ s.env.inbox = [.issue (.frame [0x02, 0x00, 0x00, 0x00])] ∧
      decode (.frame [0x02, 0x00, 0x00, 0x00]) = .error .frameLength ∧ BusFree s ∧
      ∃ t, step s = .next t ∧ (t.bus.wire == [[0x02, 0x00, 0x00, 0x00]]) = true) ∧
    u.ctl.seq = .idle ∧ u.env.inbox = [.issue (.frame [0x05])] ∧ decode (.frame [0x05]) = .error .frameLength ∧
      BusFree u ∧ (deviceTurn u).dev.dbusy = true ∧ ∃ t, step u = .next t ∧ (t.bus.wire == [[0x05]]) = true :=
  ⟨⟨rfl, rfl, by decide, ⟨rfl, rfl⟩, nextIs_iff (P := fun t => t.bus.wire == [[0x02, 0x00, 0x00, 0x00]]) (by decide)⟩,
    rfl, rfl, by decide, ⟨rfl, rfl⟩, rfl, nextIs_iff (P := fun t => t.bus.wire == [[0x05]]) (by decide)⟩
theorem witness_CompletedProgramClearsBits :
    let s := at0 (dev := programming) (env := comes .deviceDone)
    s.env.inbox = [.deviceDone] ∧ s.dev.dbusy = true ∧ s.dev.dpend = .prog 0 [0x01, 0x02, 0x03, 0x63] ∧
      memWf s.dev.dmem = true := ⟨rfl, rfl, rfl, rfl⟩
/-- A write that leaves its program pending, on an idle device and on one that completes an erase first. -/
theorem witness_OnlyCompletionChangesTheArray :
    let k := { Controller.reset with wp := true }
    let u := at0 (ctl := k) (dev := { erasing with dmem := [(0, 0x12)] })
    (Instr.writeData 1 ≠ .chipErase ∧ (at0 (ctl := k)).dev.dbusy = false ∧
      ∃ t, exec (.writeData 1) (at0 (ctl := k)) = .next t ∧ t.dev.dbusy = true) ∧
    u.dev.dbusy = true ∧ ∃ t, exec (.writeData 1) u = .next t ∧ t.dev.dmem = [] := by
  refine ⟨⟨by decide, rfl, ?_⟩, rfl, ?_⟩
  · exact nextIs_iff (P := fun t => t.dev.dbusy) (by decide +kernel)
  · obtain ⟨t, h, hp⟩ := nextIs_iff (P := fun t => t.dev.dmem == [])
      (o := exec (.writeData 1) (at0 (ctl := { Controller.reset with wp := true }) (dev := { erasing with dmem := [(0, 0x12)] })))
      (by decide +kernel)
    exact ⟨t, h, by simpa using hp⟩
/-- A pending program completes in the step of a status read. -/
theorem witness_OnlyAnEraseSetsBits :
    let s := at0 (dev := programming) (env := comes (.issue (.frame rdsrFrame)))
    s.bus.cs = false ∧ memWf s.dev.dmem = true ∧ s.dev.dpend ≠ .erase ∧
      ∃ t, step s = .next t ∧ ceFrame ∉ newFrames s t ∧ t.dev.dmem ≠ [] := by
  refine ⟨rfl, rfl, by decide, ?_⟩
  obtain ⟨t, h, hp⟩ := nextIs_iff (o := step (at0 (dev := programming) (env := comes (.issue (.frame rdsrFrame)))))
    (P := fun t => t.bus.wire == [rdsrFrame] && t.dev.dmem != []) (by decide +kernel)
  simp at hp
  exact ⟨t, h, by rw [newFrames, hp.1]; decide, by simpa using hp.2⟩
/-- From `HALTED`, and inside a frame. -/
theorem witness_ResetSetsTheControllerAlone :
    let s := at0 (ctl := { Controller.reset with seq := .halted }) (dev := programming) (env := comes .reset)
    let u := { at0 (env := comes .reset) with bus := { Bus.reset with cs := true, mosi := [0x06] } }
    (s.env.inbox = [.reset] ∧ s.bus.cs = false ∧ ∃ t, step s = .next t) ∧
      u.env.inbox = [.reset] ∧ u.bus.cs = true ∧ ∃ t, step u = .next t := by
  refine ⟨⟨rfl, rfl, ?_⟩, rfl, rfl, ?_⟩
  · exact ⟨_, rfl⟩
  · exact ⟨_, rfl⟩
/-- No data byte, and all of them. -/
theorem witness_ResetInsideAProgramFrame :
    let s := fun k => at0 (dev := latched) (env := isDue [⟨5 + k, .reset⟩])
    ∀ k, k = 0 ∨ k = 2 → (s k).ctl.seq ≠ .halted ∧ (s k).bus.cs = false ∧ (s k).cfg.present = true ∧
      (s k).dev.dbusy = false ∧ (s k).dev.dwel = true ∧ programIllegal (s k).cfg 0 [0xAA, 0x55] = false ∧
      k ≤ [(0xAA : Byte), 0x55].length ∧ (s k).env.due = ⟨5 + k, .reset⟩ :: [] := by
  rintro s k (rfl | rfl) <;> exact ⟨by decide, rfl, rfl, rfl, rfl, by decide, by decide, rfl⟩
theorem witness_StepKeepsTheInvariant :
    let s := at0 (env := comes (.issue (.word 0x00000004)))
    Inv s ∧ ∃ t, step s = .next t ∧ t.dev.dwel = true :=
  ⟨inv_at0 _ _ (by decide) (by decide), nextIs_iff (P := fun t => t.dev.dwel) (by decide)⟩
theorem witness_HostOperationsNeverFault :
    let s := at0 (env := comes (.issue (.word 0x00000006)))
    Inv s ∧ NoDirectFrame s := ⟨inv_at0 _ _ (by decide) (by decide), by simp [NoDirectFrame, at0, State.launch, comes]⟩
/-- Both clauses: a step that sends a page program, and one that sends a chip erase. -/
theorem witness_WireCarriesOnlyGuardedWrites :
    let s := at0 (ctl := { Controller.reset with wp := true }) (env := comes (.issue (.word 0x00000107)))
    let u := at0 (env := comes (.issue (.word 0x00000005)))
    (Inv s ∧ NoDirectFrame s ∧ NoResetDue s ∧
      ∃ t, step s = .next t ∧ (newFrames s t).any (fun f => f.head? == some 0x02) = true) ∧
    Inv u ∧ NoDirectFrame u ∧ NoResetDue u ∧
      ∃ t, step u = .next t ∧ (newFrames u t).any (fun f => f.head? == some 0xC7) = true := by
  refine ⟨⟨inv_at0 _ _ (by decide) (by decide), by simp [NoDirectFrame, at0, State.launch, comes],
      nothingDue rfl, ?_⟩,
    inv_at0 _ _ (by decide) (by decide), by simp [NoDirectFrame, at0, State.launch, comes],
      nothingDue rfl, ?_⟩
  · exact nextIs_iff (P := fun t => (newFrames _ t).any fun f => f.head? == some 0x02) (by decide +kernel)
  · exact nextIs_iff (P := fun t => (newFrames _ t).any fun f => f.head? == some 0xC7) (by decide +kernel)
/-- Each clause: an operation that writes registers of its own, and a frame; a dump resumed before its last page,
with the host waiting and with no move due; and a step of an idle controller that takes a read. -/
theorem witness_RegistersAreWrittenOnlyByTheirOperations :
    let k := { Controller.reset with seq := .exec, mpc := some (.poll .dumpPoll), pidx := 3 }
    let s := at0 (ctl := k) (env := comes .wait)
    let u := at0 (ctl := k)
    let v := at0 (env := comes (.readReg .idreg))
    (NoResetDue (at0) ∧ (∃ t, exec .readId (at0) = .next t ∧ t.ctl.idv = true) ∧
      ∃ t, exec .rdsr (at0) = .next t ∧ (t.ctl.seq == .idle) = true) ∧
    (NoResetDue s ∧ s.ctl.seq = .exec ∧ s.ctl.mpc = some (.poll .dumpPoll) ∧ s.env.inbox = .wait :: [] ∧
      ∃ t, step s = .next t ∧ (t.ctl.seq == .idle) = true) ∧
    (NoResetDue u ∧ u.ctl.seq = .exec ∧ u.ctl.mpc = some (.poll .dumpPoll) ∧ u.env.inbox = [] ∧
      ∃ t, step u = .next t ∧ (t.ctl.seq == .idle) = true) ∧
    v.ctl.seq ≠ .exec ∧
      (∀ m rest, v.env.inbox = m :: rest → m.isRequest = false ∧ m ≠ .reset ∧ ∀ i x, m ≠ .writeReg (.data i) x) ∧
      ∃ t, step v = .next t ∧ (t.ctl.seq == .idle) = true := by
  refine ⟨⟨nothingDue rfl, nextIs_iff (P := fun t => t.ctl.idv) (by decide),
      nextIs_iff (P := fun t => t.ctl.seq == .idle) (by decide)⟩,
    ⟨nothingDue rfl, rfl, rfl, rfl, nextIs_iff (P := fun t => t.ctl.seq == .idle) (by decide +kernel)⟩,
    ⟨nothingDue rfl, rfl, rfl, rfl, nextIs_iff (P := fun t => t.ctl.seq == .idle) (by decide +kernel)⟩,
    by decide, ?_, nextIs_iff (P := fun t => t.ctl.seq == .idle) (by decide)⟩
  intro m rest h
  cases h
  exact ⟨rfl, by simp, by simp⟩
/-- A request, and a wait resumed. -/
theorem witness_OnlyASuccessfulScanPermitsWrites :
    let s := at0 (env := comes (.issue (.word 0x00000006)))
    let u := at0 (ctl := { Controller.reset with seq := .exec, mpc := some (.poll .scanPoll) })
    (s.ctl.wp = false ∧ ∃ t, step s = .next t ∧ t.ctl.wp = true) ∧
      u.ctl.wp = false ∧ ∃ t, step u = .next t ∧ t.ctl.wp = true :=
  ⟨⟨rfl, nextIs_iff (P := fun t => t.ctl.wp) (by decide +kernel)⟩, rfl,
    nextIs_iff (P := fun t => t.ctl.wp) (by decide +kernel)⟩
theorem witness_TheEventStreamOnlyGrows :
    let s := at0 (env := comes (.issue (.word 0x00000001)))
    NoResetDue s ∧ (∀ rest, s.env.inbox ≠ .reset :: rest) ∧
      ∃ t, step s = .next t ∧ (t.ctl.log.length == 1) = true :=
  ⟨nothingDue rfl, by simp [at0, State.launch, comes], nextIs_iff (P := fun t => t.ctl.log.length == 1) (by decide)⟩
theorem witness_ParametersNeverChange : ∃ t, step State.reset = .next t ∧ (t.ctl.seq == .idle) = true :=
  nextIs_iff (P := fun t => t.ctl.seq == .idle) (by decide)
/-- Each clause: idle with a read, a write to `DATA` and a reset still to come, which the step takes in turn; idle
with nothing to come; and halted while the device still programs. -/
theorem witness_AFinishedRunStaysFinished :
    let s := at0 (env := { Env.reset with inbox := [.readReg .result, .writeReg (.data 0) 0x12, .wait, .reset] })
    let u := at0 (ctl := { Controller.reset with seq := .halted }) (dev := programming)
    (RunOver s ∧ s.bus.cs = false ∧ ∃ t, step s = .next t ∧ (t.env.seen == [(.result, 0)]) = true) ∧
    (RunOver (at0) ∧ (at0).env.inbox = []) ∧
    RunStopped u ∧ (∀ rest, u.env.inbox ≠ .reset :: rest) ∧ ∃ t, step u = .next t ∧ (t.dev.dbusy == false) = true :=
  ⟨⟨⟨rfl, by simp [at0, State.launch, Input.isRequest], rfl⟩, rfl,
      nextIs_iff (P := fun t => t.env.seen == [(.result, 0)]) (by decide)⟩,
    ⟨⟨rfl, by simp [at0, State.launch, Env.reset], rfl⟩, rfl⟩, rfl, (fun _ h => by cases h),
    nextIs_iff (P := fun t => t.dev.dbusy == false) (by decide)⟩

end Sys2Proof.Tests
end

section
/-!
What holds of every step whatever it runs: no parameter changes and the device only makes moves of its own
(spec/00_scope.md rule R8); and what a step can be when no request is to come, from which a run that is over
or halted stays so (rule R19).
-/

namespace Sys2Proof.Machine

/-! ### The parameters and the device, over every step -/

theorem stable_true : Stable fun _ => True := by
  refine .of ?_ ?_ ?_ ?_ ?_ ?_ ?_ ?_ ?_ <;> intros <;> trivial

theorem ends_true : Ends (fun _ => True) fun _ => True := fun _ _ _ _ => trivial

theorem allows_true (i : Instr) : Allows (fun _ => True) i := by
  constructor <;> intros <;> trivial

/-- No step changes a parameter, and none does anything to the device that is not a move of its own (rules R8,
R42, R44). -/
theorem step_device {s t : State} (h : step s = .next t) :
    t.cfg = s.cfg ∧ DeviceReach s.cfg s.dev t.dev := by
  cases step_cases h with
  | request i w m hb _ run =>
    exact (keeps_request stable_true ends_true (allows_true i) hb).run_device (s := (popInbox s).mapCtl _) run
  | illegal w _ run =>
    exact (keeps_endWith stable_true.toPolls ends_true _).run_device (s := (popInbox s).mapCtl _) run
  | frame i m _ _ hb _ _ run => exact (keeps_frameBody stable_true.lastSr hb).run_device (s := popInbox s) run
  | rawFrame _ bytes _ _ run => exact (Keeps.bus (busOnly_frame bytes)).run_device (s := popInbox s) run
  | resume p _ _ run =>
    exact (keeps_resumeOp stable_true ends_true (fun _ _ _ => id) (fun _ _ _ => id) fun _ _ => id).run_device run
  | turn ht => exact ht ▸ ⟨(Unmoved.deviceTurn s).cfg, (Unmoved.deviceTurn s).dev⟩
  | reset _ _ run =>
    have hr := resetController_device s.cfg s.dev (popInbox s) ⟨rfl, .refl⟩
    rwa [run] at hr
  | done busy ht => exact ht ▸ ⟨rfl, (DeviceMove.complete busy).reach⟩
  | data | pop | read | due => subst_vars; exact ⟨rfl, .refl⟩

/-- Settles O56: every step, whatever it runs, keeps the parameters (`step_device`). -/
theorem parametersNeverChange : Obligations.ParametersNeverChange :=
  fun _ _ h => (step_device h).1

/-! ### Steps with no request to come -/

/-- With the chip-select released a reset sets the controller's registers and does nothing else (rules R340,
R341). -/
theorem resetController_released {s : State} (hc : s.bus.cs = false) :
    resetController s = .ok () (resetFields s) := by
  simp [resetController, bind_apply, hc]

/-- With no operation in progress and no move to come, only the device may step (rules R312, R313). -/
theorem step_turn {s : State} (hx : s.ctl.seq ≠ .exec) (hin : s.env.inbox = []) :
    step s = .next (deviceTurn s) := by
  cases hs : s.ctl.seq <;> simp_all [step, moveStep, machineTurn]

/-- A step from a state with no operation in progress whose next move, if there is one, is no request. -/
inductive QuietStep (s t : State) : Prop
  /-- No move is to come, and only the device may step. -/
  | turn (inbox : s.env.inbox = []) (ht : t = deviceTurn s)
  /-- A reset. -/
  | reset (rest : List Input) (inbox : s.env.inbox = .reset :: rest)
      (run : resetController (popInbox s) = .ok () t)
  /-- The host writes a data byte. -/
  | data (i : Fin 256) (v : Byte) (idle : s.ctl.seq = .idle)
      (ht : t = (popInbox s).mapCtl fun c => { c with data := c.data.set i v })
  /-- The device completes. -/
  | done (busy : s.dev.dbusy = true) (ht : t = (popInbox s).mapDev completed)
  /-- A move is taken that concerns at most what is due and what the host saw. -/
  | watched (due : List Due) (seen : List (HostReg × BitVec 32)) (ht : t = (popInbox s).watch due seen)

theorem step_quiet {s t : State} (hx : s.ctl.seq ≠ .exec)
    (hq : ∀ m rest, s.env.inbox = m :: rest → m.isRequest = false) (h : step s = .next t) : QuietStep s t := by
  cases hin : s.env.inbox with
  | nil => cases (step_turn hx hin).symm.trans h; exact .turn hin rfl
  | cons m rest =>
    have hm := hq m rest hin
    simp only [step, moveStep, hin] at h
    cases m with
    | issue c => cases hm
    | wait =>
      rw [if_neg hx] at h
      cases h; exact .watched _ _ rfl
    | deviceDone =>
      simp only at h
      split at h
      · cases h; exact .done ‹_› rfl
      · cases h
    | readReg r => cases h; exact .watched _ _ rfl
    | readAfter k r => cases h; exact .watched _ _ rfl
    | resetAfter k => cases h; exact .watched _ _ rfl
    | reset => exact .reset rest hin (afterReset_next h)
    | writeReg r v =>
      cases r with
      | cmd => cases hm
      | data i =>
        simp only [hostWrite] at h
        split at h
        · cases h; exact .data _ _ ‹_› rfl
        · cases h
      | ctrlstat | result | cursor | idreg | lastSr | checksum => cases h; exact .watched _ _ rfl

/-! ### A run that is over or halted -/

/-- A run that is over stays over when its next move is taken and `SEQ` and the device are as they were. -/
theorem RunOver.tail {s t : State} (h : RunOver s) (hseq : t.ctl.seq = .idle)
    (hin : t.env.inbox = s.env.inbox.tail) (hdev : t.dev = s.dev) : RunOver t := by
  obtain ⟨-, hreq, hbusy⟩ := h
  exact ⟨hseq, fun m hm => hreq m (List.mem_of_mem_tail (hin ▸ hm)), by rw [hdev]; exact hbusy⟩

theorem RunOver.of_step {s t : State} (h : RunOver s) (hc : s.bus.cs = false) (ht : step s = .next t) :
    RunOver t ∧ t.bus = s.bus ∧ t.dev = s.dev := by
  have ⟨hseq, hreq, hbusy⟩ := h
  cases step_quiet (by simp [hseq]) (fun m rest hin => hreq m (by simp [hin])) ht with
  | turn _ ht => rw [ht, deviceTurn_idle hbusy]; exact ⟨h, rfl, rfl⟩
  | reset _ _ run =>
    rw [resetController_released (by exact hc)] at run
    cases run; exact ⟨h.tail rfl rfl rfl, rfl, rfl⟩
  | data _ _ _ ht => subst ht; exact ⟨h.tail hseq rfl rfl, rfl, rfl⟩
  | done busy => rw [hbusy] at busy; cases busy
  | watched _ _ ht => subst ht; exact ⟨h.tail hseq rfl rfl, rfl, rfl⟩

theorem RunStopped.of_step {s t : State} (h : RunStopped s) (hr : ∀ rest, s.env.inbox ≠ .reset :: rest)
    (ht : step s = .next t) :
    RunStopped t ∧ t.bus = s.bus ∧ (t.dev = s.dev ∨ s.dev.dbusy = true ∧ t.dev = completed s.dev) := by
  have hseq : s.ctl.seq = .halted := h
  have notIdle : s.ctl.seq ≠ .idle := by simp [hseq]
  cases step_cases ht with
  | request _ _ _ _ idle | illegal _ idle | frame _ _ _ _ _ _ idle | rawFrame _ _ _ idle | data _ _ idle =>
    exact absurd idle notIdle
  | resume _ busy => rw [hseq] at busy; cases busy
  | reset rest inbox => exact absurd inbox (hr rest)
  | turn ht =>
    subst ht
    refine ⟨by simp [RunStopped, hseq], by simp, ?_⟩
    rw [deviceTurn_dev]
    split
    · next hb => exact .inr ⟨hb.1, rfl⟩
    · exact .inl rfl
  | done busy ht => subst ht; exact ⟨h, rfl, .inr ⟨busy, rfl⟩⟩
  | pop | read | due => subst_vars; exact ⟨h, rfl, .inl rfl⟩

/-- Settles O57: by the cases of a step with no request to come (`RunOver.of_step`), an idle device takes no turn
(`step_turn`), and a halted controller takes only a reset (`RunStopped.of_step`). -/
theorem aFinishedRunStaysFinished : Obligations.AFinishedRunStaysFinished := by
  refine ⟨fun s t h hc ht => ?_, fun s h hin => ?_, fun s t h hr ht => h.of_step hr ht⟩
  · obtain ⟨hover, hbus, hdev⟩ := h.of_step hc ht
    exact ⟨hover, hbus, hdev, (step_device ht).1⟩
  · obtain ⟨hseq, -, hbusy⟩ := h
    rw [step_turn (by simp [hseq]) hin, deviceTurn_idle hbusy]

end Sys2Proof.Machine
end

section
/-!
How an operation is followed from a state with the bus free to where its step ends (`Leads`): what the machine's
invariant (spec/10_state.md rule R46 I-a, I-d) asks of the controller and the bus there, and which frames went out
on the way (I-b, I-c). Then the shared operations: the status read, the ready-wait, the gate, the RDID frame.
-/

namespace Sys2Proof.Machine

variable {α : Type} {s t u : State} {Q : State → Prop} {w : List (List Byte)} {G : List Byte → Prop}

/-! ### The device's invariant -/

/-- A legal program lies in the array (rules R156, R157). -/
theorem programIllegal_false {c : Config} {a : FlashAddr} {bytes : List Byte} (h : programIllegal c a bytes = false) :
    bytes.length ≤ 256 ∧ a.toNat % pageBytes + bytes.length ≤ pageBytes ∧ a.toNat + bytes.length ≤ size c := by
  simp only [programIllegal, Bool.or_eq_false_iff, decide_eq_false_iff_not] at h
  obtain ⟨⟨hlen, hpage⟩, hend⟩ := h
  simp only [size]
  omega

theorem DeviceInv.move {c : Config} {d d' : Device} (h : DeviceMove c d d') (hd : DeviceInv c d) : DeviceInv c d' := by
  have ⟨hwf, hbelow, hbusy, hlegal⟩ := hd
  cases h with
  | fb | daddr | latch => exact ⟨hwf, hbelow, hbusy, hlegal⟩
  | erase => exact ⟨hwf, hbelow, by simp [startErase], by simp [startErase]⟩
  | program a bytes _ _ some legal =>
    refine ⟨hwf, hbelow, by simp, fun a' bytes' h => ?_⟩
    cases h; exact ⟨some, legal⟩
  | complete =>
    cases hp : d.dpend with
    | none => exact ⟨by simpa [completed, hp], by simpa [completed, hp], by simp [completed], by simp [completed]⟩
    | erase => exact ⟨by simp [completed, hp], by simp [completed, hp], by simp [completed], by simp [completed]⟩
    | prog a bytes =>
      have hin := (programIllegal_false (hlegal a bytes hp).2).2.2
      exact ⟨by simpa [completed, hp] using memWf_memWrite hwf _ _,
        by simpa [completed, hp] using memBelow_memWrite hbelow hin, by simp [completed], by simp [completed]⟩

/-- What an operation at a poll relies on survives the device's completion (rule R213). -/
theorem PollInv.completed {c : Config} {k : Controller} {d : Device} {p : Poll} (h : PollInv c k d p)
    (busy : d.dbusy = true) : PollInv c k (completed d) p := by
  cases p with
  | eraseWait =>
    intro hok
    rcases h hok with he | ⟨-, hb, -⟩
    · exact .inr ⟨by simp [Machine.completed, he], rfl, rfl⟩
    · rw [busy] at hb; cases hb
  | awaitPoll | enableGate | eraseGate | scanPoll | writeGate | writeReady | dumpPoll => exact h

theorem PollInv.deviceTurn {c : Config} {k : Controller} {p : Poll} (h : PollInv c k s.dev p) :
    PollInv c k (deviceTurn s).dev p := by
  rw [deviceTurn_dev]
  split
  · exact h.completed (And.left ‹_›)
  · exact h

/-- The invariant reads the parameters, the registers, the chip-select and the device alone. -/
theorem Inv.congr (h : Inv s) (hcfg : t.cfg = s.cfg) (hctl : t.ctl = s.ctl) (hcs : t.bus.cs = s.bus.cs)
    (hdev : t.dev = s.dev) : Inv t := by
  obtain ⟨h1, h2, h3, h4⟩ := h
  exact ⟨by rw [hcfg, hctl]; exact h1, hcs.trans h2, by rw [hcfg, hdev]; exact h3, by rw [hcfg, hctl, hdev]; exact h4⟩

/-! ### From a state with the bus free to where the step ends -/

/-- If the action ends the step, at its last statement or at a busy poll, it ends in `Q`. -/
def Leads (m : Act Unit) (s : State) (Q : State → Prop) : Prop :=
  ∀ t, m s = .ok () t ∨ m s = .error .suspended t → Q t

theorem Leads.ok {m : Act Unit} (h : m s = .ok () u) (hq : Q u) : Leads m s Q := by
  intro t ht
  rw [h] at ht
  rcases ht with ht | ht <;> cases ht
  exact hq

theorem Leads.bind {m : Act α} {f : α → Act Unit} {a : α} (h : m s = .ok a u) (hf : Leads (f a) u Q) :
    Leads (m >>= f) s Q := by
  unfold Leads
  rw [bind_ok h]
  exact hf

theorem Leads.suspended {m : Act α} {f : α → Act Unit} (h : m s = .error .suspended u) (hq : Q u) :
    Leads (m >>= f) s Q := by
  intro t ht
  rw [bind_error h] at ht
  rcases ht with ht | ht <;> cases ht
  exact hq

theorem Leads.fault {m : Act α} {f : α → Act Unit} {e : Fault} (h : m s = .error (.fault e) u) :
    Leads (m >>= f) s Q := by
  intro t ht
  rw [bind_error h] at ht
  rcases ht with ht | ht <;> cases ht

/-- A frame that neither programs nor erases. -/
def Plain (f : List Byte) : Prop := f.head? ≠ some 0x02 ∧ f.head? ≠ some 0xC7

/-- A frame that may go on the wire with the gate's outcome `ok` and the permission `wp` (rule R46 I-b, I-c). -/
def Guarded (c : Config) (ok wp : Bool) (f : List Byte) : Prop :=
  (f.head? = some 0x02 → ∃ a bytes, f = ppFrame a bytes ∧ bytes ≠ [] ∧ a.toNat % 256 + bytes.length ≤ 256 ∧
    a.toNat + bytes.length ≤ endAddr c + 1 ∧ ok = true ∧ wp = true) ∧
  (f.head? = some 0xC7 → ok = true ∨ c.eraseAbort = false)

theorem Plain.guarded {f : List Byte} (h : Plain f) (c : Config) (ok wp : Bool) : Guarded c ok wp f :=
  ⟨fun hf => absurd hf h.1, fun hf => absurd hf h.2⟩

theorem plain_rdsr : Plain rdsrFrame := by simp [Plain, rdsrFrame]
theorem plain_wren : Plain wrenFrame := by simp [Plain, wrenFrame]
theorem plain_rdid : Plain rdidFrame := by simp [Plain, rdidFrame]
theorem plain_read (a : FlashAddr) (n : Nat) : Plain (readFrame a n) := by simp [Plain, readFrame]

/-- An operation runs, with the bus free, `CURSOR` in range, and frames with `G` alone put on the wire since it
held `w`. -/
structure Running (G : List Byte → Prop) (w : List (List Byte)) (s : State) : Prop where
  free   : BusFree s
  cursor : s.ctl.cursor.toNat ≤ size s.cfg
  wire   : ∃ new, s.bus.wire = w ++ new ∧ ∀ f ∈ new, G f

/-- The step is over: what the invariant asks of the controller and the bus holds, and the new frames are
guarded. -/
structure Settled (w : List (List Byte)) (t : State) : Prop where
  released : t.bus.cs = false
  cursor   : t.ctl.cursor.toNat ≤ size t.cfg
  atPoll   : t.ctl.seq = .exec → ∃ p, t.ctl.mpc = some (.poll p) ∧ PollInv t.cfg t.ctl t.dev p
  wire     : ∃ new, t.bus.wire = w ++ new ∧ ∀ f ∈ new, Guarded t.cfg t.ctl.ok t.ctl.wp f

theorem Running.mono {G' : List Byte → Prop} (h : Running G w s) (hG : ∀ f, G f → G' f) : Running G' w s := by
  obtain ⟨hfree, hcur, new, hw, hnew⟩ := h
  exact ⟨hfree, hcur, new, hw, fun f hf => hG f (hnew f hf)⟩

theorem Running.guarded (h : Running Plain w s) : Running (Guarded s.cfg s.ctl.ok s.ctl.wp) w s :=
  h.mono fun _ hf => hf.guarded _ _ _

/-- The operation runs on when more frames with `G` have gone out. -/
theorem Running.sent (h : Running G w s) (hfree : BusFree t) (hcfg : t.cfg = s.cfg) (hcur : t.ctl.cursor = s.ctl.cursor)
    (fs : List (List Byte)) (hw : t.bus.wire = s.bus.wire ++ fs) (hfs : ∀ f ∈ fs, G f) : Running G w t := by
  obtain ⟨-, hc, new, hs, hnew⟩ := h
  refine ⟨hfree, by rw [hcfg, hcur]; exact hc, new ++ fs, by rw [hw, hs, List.append_assoc], fun f hf => ?_⟩
  exact (List.mem_append.mp hf).elim (hnew f) (hfs f)

/-- Register updates do not touch the bus. -/
theorem Running.mapCtl (h : Running G w s) {f : Controller → Controller} (hf : (f s.ctl).cursor.toNat ≤ size s.cfg) :
    Running G w (s.mapCtl f) := ⟨h.free, hf, h.wire⟩

theorem Running.atLabel (h : Running G w s) (p : MicroPos) : Running G w (s.atLabel p) := h.mapCtl h.cursor

/-- A running operation reaches a label. -/
theorem Running.label (h : Running G w s) {p : MicroPos} {f : Unit → Act Unit}
    (hf : Running G w (s.atLabel p) → Leads (f ()) (s.atLabel p) Q) : Leads (Machine.label p >>= f) s Q :=
  .bind (label_free p h.free.2) (hf (h.atLabel p))

/-- A running operation writes registers other than `CURSOR`. -/
theorem Running.updCtl (h : Running G w s) {g : Controller → Controller} {f : Unit → Act Unit}
    (hg : (g s.ctl).cursor = s.ctl.cursor) (hf : Running G w (s.mapCtl g) → Leads (f ()) (s.mapCtl g) Q) :
    Leads (Machine.updCtl g >>= f) s Q :=
  .bind (updCtl_apply g s) (hf (h.mapCtl (by rw [hg]; exact h.cursor)))

theorem Running.afterStatus (h : Running Plain w s) : Running Plain w (afterStatus s) :=
  h.sent h.free.afterStatus rfl rfl [rdsrFrame] rfl (by simp [plain_rdsr])

/-- An operation that ends, by `Finish` or by `raise Halt`, is settled. -/
theorem Running.ended (h : Running (Guarded s.cfg s.ctl.ok s.ctl.wp) w s) (code : Byte) {q : Seq} (hq : q ≠ .exec) :
    Settled w (s.mapCtl fun c => { c with result := code, seq := q, mpc := none }) :=
  ⟨h.free.1, h.cursor, fun he => absurd he hq, h.wire⟩

theorem Running.endWith (h : Running (Guarded s.cfg s.ctl.ok s.ctl.wp) w s) {code : Byte} :
    Leads (endWith code) s (Settled w) :=
  .ok (endWith_free code h.free.2) (h.ended code (by simp))

/-! ### The shared operations -/

/-- A status read answers, and leaves the bus free. -/
theorem readStatus_free (h : BusFree s) : ∃ r u, readStatus s = .ok r u ∧ BusFree u ∧ u.cfg = s.cfg ∧
    u.ctl.cursor = s.ctl.cursor ∧ u.bus.wire = s.bus.wire ++ [rdsrFrame] := by
  cases hp : s.cfg.present with
  | true => exact ⟨_, _, readStatus_seen h hp, h.afterStatus, rfl, rfl, rfl⟩
  | false => exact ⟨_, _, readStatus_unseen h hp, ⟨rfl, by simpa using h.2⟩, by simp, rfl, rfl⟩

/-- An RDID frame answers, whether a device is there or not, busy or not, and leaves the bus free. -/
theorem issueRdid_free (h : BusFree s) : ∃ r u, issueRdid s = .ok r u ∧ BusFree u ∧ u.cfg = s.cfg ∧
    u.ctl.cursor = s.ctl.cursor ∧ u.bus.wire = s.bus.wire ++ [rdidFrame] := by
  cases hp : s.cfg.present with
  | false => exact ⟨_, _, issueRdid_absent h.1 h.2 hp, ⟨rfl, by simpa using h.2⟩, by simp, by simp, rfl⟩
  | true =>
    cases hb : (deviceTurn s).dev.dbusy with
    | true => exact ⟨_, _, issueRdid_refused h.1 h.2 hp hb, ⟨rfl, by simpa [afterDraws] using h.2⟩,
        by simp [afterDraws], by simp [afterDraws], by simp [afterDraws]⟩
    | false =>
      have hi := issueRdid_idle (s := deviceTurn s) (by simpa using h.1) (by simpa using h.2) (by simpa using hp) hb
      rw [← issueRdid_deviceTurn h.1 h.2 hb] at hi
      exact ⟨_, _, hi, ⟨rfl, by simpa using h.2⟩, by simp, by simp, by simp⟩

/-- The ready-wait stays at its poll: `u` is where the step ends that began in `s` (rules R182, R186). -/
structure WaitsAt (here : Poll) (s u : State) : Prop where
  free : BusFree u
  cfg  : u.cfg = s.cfg
  ctl  : u.ctl = { s.ctl with mpc := some (.poll here), lastSr := u.ctl.lastSr, log := u.ctl.log }
  dev  : u.dev = { (deviceTurn s).dev with fb := u.dev.fb }
  wire : u.bus.wire = s.bus.wire ++ [rdsrFrame]

/-- A ready-wait returns on a device that is ready at the next poll; on every other it stays. -/
theorem awaitReady_cases (here : Poll) {f : Controller → Controller} (hf : ∀ c, f c = { c with log := (f c).log })
    (h : BusFree s) :
    (ReadyNext s ∧ awaitReady here (updCtl f) s = .ok () ((afterStatus s).atLabel (.poll here))) ∨
    ∃ u, awaitReady here (updCtl f) s = .error .suspended u ∧ WaitsAt here s u := by
  cases hp : s.cfg.present with
  | false =>
    refine .inr ⟨_, awaitReady_absent here f h hp, ⟨rfl, by simpa using h.2⟩, by simp, ?_, rfl, rfl⟩
    simp only [mapCtl_ctl]; rw [hf]; rfl
  | true =>
    cases hb : (deviceTurn s).dev.dbusy with
    | false => exact .inl ⟨⟨hp, hb⟩, awaitReady_ready here _ h ⟨hp, hb⟩⟩
    | true =>
      refine .inr ⟨_, awaitReady_busy here f h hp hb, ⟨rfl, by simpa using h.2⟩, by simp, ?_, rfl, by simp⟩
      simp only [mapCtl_ctl]; rw [hf]; rfl

/-- What an operation relies on at a poll holds there after one more busy poll. -/
theorem WaitsAt.pollInv {here : Poll} (h : WaitsAt here s u) (hp : PollInv s.cfg s.ctl s.dev here) :
    PollInv u.cfg u.ctl u.dev here := by
  rw [h.cfg, h.ctl, h.dev]
  have hd := hp.deviceTurn
  cases here <;> exact hd

theorem WaitsAt.settled {here : Poll} (h : WaitsAt here s u) (hr : Running (Guarded s.cfg s.ctl.ok s.ctl.wp) w s)
    (hp : PollInv s.cfg s.ctl s.dev here) : Settled w u := by
  have hu := hr.sent h.free h.cfg (by rw [h.ctl]) [rdsrFrame] h.wire (by simp [plain_rdsr.guarded])
  exact ⟨hu.free.1, hu.cursor, fun _ => ⟨here, by rw [h.ctl], h.pollInv hp⟩, by rw [h.cfg, h.ctl]; exact hu.wire⟩

/-- A ready-wait that logs nothing while it polls, as `awaitReady_leads` asks for it. -/
theorem id_log : ∀ c : Controller, id c = { c with log := (id c).log } := fun _ => rfl

/-- An operation that begins with a ready-wait is settled where it waits, or runs on with a ready device. -/
theorem awaitReady_leads {here : Poll} {f : Controller → Controller} (hf : ∀ c, f c = { c with log := (f c).log })
    {k : Unit → Act Unit} (hr : Running (Guarded s.cfg s.ctl.ok s.ctl.wp) w s) (hp : PollInv s.cfg s.ctl s.dev here)
    (hk : ReadyNext s → Leads (k ()) ((afterStatus s).atLabel (.poll here)) (Settled w)) :
    Leads (awaitReady here (updCtl f) >>= k) s (Settled w) := by
  rcases awaitReady_cases here hf hr.free with ⟨hready, hm⟩ | ⟨u, hm, hwait⟩
  · exact .bind hm (hk hready)
  · exact .suspended hm (hwait.settled hr hp)

/-- The write-enable gate has seen a present device that is not busy; its outcome is the latch (rule R197). -/
structure Gated (s u : State) (ok : Bool) : Prop where
  cfg     : u.cfg = s.cfg
  present : u.cfg.present = true
  idle    : u.dev.dbusy = false
  latch   : u.dev.dwel = ok
  ctl     : u.ctl = { s.ctl with
    mpc := u.ctl.mpc, lastSr := u.ctl.lastSr, log := u.ctl.log, ok := ok, wp := s.ctl.wp && ok }

theorem gate_leads {here : Poll} {k : Bool → Act Unit} (hr : Running Plain w s) (hp : PollInv s.cfg s.ctl s.dev here)
    (hk : ∀ u ok, Running Plain w u → Gated s u ok → Leads (k ok) u (Settled w)) :
    Leads (gate here >>= k) s (Settled w) := by
  rcases awaitReady_cases here id_log hr.free with ⟨hready, -⟩ | ⟨u, hm, hwait⟩
  · obtain ⟨sr, -, -, hctl⟩ := afterGate_ctl hready
    have hdev := afterGate_dev hready
    have hrun : Running Plain w (afterGate s) :=
      hr.sent ⟨rfl, (afterGate_due s).trans hr.free.2⟩ rfl rfl [rdsrFrame, wrenFrame, rdsrFrame] (afterGate_wire s)
        (by simp [plain_rdsr, plain_wren])
    have hidle : (afterGate s).dev.dbusy = false := by rw [hdev]; exact hready.2
    have hlatch : (afterGate s).dev.dwel = latchAfterWren s.cfg (deviceTurn s).dev := by rw [hdev]
    have hm := gate_ready here hr.free hready
    split at hm
    · next hl =>
      refine .bind hm (hk _ true ((hrun.atLabel _).mapCtl hrun.cursor) ⟨rfl, hready.1, hidle, hlatch.trans hl, ?_⟩)
      simp [hctl]
    · next hl =>
      refine .bind hm (hk _ false ((hrun.atLabel _).mapCtl hrun.cursor)
        ⟨rfl, hready.1, hidle, hlatch.trans (by simpa using hl), ?_⟩)
      simp [hctl]
  · have hg : gate here s = .error .suspended u := bind_error hm
    exact .suspended hg (hwait.settled hr.guarded hp)

end Sys2Proof.Machine
end

section
/-!
Each operation, from its request or from the poll where it waits: where its step ends, the invariant's part of the
controller and the bus holds and the new frames are guarded (spec/10_state.md rule R46).
-/

namespace Sys2Proof.Machine

variable {s u : State} {w : List (List Byte)} {G : List Byte → Prop}

/-! ### Status, gate, erase, identity -/

theorem readStatusOp_leads (h : Running Plain w s) : Leads readStatusOp s (Settled w) :=
  h.label fun h =>
    let ⟨_, _, hm, hfree, hcfg, hcur, hw⟩ := readStatus_free h.free
    .bind hm (h.sent hfree hcfg hcur _ hw (by simp [plain_rdsr])).guarded.endWith

theorem awaitReadyOp_leads (h : Running Plain w s) : Leads awaitReadyOp s (Settled w) :=
  awaitReady_leads id_log h.guarded trivial fun _ => (h.afterStatus.atLabel _).guarded.endWith

theorem writeEnableOp_leads (h : Running Plain w s) : Leads writeEnableOp s (Settled w) := by
  refine gate_leads h trivial fun u ok hu _ => ?_
  cases ok <;> exact hu.guarded.endWith

theorem eraseWaitOp_leads (h : Running (Guarded s.cfg s.ctl.ok s.ctl.wp) w s)
    (hp : PollInv s.cfg s.ctl s.dev .eraseWait) : Leads eraseWaitOp s (Settled w) := by
  refine awaitReady_leads (f := fun c => { c with log := c.log ++ [.eraseProgress] }) (fun _ => rfl) h hp fun _ => ?_
  have hu := h.sent h.free.afterStatus rfl rfl [rdsrFrame] rfl (by simp [plain_rdsr.guarded])
  refine .bind (ask_apply _) ?_
  show Leads (if _ then _ else _) _ _
  split <;> exact (hu.atLabel _).endWith

/-- A complete CE frame on a present device that is not busy: with the latch set the erase is pending (rule
R213). -/
theorem issueCe_pollInv {ok : Bool} (h : Gated s u ok) (hr : BusFree u) : ∃ v, issueCe u = .ok () v ∧ v.cfg = u.cfg ∧
    v.ctl = u.ctl ∧ BusFree v ∧ v.bus.wire = u.bus.wire ++ [ceFrame] ∧ PollInv v.cfg v.ctl v.dev .eraseWait := by
  refine ⟨_, issueCe_present hr.1 hr.2 h.present, by simp, by simp, ⟨rfl, by simpa using hr.2⟩, rfl, fun hok => ?_⟩
  have hctl : u.ctl.ok = ok := by rw [h.ctl]
  have hlatch : u.dev.dwel = true := by
    rw [h.latch, ← hctl]; simpa using hok
  simp [deviceTurn_idle h.idle, h.idle, hlatch, startErase]

theorem chipEraseOp_leads (h : Running Plain w s) : Leads chipEraseOp s (Settled w) := by
  refine gate_leads h trivial fun u ok hu hg => .bind (ask_apply _) ?_
  have hok : u.ctl.ok = ok := by rw [hg.ctl]
  show Leads (if _ then _ else _) _ _
  split
  · exact hu.guarded.endWith
  · next hsend =>
    refine hu.guarded.label fun hu => ?_
    have hg' : Gated s (u.atLabel .eraseSend) ok := ⟨hg.cfg, hg.present, hg.idle, hg.latch, by rw [atLabel_ctl, hg.ctl]⟩
    obtain ⟨v, hm, hcfg, hctl, hfree, hw, hp⟩ := issueCe_pollInv hg' hu.free
    have hce : Guarded u.cfg u.ctl.ok u.ctl.wp ceFrame := by
      refine ⟨by simp [ceFrame], fun _ => ?_⟩
      rw [hok]
      cases ok
      · simpa using hsend
      · exact .inl rfl
    have hv := hu.sent hfree hcfg (by rw [hctl]) [ceFrame] hw (by simpa using hce)
    refine .bind hm (eraseWaitOp_leads ?_ hp)
    rw [hcfg, hctl]
    exact hv

theorem readIdOp_leads (h : Running Plain w s) : Leads readIdOp s (Settled w) := by
  refine h.label fun h => ?_
  obtain ⟨⟨m, d⟩, u, hm, hfree, hcfg, hcur, hw⟩ := issueRdid_free h.free
  have hu := h.sent hfree hcfg hcur _ hw (by simp [plain_rdid])
  refine .bind hm (hu.label fun hu => hu.updCtl rfl fun hu => hu.label fun hu => hu.updCtl rfl fun hu =>
    hu.label fun hu => hu.updCtl rfl fun hu => hu.label fun hu => .bind (ask_apply _) ?_)
  show Leads (if _ then _ else _) _ _
  split
  · exact hu.updCtl rfl fun hu => hu.guarded.endWith
  · exact hu.updCtl rfl fun hu => hu.label fun hu => hu.updCtl rfl fun hu => hu.guarded.endWith

/-! ### SCAN -/

/-- SCAN up to the end of its `READ` frame: whether it found a run of erased bytes (rule R228). -/
def scanSearch : Act Bool := do
  awaitReady .scanPoll nop
  label .scanOpen
  openRead 0x000000
  updCtl fun c => { c with run := 0, addr := 0 }
  let s ← ask
  let found ← scanStream (size s.cfg)
  label .scanClose
  deselect
  return found

/-- What SCAN does with what it found (rules R229, R230). -/
def scanOutcome (found : Bool) : Act Unit :=
  if found then do
    label .scanCursor
    updCtl fun c => { c with cursor := alignDown16 c.addr }
    label .scanPermit
    updCtl fun c => { c with wp := true }
    endWith resOk
  else do
    label .scanReport
    emit .noRegion
    label .scanOff
    updCtl fun c => { c with wp := false }
    endWith resScanExhausted

theorem scanOp_eq : scanOp = (do let found ← scanSearch; scanOutcome found : Act Unit) := by
  simp only [scanOp, scanSearch, scanOutcome, bind_assoc, pure_bind]

/-- A `READ` frame is open on a ready device, at the address `a`. -/
theorem openRead_reading {a : FlashAddr} (h : Running G w s) (hr : DeviceIdle s) : ∃ u, openRead a s = .ok () u ∧
    Reading u a.toNat ∧ u.cfg = s.cfg ∧ u.ctl = s.ctl ∧ u.env.due = [] ∧ u.bus.wire = s.bus.wire ∧
    u.bus.mosi = readFrame a 0 ∧ u.dev.fb = readFrame a 0 := by
  refine ⟨_, openRead_idle a h.free.1 h.free.2 hr.1 hr.2, ⟨rfl, h.free.2, hr.1, hr.2, ⟨_, _, _, _, rfl⟩, ?_⟩, rfl, rfl,
    h.free.2, rfl, rfl, rfl⟩
  simp only [BitVec.toNat_setWidth]
  omega

/-- SCAN's stream in an open frame: if it finds a run, the address it aligns is in the array (rules R228, R229). -/
theorem scanStream_addr (h : Reading s 0) (hrun : s.ctl.run = 0) (haddr : s.ctl.addr = 0) :
    ∃ found u k, scanStream (size s.cfg) s = .ok found u ∧ u.cfg = s.cfg ∧ u.env = s.env ∧ u.bus.cs = true ∧
      u.bus.wire = s.bus.wire ∧ u.ctl.cursor = s.ctl.cursor ∧ u.bus.mosi = s.bus.mosi ++ List.replicate k 0 ∧
      u.dev.fb = s.dev.fb ++ List.replicate k 0 ∧ (found = true → (alignDown16 u.ctl.addr).toNat ≤ size u.cfg) := by
  obtain ⟨u, found, hm, hcfg, henv, hcs, hw, hctl, -, hhit, hmiss⟩ :=
    scanStream_spec h (Nat.add_zero _) (by rw [hrun]; rfl) (by simp [runAt]) haddr
  cases found with
  | true =>
    obtain ⟨e, hit⟩ := hhit rfl
    refine ⟨true, u, _, hm, hcfg, henv, hcs, hw, by rw [hctl], hit.mosi, hit.fb, fun _ => ?_⟩
    have hlt := hit.lt
    have hsz := size_le s.cfg
    rw [hit.addr, alignDown16_cursorOf e (by omega), hcfg]
    omega
  | false =>
    exact ⟨false, u, _, hm, hcfg, henv, hcs, hw, by rw [hctl], (hmiss rfl).mosi, (hmiss rfl).fb, by simp⟩

theorem scanSearch_leads {k : Bool → Act Unit} (h : Running Plain w s)
    (hk : ∀ u found, Running Plain w u → (found = true → (alignDown16 u.ctl.addr).toNat ≤ size u.cfg) →
      Leads (k found) u (Settled w)) : Leads (scanSearch >>= k) s (Settled w) := by
  simp only [scanSearch, bind_assoc, pure_bind]
  refine awaitReady_leads id_log h.guarded trivial fun hready => (h.afterStatus.atLabel _).label fun h1 => ?_
  obtain ⟨u, hm, hread, hcfg, hctl, hdue, hw, hmosi, hfb⟩ := openRead_reading (a := 0) h1 hready
  obtain ⟨v, hv⟩ : ∃ v : State, (u.mapCtl fun c => { c with run := 0, addr := 0 }) = v := ⟨_, rfl⟩
  obtain ⟨found, x, n, hs, xcfg, xenv, xcs, xw, xcur, xmosi, xfb, hin⟩ := scanStream_addr (s := v)
    (by rw [← hv]; exact ⟨hread.cs, hread.noReset, hread.present, hread.idle, hread.command, hread.address⟩)
    (by rw [← hv]; rfl) (by rw [← hv]; rfl)
  have vdue : v.env.due = [] := by rw [← hv]; exact hdue
  have vfb : v.dev.fb = readFrame 0 0 := by rw [← hv]; exact hfb
  have vmosi : v.bus.mosi = readFrame 0 0 := by rw [← hv]; exact hmosi
  have xdue : x.env.due = [] := by rw [xenv]; exact vdue
  have hds := deselect_read (t := x.atLabel .scanClose) (a := 0) (n := n) xcs xdue
    (by rw [atLabel_cfg, xcfg, ← hv]; exact hread.present)
    (by rw [atLabel_dev, xfb, vfb]; exact readFrame_append 0 n)
  refine .bind hm (.bind (updCtl_apply _ _) ?_)
  rw [hv]
  refine .bind (ask_apply _) (.bind hs (.bind (label_free _ xdue) (.bind hds (hk _ found ?_ hin))))
  refine h1.sent ⟨rfl, xdue⟩ ?_ ?_ [readFrame 0 n] ?_ (by simp [plain_read])
  · show x.cfg = s.cfg
    rw [xcfg, ← hv]
    exact hcfg
  · show x.ctl.cursor = _
    rw [xcur, ← hv, ← hctl]
    rfl
  · show x.bus.wire ++ [x.bus.mosi] = _
    rw [xw, xmosi, vmosi, readFrame_append, ← hv, ← hw]
    rfl

theorem scanOp_leads (h : Running Plain w s) : Leads scanOp s (Settled w) := by
  rw [scanOp_eq]
  refine scanSearch_leads h fun u found hu hin => ?_
  cases found with
  | true =>
    exact hu.label fun hu => .bind (updCtl_apply _ _) ((hu.mapCtl (hin rfl)).label fun hu =>
      hu.updCtl rfl fun hu => hu.guarded.endWith)
  | false =>
    exact hu.label fun hu => hu.updCtl rfl fun hu => hu.label fun hu => hu.updCtl rfl fun hu => hu.guarded.endWith

/-! ### WRITE_DATA -/

/-- The checks of WRITE_DATA, passed (rules R247, R248, R252). -/
structure Checked (c : Config) (k : Controller) : Prop where
  some   : k.lenl ≠ 0
  fits   : k.cursor.toNat + k.lenl.toNat ≤ size c
  onPage : k.cursor.toNat % 256 + k.lenl.toNat ≤ 256

theorem checked_iff {c : Config} {k : Controller} : Checked c k ↔
    k.lenl ≠ 0 ∧ overCapacity c k.cursor k.lenl = false ∧ crossesPage k.cursor k.lenl = false := by
  simp only [overCapacity, crossesPage, decide_eq_false_iff_not, Nat.not_lt, gt_iff_lt, pageBytes]
  exact ⟨fun ⟨h1, h2, h3⟩ => ⟨h1, h2, h3⟩, fun ⟨h1, h2, h3⟩ => ⟨h1, h2, h3⟩⟩

/-- The `PP` frame of a checked WRITE_DATA lies in one page and in the array (rule R46 I-b). -/
theorem Checked.guarded {c : Config} {k : Controller} (h : Checked c k) (hok : k.ok = true) (hwp : k.wp = true) :
    Guarded c k.ok k.wp (ppFrame (wireAddr k.cursor) (dataBytes k.data k.lenl)) := by
  obtain ⟨hsome, hfits, hpage⟩ := h
  have hpos : 0 < k.lenl.toNat := by
    rcases Nat.eq_zero_or_pos k.lenl.toNat with h0 | h0
    · exact absurd (BitVec.eq_of_toNat_eq h0) hsome
    · exact h0
  have hsz := size_le c
  have haddr : (wireAddr k.cursor).toNat = k.cursor.toNat := by
    simp only [wireAddr, BitVec.extractLsb'_toNat, Nat.shiftRight_zero]
    omega
  have hlen : (dataBytes k.data k.lenl).length = k.lenl.toNat := by
    simp only [dataBytes, List.length_take, Vector.length_toList]
    omega
  refine ⟨fun _ => ⟨_, _, rfl, fun hnil => ?_, by rw [haddr, hlen]; exact hpage, by rw [haddr, hlen]; exact hfits,
    hok, hwp⟩, fun hf => by simp [ppFrame] at hf⟩
  rw [hnil] at hlen
  simp at hlen
  omega

/-- The cursor after a checked write is in range (rule R46 I-a). -/
theorem Checked.advanced {c : Config} {k : Controller} (h : Checked c k) :
    (advanced k.cursor k.lenl).toNat ≤ size c := by
  have hfits := h.fits
  have hsz := size_le c
  simp only [Machine.advanced, cursorOf, BitVec.toNat_ofNat]
  omega

/-- A `PP` frame on a present device goes out with its bytes, or the step faults (rules R155, R156). -/
theorem issuePp_sends (a : FlashAddr) (bytes : List Byte) (h : BusFree s) (hp : s.cfg.present = true) :
    (∃ u, issuePp a bytes s = .ok () u ∧ BusFree u ∧ u.cfg = s.cfg ∧ u.ctl = s.ctl ∧
      u.bus.wire = s.bus.wire ++ [ppFrame a bytes]) ∨
    ∃ f u, issuePp a bytes s = .error (.fault f) u := by
  have hpp := issuePp_present a bytes h.1 h.2 hp
  split at hpp
  · exact .inl ⟨_, hpp, ⟨rfl, by simpa [afterDraws] using h.2⟩, by simp [afterDraws], by simp [afterDraws],
      by simp [afterDraws]⟩
  · obtain ⟨u, hu⟩ := hpp
    exact .inr ⟨_, u, hu⟩

theorem writeReadyOp_leads (h : Running Plain w s) (hp : PollInv s.cfg s.ctl s.dev .writeReady) :
    Leads writeReadyOp s (Settled w) := by
  refine awaitReady_leads id_log h.guarded hp fun hready => (h.afterStatus.atLabel _).guarded.label fun hr =>
    .bind (ask_apply _) ?_
  obtain ⟨h1, h2, h3, hok, hwp⟩ := hp
  have hc : Checked s.cfg s.ctl := checked_iff.mpr ⟨h1, h2, h3⟩
  rcases issuePp_sends (wireAddr s.ctl.cursor) (dataBytes s.ctl.data s.ctl.lenl) hr.free hready.1 with
    ⟨u, hm, hfree, hcfg, hctl, hw⟩ | ⟨f, u, hm⟩
  · have hu := hr.sent hfree hcfg (by rw [hctl]) _ hw (by simpa using hc.guarded hok hwp)
    refine .bind hm (hu.label fun hu => .bind (delay_apply _ _) (hu.label fun hu => .bind (updCtl_apply _ _) ?_))
    have hcur : (advanced s.ctl.cursor s.ctl.lenl).toNat ≤ size u.cfg := by rw [hcfg]; exact hc.advanced
    have hend := hu.mapCtl (f := fun c => { c with cursor := advanced s.ctl.cursor s.ctl.lenl }) hcur
    refine Running.endWith ?_
    simp only [mapCtl_cfg, mapCtl_ctl, atLabel_cfg, atLabel_ctl, hcfg, hctl]
    exact hend
  · exact .fault hm

theorem Gated.writeReady (h : Gated s u true) (hp : PollInv s.cfg s.ctl s.dev .writeGate) (hwp : u.ctl.wp = true) :
    PollInv u.cfg u.ctl u.dev .writeReady := by
  have hlen : u.ctl.lenl = s.ctl.lenl := by rw [h.ctl]
  have hcur : u.ctl.cursor = s.ctl.cursor := by rw [h.ctl]
  obtain ⟨h1, h2, h3⟩ := hp
  refine ⟨?_, ?_, ?_, by rw [h.ctl], hwp⟩
  · rw [hlen]; exact h1
  · rw [h.cfg, hlen, hcur]; exact h2
  · rw [hlen, hcur]; exact h3

theorem writeGateOp_leads (h : Running Plain w s) (hp : PollInv s.cfg s.ctl s.dev .writeGate) :
    Leads writeGateOp s (Settled w) := by
  refine gate_leads h hp fun u ok hu hg => ?_
  cases ok with
  | false => exact hu.guarded.endWith
  | true =>
    refine hu.label fun hu => .bind (ask_apply _) ?_
    show Leads (if _ then _ else _) _ _
    split
    · next hwp => exact writeReadyOp_leads hu (hg.writeReady hp hwp)
    · exact hu.guarded.endWith

theorem writeDataOp_leads (h : Running Plain w s) : Leads writeDataOp s (Settled w) := by
  refine h.label fun h => .bind (ask_apply _) ?_
  show Leads (if _ then _ else if _ then _ else if _ then _ else _) _ _
  split
  · exact h.guarded.endWith
  · split
    · exact h.label fun h => h.updCtl rfl fun h => h.label fun h => .ok (halt_apply _ _) (h.guarded.ended _ (by simp))
    · split
      · exact h.label fun h => h.updCtl rfl fun h => h.guarded.endWith
      · next h1 h2 h3 => exact writeGateOp_leads h ⟨h1, by simpa using h2, by simpa using h3⟩

/-! ### DUMP_ALL -/

theorem plain_pageFrames (p n : Nat) : ∀ f ∈ pageFrames p n, Plain f := by
  intro f hf
  simp only [pageFrames, List.mem_flatMap, List.mem_cons, List.not_mem_nil, or_false] at hf
  obtain ⟨q, -, rfl | rfl⟩ := hf
  · exact plain_rdsr
  · exact plain_read _ _

/-- A dump that finds the device ready runs as if it had completed before (rule R127). -/
theorem dumpPages_deviceTurn {p n : Nat} (h : BusFree s) (hr : ReadyNext s) :
    dumpPages p (n + 1) s = dumpPages p (n + 1) (deviceTurn s) := by
  have ha := awaitReady_deviceTurn .dumpPoll (h.mapCtl fun c => { c with pidx := BitVec.ofNat 17 p }) (hr.mapCtl _)
  rw [deviceTurn_mapCtl] at ha
  rw [dumpPages, bind_ok (updCtl_apply _ _), bind_ok (updCtl_apply _ _), bind_apply, bind_apply, ha]

theorem dumpPages_leads {p n : Nat} (h : Running Plain w s) (hn : p + (n + 1) = npages s.cfg) :
    Leads (dumpPages p (n + 1)) s (Settled w) := by
  by_cases hr : ReadyNext s
  · have hfree : BusFree (deviceTurn s) := ⟨by simpa using h.free.1, by simpa using h.free.2⟩
    obtain ⟨t, hm, hcfg, hdue, hcs, hw, hctl, -⟩ :=
      dumpPages_spec hfree (by simpa using hr.1) hr.2 (by simpa using hn) (by simp)
    have ht : Running Plain w t := h.sent ⟨hcs, hdue⟩ (by simpa using hcfg) (by rw [hctl]; simp [finished])
      (pageFrames p (n + 1)) (by simpa using hw) (plain_pageFrames _ _)
    refine .ok ((dumpPages_deviceTurn h.free hr).trans hm) ⟨hcs, ht.cursor, fun he => ?_, ht.guarded.wire⟩
    rw [hctl] at he
    cases he
  · refine h.updCtl rfl fun h => awaitReady_leads id_log h.guarded ?_ fun hready => absurd ?_ hr
    · have hle := npages_le s.cfg
      simp only [PollInv, mapCtl_ctl, mapCtl_cfg, BitVec.toNat_ofNat]
      omega
    · simpa [ReadyNext] using hready

theorem dumpResumeOp_leads (h : Running Plain w s) (hp : PollInv s.cfg s.ctl s.dev .dumpPoll) :
    Leads dumpResumeOp s (Settled w) := by
  have hlt : s.ctl.pidx.toNat < npages s.cfg := hp
  obtain ⟨n, hn⟩ : ∃ n, npages s.cfg - s.ctl.pidx.toNat = n + 1 := ⟨npages s.cfg - s.ctl.pidx.toNat - 1, by omega⟩
  refine .bind (ask_apply _) ?_
  rw [hn]
  exact dumpPages_leads h (by omega)

theorem dumpAllOp_leads (h : Running Plain w s) : Leads dumpAllOp s (Settled w) := by
  obtain ⟨n, hn⟩ : ∃ n, npages s.cfg = n + 1 := ⟨npages s.cfg - 1, by have := npages_pos s.cfg; omega⟩
  refine h.label fun h => h.updCtl rfl fun h => .bind (ask_apply _) ?_
  simp only [mapCtl_cfg, atLabel_cfg, hn]
  exact dumpPages_leads h (by simp [hn])

/-! ### Every operation -/

theorem request_leads {i : Instr} {v : HostWord} {m : Act Unit} (hb : bodyOf i = .request v m)
    (h : Running Plain w s) : Leads m s (Settled w) := by
  cases i <;> cases hb
  case readId => exact readIdOp_leads h
  case readStatus => exact readStatusOp_leads h
  case awaitReady => exact awaitReadyOp_leads h
  case writeEnable => exact writeEnableOp_leads h
  case chipErase => exact chipEraseOp_leads h
  case scan => exact scanOp_leads h
  case writeData => exact writeDataOp_leads h
  case dumpAll => exact dumpAllOp_leads h

theorem resumeOp_leads {p : Poll} (h : Running Plain w s) (hp : PollInv s.cfg s.ctl s.dev p) :
    Leads (resumeOp p) s (Settled w) := by
  cases p with
  | awaitPoll => exact awaitReadyOp_leads h
  | enableGate => exact writeEnableOp_leads h
  | eraseGate => exact chipEraseOp_leads h
  | eraseWait => exact eraseWaitOp_leads h.guarded hp
  | scanPoll => exact scanOp_leads h
  | writeGate => exact writeGateOp_leads h hp
  | writeReady => exact writeReadyOp_leads h hp
  | dumpPoll => exact dumpResumeOp_leads h hp

/-- The state an operation starts from. -/
theorem Inv.running (h : Inv s) : Running Plain s.bus.wire s.unwatched :=
  ⟨⟨h.csReleased, rfl⟩, h.cursorInRange, [], by simp, by simp⟩

end Sys2Proof.Machine
end

section
/-!
Every step keeps the machine's invariant, and puts only guarded frames on the wire (spec/10_state.md rule R46). A
step that no reset cuts short is the step with no one looking (`Erasable.run_cases`), and a reset leaves the
reset values.
-/

namespace Sys2Proof.Machine

variable {s t u : State} {Q : State → Prop} {w : List (List Byte)}

/-! ### Where a step ends -/

theorem erasable_request {i : Instr} {v : HostWord} {m : Act Unit} (hb : bodyOf i = .request v m) : Erasable m := by
  have h := erasable_body i
  rwa [hb] at h

theorem erasable_frameBody {i : Instr} {m : Act Unit} (hb : bodyOf i = .frame m) : Erasable m := by
  have h := erasable_body i
  rwa [hb] at h

/-- Where a step ends that runs such an action: where it ends with no one looking, or where the reset that arrives
leaves it. -/
theorem Leads.run {m : Act Unit} (h : Leads m s.unwatched Q) (he : Erasable m) (ht : runAct m s = .next t) :
    Q t.unwatched ∨ (resetsDue t < resetsDue s ∧ t.ctl = Controller.reset ∧ t.bus.cs = false) := by
  rcases he.run_cases ht with ⟨-, hrun⟩ | ⟨hlt, u, -, hreset⟩
  · rcases runAct_next hrun with hm | hm | ⟨u, hm, -⟩
    · exact .inl (h _ (.inl hm))
    · exact .inl (h _ (.inr hm))
    · have hu := he s.unwatched
      rw [hm] at hu
      exact absurd hu (Nat.not_lt_zero _)
  · have hok := resetController_ok u trivial
    rw [hreset] at hok
    exact .inr ⟨hlt, hok⟩

/-- A frame that the environment drives writes no register but `LAST_SR` and closes. -/
theorem frame_leads (bytes : List Byte) (h : BusFree s) :
    Leads (frame bytes) s fun t => t.bus.cs = false ∧ t.ctl = { s.ctl with lastSr := t.ctl.lastSr } := by
  have hwire := frame_wire (w := s.bus.wire) bytes s ⟨h.1, rfl⟩
  have hbus := busOnly_frame bytes s
  unfold BusOnlyAt at hbus
  rintro t (hm | hm) <;> rw [hm] at hwire hbus
  · exact ⟨hwire.1, by rw [hbus.ctl]⟩
  · exact absurd rfl hbus.2.1

/-- See `frame_leads`. -/
theorem frameBody_leads {i : Instr} {m : Act Unit} (hb : bodyOf i = .frame m) (h : BusFree s) :
    Leads m s fun t => t.bus.cs = false ∧ t.ctl = { s.ctl with lastSr := t.ctl.lastSr } := by
  cases i <;> cases hb
  case rdid => rw [issueRdid_frame]; exact frame_leads _ h
  case wren => exact frame_leads _ h
  case ce => exact frame_leads _ h
  case read => rw [issueRead_frame]; exact frame_leads _ h
  case pp => rw [issuePp_frame]; exact frame_leads _ h
  case rdsr =>
    cases hp : s.cfg.present with
    | true => exact .bind (readStatus_seen h hp) (.ok (nop_apply _) ⟨rfl, rfl⟩)
    | false => exact .bind (readStatus_unseen h hp) (.ok (nop_apply _) ⟨rfl, rfl⟩)

theorem Inv.pop (h : Inv s) : Inv (popInbox s) := h.congr rfl rfl rfl rfl

/-- A request starts from a state where its operation may run. -/
theorem Inv.request (h : Inv s) (v : HostWord) :
    Running Plain s.bus.wire ((popInbox s).mapCtl (accepted v)).unwatched :=
  h.pop.running.mapCtl (f := accepted v) h.cursorInRange

/-- Between two operations the invariant asks nothing of a poll. -/
theorem Inv.of_idle (hd : DeviceInv t.cfg t.dev) (hcs : t.bus.cs = false) (hcur : t.ctl.cursor.toNat ≤ size t.cfg)
    (hseq : t.ctl.seq ≠ .exec) : Inv t := ⟨hcur, hcs, hd, fun he => absurd he hseq⟩

/-- See `Leads.run`. -/
theorem Inv.of_run {m : Act Unit} (hd : DeviceInv t.cfg t.dev) (he : Erasable m)
    (h : Leads m s.unwatched (Settled w)) (ht : runAct m s = .next t) : Inv t := by
  rcases h.run he ht with ⟨hcs, hcur, hpoll, -⟩ | ⟨-, hctl, hcs⟩
  · exact ⟨hcur, hcs, hd, hpoll⟩
  · exact .of_idle hd hcs (by simp [hctl, Controller.reset]) (by simp [hctl, Controller.reset])

/-- A frame that the environment drives keeps the invariant, cut by a reset or not. -/
theorem Inv.of_frame {m : Act Unit} (hs : Inv s) (idle : s.ctl.seq = .idle) (hcfg : t.cfg = s.cfg)
    (hd : DeviceInv t.cfg t.dev) (he : Erasable m)
    (h : Leads m (popInbox s).unwatched fun u => u.bus.cs = false ∧ u.ctl = { s.ctl with lastSr := u.ctl.lastSr })
    (ht : runAct m (popInbox s) = .next t) : Inv t := by
  rcases h.run he ht with ⟨hcs, hctl⟩ | ⟨-, hctl, hcs⟩
  · rw [unwatched_ctl] at hctl
    exact .of_idle hd hcs (by rw [hctl, hcfg]; exact hs.cursorInRange) (by rw [hctl]; simp [idle])
  · exact .of_idle hd hcs (by simp [hctl, Controller.reset]) (by simp [hctl, Controller.reset])

/-- The invariant as a step lemma: the device makes only moves of its own, each of which keeps its part. -/
theorem step_inv (h : Inv s) (ht : step s = .next t) : Inv t := by
  obtain ⟨hcfg, hreach⟩ := step_device ht
  have hd : DeviceInv t.cfg t.dev := hcfg ▸ hreach.keeps (fun _ _ m => .move m) h.device
  cases step_cases ht with
  | request i v m hb _ run => exact .of_run hd (erasable_request hb) (request_leads hb (h.request v)) run
  | illegal v _ run => exact .of_run hd (erasable_endWith _) (h.request v).guarded.endWith run
  | frame i m _ _ hb _ idle run =>
    exact h.of_frame idle hcfg hd (erasable_frameBody hb) (frameBody_leads hb h.pop.running.free) run
  | rawFrame _ bytes _ idle run =>
    exact h.of_frame idle hcfg hd (erasable_frame bytes) (frame_leads bytes h.pop.running.free) run
  | resume p busy mpc run =>
    obtain ⟨q, hq, hp⟩ := h.atPoll busy
    cases mpc.symm.trans hq
    exact .of_run hd (erasable_resumeOp p) (resumeOp_leads h.running hp) run
  | turn ht =>
    subst ht
    refine ⟨by simpa using h.cursorInRange, by simpa using h.csReleased, hd, fun he => ?_⟩
    rw [deviceTurn_ctl] at he ⊢
    obtain ⟨p, hmpc, hp⟩ := h.atPoll he
    exact ⟨p, hmpc, by rw [deviceTurn_cfg]; exact hp.deviceTurn⟩
  | reset _ _ run =>
    rw [resetController_released (by exact h.csReleased)] at run
    cases run
    exact .of_idle hd h.csReleased (Nat.zero_le _) (by simp [resetFields, Controller.reset])
  | data _ _ idle ht => subst ht; exact .of_idle hd h.csReleased h.cursorInRange (by simp [idle])
  | done busy ht =>
    subst ht
    refine ⟨h.cursorInRange, h.csReleased, hd, fun he => ?_⟩
    obtain ⟨p, hmpc, hp⟩ := h.atPoll he
    exact ⟨p, hmpc, hp.completed busy⟩
  | pop | read | due => subst_vars; exact h.congr rfl rfl rfl rfl

/-- Settles O50: the device's part is kept by each of its moves (`DeviceInv.move`), and each operation, followed
from a state with the bus free, leaves the controller's part (`request_leads`, `resumeOp_leads`). -/
theorem stepKeepsTheInvariant : Obligations.StepKeepsTheInvariant := fun _ _ h ht => step_inv h ht

/-- Settles O49: the launch state is idle, with an empty array and `CURSOR = 0`. -/
theorem resetMeetsTheInvariant : Obligations.ResetMeetsTheInvariant :=
  .of_idle ⟨reset_memWf, rfl, by decide, by simp [State.reset, State.launch, Device.quiet]⟩ rfl (by decide) (by decide)

/-! ### The frames on the wire -/

theorem newFrames_append {new : List (List Byte)} (h : t.bus.wire = s.bus.wire ++ new) : newFrames s t = new := by
  simp [newFrames, h]

theorem newFrames_same (h : t.bus = s.bus) : newFrames s t = [] := by
  simp [newFrames, h]

/-- With no reset due, the frames of a step that runs an operation are guarded. -/
theorem Leads.newFrames {m : Act Unit} (h : Leads m u.unwatched (Settled s.bus.wire)) (he : Erasable m)
    (hr : NoResetDue u) (ht : runAct m u = .next t) :
    ∀ f ∈ newFrames s t, Guarded t.cfg t.ctl.ok t.ctl.wp f := by
  rcases h.run he ht with ⟨-, -, -, new, hw, hnew⟩ | ⟨hlt, -⟩
  · rw [newFrames_append (t := t) hw]
    exact hnew
  · rw [noResetDue_iff.mp hr] at hlt
    exact absurd hlt (Nat.not_lt_zero _)

theorem step_newFrames (h : Inv s) (hd : NoDirectFrame s) (hr : NoResetDue s) (ht : step s = .next t) :
    ∀ f ∈ newFrames s t, Guarded t.cfg t.ctl.ok t.ctl.wp f := by
  have unsent : t.bus = s.bus → ∀ f ∈ newFrames s t, Guarded t.cfg t.ctl.ok t.ctl.wp f := fun hb => by
    simp [newFrames_same hb]
  cases step_cases ht with
  | request i v m hb _ run => exact (request_leads hb (h.request v)).newFrames (erasable_request hb) hr run
  | illegal v _ run => exact (h.request v).guarded.endWith.newFrames (erasable_endWith _) hr run
  | frame _ _ rest bytes _ inbox => exact absurd inbox (hd bytes rest)
  | rawFrame rest bytes inbox => exact absurd inbox (hd bytes rest)
  | resume p busy mpc run =>
    obtain ⟨q, hq, hp⟩ := h.atPoll busy
    cases mpc.symm.trans hq
    exact (resumeOp_leads h.running hp).newFrames (erasable_resumeOp p) hr run
  | turn ht => exact unsent (by simp [ht])
  | reset _ _ run =>
    rw [resetController_released (by exact h.csReleased)] at run
    cases run; exact unsent rfl
  | data | done | pop | read | due => subst_vars; exact unsent rfl

/-- Settles O52: each operation, followed from a state with the bus free, puts only guarded frames on the wire
(`step_newFrames`). -/
theorem wireCarriesOnlyGuardedWrites : Obligations.WireCarriesOnlyGuardedWrites := by
  intro s t h hd hr ht f hf
  have hcfg : t.cfg = s.cfg := (step_device ht).1
  rw [← hcfg]
  exact step_newFrames h hd hr ht f hf

end Sys2Proof.Machine
end

section
/-!
What comes from outside in the middle of a step: host reads change nothing, and see the operation in progress
(spec/10_state.md rule R33).
-/

namespace Sys2Proof.Machine

variable {C : Controller → Prop} {s t : State} {w : HostWord}

/-! ### Host reads change nothing -/

@[simp] theorem unwatchedOutcome_idem (o : Host.Outcome State Fault Refusal) :
    unwatchedOutcome (unwatchedOutcome o) = unwatchedOutcome o := by cases o <;> rfl

theorem afterReset_unwatched (s : State) : unwatchedOutcome (afterReset s) = afterReset s.unwatched := by
  have h : resetController s.unwatched = resultWatch [] [] (resetController s) := blind_resetController [] [] s
  have hx := resetController_exit s trivial
  unfold afterReset
  rw [h]
  cases hr : resetController s with
  | ok _ u => rfl
  | error e u => rw [hr] at hx; subst hx; rfl

theorem issueCode_unwatched (c : Code) (hn : NoResetDue s) :
    unwatchedOutcome (issueCode c s) = issueCode c s.unwatched := by
  cases c with
  | word v =>
    simp only [issueCode]
    split
    · exact exec_unwatched _ hn
    · exact request_unwatched (erasable_endWith _) hn
  | frame bytes =>
    simp only [issueCode]
    by_cases hs : s.ctl.seq = .idle
    · rw [if_pos hs, if_pos (c := s.unwatched.ctl.seq = .idle) hs]
      split
      · exact exec_unwatched _ hn
      · exact putFrame_unwatched (erasable_frame bytes) hn
    · rw [if_neg hs, if_neg (c := s.unwatched.ctl.seq = .idle) hs]
      rfl

theorem hostWrite_unwatched (r : HostReg) (v : BitVec 32) (hn : NoResetDue s) :
    unwatchedOutcome (hostWrite r v s) = hostWrite r v s.unwatched := by
  cases r with
  | cmd => exact issueCode_unwatched (.word v) hn
  | data i => by_cases hs : s.ctl.seq = .idle <;> simp [hostWrite, hs, unwatchedOutcome]
  | ctrlstat | result | cursor | idreg | lastSr | checksum => rfl

/-- A step with no reset due is the step taken with no one looking, but for what is due and was seen. -/
theorem step_unwatched (hn : NoResetDue s) : unwatchedOutcome (step s) = unwatchedOutcome (step s.unwatched) := by
  have hturn : unwatchedOutcome (machineTurn s) = unwatchedOutcome (machineTurn s.unwatched) := by
    rw [← machineTurn_unwatched hn, unwatchedOutcome_idem]
  simp only [step, moveStep, unwatched_inbox]
  cases s.env.inbox with
  | nil => exact hturn
  | cons m rest =>
    cases m with
    | issue c =>
      simp only
      rw [← unwatched_popInbox, ← issueCode_unwatched (s := popInbox s) c hn, unwatchedOutcome_idem]
    | wait =>
      by_cases hs : s.ctl.seq = .exec
      · simpa only [unwatched_ctl, hs, if_true] using hturn
      · simp [hs, unwatchedOutcome]
    | deviceDone => cases hb : s.dev.dbusy <;> simp [hb, unwatchedOutcome, ← unwatched_popInbox]; rfl
    | writeReg r v =>
      simp only
      rw [← unwatched_popInbox, ← hostWrite_unwatched (s := popInbox s) r v hn, unwatchedOutcome_idem]
    | reset =>
      simp only
      rw [← unwatched_popInbox, ← afterReset_unwatched, unwatchedOutcome_idem]
    | readReg | readAfter | resetAfter => rfl

/-- Settles O58: every piece of pseudocode runs as it does with no one looking (`exec_unwatched`), and so does
every step (`step_unwatched`). -/
theorem hostReadsChangeNothing : Obligations.HostReadsChangeNothing :=
  ⟨fun i _ hn => exec_unwatched i hn, fun _ hn => step_unwatched hn⟩

/-! ### A read due at once is served at the first label -/

/-- The state after one read that was due at once. -/
def served (r : HostReg) (rest : List Due) (s : State) : State :=
  s.mapEnv fun e => { e with due := rest, seen := e.seen ++ [(r, hostRead r s.ctl)] }

/-- A read due at once is served before anything else but hidden registers is touched. -/
def ServesFirst {α : Type} (m : Act α) : Prop :=
  ∀ s r rest, s.env.due = ⟨0, .read r⟩ :: rest → m s = m (served r rest s)

section
variable {α β : Type}

theorem ServesFirst.bind {m : Act α} {f : α → Act β} (h : ServesFirst m) : ServesFirst (m >>= f) := by
  intro s r rest hd
  rw [bind_apply, bind_apply, h s r rest hd]

theorem servesFirst_tick : ServesFirst tick := by
  intro s r rest hd
  simp only [tick, hd, served, serve, mapEnv_env]

/-- An update of a register that the host cannot read may come before. -/
theorem ServesFirst.updCtl {g : Controller → Controller} {f : Unit → Act β}
    (hg : ∀ r c, hostRead r (g c) = hostRead r c) (h : ServesFirst (f ())) : ServesFirst (Machine.updCtl g >>= f) := by
  intro s r rest hd
  have hm := h (s.mapCtl g) r rest hd
  rw [bind_ok (updCtl_apply g s), hm, bind_ok (updCtl_apply g _)]
  simp only [served, mapCtl_ctl, hg]
  rfl

theorem servesFirst_label (p : MicroPos) : ServesFirst (label p) :=
  .updCtl (fun r _ => by cases r <;> rfl) servesFirst_tick

theorem servesFirst_awaitReady (here : Poll) (m : Act Unit) : ServesFirst (awaitReady here m) :=
  (servesFirst_label _).bind

theorem servesFirst_gate (here : Poll) : ServesFirst (gate here) := (servesFirst_awaitReady _ _).bind

theorem servesFirst_dumpPages (p n : Nat) : ServesFirst (dumpPages p n) := by
  cases n with
  | zero => exact (servesFirst_label _).bind
  | succ n => exact .updCtl (fun r _ => by cases r <;> rfl) (servesFirst_awaitReady _ _).bind

theorem servesFirst_endWith (code : Byte) : ServesFirst (endWith code) := (servesFirst_label _).bind

theorem servesFirst_request {i : Instr} {m : Act Unit} (hb : bodyOf i = .request w m) : ServesFirst m := by
  cases i <;> cases hb
  case readId => exact (servesFirst_label _).bind
  case readStatus => exact (servesFirst_label _).bind
  case awaitReady => exact (servesFirst_awaitReady _ _).bind
  case writeEnable => exact (servesFirst_gate _).bind
  case chipErase => exact (servesFirst_gate _).bind
  case scan => exact (servesFirst_awaitReady _ _).bind
  case writeData => exact (servesFirst_label _).bind
  case dumpAll => exact (servesFirst_label _).bind

theorem servesFirst_resumeOp (p : Poll) : ServesFirst (resumeOp p) := by
  cases p with
  | awaitPoll => exact (servesFirst_awaitReady _ _).bind
  | enableGate => exact (servesFirst_gate _).bind
  | eraseGate => exact (servesFirst_gate _).bind
  | eraseWait => exact (servesFirst_awaitReady _ _).bind
  | scanPoll => exact (servesFirst_awaitReady _ _).bind
  | writeGate => exact (servesFirst_gate _).bind
  | writeReady => exact (servesFirst_awaitReady _ _).bind
  | dumpPoll => exact fun s r rest hd => servesFirst_dumpPages _ _ s r rest hd

end

/-! ### What a read inside an operation sees -/

/-- The bits of `CTRLSTAT` that show `SEQ` (rule R24). -/
theorem ctrlstat_seq (c : Controller) : (ctrlstat c).extractLsb' 0 2 = c.seq.bits := by
  apply BitVec.eq_of_getLsbD_eq
  intro i hi
  simp only [ctrlstat, BitVec.getLsbD_extractLsb', BitVec.getLsbD_append]
  simp [hi]

/-- The registers while the request `w` is in progress: `SEQ = EXEC`, the request in `CMD`, and `RESULT` and
`DATA` as they stand in `k0` (rule R33). -/
def InProgress (w : HostWord) (k0 k : Controller) : Prop :=
  k.seq = .exec ∧ k.cmd = w ∧ k.result = k0.result ∧ k.data = k0.data

theorem stable_inProgress (w : HostWord) (k0 : Controller) : Stable (InProgress w k0) := by
  refine .of ?_ ?_ ?_ ?_ ?_ ?_ ?_ ?_ ?_ <;> intros <;> assumption

theorem allows_inProgress (w : HostWord) (k0 : Controller) (i : Instr) : Allows (InProgress w k0) i := by
  constructor <;> intros <;> assumption

/-- The operation's end is not seen from inside it. -/
theorem ends_any (C : Controller → Prop) : Ends C fun _ => True := fun _ _ _ _ => trivial

/-- What the host reads while the request `w` is in progress, with `RESULT` and `DATA` as in `k0`. -/
def Shows (x : HostReg × BitVec 32) (k0 : Controller) (w : HostWord) : Prop :=
  (x.1 = .ctrlstat → x.2.extractLsb' 0 2 = 1) ∧ (x.1 = .cmd → x.2 = w) ∧
    (x.1 = .result → x.2 = k0.result.setWidth 32) ∧ ∀ j : Fin 256, x.1 = .data j → x.2 = k0.data[j].setWidth 32

theorem InProgress.shows {k0 k : Controller} (h : InProgress w k0 k) {x : HostReg × BitVec 32}
    (hx : x.2 = hostRead x.1 k) : Shows x k0 w := by
  obtain ⟨hseq, hcmd, hresult, hdata⟩ := h
  unfold Shows
  rw [hx]
  refine ⟨fun hr => ?_, fun hr => ?_, fun hr => ?_, fun j hr => ?_⟩ <;> rw [hr]
  · have hbits : ((ctrlstat k).setWidth 32).extractLsb' 0 2 = (ctrlstat k).extractLsb' 0 2 := by
      apply BitVec.eq_of_getLsbD_eq
      intro i hi
      simp [hi, show i < 32 by omega]
    rw [hostRead, hbits, ctrlstat_seq, hseq]
    rfl
  · exact hcmd
  · exact congrArg (BitVec.setWidth 32) hresult
  · simp only [hostRead, hdata]

/-- Every read in a step that runs an operation in progress shows it, and one that was due at once is among them,
whether or not a reset then arrives. -/
theorem Keeps.run_shows {k0 : Controller} {m : Act Unit} (h : Keeps (InProgress w k0) (fun _ => True) False m)
    (hf : ServesFirst m) (hc : InProgress w k0 s.ctl) (ht : runAct m s = .next t) :
    ∃ new, t.env.seen = s.env.seen ++ new ∧ (∀ x ∈ new, Shows x k0 w) ∧
      ∀ r rest, s.env.due = ⟨0, .read r⟩ :: rest → (r, hostRead r s.ctl) ∈ new := by
  have shows : ∀ {u}, SeenIn (InProgress w k0) u t → ∃ new, t.env.seen = u.env.seen ++ new ∧ ∀ x ∈ new, Shows x k0 w :=
    fun ⟨new, hseen, hnew⟩ => ⟨new, hseen, fun x hx => let ⟨_, hk, hv⟩ := hnew x hx; hk.shows hv⟩
  by_cases hd : ∃ r rest, s.env.due = ⟨0, .read r⟩ :: rest
  · obtain ⟨r, rest, hd⟩ := hd
    have hrun : runAct m (served r rest s) = .next t := by rw [← ht, runAct, runAct, hf s r rest hd]
    obtain ⟨new, hseen, hnew⟩ := shows (h.run_seen (s := served r rest s) hc hrun)
    refine ⟨(r, hostRead r s.ctl) :: new, by simp [hseen, served], ?_, fun r' rest' hd' => ?_⟩
    · exact List.forall_mem_cons.mpr ⟨hc.shows rfl, hnew⟩
    · rw [hd] at hd'
      cases hd'
      exact List.mem_cons_self
  · obtain ⟨new, hseen, hnew⟩ := shows (h.run_seen hc ht)
    exact ⟨new, hseen, hnew, fun r rest hd' => absurd ⟨r, rest, hd'⟩ hd⟩

/-- A request word that decodes is the word of the operation it decodes to (rules R92, R95). -/
theorem bodyOf_decode {i : Instr} (h : decode (.word w) = .ok i) : ∃ m, bodyOf i = .request w m := by
  have hand : w &&& 0xFFFFFFFF = w := BitVec.and_allOnes
  simp only [decode, decodeHost] at h
  split at h
  · next row hrow =>
    cases h
    have hmem := List.mem_of_find?_eq_some hrow
    have hval : w &&& row.mask = row.value := by simpa using List.find?_some hrow
    simp only [hostRows, List.mem_cons, List.not_mem_nil, or_false] at hmem
    rcases hmem with rfl | rfl | rfl | rfl | rfl | rfl | rfl | rfl
    case inr.inr.inr.inr.inr.inr.inl => exact ⟨_, congrArg (Body.request · _) ((writeData_mask w).mp hval).symm⟩
    all_goals
      rw [hand] at hval
      subst hval
      exact ⟨_, rfl⟩
  · cases h

theorem bodyOf_encode {i : Instr} (h : encode i = .word w) : ∃ m, bodyOf i = .request w m := by
  cases i <;> cases h <;> exact ⟨_, rfl⟩

/-- What is issued as a request word runs an operation's pseudocode, or ends at once (rules R95, R309). -/
theorem issueCode_word (w : HostWord) (s : State) : ∃ m, issueCode (.word w) s = request w m s ∧
    ((∃ i, bodyOf i = .request w m) ∨ m = endWith resIllegalOp) := by
  simp only [issueCode]
  split
  · next i hd =>
    obtain ⟨m, hb⟩ := bodyOf_decode hd
    exact ⟨m, by rw [exec_body, hb], .inl ⟨i, hb⟩⟩
  · exact ⟨_, rfl, .inr rfl⟩

/-- The step that takes a request word, issued or written to `CMD` (rule R33). -/
theorem step_word {moves : List Input}
    (h : s.env.inbox = .issue (.word w) :: moves ∨ s.env.inbox = .writeReg .cmd w :: moves) :
    step s = issueCode (.word w) (popInbox s) := by
  rcases h with h | h <;> simp only [step, moveStep, h, hostWrite]

/-- The step that resumes an operation at its ready-wait, with the host waiting or not (rules R106, R182). -/
theorem step_resume {p : Poll} (busy : s.ctl.seq = .exec) (mpc : s.ctl.mpc = some (.poll p))
    (h : s.env.inbox = [] ∨ ∃ rest, s.env.inbox = .wait :: rest) : step s = runAct (resumeOp p) s := by
  rcases h with h | ⟨rest, h⟩ <;> simp [step, moveStep, h, machineTurn, busy, mpc]

theorem request_shows {m : Act Unit} (h : Keeps (InProgress w s.ctl) (fun _ => True) False m) (hf : ServesFirst m)
    (ht : request w m s = .next t) :
    ∃ new, t.env.seen = s.env.seen ++ new ∧ (∀ x ∈ new, Shows x s.ctl w) ∧
      ∀ r rest, s.env.due = ⟨0, .read r⟩ :: rest → (r, hostRead r (accepted w s.ctl)) ∈ new :=
  h.run_shows (s := s.mapCtl (accepted w)) hf ⟨rfl, rfl, rfl, rfl⟩ (request_next ht).2

/-- Settles O59: while an operation runs its registers stay `InProgress`, which is what its reads show
(`InProgress.shows`), and a read due at once is served first (`Keeps.run_shows`). -/
theorem readsInsideAnOperationSeeIt : Obligations.ReadsInsideAnOperationSeeIt := by
  have hrequest : ∀ {i w m} k0, bodyOf i = .request w m → Keeps (InProgress w k0) (fun _ => True) False m :=
    fun k0 hb => keeps_request (stable_inProgress _ k0) (ends_any _) (allows_inProgress _ k0 _) hb
  refine ⟨fun s t i w he ht => ?_, fun s t w moves hin ht => ?_, fun s t p busy mpc hin ht => ?_⟩
  · obtain ⟨m, hb⟩ := bodyOf_encode he
    rw [exec_body, hb] at ht
    exact request_shows (hrequest s.ctl hb) (servesFirst_request hb) ht
  · obtain ⟨m, hm, ⟨i, hb⟩ | rfl⟩ := issueCode_word w (popInbox s)
    · rw [step_word hin, hm] at ht
      exact request_shows (s := popInbox s) (hrequest s.ctl hb) (servesFirst_request hb) ht
    · rw [step_word hin, hm] at ht
      exact request_shows (s := popInbox s) (keeps_endWith (stable_inProgress w s.ctl).toPolls (ends_any _) _)
        (servesFirst_endWith _) ht
  · rw [step_resume busy mpc hin] at ht
    have hkeeps : Keeps (InProgress s.ctl.cmd s.ctl) (fun _ => True) False (resumeOp p) :=
      keeps_resumeOp (stable_inProgress _ _) (ends_any _) (fun _ _ _ h => h) (fun _ _ _ h => h) fun _ _ h => h
    exact hkeeps.run_shows (servesFirst_resumeOp p) ⟨busy, rfl, rfl, rfl⟩ ht

end Sys2Proof.Machine
end

section
/-!
Who writes which register: the registers each operation is given (spec/10_state.md rules R21 to R31, R45), the
permission to write (rule R27), the event stream (rule R35), and the reset (rule R43).
-/

namespace Sys2Proof.Machine

variable {C D : Controller → Prop} {s t : State} {w : HostWord} {k0 : Controller}

/-! ### The permission to write -/

/-- What a triple says of the registers alone. -/
theorem Keeps.triple {α : Type} {m : Act α} (h : Keeps C D False m) :
    Triple (fun s => C s.ctl) m (fun _ s => D s.ctl) (fun _ s => C s.ctl) := by
  intro s hs
  have hm := h s s (.refl hs fun hf => hf.elim)
  cases hr : m s <;> rw [hr] at hm
  · exact hm.ctl
  · exact hm.1.ctl

theorem keeps_scanSearch {b : Prop} (S : Stable C) : Keeps C C b scanSearch :=
  .bind (keeps_awaitReady S.toPolls _ .nop) fun _ => .bind (keeps_label S.toPolls _) fun _ =>
    .bind (.bus (busOnly_openRead _)) fun _ => .bind (.updCtl fun c h => S.addr _ 0 (S.run c 0 h)) fun _ =>
      .bind .ask fun _ => .bind (keeps_scanStream S _) fun _ => .bind (keeps_label S.toPolls _) fun _ =>
        .bind (.bus busOnly_deselect) fun _ => .pure _

/-- `Finish` at its label does not wait. -/
theorem endWith_finishes (S : ∀ c v, C c → C { c with mpc := v }) (code : Byte) :
    Triple (fun s => C s.ctl) (endWith code) (fun _ s => ∃ k, C k ∧ s.ctl = finished code k)
      (fun e _ => e ≠ .suspended) := by
  have htick : Triple (fun s => C s.ctl) tick (fun _ s => C s.ctl) (fun e _ => e ≠ .suspended) :=
    busOnly_tick.triple (fun _ _ hu hs => by rw [hu.ctl]; exact hs) fun _ _ _ _ _ he _ => he
  exact .bind (.bind (Q := fun _ s => C s.ctl) (.updCtl _ fun s hs => S s.ctl _ hs) fun _ => htick) fun _ =>
    .updCtl _ fun s hs => ⟨s.ctl, hs, rfl⟩

/-- `WP` is set only at the end of a request `w` that ended with `OK`. -/
def Permitted (w : HostWord) (k : Controller) : Prop :=
  k.wp = true → k.seq = .idle ∧ k.result = 0x00 ∧ k.cmd = w

/-- The request `w` is in progress with `WP` clear. -/
def NotPermitted (w : HostWord) (k : Controller) : Prop := k.wp = false ∧ k.cmd = w

theorem NotPermitted.permitted {k : Controller} (h : NotPermitted w k) : Permitted w k :=
  fun hwp => absurd hwp (by simp [h.1])

theorem stable_notPermitted (w : HostWord) : Stable (NotPermitted w) := by
  refine .of ?_ ?_ ?_ ?_ (fun _ h => ⟨rfl, h.2⟩) ?_ ?_ ?_ ?_ <;> intros <;> assumption

/-- SCAN sets `WP` only after its last busy poll, and then ends with `OK` (rule R229). -/
theorem scanOp_permits (w : HostWord) : Triple (fun s => NotPermitted w s.ctl) scanOp (fun _ s => Permitted w s.ctl)
    (fun e s => e = .suspended → Permitted w s.ctl) := by
  have S := stable_notPermitted w
  have keeps : ∀ {α : Type} {m : Act α}, Keeps (NotPermitted w) (NotPermitted w) False m →
      Triple (fun s => NotPermitted w s.ctl) m (fun _ s => NotPermitted w s.ctl)
        (fun e s => e = .suspended → Permitted w s.ctl) :=
    fun h => h.triple.conseq (fun _ h => h) (fun _ _ h => h) fun _ _ h _ => h.permitted
  rw [scanOp_eq]
  refine .bind (keeps (keeps_scanSearch S)) fun found => ?_
  cases found with
  | true =>
    refine .bind (keeps (keeps_label S.toPolls _)) fun _ => .bind (keeps (.updCtl fun _ h => h)) fun _ =>
      .bind (keeps (keeps_label S.toPolls _)) fun _ => .bind (Q := fun _ s => s.ctl.cmd = w) (.updCtl _ fun _ h => h.2)
        fun _ => ?_
    refine (endWith_finishes (C := fun k => k.cmd = w) (fun _ _ h => h) _).conseq (fun _ h => h) ?_
      fun _ _ he hs => absurd hs he
    rintro _ s ⟨k, hk, hctl⟩ -
    rw [hctl]
    exact ⟨rfl, rfl, hk⟩
  | false =>
    refine (keeps ?_).conseq (fun _ h => h) (fun _ _ h => h.permitted) fun _ _ h => h
    exact .bind (keeps_label S.toPolls _) fun _ => .bind (keeps_emit S.toPolls _) fun _ =>
      .bind (keeps_label S.toPolls _) fun _ => .bind (.updCtl fun c h => S.wpOff c h) fun _ =>
        keeps_endWith S.toPolls (fun _ _ _ h => h) _

/-- A step that runs SCAN, by request or resumed. -/
theorem scan_permits (hk : NotPermitted w s.ctl) (ht : runAct scanOp s = .next t) : Permitted w t.ctl :=
  runAct_triple (Q := fun u => Permitted w u.ctl) (R := fun _ => True)
    ((scanOp_permits w).conseq (fun _ h => h) (fun _ _ h => h) fun _ _ h => ⟨h, fun _ => trivial⟩)
    (resetController_ok.conseq (fun _ h => h) (fun _ _ h => by rw [h.1]; intro hwp; cases hwp) fun _ _ h => h) hk ht

/-- `WP` is clear. -/
def WpClear (k : Controller) : Prop := k.wp = false

theorem stable_wpClear : Stable WpClear := by
  refine .of ?_ ?_ ?_ ?_ (fun _ _ => rfl) ?_ ?_ ?_ ?_ <;> intros <;> assumption

theorem ends_wpClear : Ends WpClear WpClear := fun _ _ _ h => h

theorem allows_wpClear {i : Instr} (hi : i ≠ .scan) : Allows WpClear i := by
  constructor <;> intro h
  case permit => exact absurd h hi
  all_goals intros; assumption

/-- A step that runs anything but SCAN does not set `WP`. -/
theorem Keeps.wp_clear {m : Act Unit} (h : Keeps WpClear WpClear False m) (hc : s.ctl.wp = false)
    (ht : runAct m s = .next t) : t.ctl.wp = false := by
  rcases h.run_or_reset hc ht with hwp | hctl
  · exact hwp
  · rw [hctl]; rfl

/-- A step that sets `WP` ran SCAN to `OK`. -/
theorem step_permits (ht : step s = .next t) (hwp : s.ctl.wp = false) : t.ctl.wp = false ∨
    ∃ w, Permitted w t.ctl ∧
      (s.ctl.seq = .exec ∧ s.ctl.mpc = some (.poll .scanPoll) ∨ s.ctl.seq = .idle ∧ w = 0x00000006) := by
  cases step_cases ht with
  | request i v m hb idle run =>
    by_cases hi : i = .scan
    · subst hi
      cases hb
      have hperm := scan_permits (s := (popInbox s).mapCtl (accepted (hostWord 0x06 0))) ⟨hwp, rfl⟩ run
      exact .inr ⟨hostWord 0x06 0, hperm, .inr ⟨idle, by decide⟩⟩
    · exact .inl ((keeps_request stable_wpClear ends_wpClear (allows_wpClear hi) hb).wp_clear
        (s := (popInbox s).mapCtl (accepted v)) hwp run)
  | illegal v _ run =>
    exact .inl ((keeps_endWith stable_wpClear.toPolls ends_wpClear _).wp_clear
      (s := (popInbox s).mapCtl (accepted v)) hwp run)
  | frame i m _ _ hb _ _ run =>
    exact .inl ((keeps_frameBody stable_wpClear.lastSr hb).wp_clear (s := popInbox s) hwp run)
  | rawFrame _ bytes _ _ run => exact .inl ((Keeps.bus (busOnly_frame bytes)).wp_clear (s := popInbox s) hwp run)
  | resume p busy mpc run =>
    by_cases hp : p = .scanPoll
    · subst hp
      exact .inr ⟨_, scan_permits ⟨hwp, rfl⟩ run, .inl ⟨busy, mpc⟩⟩
    · exact .inl ((keeps_resumeOp stable_wpClear ends_wpClear (fun _ _ _ h => h) (fun _ _ _ h => h)
        fun h => absurd h hp).wp_clear hwp run)
  | turn ht => exact .inl (by simpa [ht] using hwp)
  | reset _ _ run =>
    have hr := resetController_ok (popInbox s) trivial
    rw [run] at hr
    exact .inl (by rw [hr.1]; rfl)
  | data | done | pop | read | due => subst_vars; exact .inl hwp

/-- Settles O54: SCAN sets `WP` only on its way to `OK` (`scanOp_permits`), and nothing else sets it
(`step_permits`). -/
theorem onlyASuccessfulScanPermitsWrites : Obligations.OnlyASuccessfulScanPermitsWrites := by
  intro s t ht hs hwp
  rcases step_permits ht hs with hclear | ⟨w, hperm, hran⟩
  · rw [hwp] at hclear; cases hclear
  · obtain ⟨hseq, hresult, hcmd⟩ := hperm hwp
    exact ⟨hseq, hresult, hran.imp id fun h => ⟨h.1, hcmd.trans h.2⟩⟩

/-! ### The event stream -/

/-- The event stream is `log` with events added at its end. -/
def LogGrows (log : List Event) (k : Controller) : Prop := ∃ new, k.log = log ++ new

theorem stable_logGrows (log : List Event) : Stable (LogGrows log) := by
  refine .of ?_ ?_ (fun c e ⟨new, h⟩ => ⟨new ++ [e], by simp [h]⟩) ?_ ?_ ?_ ?_ ?_ ?_ <;> intros <;> assumption

theorem allows_logGrows (log : List Event) (i : Instr) : Allows (LogGrows log) i := by
  constructor <;> intros <;> assumption

theorem step_logGrows (hr : NoResetDue s) (hin : ∀ rest, s.env.inbox ≠ .reset :: rest) (ht : step s = .next t) :
    LogGrows s.ctl.log t.ctl := by
  have S := stable_logGrows s.ctl.log
  have Z : Ends (LogGrows s.ctl.log) (LogGrows s.ctl.log) := fun _ _ _ h => h
  have hs : LogGrows s.ctl.log s.ctl := ⟨[], by simp⟩
  cases step_cases ht with
  | request i v m hb _ run =>
    exact (keeps_request S Z (allows_logGrows _ i) hb).run (s := (popInbox s).mapCtl (accepted v)) hr hs run
  | illegal v _ run => exact (keeps_endWith S.toPolls Z _).run (s := (popInbox s).mapCtl (accepted v)) hr hs run
  | frame i m _ _ hb _ _ run => exact (keeps_frameBody S.lastSr hb).run (s := popInbox s) hr hs run
  | rawFrame _ bytes _ _ run => exact (Keeps.bus (busOnly_frame bytes)).run (s := popInbox s) hr hs run
  | resume p _ _ run =>
    exact (keeps_resumeOp S Z (fun _ _ _ h => h) (fun _ _ _ h => h) fun _ _ h => h).run hr hs run
  | turn ht => simpa [ht] using hs
  | reset rest inbox => exact absurd inbox (hin rest)
  | data | done | pop | read | due => subst_vars; exact hs

/-- Settles O55: every update of the registers leaves the event stream or adds at its end (`stable_logGrows`). -/
theorem theEventStreamOnlyGrows : Obligations.TheEventStreamOnlyGrows :=
  fun _ _ hr hin ht => step_logGrows hr hin ht

/-! ### The registers an operation is given -/

/-- The registers beside those that the instruction `i` is given are as in `k0` (rules R22, R26 to R28, R30, R31,
R45). -/
structure WritesOnly (i : Instr) (k0 k : Controller) : Prop where
  data     : k.data = k0.data
  identity : i ≠ .readId → k.idreg = k0.idreg ∧ k.idv = k0.idv ∧ k.idmm = k0.idmm
  checksum : i ≠ .dumpAll → k.checksum = k0.checksum
  cursor   : i ≠ .scan → (∀ len, i ≠ .writeData len) → k.cursor = k0.cursor
  wp       : i ≠ .scan → k.wp = true → k0.wp = true

theorem WritesOnly.refl (i : Instr) (k : Controller) : WritesOnly i k k :=
  ⟨rfl, fun _ => ⟨rfl, rfl, rfl⟩, fun _ => rfl, fun _ _ => rfl, fun _ h => h⟩

theorem stable_writesOnly (i : Instr) (k0 : Controller) : Stable (WritesOnly i k0) := by
  refine .of ?_ ?_ ?_ ?_ (fun c h => { h with wp := fun _ hwp => by cases hwp }) ?_ ?_ ?_ ?_
  all_goals exact fun _ _ ⟨h1, h2, h3, h4, h5⟩ => ⟨h1, h2, h3, h4, h5⟩

theorem ends_writesOnly (i : Instr) (k0 : Controller) : Ends (WritesOnly i k0) (WritesOnly i k0) :=
  fun _ _ _ ⟨h1, h2, h3, h4, h5⟩ => ⟨h1, h2, h3, h4, h5⟩

/-- An instruction may write the registers it is given. -/
theorem allows_writesOnly (i : Instr) (k0 : Controller) : Allows (WritesOnly i k0) i where
  idreg hi _ _ h := { h with identity := fun hn => absurd hi hn }
  idv hi _ h := { h with identity := fun hn => absurd hi hn }
  idmm hi _ _ h := { h with identity := fun hn => absurd hi hn }
  checksum hi _ _ h := { h with checksum := fun hn => absurd hi hn }
  permit hi _ h := { h with wp := fun hn => absurd hi hn }
  cursor hi _ _ h :=
    { h with cursor := fun hs hw => hi.elim (fun hi => absurd hi hs) fun ⟨len, hi⟩ => absurd hi (hw len) }

theorem exec_writesOnly {i : Instr} (hr : NoResetDue s) (ht : exec i s = .next t) : WritesOnly i s.ctl t.ctl := by
  have ⟨h1, h2, h3, h4, h5⟩ := WritesOnly.refl i s.ctl
  exact exec_keeps (stable_writesOnly i s.ctl) (ends_writesOnly i s.ctl) (allows_writesOnly i s.ctl) hr (.refl _ _)
    (fun _ => ⟨h1, h2, h3, h4, h5⟩) ht

/-- A frame instruction writes no register but `LAST_SR`. -/
theorem exec_frame_lastSr {i : Instr} (hi : i.isHostOp = false) (hr : NoResetDue s) (ht : exec i s = .next t) :
    t.ctl = { s.ctl with lastSr := t.ctl.lastSr } := by
  obtain ⟨m, hb⟩ : ∃ m, bodyOf i = .frame m := by cases i <;> cases hi <;> exact ⟨_, rfl⟩
  rw [exec_body, hb] at ht
  refine (keeps_frameBody (C := fun k => k = { s.ctl with lastSr := k.lastSr }) (fun k v h => ?_) hb).run hr rfl
    (putFrame_next ht).2
  rw [h]

/-- A frame instruction other than RDSR writes no register (log entry 13). -/
theorem exec_frame_ctl {i : Instr} (hi : i.isHostOp = false) (hrdsr : i ≠ .rdsr) (hr : NoResetDue s)
    (ht : exec i s = .next t) : t.ctl = s.ctl := by
  obtain ⟨bytes, he⟩ : ∃ bytes, encode i = .frame bytes := by cases i <;> cases hi <;> exact ⟨_, rfl⟩
  rw [exec_frame he hrdsr] at ht
  exact (Keeps.bus (C := (· = s.ctl)) (busOnly_frame bytes)).run hr rfl (putFrame_next ht).2

/-- The request is latched: `CMD`, `OPL` and `LENL` are as in `k0` (rules R23, R32). -/
def Latched (k0 k : Controller) : Prop := k.cmd = k0.cmd ∧ k.opl = k0.opl ∧ k.lenl = k0.lenl

theorem stable_latched (k0 : Controller) : Stable (Latched k0) := by
  refine .of ?_ ?_ ?_ ?_ ?_ ?_ ?_ ?_ ?_ <;> intros <;> assumption

/-- An operation resumed at a poll writes only the registers that its instruction is given, and keeps its request. -/
theorem resume_writesOnly {p : Poll} (hr : NoResetDue s) (ht : runAct (resumeOp p) s = .next t) :
    WritesOnly (ownerOf s.ctl p) s.ctl t.ctl ∧ Latched s.ctl t.ctl := by
  have A := allows_writesOnly (ownerOf s.ctl p) s.ctl
  constructor
  · refine (keeps_resumeOp (stable_writesOnly _ s.ctl) (ends_writesOnly _ s.ctl) ?_ ?_ ?_).run hr (.refl _ _) ht
    · rintro rfl; exact A.checksum rfl
    · rintro (rfl | rfl | rfl)
      · exact A.cursor (.inl rfl)
      · exact A.cursor (.inr ⟨_, rfl⟩)
      · exact A.cursor (.inr ⟨_, rfl⟩)
    · rintro rfl; exact A.permit rfl
  · exact (keeps_resumeOp (stable_latched s.ctl) (fun _ _ _ h => h) (fun _ _ _ h => h) (fun _ _ _ h => h)
      fun _ _ h => h).run hr ⟨rfl, rfl, rfl⟩ ht

/-- With no operation in progress, a step that takes no request, no reset and no write to `DATA` writes no register
(rules R22, R24). -/
theorem step_idle_ctl (hx : s.ctl.seq ≠ .exec)
    (hq : ∀ m rest, s.env.inbox = m :: rest → m.isRequest = false ∧ m ≠ .reset ∧ ∀ i v, m ≠ .writeReg (.data i) v)
    (ht : step s = .next t) : t.ctl = s.ctl := by
  cases hin : s.env.inbox with
  | nil =>
    cases (step_turn hx hin).symm.trans ht
    exact deviceTurn_ctl s
  | cons m rest =>
    obtain ⟨hreq, hreset, hdata⟩ := hq m rest hin
    simp only [step, moveStep, hin] at ht
    cases m with
    | issue c => cases hreq
    | reset => exact absurd rfl hreset
    | wait =>
      rw [if_neg hx] at ht
      cases ht; rfl
    | deviceDone =>
      simp only at ht
      split at ht
      · cases ht; rfl
      · cases ht
    | readReg | readAfter | resetAfter => cases ht; rfl
    | writeReg r v =>
      cases r with
      | cmd => cases hreq
      | data i => exact absurd rfl (hdata i v)
      | ctrlstat | result | cursor | idreg | lastSr | checksum => cases ht; rfl

/-- Settles O53: each operation's updates leave the registers it is not given (`exec_writesOnly`,
`resume_writesOnly`), a frame at most latches a status byte, and a step with no operation writes none
(`step_idle_ctl`). -/
theorem registersAreWrittenOnlyByTheirOperations : Obligations.RegistersAreWrittenOnlyByTheirOperations := by
  refine ⟨fun s t i hr ht => ?_, fun s t p hr busy mpc hin ht => ?_, fun s t hx hq ht => step_idle_ctl hx hq ht⟩
  · obtain ⟨hdata, hid, hsum, hcur, hwp⟩ := exec_writesOnly hr ht
    exact ⟨hdata, hid, hsum, hcur, hwp, fun hi => exec_frame_lastSr hi hr ht,
      fun hi hrdsr => by rw [exec_frame_ctl hi hrdsr hr ht]⟩
  · rw [step_resume busy mpc hin] at ht
    obtain ⟨⟨hdata, hid, hsum, hcur, hwp⟩, hcmd, hopl, hlenl⟩ := resume_writesOnly hr ht
    obtain ⟨h1, h2, h3⟩ := hid (by cases p <;> simp [ownerOf])
    refine ⟨hdata, hcmd, hopl, hlenl, h1, h2, h3, hsum, fun hs hw => hcur hs fun len => ?_, hwp⟩
    cases p
    case writeGate | writeReady => exact absurd rfl hw
    all_goals simp [ownerOf]

/-! ### Reset -/

theorem atResetValues_reset : AtResetValues Controller.reset :=
  ⟨rfl, rfl, rfl, rfl, rfl, rfl, rfl, rfl, rfl, rfl, rfl, fun i => by simp [Controller.reset], rfl⟩

/-- Settles O47: a completed reset leaves the registers at their reset values (`resetController_ok`), and with the
chip-select released it does nothing else (`resetController_released`). -/
theorem resetSetsTheControllerAlone : Obligations.ResetSetsTheControllerAlone := by
  intro s rest hin
  have hstep : step s = afterReset (popInbox s) := by simp only [step, moveStep, hin]
  rw [hstep]
  refine ⟨fun t ht => ?_, fun hc => ⟨resetFields (popInbox s), ?_, rfl, rfl⟩⟩
  · have hr := resetController_ok (popInbox s) trivial
    rw [afterReset_next ht] at hr
    exact ⟨by rw [hr.1]; exact atResetValues_reset, hr.2⟩
  · simp [afterReset, resetController_released (s := popInbox s) hc]

end Sys2Proof.Machine
end

section
/-!
One move of the host: a request, a register read, a write to `DATA` or to a read-only register (spec/10_state.md
rules R22, R24, R31, R33).
-/

namespace Sys2Proof.Machine

variable {s : State}

/-- Settles O5: what is issued runs as the instruction it decodes to. -/
theorem stepRunsTheDecodedInstruction : Obligations.StepRunsTheDecodedInstruction := by
  intro s c i rest hidle hin hd
  have hstep : step s = issueCode c (popInbox s) := by simp only [step, moveStep, hin]
  rw [hstep]
  cases c with
  | word w => simp only [issueCode, hd]
  | frame bytes => simp only [issueCode, popInbox_ctl, hidle, if_true, hd]

/-- While `SEQ` is not `IDLE` the spec gives a request no transition (rule R33). -/
theorem request_notIdle {w : HostWord} {m : Act Unit} (h : s.ctl.seq ≠ .idle) :
    request w m s = .refused .hostWriteNotIdle := by
  cases hs : s.ctl.seq with
  | idle => exact absurd hs h
  | exec | halted => simp only [request, hs]

/-- Settles O7: every host operation, and every request word, is a request (`issueCode_word`). -/
theorem requestNeedsIdle : Obligations.RequestNeedsIdle := by
  intro s h
  refine ⟨fun i hi => ?_, fun w rest hin => ?_, fun i v rest hin => ?_⟩
  · obtain ⟨w, m, hb⟩ : ∃ w m, bodyOf i = .request w m := by cases i <;> cases hi <;> exact ⟨_, _, rfl⟩
    rw [exec_body, hb]
    exact request_notIdle h
  · obtain ⟨m, hm, -⟩ := issueCode_word w (popInbox s)
    rw [step_word hin, hm]
    exact request_notIdle (s := popInbox s) h
  · simp [step, moveStep, hin, hostWrite, h]

/-- Settles O9: the step takes the move and records the value, which a zero-extension does not change. -/
theorem hostReadHasNoEffect : Obligations.HostReadHasNoEffect := by
  refine ⟨fun s r rest hin => ?_, fun c => ?_⟩
  · simp only [step, moveStep, hin, State.mapEnv, popInbox, List.tail_cons]
  · have zeroExtended : ∀ {n : Nat} (x : BitVec n), n ≤ 32 → (x.setWidth 32).toNat = x.toNat :=
      fun _ hn => BitVec.toNat_setWidth_of_le hn
    exact ⟨rfl, zeroExtended _ (by decide), zeroExtended _ (by decide), zeroExtended _ (by decide),
      zeroExtended _ (by decide), zeroExtended _ (by decide), zeroExtended _ (by decide),
      fun _ => zeroExtended _ (by decide)⟩

/-- Settles O10: the step sets one element of `DATA`. -/
theorem hostWritesOneDataByte : Obligations.HostWritesOneDataByte := by
  intro s i v rest hin hidle
  refine ⟨(popInbox s).mapCtl fun c => { c with data := c.data.set i (v.setWidth 8) }, ?_, ?_, fun j hj => ?_, ?_⟩
  · simp only [step, moveStep, hin, hostWrite, popInbox_ctl, hidle, if_true]
  · simp
  · have hne : (i : Nat) ≠ j := fun h => hj (Fin.ext h.symm)
    simp [Vector.getElem_set_ne _ _ hne]
  · simp only [State.mapCtl, State.mapEnv, popInbox, hin, List.tail_cons]

/-- Settles O11: each field of `CTRLSTAT` is read off the concatenation; the host's write is dropped. -/
theorem ctrlstatShowsTheFlags : Obligations.CtrlstatShowsTheFlags := by
  refine ⟨fun c => ⟨(ctrlstat_seq c).trans (by cases c.seq <;> rfl), ?_⟩, by decide, fun s v rest hin => ?_⟩
  · refine ⟨?_, ?_, ?_, ?_, ?_⟩
    · apply BitVec.eq_of_getLsbD_eq
      intro i hi
      simp only [ctrlstat, BitVec.getLsbD_extractLsb', BitVec.getLsbD_append]
      simp [hi]
    all_goals
      simp only [ctrlstat, BitVec.getLsbD_append]
      simp
  · simp only [step, moveStep, hin, hostWrite, popInbox, State.mapEnv, List.tail_cons]

end Sys2Proof.Machine
end

section
/-!
The encoding (spec/30_encoding.md): a code decodes to an instruction exactly when it is the code of that
instruction and the instruction is well formed (`decode_ok_iff`), said first for request words (rules R92 to R95)
and then for frames (rules R101 to R104).
-/

namespace Sys2Proof

variable {w : HostWord} {i : Instr} {bytes : List Byte} {a : FlashAddr}

/-! ### Request words -/

/-- WRITE_DATA's mask tells its codes from the words of the other rows. -/
theorem decodeHost_writeData (len : LenWord) : decodeHost (hostWord 0x07 len) = .ok (.writeData len) := by
  have hrow : hostWord 0x07 len &&& 0xFFFE00FF = 0x00000007 :=
    (writeData_mask _).mpr (by rw [wordLen_hostWord])
  have hother : ∀ v : HostWord, v &&& 0xFFFE00FF ≠ 0x00000007 →
      (hostWord 0x07 len &&& 0xFFFFFFFF == v) = false := by
    intro v hv
    rw [beq_eq_false_iff_ne, show hostWord 0x07 len &&& 0xFFFFFFFF = hostWord 0x07 len from BitVec.and_allOnes]
    rintro rfl
    exact hv hrow
  simp only [decodeHost, hostRows, List.find?_cons, hother 1 (by decide), hother 2 (by decide), hother 3 (by decide),
    hother 4 (by decide), hother 5 (by decide), hother 6 (by decide), hrow, beq_self_eq_true, wordLen_hostWord]

theorem decodeHost_ok_iff : decodeHost w = .ok i ↔ encode i = .word w := by
  constructor
  · intro h
    obtain ⟨m, hb⟩ := Machine.bodyOf_decode h
    cases i <;> cases hb <;> rfl
  · intro h
    cases i with
    | writeData len => cases h; exact decodeHost_writeData len
    | readId | readStatus | awaitReady | writeEnable | chipErase | scan | dumpAll => cases h; decide
    | rdid | wren | rdsr | ce | read | pp => cases h

theorem hostWord_writeData_iff {len : LenWord} :
    hostWord 0x07 len = w ↔ w &&& 0xFFFE00FF = 0x00000007 ∧ len = wordLen w := by
  rw [writeData_mask]
  constructor
  · rintro rfl
    simp
  · rintro ⟨hw, rfl⟩
    exact hw.symm

/-! ### Frames -/

theorem wellFormed_read {n : Nat} : (Instr.read a n).wellFormed = true ↔ n ≠ 0 := by
  simp [Instr.wellFormed, Instr.illFormed]

theorem wellFormed_pp : (Instr.pp a bytes).wellFormed = true ↔ bytes.length ≠ 0 ∧ bytes.length ≤ 256 := by
  simp only [Instr.wellFormed, Instr.illFormed]
  split_ifs with h0 hl
  · simp [h0]
  · simp [Nat.not_le.mpr hl]
  · simp only [Option.isNone_none, true_iff]
    exact ⟨h0, Nat.not_lt.mp hl⟩

theorem decodeRead_ok_iff : decodeRead a bytes = .ok i ↔
    bytes.length ≠ 0 ∧ bytes = dummies bytes.length ∧ i = .read a bytes.length := by
  unfold decodeRead
  split_ifs with h0 h1
  · simp [h0]
  · simp [h0, ← h1, eq_comm]
  · simp [h1]

theorem decodePp_ok_iff : decodePp a bytes = .ok i ↔
    bytes.length ≠ 0 ∧ bytes.length ≤ 256 ∧ i = .pp a bytes := by
  unfold decodePp
  split_ifs with h0 h1
  · simp [h0]
  · simp [h1]
  · simp [h0, Nat.not_lt.mp h1, eq_comm]

/-- The data phase of a `READ` frame comes after its command byte and address (rules R101, R103). -/
theorem decodeFrame_read (b1 b2 b3 : Byte) :
    decodeFrame (Command.read.byte :: b1 :: b2 :: b3 :: bytes) = decodeRead (addrOfBytes b1 b2 b3) bytes := by
  simp [decodeFrame]

/-- See `decodeFrame_read`. -/
theorem decodeFrame_pp (b1 b2 b3 : Byte) :
    decodeFrame (Command.pp.byte :: b1 :: b2 :: b3 :: bytes) = decodePp (addrOfBytes b1 b2 b3) bytes := by
  simp [decodeFrame]

theorem decodeFrame_encode (h : encode i = .frame bytes) (hi : i.wellFormed = true) : decodeFrame bytes = .ok i := by
  cases i with
  | rdid | wren | rdsr | ce => cases h; decide
  | read a n =>
    cases h
    refine (decodeFrame_read _ _ _).trans ?_
    rw [Machine.addrOfBytes_addrBytes, decodeRead_ok_iff]
    simpa using wellFormed_read.mp hi
  | pp a sent =>
    cases h
    refine (decodeFrame_pp _ _ _).trans ?_
    rw [Machine.addrOfBytes_addrBytes, decodePp_ok_iff]
    simpa using wellFormed_pp.mp hi
  | readId | readStatus | awaitReady | writeEnable | chipErase | scan | writeData | dumpAll => cases h

theorem encode_of_decodeFrame (h : decodeFrame bytes = .ok i) : encode i = .frame bytes ∧ i.wellFormed = true := by
  cases bytes with
  | nil => cases h
  | cons c rest =>
    cases hc : commandOf c with
    | none => simp [decodeFrame, hc] at h
    | some k =>
      obtain rfl := byte_of_commandOf hc
      simp only [decodeFrame, hc] at h
      cases k with
      | rdid | wren | rdsr | ce =>
        simp only at h
        split_ifs at h
        cases h
        subst rest
        exact ⟨rfl, rfl⟩
      | read =>
        simp only at h
        split at h
        · next b1 b2 b3 sent =>
          obtain ⟨h0, hs, rfl⟩ := decodeRead_ok_iff.mp h
          exact ⟨by simp [encode, ← hs], wellFormed_read.mpr h0⟩
        · cases h
      | pp =>
        simp only at h
        split at h
        · next b1 b2 b3 sent =>
          obtain ⟨h0, hl, rfl⟩ := decodePp_ok_iff.mp h
          exact ⟨by simp [encode], wellFormed_pp.mpr ⟨h0, hl⟩⟩
        · cases h

/-! ### Every code -/

/-- Every request word is well formed: rule R101 asks nothing of its operands. -/
theorem wellFormed_of_encode_word (h : encode i = .word w) : i.wellFormed = true := by
  cases i <;> cases h <;> rfl

/-- Decoding is the inverse of encoding on the well-formed instructions, and nothing else decodes (rules R92,
R95, R101). -/
theorem decode_ok_iff {c : Code} : decode c = .ok i ↔ encode i = c ∧ i.wellFormed = true := by
  cases c with
  | word w => exact decodeHost_ok_iff.trans ⟨fun h => ⟨h, wellFormed_of_encode_word h⟩, And.left⟩
  | frame bytes => exact ⟨encode_of_decodeFrame, fun ⟨h, hi⟩ => decodeFrame_encode h hi⟩

/-- Settles O2: the code of a well-formed instruction is one that decodes to it (`decode_ok_iff`). -/
theorem decodeOfEncodeIsIdentity : Obligations.DecodeOfEncodeIsIdentity :=
  fun _ hi => decode_ok_iff.mpr ⟨rfl, hi⟩

/-- Settles O3: only the code of a well-formed instruction decodes to it (`decode_ok_iff`). -/
theorem encodeOfDecodeIsIdentity : Obligations.EncodeOfDecodeIsIdentity :=
  fun _ _ h => decode_ok_iff.mp h

/-- Settles O4: a word decodes to the operation it is the code of (`decodeHost_ok_iff`), which is compared with the
table operation by operation. -/
theorem hostWordDecodesByMaskAndMatch : Obligations.HostWordDecodesByMaskAndMatch := by
  intro w i
  refine decodeHost_ok_iff.trans ?_
  cases i with
  | writeData len => simpa [encode, wordLen] using hostWord_writeData_iff
  | readId | readStatus | awaitReady | writeEnable | chipErase | scan | dumpAll =>
    simp [encode, hostWord, eq_comm]
  | rdid | wren | rdsr | ce | read | pp => simp [encode]

/-- Settles O1: each code is decoded. -/
theorem wordsOfTheTablesDecode : Obligations.WordsOfTheTablesDecode := by
  unfold Obligations.WordsOfTheTablesDecode
  decide

end Sys2Proof
end


section
/-!
A frame that is no instruction (spec/30_encoding.md rule R105, spec/41_flash_commands.md rules R142, R143, R161):
inside the frame the device takes the bytes into its frame buffer and may move its read address (`Received`), and at
its end a frame that does not decode has no effect (`endFrame_undecoded`).
-/

namespace Sys2Proof.Machine

variable {α β : Type} {s t : State} {bytes sent sent' sent'' : List Byte} {d : Device} {e : DecodeError}

/-- Inside a frame, a present device that was `d` has received the bytes `sent`; nothing else of it has changed but
its read address. -/
structure Received (d : Device) (sent : List Byte) (s : State) : Prop where
  present : s.cfg.present = true
  dev     : s.dev = { d with fb := sent, daddr := s.dev.daddr }

theorem Received.same (h : Received d sent s) (hcfg : t.cfg = s.cfg) (hdev : t.dev = s.dev) : Received d sent t :=
  ⟨hcfg ▸ h.present, by rw [hdev]; exact h.dev⟩

theorem Received.daddr (h : Received d sent s) (a : Device → CursorWord) :
    Received d sent (s.mapDev fun d => { d with daddr := a d }) :=
  ⟨h.present, by rw [mapDev_dev, h.dev]⟩

theorem Received.latchReadAddr (h : Received d sent s) : Received d sent (s.mapDev latchReadAddr) := by
  have hdaddr : ∀ d, Machine.latchReadAddr d = { d with daddr := (Machine.latchReadAddr d).daddr } := by
    intro d
    unfold Machine.latchReadAddr
    split <;> rfl
  exact funext hdaddr ▸ h.daddr _

theorem Received.byte (h : Received d sent s) (b : Byte) :
    Received d (sent ++ [b]) (s.mapDev fun d => { d with fb := d.fb ++ [b] }) :=
  ⟨h.present, by rw [mapDev_dev, h.dev]⟩

/-! ### Where the device stands as the frame goes on -/

/-- An action inside a frame: the device had received `sent`, and unless the step ends it has then received
`sent'`. -/
def Receives (d : Device) (sent sent' : List Byte) (m : Act α) : Prop :=
  Triple (Received d sent) m (fun _ => Received d sent') fun _ _ => True

theorem Receives.bind {m : Act α} {f : α → Act β} (h1 : Receives d sent sent' m)
    (h2 : ∀ a, Receives d sent' sent'' (f a)) : Receives d sent sent'' (m >>= f) := Triple.bind h1 h2
theorem Receives.askThen {f : State → Act α} (h : ∀ s, Received d sent s → Receives d sent sent' (f s)) :
    Receives d sent sent' (Machine.ask >>= f) := fun s hs => h s hs s hs
theorem Receives.pure (a : α) : Receives d sent sent (Pure.pure a : Act α) := fun _ h => h
theorem Receives.nop : Receives d sent sent nop := fun _ h => h
theorem Receives.ask : Receives d sent sent ask := fun _ h => h
theorem Receives.upd {f : State → State} (h : ∀ s, Received d sent s → Received d sent' (f s)) :
    Receives d sent sent' (upd f) := h
theorem Receives.leave (x : Exit) : Receives d sent sent' (leave x : Act α) := fun _ _ => trivial
theorem Receives.ite {c : Prop} [Decidable c] {m n : Act α} (h1 : Receives d sent sent' m)
    (h2 : Receives d sent sent' n) : Receives d sent sent' (if c then m else n) := by split <;> assumption

theorem receives_tick : Receives d sent sent tick := by
  intro s hs
  have h := tick_looked s
  cases hm : tick s <;> rw [hm] at h
  · exact hs.same h.1.cfg h.1.dev
  · trivial

theorem receives_draw : Receives d sent sent draw := fun _ h => h.same rfl rfl

theorem receives_drawRx : Receives d sent sent drawRx := .bind receives_draw fun _ => .pure _

/-- Answering an exchange moves at most the read address (rules R144, R146, R148, R152). -/
theorem receives_deviceOut (k : Nat) : Receives d sent sent (deviceOut k) := by
  refine .bind .ask fun s => .ite receives_drawRx (.ite receives_drawRx ?_)
  split
  · exact .ite (.bind receives_draw fun _ => .bind .ask fun _ => .pure _) receives_drawRx
  · exact .ite (.pure _) (.ite (.pure _) receives_drawRx)
  · exact .ite (.bind .ask fun _ => .ite (.leave _) (.bind (.upd fun _ h => h.daddr _) fun _ => .pure _))
      (.ite (.bind (.upd fun _ h => h.latchReadAddr) fun _ => receives_drawRx) receives_drawRx)
  · exact receives_drawRx

theorem receives_xfer (b : Byte) : Receives d sent (sent ++ [b]) (xfer b) := by
  refine .bind receives_tick fun _ => .askThen fun s hs => .ite ?_ (.leave _)
  rw [if_pos hs.present]
  have hexchange : Receives d sent (sent ++ [b]) (deviceExchange b) :=
    .bind .ask fun _ => .bind (.upd fun _ h => h.byte b) fun _ => receives_deviceOut _
  exact hexchange.bind fun _ => .bind (.upd fun _ h => h.same rfl rfl) fun _ => .pure _

theorem receives_xferAll (bs : List Byte) : Receives d sent (sent ++ bs) (xferAll bs) := by
  induction bs generalizing sent with
  | nil => rw [List.append_nil]; exact .pure _
  | cons b bs ih => rw [List.append_cons]; exact .bind (receives_xfer b) fun _ => ih

/-- `Select()` opens a frame after the device's turn, with nothing received (rules R121, R127). -/
theorem select_received (h : BusFree s) (hp : s.cfg.present = true) :
    Triple (· = s) select (fun _ => Received (deviceTurn s).dev []) fun _ _ => True := by
  rintro u rfl
  rw [select_free h.1 h.2]
  exact ⟨(congrArg Config.present (deviceTurn_cfg u)).trans hp, by simp [hp]⟩

/-! ### The end of a frame that does not decode -/

theorem fb_of_frameCommand {c : Command} (h : frameCommand d = some c) : ∃ rest, d.fb = c.byte :: rest := by
  unfold frameCommand at h
  split at h
  · cases h
  · next b rest hfb => exact ⟨rest, by rw [hfb, byte_of_commandOf h]⟩

/-- A frame of one byte is its command byte. -/
theorem fb_of_length_one {c : Command} (h : frameCommand d = some c) (hlen : d.fb.length = 1) : d.fb = [c.byte] := by
  obtain ⟨rest, hfb⟩ := fb_of_frameCommand h
  rw [hfb] at hlen ⊢
  rw [List.length_eq_zero_iff.mp (Nat.succ_injective hlen)]

/-- What a frame programs, up to 256 bytes, is what its bytes decode to (rules R101, R156). -/
theorem decodeFrame_of_pp {b0 b1 b2 b3 b : Byte} {bs : List Byte} (h : frameCommand d = some .pp)
    (hfb : d.fb = b0 :: b1 :: b2 :: b3 :: b :: bs) (hlen : (b :: bs).length ≤ 256) :
    decodeFrame d.fb = .ok (.pp (addrOfBytes b1 b2 b3) (b :: bs)) := by
  obtain ⟨rest, hpp⟩ := fb_of_frameCommand h
  obtain ⟨rfl, -⟩ := List.cons.inj (hfb.symm.trans hpp)
  rw [hfb, decodeFrame_pp]
  exact decodePp_ok_iff.mpr ⟨Nat.succ_ne_zero _, hlen, rfl⟩

/-- A frame that does not decode has no effect at its end: it has another length than its command's, or programs
more than 256 bytes (rules R143, R156, R161). -/
theorem endFrame_undecoded (hd : decodeFrame bytes = .error e) : Receives d bytes bytes endFrame := by
  refine .askThen fun s hs => .ite .nop ?_
  have hno : ∀ i, decodeFrame s.dev.fb ≠ .ok i := by
    intro i hi
    rw [hs.dev, hd] at hi
    cases hi
  split
  · next hc => rw [if_neg fun h => hno .wren (by rw [fb_of_length_one hc h.1]; decide)]; exact .nop
  · next hc => rw [if_neg fun h => hno .ce (by rw [fb_of_length_one hc h.1]; decide)]; exact .nop
  · next hc =>
    split
    · next b1 b2 b3 b bs hfb =>
      refine .ite (.askThen fun u _ => ?_) .nop
      rw [if_pos (Bool.eq_true_of_not_eq_false fun hl => hno _ (decodeFrame_of_pp hc hfb (programIllegal_false hl).1))]
      exact .leave _
    · exact .nop
  · exact .nop

theorem deselect_undecoded (hd : decodeFrame bytes = .error e) : Receives d bytes bytes deselect := by
  refine .bind receives_tick fun _ => .bind .ask fun _ => .ite ?_ (.leave _)
  refine .bind (.upd fun _ h => h.same rfl rfl) fun _ => .askThen fun s hs => ?_
  rw [if_pos hs.present]
  exact endFrame_undecoded hd

/-- A complete frame that is no instruction leaves the device as its turn does, but for the frame state. -/
theorem frame_undecoded (hd : decodeFrame bytes = .error e) (h : BusFree s) (hf : frame bytes s = .ok () t) :
    t.dev = { (deviceTurn s).dev with fb := t.dev.fb, daddr := t.dev.daddr } := by
  cases hp : s.cfg.present with
  | false =>
    rw [frame_absent bytes h.1 h.2 hp] at hf
    cases hf
    rfl
  | true =>
    have hbytes : Receives (deviceTurn s).dev [] bytes (do xferAll bytes; deselect) :=
      .bind (receives_xferAll bytes) fun _ => deselect_undecoded hd
    have hend := Triple.bind (select_received h hp) (fun _ => hbytes) s rfl
    rw [← frame, hf] at hend
    rw [hend.dev]

/-- Settles O43: the frame is put on the wire as it is, runs to its end (`busOnly_frame`, `frame_wire`), and has no
effect on the device (`frame_undecoded`). -/
theorem undecodedFrameHasNoEffect : Obligations.UndecodedFrameHasNoEffect := by
  intro s t bytes e rest idle hin hd free ht
  have run : runAct (frame bytes) (popInbox s) = .next t := by
    simpa only [step, moveStep, hin, issueCode, popInbox_ctl, idle, if_true, hd, putFrame] using ht
  have hbus := busOnly_frame bytes (popInbox s)
  have hwire := frame_wire (w := s.bus.wire) bytes (popInbox s) ⟨free.1, rfl⟩
  have hnr : NoResetDue (popInbox s) := by simp [NoResetDue, free.2]
  unfold BusOnlyAt at hbus
  rcases runAct_next run with hf | hf | ⟨u, hf, -⟩ <;> rw [hf] at hbus hwire
  · refine ⟨hbus.ctl, ?_, hwire.2, hwire.1, hbus.cfg⟩
    have := frame_undecoded hd (s := popInbox s) free hf
    rwa [deviceTurn_dev] at this ⊢
  · exact absurd rfl hbus.2.1
  · exact absurd rfl (hbus.2.2 hnr)

end Sys2Proof.Machine
end


section
/-!
With no device on the bus (spec/40_bus_transfer.md rule R128): every frame is put on the wire as it is and reads 0xFF
at each byte, and what is kept of the device changes only by a completion just before the frame (log entry 12).
-/

namespace Sys2Proof.Machine

variable {s : State} {bytes : List Byte} {e : DecodeError} {rest : List Input}

/-- An issued frame that is no instruction is put on the wire byte for byte (log entry 3). -/
theorem step_undecoded (idle : s.ctl.seq = .idle) (hin : s.env.inbox = .issue (.frame bytes) :: rest)
    (hd : decode (.frame bytes) = .error e) : step s = putFrame (frame bytes) (popInbox s) := by
  simp only [step, moveStep, hin, issueCode, popInbox_ctl, idle, if_true, hd]

theorem putFrame_absent (hs : s.ctl.seq ≠ .halted) (h : BusFree s) (hp : s.cfg.present = false) :
    putFrame (frame bytes) s = .next { deviceTurn s with bus :=
      { cs := false, mosi := bytes, miso := List.replicate bytes.length (.byte absentByte)
        wire := s.bus.wire ++ [bytes] } } := by
  rw [putFrame_running hs]
  exact runAct_ok (frame_absent bytes h.1 h.2 hp)

theorem exec_rdsr_absent (hs : s.ctl.seq ≠ .halted) (h : BusFree s) (hp : s.cfg.present = false) :
    exec .rdsr s = .next (afterNoStatus s) :=
  (putFrame_running hs).trans (runAct_ok ((bind_ok (readStatus_unseen h hp)).trans (nop_apply _)))

/-- Settles O42: RDSR ends in `afterNoStatus`; every other frame, an instruction (`exec_frame`) or not
(`step_undecoded`), ends as `putFrame_absent` says. -/
theorem absentDeviceReturnsAllOnes : Obligations.AbsentDeviceReturnsAllOnes := by
  refine ⟨fun s i bytes he hs free hp => ?_, fun s bytes e rest idle hin hd free hp => ?_⟩
  · by_cases hi : i = .rdsr
    · subst hi
      cases he
      exact ⟨_, exec_rdsr_absent hs free hp, rfl, rfl, rfl, rfl, rfl, rfl, deviceTurn_cfg s⟩
    · refine ⟨_, (exec_frame he hi s).trans (putFrame_absent hs free hp), rfl, rfl, rfl, ?_, rfl, rfl, deviceTurn_cfg s⟩
      rw [if_neg hi]
      exact deviceTurn_ctl s
  · have hs : (popInbox s).ctl.seq ≠ .halted := by simp [idle]
    have hdev : (deviceTurn (popInbox s)).dev = (deviceTurn s).dev := by rw [deviceTurn_dev, deviceTurn_dev]; rfl
    exact ⟨_, (step_undecoded idle hin hd).trans (putFrame_absent hs free hp), rfl, rfl, hdev,
      deviceTurn_ctl (popInbox s), rfl, rfl, deviceTurn_cfg (popInbox s)⟩

end Sys2Proof.Machine
end


section
/-!
Every operation, followed from frame to frame: a predicate on the bus and the device that holds between two frames is
carried through the pseudocode by what `Select`, `Xfer` and `Deselect` do to it (`FrameRules`), whichever way the step
ends. A write-class frame may break it, since no frame but CHIP_ERASE's status reads follows one in the same step.
-/

namespace Sys2Proof.Machine

variable {α β : Type} {I O R L P Q S : State → Prop}

/-! ### What reads the bus and the device alone -/

/-- The predicate reads the parameters, the bus and the device, and nothing else. -/
def OnFlash (P : State → Prop) : Prop :=
  ∀ s t : State, t.cfg = s.cfg → t.bus = s.bus → t.dev = s.dev → P s → P t

/-- From `P`, the action ends in `Q`, or leaves its step in `L`. -/
def Passes (L P Q : State → Prop) (m : Act α) : Prop := Triple P m (fun _ => Q) fun _ => L

theorem Passes.bind {m : Act α} {f : α → Act β} (h1 : Passes L P Q m) (h2 : ∀ a, Passes L Q S (f a)) :
    Passes L P S (m >>= f) := Triple.bind h1 h2
theorem Passes.pure (a : α) : Passes L P P (Pure.pure a : Act α) := fun _ h => h
theorem Passes.nop : Passes L P P nop := fun _ h => h
theorem Passes.ask : Passes L P P ask := fun _ h => h
theorem Passes.upd {f : State → State} (h : ∀ s, P s → Q (f s)) : Passes L P Q (upd f) := h
theorem Passes.leave {e : Exit} (h : ∀ s, P s → L s) : Passes L P Q (leave e : Act α) := h
theorem Passes.ite {c : Prop} [Decidable c] {m n : Act α} (h1 : c → Passes L P Q m) (h2 : ¬ c → Passes L P Q n) :
    Passes L P Q (if c then m else n) := Triple.ite h1 h2
theorem Passes.updCtl (hP : OnFlash P) (f : Controller → Controller) : Passes L P P (updCtl f) :=
  fun s h => hP s _ rfl rfl rfl h
theorem Passes.weaken {m : Act α} (h : Passes L P Q m) (hq : ∀ s, Q s → S s) : Passes L P S m :=
  Triple.conseq h (fun _ h => h) (fun _ => hq) fun _ _ h => h

theorem passes_tick (hP : OnFlash P) (hl : ∀ s, P s → L s) : Passes L P P tick := by
  intro s hs
  have h := tick_looked s
  cases hm : tick s <;> rw [hm] at h <;> have hp := hP s _ h.1.cfg h.1.bus h.1.dev hs
  · exact hp
  · exact hl _ hp

theorem passes_label (hP : OnFlash P) (hl : ∀ s, P s → L s) (p : MicroPos) : Passes L P P (label p) :=
  .bind (.updCtl hP _) fun _ => passes_tick hP hl

theorem passes_endWith (hP : OnFlash P) (hl : ∀ s, P s → L s) (code : Byte) : Passes L P L (endWith code) :=
  .bind (passes_label hP hl _) fun _ => (Passes.updCtl hP _).weaken hl

theorem passes_xferAll (h : ∀ b, Passes L P P (xfer b)) (bytes : List Byte) : Passes L P P (xferAll bytes) := by
  induction bytes with
  | nil => exact .pure _
  | cons b bs ih => exact .bind (h b) fun _ => ih

/-! ### The rules -/

/-- What the bus primitives do to predicates on the bus and the device: `I` between two frames, `O` in a frame with
nothing sent, `R` inside a frame that neither programs nor erases, `L` after a frame of any kind and where a step
ends early. -/
structure FrameRules (I O R L : State → Prop) : Prop where
  between   : OnFlash I
  inside    : OnFlash R
  after     : OnFlash L
  ends      : ∀ s, I s → L s
  cut       : ∀ s, R s → L s
  opens     : Passes L I O select
  command   : ∀ c : Byte, c ≠ 0x02 → c ≠ 0xC7 → Passes L O R (xfer c)
  byte      : ∀ b, Passes L R R (xfer b)
  closes    : Passes L R I deselect
  any       : ∀ bytes, Passes L I L (frame bytes)

/-- A predicate that every bus primitive keeps, wherever it is called. -/
theorem FrameRules.of_kept (hP : OnFlash P) (hs : Passes P P P select) (hx : ∀ b, Passes P P P (xfer b))
    (hd : Passes P P P deselect) : FrameRules P P P P where
  between := hP
  inside := hP
  after := hP
  ends := fun _ h => h
  cut := fun _ h => h
  opens := hs
  command := fun c _ _ => hx c
  byte := hx
  closes := hd
  any := fun bytes => .bind hs fun _ => .bind (passes_xferAll hx bytes) fun _ => hd

namespace FrameRules

variable (W : FrameRules I O R L)
include W

theorem label (p : MicroPos) : Passes L I I (label p) := passes_label W.between W.ends p
theorem labelInside (p : MicroPos) : Passes L R R (Machine.label p) := passes_label W.inside W.cut p
theorem endWith (code : Byte) : Passes L I L (endWith code) := passes_endWith W.between W.ends code
theorem emit (e : Event) : Passes L I I (emit e) := .updCtl W.between _

theorem bytes (bs : List Byte) : Passes L R R (xferAll bs) := passes_xferAll W.byte bs

/-- A complete frame that neither programs nor erases. -/
theorem frame {c : Byte} (hpp : c ≠ 0x02) (hce : c ≠ 0xC7) (bs : List Byte) : Passes L I I (frame (c :: bs)) :=
  .bind W.opens fun _ => .bind (.bind (W.command c hpp hce) fun _ => W.bytes bs) fun _ => W.closes

theorem openRead (a : FlashAddr) : Passes L I R (openRead a) :=
  .bind W.opens fun _ => .bind (W.command _ (by decide) (by decide)) fun _ => W.bytes _

theorem readStatus : Passes L I I readStatus :=
  .bind W.opens fun _ => .bind (W.command _ (by decide) (by decide)) fun _ => .bind (W.byte _) fun _ =>
    .bind W.closes fun _ => .bind (.updCtl W.between _) fun _ => .pure _

theorem issueRdid : Passes L I I issueRdid :=
  .bind W.opens fun _ => .bind (W.command _ (by decide) (by decide)) fun _ => .bind (W.bytes _) fun _ =>
    .bind (W.byte _) fun _ => .bind (W.byte _) fun _ => .bind W.closes fun _ => .pure _

theorem issuePp (a : FlashAddr) (bs : List Byte) : Passes L I L (issuePp a bs) := by
  rw [issuePp_frame]
  exact W.any _

theorem awaitReady (here : Poll) (f : Controller → Controller) : Passes L I I (awaitReady here (updCtl f)) :=
  .bind (W.label _) fun _ => .bind W.readStatus fun _ => .ite (fun _ => .bind (.updCtl W.between _) fun _ =>
    .bind (.pure _) fun _ => .leave W.ends) fun _ => .nop

theorem gate (here : Poll) : Passes L I I (gate here) :=
  .bind (W.awaitReady here id) fun _ => .bind (W.label _) fun _ => .bind (W.frame (by decide) (by decide) []) fun _ =>
    .bind (W.label _) fun _ => .bind W.readStatus fun _ =>
      .ite (fun _ => .bind (.updCtl W.between _) fun _ => .pure _) fun _ => .bind (W.label _) fun _ =>
        .bind (W.emit _) fun _ => .bind (W.label _) fun _ => .bind (.updCtl W.between _) fun _ => .pure _

/-! ### The operations -/

theorem readStatusOp : Passes L I L readStatusOp :=
  .bind (W.label _) fun _ => .bind W.readStatus fun _ => W.endWith _

theorem awaitReadyOp : Passes L I L awaitReadyOp :=
  .bind (W.awaitReady _ id) fun _ => W.endWith _

theorem writeEnableOp : Passes L I L writeEnableOp :=
  .bind (W.gate _) fun _ => .ite (fun _ => W.endWith _) fun _ => W.endWith _

theorem eraseWaitOp : Passes L I L eraseWaitOp :=
  .bind (W.awaitReady _ _) fun _ => .bind .ask fun _ => .ite (fun _ => W.endWith _) fun _ => W.endWith _

theorem scanStream (n : Nat) : Passes L R R (scanStream n) := by
  induction n with
  | zero => exact .pure _
  | succ n ih =>
    exact .bind (W.labelInside _) fun _ => .bind (W.byte _) fun _ => .bind (.updCtl W.inside _) fun _ =>
      .bind .ask fun _ => .ite (fun _ => .pure _) fun _ => .bind (.updCtl W.inside _) fun _ => ih

theorem scanSearch : Passes L I I scanSearch :=
  .bind (W.awaitReady _ id) fun _ => .bind (W.label _) fun _ => .bind (W.openRead _) fun _ =>
    .bind (.updCtl W.inside _) fun _ => .bind .ask fun _ => .bind (W.scanStream _) fun _ =>
      .bind (W.labelInside _) fun _ => .bind W.closes fun _ => .pure _

theorem scanOp : Passes L I L scanOp := by
  rw [scanOp_eq]
  refine .bind W.scanSearch fun found => .ite (fun _ => ?_) fun _ => ?_
  all_goals
    exact .bind (W.label _) fun _ => .bind (.updCtl W.between _) fun _ => .bind (W.label _) fun _ =>
      .bind (.updCtl W.between _) fun _ => W.endWith _

theorem writeReadyOp : Passes L I L writeReadyOp :=
  have labelAfter p : Passes L L L (Machine.label p) := passes_label W.after (fun _ h => h) p
  .bind (W.awaitReady _ id) fun _ => .bind (W.label _) fun _ => .bind .ask fun _ => .bind (W.issuePp _ _) fun _ =>
    .bind (labelAfter _) fun _ => .bind (.pure _) fun _ => .bind (labelAfter _) fun _ =>
      .bind (.updCtl W.after _) fun _ => passes_endWith W.after (fun _ h => h) _

theorem writeGateOp : Passes L I L writeGateOp :=
  .bind (W.gate _) fun _ => .ite (fun _ => .bind (W.label _) fun _ => .bind .ask fun _ =>
    .ite (fun _ => W.writeReadyOp) fun _ => W.endWith _) fun _ => W.endWith _

theorem writeDataOp : Passes L I L writeDataOp :=
  .bind (W.label _) fun _ => .bind .ask fun _ => .ite (fun _ => W.endWith _) fun _ =>
    .ite (fun _ => .bind (W.label _) fun _ => .bind (W.emit _) fun _ => .bind (W.label _) fun _ =>
        (Passes.updCtl W.between _).weaken W.ends) fun _ =>
      .ite (fun _ => .bind (W.label _) fun _ => .bind (W.emit _) fun _ => W.endWith _) fun _ => W.writeGateOp

theorem readIdOp : Passes L I L readIdOp :=
  .bind (W.label _) fun _ => .bind W.issueRdid fun _ => .bind (W.label _) fun _ => .bind (.updCtl W.between _) fun _ =>
    .bind (W.label _) fun _ => .bind (.updCtl W.between _) fun _ => .bind (W.label _) fun _ =>
      .bind (W.emit _) fun _ => .bind (W.label _) fun _ => .bind .ask fun _ =>
        .ite (fun _ => .bind (.updCtl W.between _) fun _ => W.endWith _) fun _ =>
          .bind (.updCtl W.between _) fun _ => .bind (W.label _) fun _ => .bind (W.emit _) fun _ => W.endWith _

theorem dumpBytes (base i n : Nat) : Passes L R R (dumpBytes base i n) := by
  induction n generalizing i with
  | zero => exact .nop
  | succ n ih =>
    exact .bind (W.labelInside _) fun _ => .bind (.updCtl W.inside _) fun _ =>
      .bind (.bind .ask fun _ => .ite (fun _ => .updCtl W.inside _) fun _ => .nop) fun _ => .bind (W.byte _) fun _ =>
        .bind (.updCtl W.inside _) fun _ => .bind (.updCtl W.inside _) fun _ => ih _

theorem dumpPages (p n : Nat) : Passes L I L (dumpPages p n) := by
  induction n generalizing p with
  | zero =>
    exact .bind (W.label _) fun _ => .bind (.updCtl W.between _) fun _ => .bind (W.label _) fun _ =>
      .bind .ask fun _ => .bind (W.emit _) fun _ => W.endWith _
  | succ n ih =>
    exact .bind (.updCtl W.between _) fun _ => .bind (W.awaitReady _ id) fun _ => .bind (W.label _) fun _ =>
      .bind (W.openRead _) fun _ => .bind (W.dumpBytes _ _ _) fun _ => .bind (W.labelInside _) fun _ =>
        .bind W.closes fun _ => ih _

theorem dumpAllOp : Passes L I L dumpAllOp :=
  .bind (W.label _) fun _ => .bind (.updCtl W.between _) fun _ => .bind .ask fun _ => W.dumpPages _ _

/-- Every host operation but CHIP_ERASE. -/
theorem request {i : Instr} (hi : i ≠ .chipErase) {w : HostWord} {m : Act Unit} (hb : bodyOf i = .request w m) :
    Passes L I L m := by
  cases i <;> cases hb
  case readId => exact W.readIdOp
  case readStatus => exact W.readStatusOp
  case awaitReady => exact W.awaitReadyOp
  case writeEnable => exact W.writeEnableOp
  case chipErase => exact absurd rfl hi
  case scan => exact W.scanOp
  case writeData => exact W.writeDataOp
  case dumpAll => exact W.dumpAllOp

/-- Every frame instruction. -/
theorem frameBody {i : Instr} {m : Act Unit} (hb : bodyOf i = .frame m) : Passes L I L m := by
  cases i <;> cases hb
  case rdid => rw [issueRdid_frame]; exact W.any _
  case wren => exact W.any _
  case rdsr => exact .bind W.readStatus fun _ => Passes.nop.weaken W.ends
  case ce => exact W.any _
  case read => rw [issueRead_frame]; exact W.any _
  case pp => exact W.issuePp _ _

/-- Every operation resumed at a poll, but CHIP_ERASE before its `CE` frame. -/
theorem resumeOp {p : Poll} (hp : p ≠ .eraseGate) : Passes L I L (resumeOp p) := by
  cases p with
  | awaitPoll => exact W.awaitReadyOp
  | enableGate => exact W.writeEnableOp
  | eraseGate => exact absurd rfl hp
  | eraseWait => exact W.eraseWaitOp
  | scanPoll => exact W.scanOp
  | writeGate => exact W.writeGateOp
  | writeReady => exact W.writeReadyOp
  | dumpPoll => exact .bind .ask fun _ => W.dumpPages _ _

end FrameRules

end Sys2Proof.Machine
end


section
/-!
What the bus primitives do to the array and to the record of the wire: the rules of `FrameRules` for "no operation
was started" and for "the record grows", from one lemma for each primitive.
-/

namespace Sys2Proof.Machine

variable {P Q L : State → Prop} {s t : State} {d d' : Device}

/-! ### One lemma for each primitive -/

theorem passes_drawRx (hP : OnFlash P) : Passes P P P drawRx :=
  .bind (fun s h => hP s _ rfl rfl rfl h) fun _ => .pure _

/-- An answer of the device moves at most its read address (rules R144, R146, R148, R152). -/
theorem passes_deviceOut (hP : OnFlash P)
    (hdaddr : ∀ (s : State) (a : Device → CursorWord), P s → P (s.mapDev fun d => { d with daddr := a d })) (k : Nat) :
    Passes P P P (deviceOut k) := by
  have hdraw := passes_drawRx hP
  have hlatch : latchReadAddr = fun d => { d with daddr := (latchReadAddr d).daddr } := by
    funext d
    unfold latchReadAddr
    split <;> rfl
  refine .bind .ask fun s => .ite (fun _ => hdraw) fun _ => .ite (fun _ => hdraw) fun _ => ?_
  split
  · exact .ite (fun _ => .bind (fun s h => hP s _ rfl rfl rfl h) fun _ => .bind .ask fun _ => .pure _) fun _ => hdraw
  · exact .ite (fun _ => .pure _) fun _ => .ite (fun _ => .pure _) fun _ => hdraw
  · refine .ite (fun _ => .bind .ask fun _ => .ite (fun _ => .leave fun _ h => h) fun _ => ?_) fun _ =>
      .ite (fun _ => .bind (.upd fun s h => hlatch ▸ hdaddr s _ h) fun _ => hdraw) fun _ => hdraw
    exact .bind (.upd fun s h => hdaddr s _ h) fun _ => .pure _
  · exact hdraw

/-- `Select()` lets the device take its turn, then opens the frame (rules R121, R127). -/
theorem passes_select (hP : OnFlash P) (hl : ∀ s, P s → L s) (turn : ∀ s, P s → P (deviceTurn s))
    (opened : ∀ s, P s → P (s.mapBus fun b => { b with cs := true, mosi := [], miso := [] }))
    (absent : ∀ s, s.cfg.present = false → P s → Q s)
    (present : ∀ s, s.cfg.present = true → P s → Q (s.mapDev fun d => { d with fb := [] })) :
    Passes L P Q select := by
  refine .bind (passes_tick hP hl) fun _ => Triple.askThen fun s hs =>
    .ite (fun _ => .leave _ fun _ h => h ▸ hl s hs) fun _ => ?_
  refine .bind (Q := fun _ u => P u ∧ u.cfg = s.cfg) (.upd _ fun u hu => ?_) fun _ =>
    .bind (Q := fun _ u => P u ∧ u.cfg = s.cfg) (.upd _ fun u h => ⟨opened u h.1, h.2⟩) fun _ =>
      .ite (fun hp => ?_) fun hp => ?_
  · subst hu; exact ⟨turn u hs, deviceTurn_cfg u⟩
  · exact .upd _ fun u h => present u (by rw [h.2]; exact hp) h.1
  · exact .nop fun u h => absent u (by rw [h.2]; simpa using hp) h.1

/-- `Xfer(t)`: a present device takes the byte and answers (rule R123). -/
theorem passes_xfer {b : Byte} (hP : OnFlash P) (hQ : OnFlash Q) (hp : ∀ s, P s → L s) (hq : ∀ s, Q s → L s)
    (absent : ∀ s, s.cfg.present = false → P s → Q s)
    (present : ∀ s, s.cfg.present = true → P s → Q (s.mapDev fun d => { d with fb := d.fb ++ [b] }))
    (hdaddr : ∀ (s : State) (a : Device → CursorWord), Q s → Q (s.mapDev fun d => { d with daddr := a d }))
    (record : ∀ (s : State) (r : Rx), Q s →
      Q (s.mapBus fun u => { u with mosi := u.mosi ++ [b], miso := u.miso ++ [r] })) :
    Passes L P Q (xfer b) := by
  have hout (k : Nat) : Passes L Q Q (deviceOut k) :=
    (passes_deviceOut hQ hdaddr k).conseq (fun _ h => h) (fun _ _ h => h) fun _ s h => hq s h
  refine .bind (passes_tick hP hp) fun _ => Triple.askThen fun s hs => .ite (fun _ => ?_) fun _ =>
    .leave _ fun _ h => h ▸ hp s hs
  refine .bind (Q := fun _ => Q) (.ite (fun hpr => ?_) fun hab => ?_) fun r =>
    .bind (Q := fun _ => Q) (.upd _ fun u hu => record u r hu) fun _ => .pure _ fun _ h => h
  · exact Triple.askThen fun u hu => .bind (Q := fun _ => Q)
      (.upd _ fun v hv => by rw [hv, hu]; exact present s hpr hs) fun _ => hout _
  · exact .pure _ fun u hu => hu ▸ absent s (by simpa using hab) hs

/-- `EndFrame` sets the latch, or starts what a frame that programs or erases asks for (rules R143, R147, R150,
R156). -/
theorem passes_endFrame (hp : ∀ s, P s → L s) (same : ∀ s, P s → Q s)
    (latch : ∀ s, P s → Q (s.mapDev fun d => { d with dwel := true }))
    (erase : ∀ s, frameCommand s.dev = some .ce → P s → Q (s.mapDev startErase))
    (program : ∀ s a bytes, frameCommand s.dev = some .pp → P s →
      Q (s.mapDev fun d => { d with dbusy := true, dpend := .prog a bytes })) : Passes L P Q endFrame := by
  refine Triple.askThen fun s hs => .ite (fun _ => .nop fun _ h => h ▸ same s hs) fun _ => ?_
  split
  · exact .ite (fun _ => .upd _ fun _ h => h ▸ latch s hs) fun _ => .nop fun _ h => h ▸ same s hs
  · next hc => exact .ite (fun _ => .upd _ fun _ h => h ▸ erase s hc hs) fun _ => .nop fun _ h => h ▸ same s hs
  · next hc =>
    split
    · refine .ite (fun _ => Triple.askThen fun u hu => ?_) fun _ => .nop fun _ h => h ▸ same s hs
      subst hu
      exact .ite (fun _ => .leave _ fun _ h => h ▸ hp u hs) fun _ => .upd _ fun _ h => h ▸ program u _ _ hc hs
    · exact .nop fun _ h => h ▸ same s hs
  · exact .nop fun _ h => h ▸ same s hs

/-- The chip-select is released, and a present device ends its frame (rules R122, R341). -/
theorem passes_releaseCs
    (closed : ∀ s, P s → P (s.mapBus fun b => { b with cs := false, wire := b.wire ++ [b.mosi] }))
    (absent : ∀ s, s.cfg.present = false → P s → Q s)
    (present : Passes L (fun s => s.cfg.present = true ∧ P s) Q endFrame) : Passes L P Q releaseCs := by
  refine .bind (.upd closed) fun _ => Triple.askThen fun s hs => .ite (fun hp => ?_) fun hp => ?_
  · exact Triple.conseq present (fun _ h => h ▸ ⟨hp, hs⟩) (fun _ _ h => h) fun _ _ h => h
  · exact .nop fun _ h => h ▸ absent s (by simpa using hp) hs

theorem passes_deselect (hP : OnFlash P) (hl : ∀ s, P s → L s) (h : Passes L P Q releaseCs) :
    Passes L P Q deselect :=
  .bind (passes_tick hP hl) fun _ => .bind .ask fun _ => .ite (fun _ => h) fun _ => .leave hl

theorem passes_resetController (hP : OnFlash P) (h : Passes P P P releaseCs) : Passes P P P resetController :=
  .bind .ask fun _ => .ite (fun _ => .bind h fun _ => .updCtl hP _) fun _ => .updCtl hP _

/-- A step that runs such an action, whichever way it ends. -/
theorem Passes.run {m : Act Unit} (h : Passes Q P Q m) (hr : Passes Q Q Q resetController) (hs : P s)
    (ht : runAct m s = .next t) : Q t :=
  runAct_triple (R := Q) (Triple.conseq h (fun _ h => h) (fun _ _ h => h) fun _ _ h => ⟨fun _ => h, fun _ => h⟩)
    (Triple.conseq hr (fun _ h => h) (fun _ _ h => h) fun _ _ _ => trivial) hs ht

/-! ### The array -/

/-- What is said of the parameters and the device reads nothing else. -/
theorem onFlash_device (D : Config → Device → Prop) : OnFlash fun s => D s.cfg s.dev := by
  intro s t hcfg _ hdev hs
  simpa only [hcfg, hdev] using hs

/-- Since the device was `d` no operation was started: at most the one that was pending has completed. -/
def Unstarted (d : Device) (s : State) : Prop :=
  (s.dev.dbusy = d.dbusy ∧ s.dev.dpend = d.dpend ∧ s.dev.dmem = d.dmem) ∨
    d.dbusy = true ∧ s.dev.dbusy = false ∧ s.dev.dmem = (completed d).dmem

/-- See `Unstarted`; a frame is open, with nothing received. -/
def OpenedUnstarted (d : Device) (s : State) : Prop := Unstarted d s ∧ (s.cfg.present = true → s.dev.fb = [])

/-- The frame in progress neither programs nor erases. -/
def PlainCommand (d : Device) : Prop := d.fb ≠ [] ∧ frameCommand d ≠ some .pp ∧ frameCommand d ≠ some .ce

/-- See `Unstarted`; the frame in progress starts no operation either. -/
def PlainUnstarted (d : Device) (s : State) : Prop := Unstarted d s ∧ (s.cfg.present = true → PlainCommand s.dev)

/-- The array is as it was in `d`, or as the completion of the operation pending there leaves it (rule R162). -/
def CompletedAtMost (d : Device) (s : State) : Prop :=
  s.dev.dmem = d.dmem ∨ d.dbusy = true ∧ s.dev.dmem = (completed d).dmem

theorem Unstarted.refl (s : State) : Unstarted s.dev s := .inl ⟨rfl, rfl, rfl⟩

theorem Unstarted.completedAtMost (h : Unstarted d s) : CompletedAtMost d s := by
  rcases h with ⟨-, -, hmem⟩ | ⟨hbusy, -, hmem⟩
  · exact .inl hmem
  · exact .inr ⟨hbusy, hmem⟩

theorem OpenedUnstarted.completedAtMost (h : OpenedUnstarted d s) : CompletedAtMost d s := h.1.completedAtMost

theorem PlainUnstarted.completedAtMost (h : PlainUnstarted d s) : CompletedAtMost d s := h.1.completedAtMost

theorem Unstarted.deviceTurn (h : Unstarted d s) : Unstarted d (deviceTurn s) := by
  unfold Unstarted
  rw [deviceTurn_dev]
  split
  · next hturn =>
    rcases h with ⟨hbusy, hpend, hmem⟩ | ⟨-, hidle, -⟩
    · exact .inr ⟨hbusy ▸ hturn.1, rfl, by simp only [completed, hpend, hmem]⟩
    · rw [hturn.1] at hidle; cases hidle
  · exact h

theorem plainCommand_single {c : Byte} (hpp : c ≠ 0x02) (hce : c ≠ 0xC7) (d : Device) :
    PlainCommand { d with fb := [c] } :=
  ⟨by simp, fun h => hpp (byte_of_commandOf h), fun h => hce (byte_of_commandOf h)⟩

theorem PlainCommand.append (h : PlainCommand d) (bs : List Byte) : PlainCommand { d with fb := d.fb ++ bs } := by
  obtain ⟨hne, hpp, hce⟩ := h
  exact ⟨by simp [hne], by rwa [frameCommand_append hne], by rwa [frameCommand_append hne]⟩

theorem onFlash_completedAtMost (d : Device) : OnFlash (CompletedAtMost d) :=
  onFlash_device fun _ e => e.dmem = d.dmem ∨ d.dbusy = true ∧ e.dmem = (completed d).dmem

theorem onFlash_unstarted (d : Device) : OnFlash (Unstarted d) :=
  onFlash_device fun _ e => (e.dbusy = d.dbusy ∧ e.dpend = d.dpend ∧ e.dmem = d.dmem) ∨
    d.dbusy = true ∧ e.dbusy = false ∧ e.dmem = (completed d).dmem

theorem OnFlash.and (hP : OnFlash P) (hQ : OnFlash Q) : OnFlash fun s => P s ∧ Q s :=
  fun s t hcfg hbus hdev h => ⟨hP s t hcfg hbus hdev h.1, hQ s t hcfg hbus hdev h.2⟩

theorem onFlash_plainUnstarted (d : Device) : OnFlash (PlainUnstarted d) :=
  (onFlash_unstarted d).and (onFlash_device fun c e => c.present = true → PlainCommand e)

theorem select_unstarted (d : Device) : Passes (CompletedAtMost d) (Unstarted d) (OpenedUnstarted d) select :=
  passes_select (onFlash_unstarted d) (fun _ => Unstarted.completedAtMost) (fun _ => Unstarted.deviceTurn)
    (fun _ h => h) (fun s habsent h => ⟨h, fun hpresent => by simp [habsent] at hpresent⟩)
    fun _ _ h => ⟨h, fun _ => rfl⟩

theorem xfer_completedAtMost (d : Device) (b : Byte) :
    Passes (CompletedAtMost d) (CompletedAtMost d) (CompletedAtMost d) (xfer b) :=
  passes_xfer (onFlash_completedAtMost d) (onFlash_completedAtMost d) (fun _ h => h) (fun _ h => h) (fun _ _ h => h)
    (fun _ _ h => h) (fun _ _ h => h) fun _ _ h => h

theorem releaseCs_completedAtMost (d : Device) :
    Passes (CompletedAtMost d) (CompletedAtMost d) (CompletedAtMost d) releaseCs :=
  passes_releaseCs (fun _ h => h) (fun _ _ h => h) <|
    passes_endFrame (fun _ h => h.2) (fun _ h => h.2) (fun _ h => h.2) (fun _ _ h => h.2) fun _ _ _ _ h => h.2

theorem deselect_plain (d : Device) : Passes (CompletedAtMost d) (PlainUnstarted d) (Unstarted d) deselect := by
  refine passes_deselect (onFlash_plainUnstarted d)
    (fun _ => PlainUnstarted.completedAtMost) (passes_releaseCs (fun _ h => h) (fun _ _ h => h.1) ?_)
  exact passes_endFrame (fun _ h => h.2.completedAtMost) (fun _ h => h.2.1) (fun _ h => h.2.1)
    (fun _ hce h => absurd hce (h.2.2 h.1).2.2) fun _ _ _ hpp h => absurd hpp (h.2.2 h.1).2.1

/-- From a device that was `d`: only a frame that programs or erases starts an operation, when it ends, and that
leaves the array as it is (rules R143, R150, R156). -/
theorem frameRules_array (d : Device) :
    FrameRules (Unstarted d) (OpenedUnstarted d) (PlainUnstarted d) (CompletedAtMost d) where
  between := onFlash_unstarted d
  inside := onFlash_plainUnstarted d
  after := onFlash_completedAtMost d
  ends _ := Unstarted.completedAtMost
  cut _ := PlainUnstarted.completedAtMost
  opens := select_unstarted d
  command c hpp hce :=
    passes_xfer ((onFlash_unstarted d).and (onFlash_device fun c e => c.present = true → e.fb = []))
      (onFlash_plainUnstarted d)
      (fun _ => OpenedUnstarted.completedAtMost) (fun _ => PlainUnstarted.completedAtMost)
      (fun s habsent h => ⟨h.1, fun hpresent => by simp [habsent] at hpresent⟩)
      (fun s hp h => ⟨h.1, fun _ => by simpa [h.2 hp] using plainCommand_single hpp hce s.dev⟩)
      (fun _ _ h => h) fun _ _ h => h
  byte b :=
    passes_xfer (onFlash_plainUnstarted d)
      (onFlash_plainUnstarted d)
      (fun _ => PlainUnstarted.completedAtMost) (fun _ => PlainUnstarted.completedAtMost)
      (fun _ _ h => h) (fun _ _ h => ⟨h.1, fun hp => (h.2 hp).append [b]⟩) (fun _ _ h => h) fun _ _ h => h
  closes := deselect_plain d
  any bytes := .bind ((select_unstarted d).weaken fun _ => OpenedUnstarted.completedAtMost) fun _ =>
    .bind (passes_xferAll (xfer_completedAtMost d) bytes) fun _ =>
      passes_deselect (onFlash_completedAtMost d) (fun _ h => h) (releaseCs_completedAtMost d)

theorem resetController_completedAtMost (d : Device) :
    Passes (CompletedAtMost d) (CompletedAtMost d) (CompletedAtMost d) resetController :=
  passes_resetController (onFlash_completedAtMost d) (releaseCs_completedAtMost d)

/-- A step that follows the frame rules of the array changes it by a completion at most. -/
theorem run_completedAtMost {m : Act Unit}
    (h : Passes (CompletedAtMost s.dev) (Unstarted s.dev) (CompletedAtMost s.dev) m)
    (ht : runAct m s = .next t) : CompletedAtMost s.dev t :=
  h.run (resetController_completedAtMost s.dev) (.refl s) ht

theorem exec_completedAtMost {i : Instr} (hi : i ≠ .chipErase) (ht : exec i s = .next t) :
    CompletedAtMost s.dev t := by
  have W := frameRules_array s.dev
  rw [exec_body] at ht
  cases hb : bodyOf i with
  | request w m =>
    rw [hb] at ht
    exact run_completedAtMost (s := s.mapCtl (accepted w)) (W.request hi hb) (request_next ht).2
  | frame m =>
    rw [hb] at ht
    exact run_completedAtMost (W.frameBody hb) (putFrame_next ht).2

/-- Settles O45: no frame before the last of the instruction starts an operation (`frameRules_array`), so that none but
the one pending before it completes (`exec_completedAtMost`). -/
theorem onlyCompletionChangesTheArray : Obligations.OnlyCompletionChangesTheArray := by
  intro s t i hi ht
  have h := exec_completedAtMost hi ht
  refine ⟨h, fun hidle a => ?_⟩
  rcases h with hmem | ⟨hbusy, -⟩
  · rw [hmem]
  · rw [hidle] at hbusy; cases hbusy

end Sys2Proof.Machine
end


section
/-!
Only an erase sets a bit of the array (spec/41_flash_commands.md rules R159, R160): a step completes at most the
operation that was pending before it, unless CHIP_ERASE put a complete CE frame on the wire in it.
-/

namespace Sys2Proof.Machine

variable {s t : State} {d : Device}

/-! ### The record of the wire -/

/-- The record of the wire satisfies `G`. -/
def OnWire (G : List (List Byte) → Prop) (s : State) : Prop := G s.bus.wire

theorem onFlash_wire (G : List (List Byte) → Prop) : OnFlash (OnWire G) := fun s t _ hbus _ h => by
  unfold OnWire at h ⊢
  rwa [hbus]

section
variable {G : List (List Byte) → Prop} (hG : ∀ w f, G w → G (w ++ [f]))
include hG

/-- The release of the chip-select records the frame's bytes (rules R108, R122). -/
theorem releaseCs_wire : Passes (OnWire G) (OnWire G) (OnWire G) releaseCs :=
  passes_releaseCs (fun s h => hG _ s.bus.mosi h) (fun _ _ h => h) <|
    passes_endFrame (fun _ h => h.2) (fun _ h => h.2) (fun _ h => h.2) (fun _ _ h => h.2) fun _ _ _ _ h => h.2

/-- What is said of the record and stays true when it grows is kept by every bus primitive. -/
theorem frameRules_wire : FrameRules (OnWire G) (OnWire G) (OnWire G) (OnWire G) :=
  .of_kept (onFlash_wire G)
    (passes_select (onFlash_wire G) (fun _ h => h) (fun s h => by simpa [OnWire] using h) (fun _ h => h)
      (fun _ _ h => h) fun _ _ h => h)
    (fun _ => passes_xfer (onFlash_wire G) (onFlash_wire G) (fun _ h => h) (fun _ h => h) (fun _ _ h => h)
      (fun _ _ h => h) (fun _ _ h => h) fun _ _ h => h)
    (passes_deselect (onFlash_wire G) (fun _ h => h) (releaseCs_wire hG))

end

/-- The frames closed since the record was `w` include `f`. -/
def Sent (w : List (List Byte)) (f : List Byte) : State → Prop := OnWire fun x => ∃ new, x = w ++ new ∧ f ∈ new

/-- The record begins with `w`. -/
def Extends (w : List (List Byte)) : State → Prop := OnWire (w <+: ·)

theorem frameRules_extends (w : List (List Byte)) :
    FrameRules (Extends w) (Extends w) (Extends w) (Extends w) :=
  frameRules_wire fun _ f h => h.trans (List.prefix_append _ [f])

theorem sent_append (w : List (List Byte)) (f : List Byte) (x : List (List Byte)) (g : List Byte)
    (h : ∃ new, x = w ++ new ∧ f ∈ new) : ∃ new, x ++ [g] = w ++ new ∧ f ∈ new := by
  obtain ⟨new, rfl, hf⟩ := h
  exact ⟨new ++ [g], by simp, by simp [hf]⟩

/-- `Select()` ends the step where the chip-select is asserted already (rule R121). -/
theorem select_asserted (hc : s.bus.cs = true) (u : State) : select s ≠ .ok () u := by
  have h := tick_looked s
  unfold select
  rw [bind_apply]
  cases hm : tick s with
  | error e v => simp
  | ok a v =>
    rw [hm] at h
    simp [bind_apply, h.1.bus, hc]

/-- A complete frame is on the record. -/
theorem frame_sent (w : List (List Byte)) (f : List Byte) :
    Triple (Extends w) (frame f) (fun _ => Sent w f) fun _ _ => True := by
  rintro s ⟨new, hw⟩
  cases hc : s.bus.cs with
  | false =>
    have h := frame_wire f s ⟨hc, rfl⟩
    cases hm : frame f s with
    | ok a t => rw [hm] at h; exact ⟨new ++ [f], by rw [h.2, ← hw, List.append_assoc], by simp⟩
    | error e t => trivial
  | true =>
    rw [frame, bind_apply]
    cases hm : select s with
    | ok a u => exact absurd hm (select_asserted hc u)
    | error e u => trivial

/-! ### CHIP_ERASE -/

/-- The array changed by a completion at most since the device was `d`, or a CE frame went out since the record of the
wire was `w`. -/
def CompletedOrErased (d : Device) (w : List (List Byte)) (s : State) : Prop :=
  CompletedAtMost d s ∨ Sent w ceFrame s

theorem resetController_completedOrErased (d : Device) (w : List (List Byte)) :
    Passes (CompletedOrErased d w) (CompletedOrErased d w) (CompletedOrErased d w) resetController := by
  rintro s (h | h)
  · exact (resetController_completedAtMost d).conseq (fun _ h => h) (fun _ _ => .inl) (fun _ _ => .inl) s h
  · exact (passes_resetController (onFlash_wire _) (releaseCs_wire (sent_append w ceFrame))).conseq (fun _ h => h)
      (fun _ _ => .inr) (fun _ _ => .inr) s h

/-- Up to its CE frame CHIP_ERASE starts nothing (`frameRules_array`), and from there on the frame is on the record
(`frame_sent`). -/
theorem chipEraseOp_completedOrErased (d : Device) (w : List (List Byte)) :
    Passes (CompletedOrErased d w) (fun s => Unstarted d s ∧ Extends w s) (CompletedOrErased d w) chipEraseOp := by
  have A := frameRules_array d
  have X := frameRules_extends w
  have V := frameRules_wire (sent_append w ceFrame)
  have unsent {α : Type} {m : Act α} (h : Passes (CompletedAtMost d) (Unstarted d) (Unstarted d) m)
      (hx : Passes (Extends w) (Extends w) (Extends w) m) :
      Passes (CompletedOrErased d w) (fun s => Unstarted d s ∧ Extends w s)
        (fun s => Unstarted d s ∧ Extends w s) m :=
    (h.and hx).conseq (fun _ h => h) (fun _ _ h => h) fun _ _ h => .inl h.1
  have ends (code : Byte) :
      Passes (CompletedOrErased d w) (fun s => Unstarted d s ∧ Extends w s) (CompletedOrErased d w) (endWith code) :=
    (A.endWith code).conseq (fun _ h => h.1) (fun _ _ => .inl) fun _ _ => .inl
  have erase : Passes (CompletedOrErased d w) (fun s => Unstarted d s ∧ Extends w s) (Sent w ceFrame) issueCe :=
    (Triple.and (A.any ceFrame) (frame_sent w ceFrame)).conseq (fun _ h => h) (fun _ _ h => h.2) fun _ _ h => .inl h.1
  have waits : Passes (CompletedOrErased d w) (Sent w ceFrame) (CompletedOrErased d w) eraseWaitOp :=
    V.eraseWaitOp.conseq (fun _ h => h) (fun _ _ => .inr) fun _ _ => .inr
  exact .bind (unsent (A.gate _) (X.gate _)) fun _ => .bind .ask fun _ => .ite (fun _ => ends _) fun _ =>
    .bind (unsent (A.label _) (X.label _)) fun _ => .bind erase fun _ => waits

/-- A step that runs CHIP_ERASE from its gate. -/
theorem run_chipErase (ht : runAct chipEraseOp s = .next t) : CompletedOrErased s.dev s.bus.wire t :=
  (chipEraseOp_completedOrErased s.dev s.bus.wire).run (resetController_completedOrErased _ _)
    ⟨.refl s, List.prefix_refl _⟩ ht

/-! ### Every step -/

theorem step_completedOrErased (ht : step s = .next t) : CompletedOrErased s.dev s.bus.wire t := by
  have W := frameRules_array s.dev
  have same {u : State} (h : u.dev = s.dev) : CompletedOrErased s.dev s.bus.wire u := .inl (.inl (by rw [h]))
  cases step_cases ht with
  | request i v m hb _ run =>
    by_cases hi : i = .chipErase
    · subst hi; cases hb; exact run_chipErase (s := (popInbox s).mapCtl (accepted _)) run
    · exact .inl (run_completedAtMost (s := (popInbox s).mapCtl (accepted v)) (W.request hi hb) run)
  | illegal v _ run => exact .inl (run_completedAtMost (s := (popInbox s).mapCtl (accepted v)) (W.endWith _) run)
  | frame i m _ _ hb _ _ run => exact .inl (run_completedAtMost (s := popInbox s) (W.frameBody hb) run)
  | rawFrame _ bytes _ _ run => exact .inl (run_completedAtMost (s := popInbox s) (W.any bytes) run)
  | resume p _ _ run =>
    by_cases hp : p = .eraseGate
    · subst hp; exact run_chipErase run
    · exact .inl (run_completedAtMost (W.resumeOp hp) run)
  | turn h => subst h; exact .inl (Unstarted.refl s).deviceTurn.completedAtMost
  | reset _ _ run =>
    have h := resetController_completedAtMost s.dev (popInbox s) (.inl rfl)
    rw [run] at h
    exact .inl h
  | done busy h => subst h; exact .inl (.inr ⟨busy, rfl⟩)
  | data | pop | read | due => subst_vars; exact same rfl

/-- No bit is 1 in `m'` that is 0 in `m`. -/
def OnlyClears (m m' : Memory) : Prop :=
  ∀ a k, (readByte m' a).getLsbD k = true → (readByte m a).getLsbD k = true

/-- A program only clears bits (rule R159). -/
theorem memWrite_onlyClears {m : Memory} (h : memWf m = true) (a : Nat) (bytes : List Byte) :
    OnlyClears m (memWrite m a bytes) := by
  intro b k hk
  rw [readByte_memWrite h] at hk
  split at hk
  · exact (Bool.and_eq_true_iff.mp (BitVec.getLsbD_and ▸ hk)).1
  · exact hk

theorem CompletedAtMost.onlyClears (h : CompletedAtMost d s) (hwf : memWf d.dmem = true) (hp : d.dpend ≠ .erase) :
    OnlyClears d.dmem s.dev.dmem := by
  rcases h with hmem | ⟨-, hmem⟩
  · rw [hmem]; exact fun _ _ h => h
  · rw [hmem]
    cases hd : d.dpend with
    | none => simp only [completed, hd]; exact fun _ _ h => h
    | erase => exact absurd hd hp
    | prog a bytes => simp only [completed, hd]; exact memWrite_onlyClears hwf _ _

/-- Settles O46: a step without a CE frame completes at most the operation pending before it
(`step_completedOrErased`), and a program only clears bits (`memWrite_onlyClears`). -/
theorem onlyAnEraseSetsBits : Obligations.OnlyAnEraseSetsBits := by
  intro s t _ hwf hp ht hce
  rcases step_completedOrErased ht with h | ⟨new, hw, hnew⟩
  · exact h.onlyClears hwf hp
  · rw [newFrames_append hw] at hce
    exact absurd hnew hce

end Sys2Proof.Machine
end


section
/-!
The six frames on a present device (spec/41_flash_commands.md): what each puts on the wire and returns, what it leaves
of the device, and where the device model gives it no meaning; then the completion of a program.
-/

namespace Sys2Proof.Machine

variable {i : Instr} {bytes : List Byte} {a : FlashAddr} {s t : State}

theorem putFrame_ok {m : Act Unit} (hs : s.ctl.seq ≠ .halted) (h : m s = .ok () t) : putFrame m s = .next t :=
  (putFrame_running hs).trans (runAct_ok h)

theorem putFrame_fault {m : Act Unit} {f : Fault} (hs : s.ctl.seq ≠ .halted) (h : ∃ t, m s = .error (.fault f) t) :
    putFrame m s = .fault f :=
  let ⟨_, h⟩ := h
  (putFrame_running hs).trans (runAct_fault h)

/-! ### RDID, WREN, RDSR, CE -/

/-- Settles O33: the frame is `issueRdid_idle`. -/
theorem rdidReturnsTheIdentityPair : Obligations.RdidReturnsTheIdentityPair := by
  intro s hs free hp hb
  have hframe : (do let _ ← issueRdid; nop : Act Unit) s = .ok () _ := bind_ok (issueRdid_idle free.1 free.2 hp hb)
  exact ⟨_, putFrame_ok hs hframe, rfl, rfl, rfl, rfl, rfl, rfl, rfl⟩

/-- Settles O34: the frame is `issueWren_present`, whose latch is compared case by case. -/
theorem wrenSetsTheLatch : Obligations.WrenSetsTheLatch := by
  intro s hs free hp
  refine ⟨_, putFrame_ok hs (issueWren_present free.1 free.2 hp), rfl, deviceTurn_ctl s, rfl, ?_, rfl, rfl,
    deviceTurn_cfg s⟩
  cases s.cfg.wrenReject <;> cases (deviceTurn s).dev.dbusy <;> simp

/-- Settles O35: the frame is the status read (`readStatus_seen`), whose byte shows the two bits. -/
theorem rdsrShowsLatchAndBusy : Obligations.RdsrShowsLatchAndBusy := by
  intro s hs free hp
  have hframe : (do let _ ← readStatus; nop : Act Unit) s = .ok () _ := bind_ok (readStatus_seen free hp)
  exact ⟨_, statusSeen s, putFrame_ok hs hframe, rfl, rfl, statusSeen_bit0 s, statusSeen_bit1 s, rfl, rfl, rfl, rfl,
    rfl⟩

/-- Settles O36: the frame is `issueCe_present`, on a device that takes no turn. -/
theorem ceStartsAnEraseOnlyWithTheLatch : Obligations.CeStartsAnEraseOnlyWithTheLatch := by
  intro s hs free hp hb
  refine ⟨_, putFrame_ok hs (issueCe_present free.1 free.2 hp), rfl, deviceTurn_ctl s, ?_, rfl, rfl,
    deviceTurn_cfg s⟩
  simp only [deviceTurn_idle hb, hb, true_and]
  rfl

/-! ### READ -/

/-- Settles O37: the frame is `issueRead_idle`, whose answers after four draws are `memRead`. -/
theorem readStreamsTheArray : Obligations.ReadStreamsTheArray := by
  intro s a n hs free hp hb _ hfits
  refine ⟨_, putFrame_ok hs (issueRead_idle a n free.1 free.2 hp hb hfits), rfl, ?_, fun k hk => ?_, rfl, rfl, rfl, rfl,
    rfl⟩
  · simp [drawn, memRead]
  · simp [drawn, memRead, hk]

/-- The head of a `READ` frame on a present device that is not busy: it answers from `a` on (rule R152). -/
theorem openRead_answers (a : FlashAddr) (free : BusFree s) (hp : s.cfg.present = true) (hb : s.dev.dbusy = false) :
    ∃ t, openRead a s = .ok () t ∧ Reading t a.toNat ∧ t.cfg = s.cfg := by
  have haddr : (a.setWidth 25).toNat = a.toNat := BitVec.toNat_setWidth_of_le (by decide)
  exact ⟨_, openRead_idle a free.1 free.2 hp hb, ⟨rfl, free.2, hp, hb, ⟨_, _, _, _, rfl⟩, haddr⟩, rfl⟩

/-- Settles O38: the data bytes run past `END_ADDR` (`xferAll_reading_past`). -/
theorem readPastTheEndFaults : Obligations.ReadPastTheEndFaults := by
  intro s a n hs free hp hb hn hpast
  obtain ⟨t, hopen, hread, hcfg⟩ := openRead_answers a free hp hb
  obtain ⟨u, hfault⟩ := xferAll_reading_past (dummies n) hread (by rw [dummies_length, hcfg]; exact hpast)
    (List.ne_nil_of_length_pos (by rw [dummies_length]; exact hn))
  exact putFrame_fault hs ⟨u, (bind_ok hopen).trans (bind_error hfault)⟩

/-! ### PP -/

/-- The frames that the device model gives no meaning, by the three bounds (rules R156, R157). -/
theorem programIllegal_iff {c : Config} : programIllegal c a bytes = true ↔
    bytes.length > 256 ∨ a.toNat % 256 + bytes.length > 256 ∨ a.toNat + bytes.length - 1 > endAddr c := by
  simp [programIllegal, pageBytes, or_assoc]

/-- What becomes of a device that is not busy, by its latch and the program's bounds. -/
theorem ppDevice_started {c : Config} {d : Device} (hb : d.dbusy = false) (hw : d.dwel = true) (hne : bytes ≠ [])
    (hlegal : programIllegal c a bytes = false) :
    ppDevice c d a bytes = some { d with dbusy := true, dpend := .prog a bytes, fb := ppFrame a bytes } := by
  rw [ppDevice, if_pos ⟨hb, hw, hne⟩, if_neg (by simp [hlegal])]

/-- See `ppDevice_started`. -/
theorem ppDevice_illegal {c : Config} {d : Device} (hb : d.dbusy = false) (hw : d.dwel = true) (hne : bytes ≠ [])
    (hillegal : programIllegal c a bytes = true) : ppDevice c d a bytes = none := by
  rw [ppDevice, if_pos ⟨hb, hw, hne⟩, if_pos hillegal]

/-- See `ppDevice_started`. -/
theorem ppDevice_ignored {c : Config} {d : Device} (hw : d.dwel = false) :
    ppDevice c d a bytes = some { d with fb := ppFrame a bytes } := by
  rw [ppDevice, if_neg (by simp [hw])]

/-- Settles O39: the frame is `issuePp_present`, whose program is legal. -/
theorem ppStartsAProgramOnlyWithTheLatch : Obligations.PpStartsAProgramOnlyWithTheLatch := by
  intro s a bytes hs free hp hb hne hlen hpage hend
  have hframe := issuePp_present a bytes free.1 free.2 hp
  rw [deviceTurn_idle hb] at hframe
  by_cases hw : s.dev.dwel = true
  · have hlegal : programIllegal s.cfg a bytes = false := by
      rw [Bool.eq_false_iff, Ne, programIllegal_iff]
      omega
    rw [ppDevice_started hb hw hne hlegal] at hframe
    exact ⟨_, putFrame_ok hs hframe, rfl, rfl, (if_pos hw).symm, rfl, rfl, rfl⟩
  · rw [ppDevice_ignored (Bool.eq_false_iff.mpr hw)] at hframe
    exact ⟨_, putFrame_ok hs hframe, rfl, rfl, (if_neg hw).symm, rfl, rfl, rfl⟩

/-- Settles O40: the frame is `issuePp_present`, whose program is illegal. -/
theorem illegalProgramFaults : Obligations.IllegalProgramFaults := by
  intro s a bytes hs free hp hb hw hne hbounds
  have hframe := issuePp_present a bytes free.1 free.2 hp
  rw [deviceTurn_idle hb, ppDevice_illegal hb hw hne (programIllegal_iff.mpr hbounds)] at hframe
  exact putFrame_fault hs hframe

/-! ### A busy device -/

/-- A frame that does not open with 0x05, on a busy device (rule R142). -/
theorem putFrame_refused {c : Byte} (rest : List Byte) (hc : c ≠ 0x05) (hs : s.ctl.seq ≠ .halted) (free : BusFree s)
    (hp : s.cfg.present = true) (hb : (deviceTurn s).dev.dbusy = true) : putFrame (frame (c :: rest)) s =
      .next (afterDraws (deviceTurn s) (c :: rest) { (deviceTurn s).dev with fb := c :: rest }) :=
  putFrame_ok hs (frame_refused rest (fun h => hc (byte_of_commandOf h)) free hp hb)

/-- The command byte of a frame instruction other than RDSR is not 0x05. -/
theorem encode_cons (he : encode i = .frame bytes) (hi : i ≠ .rdsr) : ∃ c rest, bytes = c :: rest ∧ c ≠ 0x05 := by
  cases i <;> cases he
  case rdsr => exact absurd rfl hi
  all_goals exact ⟨_, _, rfl, by decide⟩

/-- An issued frame that does not open with 0x05 is put on the wire byte for byte, an instruction or not (log entry 3). -/
theorem step_frame {c : Byte} {rest : List Byte} {moves : List Input} (hc : c ≠ 0x05) (idle : s.ctl.seq = .idle)
    (hin : s.env.inbox = .issue (.frame (c :: rest)) :: moves) :
    step s = putFrame (frame (c :: rest)) (popInbox s) := by
  cases hd : decode (.frame (c :: rest)) with
  | error e => exact step_undecoded idle hin hd
  | ok i =>
    have he := (decode_ok_iff.mp hd).1
    have hi : i ≠ .rdsr := by
      rintro rfl
      cases he
      exact hc rfl
    rw [stepRunsTheDecodedInstruction s _ i moves idle hin hd, exec_frame he hi]

/-- Settles O41: every such frame, an instruction (`exec_frame`) or not (`step_frame`), is refused
(`putFrame_refused`). -/
theorem busyDeviceRefusesFrames : Obligations.BusyDeviceRefusesFrames := by
  refine ⟨fun s i bytes he hi hs free hp hb => ?_, fun s c bytes rest hc idle hin free hp hb => ?_⟩
  · obtain ⟨c, rest, rfl, hc⟩ := encode_cons he hi
    refine ⟨_, (exec_frame he hi s).trans (putFrame_refused rest hc hs free hp hb), deviceTurn_ctl s, rfl, ?_, rfl, ?_,
      rfl, deviceTurn_cfg s⟩
    · simp [afterDraws, drawn]
    · simp [afterDraws]
  · have hdev : (deviceTurn (popInbox s)).dev = (deviceTurn s).dev := by rw [deviceTurn_dev, deviceTurn_dev]; rfl
    have hs : (popInbox s).ctl.seq ≠ .halted := by simp [idle]
    refine ⟨_, (step_frame hc idle hin).trans (putFrame_refused bytes hc hs free hp (by rw [hdev]; exact hb)),
      deviceTurn_ctl _, by rw [← hdev]; rfl, ?_, rfl, ?_, rfl, deviceTurn_cfg _⟩
    · simp [afterDraws, drawn]
    · simp [afterDraws]

/-! ### The completion of a program -/

/-- Settles O44: the move completes the device, and a program leaves old AND new (`readByte_memWrite`). -/
theorem completedProgramClearsBits : Obligations.CompletedProgramClearsBits := by
  intro s rest a bytes hin hb hp hwf
  have hstep : step s = .next ((popInbox s).mapDev completed) := by simp only [step, moveStep, hin, hb, if_true]
  have hmem : (completed s.dev).dmem = memWrite s.dev.dmem a.toNat bytes := by simp only [completed, hp]
  refine ⟨_, hstep, fun b => ?_, ?_, rfl, rfl, rfl, rfl, rfl, rfl⟩
  · rw [mapDev_dev, popInbox_dev, hmem]
    exact readByte_memWrite hwf a.toNat bytes b
  · rw [mapDev_dev, popInbox_dev, hmem]
    exact memWf_memWrite hwf a.toNat bytes

end Sys2Proof.Machine
end


section
/-!
The ready-wait and the operations that begin with it (spec/42_status_ready.md): one status read, whether a device is
there or not; one busy poll, whichever operation stands at it; and how an operation comes from its request to its
first poll. Then a device that is never ready, polled any number of times.
-/

namespace Sys2Proof.Machine

variable {i : Instr} {p : Poll} {w : HostWord} {m : Act Unit} {s : State}

/-! ### One status read -/

/-- What the next status read returns: the status byte, or 0xFF with no device (rules R128, R148). -/
def rxSeen (s : State) : Rx := if s.cfg.present then statusSeen s else .byte absentByte

/-- The state after the next status read (rules R127, R128, R180). -/
def afterRead (s : State) : State := if s.cfg.present then afterStatus s else afterNoStatus s

theorem readStatus_eq (h : BusFree s) : readStatus s = .ok (rxSeen s) (afterRead s) := by
  cases hp : s.cfg.present with
  | true => simpa [rxSeen, afterRead, hp] using readStatus_seen h hp
  | false => simpa [rxSeen, afterRead, hp] using readStatus_unseen h hp

@[simp] theorem rxSeen_mapCtl (s : State) (f : Controller → Controller) : rxSeen (s.mapCtl f) = rxSeen s := by
  simp [rxSeen]

theorem rxSeen_bits (hp : s.cfg.present = true) : (rxSeen s).toByte.getLsbD 0 = (deviceTurn s).dev.dbusy ∧
    (rxSeen s).toByte.getLsbD 1 = (deviceTurn s).dev.dwel := by
  rw [rxSeen, if_pos hp]
  exact ⟨statusSeen_bit0 s, statusSeen_bit1 s⟩

theorem rxSeen_absent (hp : s.cfg.present = false) : (rxSeen s).toByte = 0xFF := by
  rw [rxSeen, if_neg (by simp [hp])]
  rfl

@[simp] theorem afterNoStatus_ctl (s : State) : (afterNoStatus s).ctl = { s.ctl with lastSr := absentByte } := rfl
@[simp] theorem afterNoStatus_cs (s : State) : (afterNoStatus s).bus.cs = false := rfl
@[simp] theorem afterNoStatus_wire (s : State) : (afterNoStatus s).bus.wire = s.bus.wire ++ [rdsrFrame] := rfl
@[simp] theorem afterNoStatus_turns (s : State) : (afterNoStatus s).env.turns = (deviceTurn s).env.turns := rfl
@[simp] theorem afterStatus_turns (s : State) : (afterStatus s).env.turns = (deviceTurn s).env.turns := rfl

@[simp] theorem afterRead_cfg (s : State) : (afterRead s).cfg = s.cfg := by
  cases hp : s.cfg.present <;> simp [afterRead, hp]
@[simp] theorem afterRead_ctl (s : State) : (afterRead s).ctl = { s.ctl with lastSr := (rxSeen s).toByte } := by
  cases hp : s.cfg.present <;> simp [afterRead, rxSeen, hp, Rx.toByte]
@[simp] theorem afterRead_cs (s : State) : (afterRead s).bus.cs = false := by
  cases hp : s.cfg.present <;> simp [afterRead, hp]
@[simp] theorem afterRead_wire (s : State) : (afterRead s).bus.wire = s.bus.wire ++ [rdsrFrame] := by
  cases hp : s.cfg.present <;> simp [afterRead, hp]
@[simp] theorem afterRead_due (s : State) : (afterRead s).env.due = s.env.due := by
  cases hp : s.cfg.present <;> simp [afterRead, hp]
@[simp] theorem afterRead_inbox (s : State) : (afterRead s).env.inbox = s.env.inbox := by
  cases hp : s.cfg.present <;> simp [afterRead, hp]
@[simp] theorem afterRead_turns (s : State) : (afterRead s).env.turns = (deviceTurn s).env.turns := by
  cases hp : s.cfg.present <;> simp [afterRead, hp]

/-- A status read leaves the device as the frame found it, but for its frame buffer (rules R127, R181). -/
theorem afterRead_dev (s : State) : (afterRead s).dev = { (deviceTurn s).dev with fb := (afterRead s).dev.fb } := by
  cases hp : s.cfg.present <;> simp [afterRead, hp]

/-- Settles O12: the operation is one status read (`readStatus_eq`) and its end. -/
theorem readStatusLatchesTheStatusByte : Obligations.ReadStatusLatchesTheStatusByte := by
  intro s idle free
  have hop : readStatusOp (s.mapCtl (accepted (hostWord 0x02 0))) = .ok () _ :=
    (bind_ok (label_free .statusRead (by exact free.2))).trans <|
      (bind_ok (readStatus_eq (s := (s.mapCtl _).atLabel .statusRead) free)).trans <|
        endWith_free resOk (by simpa using free.2)
  have hw : hostWord 0x02 0 = 0x00000002 := by decide
  rw [hw] at hop
  refine ⟨_, (rxSeen s).toByte, request_ok idle (by rw [hw]; exact hop), rxSeen_bits, rxSeen_absent, ?_, ?_, by simp,
    by simp, by simp⟩
  · simp only [mapCtl_ctl, afterRead_ctl]
    simp [State.atLabel, finished, resOk]
  · simpa using afterRead_dev ((s.mapCtl (accepted 0x00000002)).atLabel .statusRead)

/-! ### One poll of a ready-wait -/

theorem busyNext_of_not_readyNext (h : ¬ ReadyNext s) : BusyNext s := by
  cases hp : s.cfg.present with
  | false => exact .inl hp
  | true => exact .inr (by simpa [ReadyNext, hp] using h)

theorem rxSeen_busyBit (h : BusyNext s) : (rxSeen s).busyBit = true := by
  cases hp : s.cfg.present with
  | false => rw [rxSeen, if_neg (by simp [hp])]; decide
  | true => simpa [rxSeen, hp, BusyNext] using h

/-- What an operation writes at each busy poll: CHIP_ERASE logs its progress (rule R212). -/
def whileBusy : Poll → Controller → Controller
  | .eraseWait => fun c => { c with log := c.log ++ [.eraseProgress] }
  | .awaitPoll | .enableGate | .eraseGate | .scanPoll | .writeGate | .writeReady | .dumpPoll => id

/-- The state after a busy poll at `p` (rules R182, R186). -/
def busyPoll (p : Poll) (s : State) : State := ((afterRead s).atLabel (.poll p)).mapCtl (whileBusy p)

theorem afterRead_atLabel (s : State) (l : MicroPos) : afterRead (s.atLabel l) = (afterRead s).atLabel l := by
  cases hp : s.cfg.present <;> simp [afterRead, hp, afterStatus_atLabel, afterNoStatus_atLabel]

/-- A ready-wait at a device that is absent or stays busy ends the step at its poll. -/
theorem awaitReady_stays (here : Poll) (free : BusFree s) (busy : BusyNext s) :
    awaitReady here (updCtl (whileBusy here)) s = .error .suspended (busyPoll here s) := by
  have hbusy : (rxSeen (s.atLabel (.poll here))).busyBit = true := by
    rw [State.atLabel, rxSeen_mapCtl]; exact rxSeen_busyBit busy
  rw [awaitReady, bind_ok (label_free _ free.2), bind_ok (readStatus_eq (free.atLabel _)), if_pos hbusy,
    afterRead_atLabel]
  rfl

section
variable (p : Poll) (s : State)

theorem busyPoll_ctl : (busyPoll p s).ctl =
    whileBusy p { s.ctl with mpc := some (.poll p), lastSr := (rxSeen s).toByte } := by simp [busyPoll]
@[simp] theorem busyPoll_cfg : (busyPoll p s).cfg = s.cfg := by simp [busyPoll]
@[simp] theorem busyPoll_wire : (busyPoll p s).bus.wire = s.bus.wire ++ [rdsrFrame] := by simp [busyPoll]
@[simp] theorem busyPoll_inbox : (busyPoll p s).env.inbox = s.env.inbox := by simp [busyPoll]
@[simp] theorem busyPoll_turns : (busyPoll p s).env.turns = (deviceTurn s).env.turns := by simp [busyPoll]
theorem busyPoll_dev : (busyPoll p s).dev = { (deviceTurn s).dev with fb := (busyPoll p s).dev.fb } := afterRead_dev s

end

theorem BusFree.busyPoll (h : BusFree s) (p : Poll) : BusFree (busyPoll p s) :=
  ⟨by simp [Machine.busyPoll], by simpa [Machine.busyPoll] using h.2⟩

theorem whileBusy_log (p : Poll) (c : Controller) : whileBusy p c = { c with log := (whileBusy p c).log } := by
  cases p <;> rfl

theorem busyPoll_waitsAt (free : BusFree s) (p : Poll) : WaitsAt p s (busyPoll p s) := by
  refine ⟨free.busyPoll p, busyPoll_cfg p s, ?_, busyPoll_dev p s, busyPoll_wire p s⟩
  rw [busyPoll_ctl, whileBusy_log]

/-- One busy poll of the operation that stands at `p`, whichever it is. -/
theorem resumeOp_stays (free : BusFree s) (inv : PollInv s.cfg s.ctl s.dev p) (busy : BusyNext s) :
    resumeOp p s = .error .suspended (busyPoll p s) := by
  cases p with
  | awaitPoll => exact bind_error (awaitReady_stays .awaitPoll free busy)
  | enableGate => exact bind_error (bind_error (awaitReady_stays .enableGate free busy))
  | eraseGate => exact bind_error (bind_error (awaitReady_stays .eraseGate free busy))
  | eraseWait => exact bind_error (awaitReady_stays .eraseWait free busy)
  | scanPoll => exact bind_error (awaitReady_stays .scanPoll free busy)
  | writeGate => exact bind_error (bind_error (awaitReady_stays .writeGate free busy))
  | writeReady => exact bind_error (awaitReady_stays .writeReady free busy)
  | dumpPoll =>
    obtain ⟨n, hleft⟩ := Nat.exists_eq_add_one.mpr (Nat.sub_pos_of_lt inv)
    have hpidx : (s.mapCtl fun c => { c with pidx := BitVec.ofNat 17 s.ctl.pidx.toNat }) = s := by
      simp [State.mapCtl]
    rw [resumeOp, dumpResumeOp, bind_ok (ask_apply s), hleft, dumpPages, bind_ok (updCtl_apply _ s), hpidx]
    exact bind_error (awaitReady_stays .dumpPoll free busy)

/-! ### From a request to the first poll -/

/-- Where each operation first waits: at once, or WRITE_DATA when its checks have passed (rule R246). -/
def entryPoll : Instr → Option Poll
  | .writeData _ => some .writeGate
  | i => firstPoll i

/-- The registers an operation writes before its first poll: DUMP_ALL clears `SUM` and is before page 0 (rule R281). -/
def entered : Instr → Controller → Controller
  | .dumpAll, c => { c with sum := 0, pidx := 0 }
  | _, c => c

theorem entryPoll_of_firstPoll (h : firstPoll i = some p) : entryPoll i = some p := by
  cases i <;> cases h <;> rfl

theorem entered_eq (i : Instr) (c : Controller) :
    entered i c = { c with sum := (entered i c).sum, pidx := (entered i c).pidx } := by
  cases i <;> rfl

theorem bodyOf_entryPoll (h : entryPoll i = some p) : ∃ w m, bodyOf i = .request w m := by
  cases i <;> cases h <;> exact ⟨_, _, rfl⟩

/-- An operation that needs nothing checked may wait at its first poll. -/
theorem pollInv_entered (h : firstPoll i = some p) (g : Config) (c : Controller) (d : Device) :
    PollInv g (entered i c) d p := by
  cases i <;> cases h
  case dumpAll => exact npages_pos g
  all_goals trivial

/-- A ready-wait sets `MPC` before it does anything else. -/
theorem awaitReady_atLabel (here : Poll) (onBusy : Act Unit) (s : State) (l : MicroPos) :
    awaitReady here onBusy (s.atLabel l) = awaitReady here onBusy s := by
  simp only [awaitReady, bind_apply]
  rfl

theorem writeDataOp_checked (due : s.env.due = []) (inv : PollInv s.cfg s.ctl s.dev .writeGate) :
    writeDataOp s = writeGateOp s := by
  obtain ⟨hlen, hcap, hpage⟩ := inv
  rw [writeDataOp, bind_ok (label_free _ due), bind_ok (ask_apply _), if_neg (by exact hlen),
    if_neg (by simpa using hcap), if_neg (by simpa using hpage)]
  simp only [writeGateOp, gate, bind_apply, awaitReady_atLabel]

/-- A dump with a page to go sets `PIDX` and `MPC` before it does anything else. -/
theorem dumpPages_entry (k n : Nat) (s : State) (l : Option MicroPos) (x : BitVec 17) :
    dumpPages k (n + 1) (s.mapCtl fun c => { c with mpc := l, pidx := x }) = dumpPages k (n + 1) s := by
  have hwait : awaitReady .dumpPoll nop ((s.mapCtl fun c => { c with mpc := l, pidx := x }).mapCtl fun c =>
      { c with pidx := BitVec.ofNat 17 k }) =
      awaitReady .dumpPoll nop (s.mapCtl fun c => { c with pidx := BitVec.ofNat 17 k }) := by
    simp only [awaitReady, bind_apply]
    rfl
  rw [dumpPages, bind_ok (updCtl_apply _ _), bind_ok (updCtl_apply _ _), bind_apply, bind_apply, hwait]

theorem dumpAllOp_entered (due : s.env.due = []) : dumpAllOp s = dumpResumeOp (s.mapCtl (entered .dumpAll)) := by
  obtain ⟨n, hn⟩ := Nat.exists_eq_add_one.mpr (npages_pos s.cfg)
  obtain ⟨u, hu⟩ : ∃ u, (s.mapCtl fun c => { c with sum := 0 }) = u := ⟨_, rfl⟩
  have hstart : dumpAllOp s =
      dumpPages 0 (n + 1) (u.mapCtl fun c => { c with mpc := some .dumpStart, pidx := s.ctl.pidx }) := by
    rw [dumpAllOp, bind_ok (label_free _ due), bind_ok (updCtl_apply _ _), bind_ok (ask_apply _), mapCtl_cfg,
      atLabel_cfg, hn, ← hu]
    rfl
  have hresume : dumpResumeOp (s.mapCtl (entered .dumpAll)) =
      dumpPages 0 (n + 1) (u.mapCtl fun c => { c with mpc := s.ctl.mpc, pidx := 0 }) := by
    rw [dumpResumeOp, bind_ok (ask_apply _), mapCtl_cfg, hn, ← hu]
    rfl
  rw [hstart, hresume, dumpPages_entry, dumpPages_entry]

/-- From its request an operation comes to its first poll with no frame and no event, and goes on as if resumed
there (rules R182, R246, R281). -/
theorem body_entered (hi : entryPoll i = some p) (hb : bodyOf i = .request w m) (due : s.env.due = [])
    (inv : PollInv s.cfg (entered i s.ctl) s.dev p) : m s = resumeOp p (s.mapCtl (entered i)) := by
  cases i <;> cases hi <;> cases hb
  case writeData => exact writeDataOp_checked due inv
  case dumpAll => exact dumpAllOp_entered due
  all_goals rfl

/-! ### A request on a busy device -/

/-- Where an operation's first step ends on a device that is absent or stays busy: at its first poll, `w` taken. -/
def heldUp (i : Instr) (p : Poll) (w : HostWord) (s : State) : State :=
  busyPoll p (s.mapCtl fun c => entered i (accepted w c))

theorem exec_heldUp (hi : entryPoll i = some p) (hb : bodyOf i = .request w m) (idle : s.ctl.seq = .idle)
    (free : BusFree s) (busy : BusyNext s) (inv : PollInv s.cfg (entered i (accepted w s.ctl)) s.dev p) :
    exec i s = .next (heldUp i p w s) := by
  have hbusy : BusyNext (s.mapCtl fun c => entered i (accepted w c)) := by simpa [BusyNext] using busy
  have hop : m (s.mapCtl (accepted w)) = .error .suspended (heldUp i p w s) :=
    (body_entered hi hb (by exact free.2) inv).trans (resumeOp_stays (by exact free) (by exact inv) hbusy)
  rw [exec_body, hb]
  exact request_suspended idle hop

/-- The registers there: those of the request, of the wait, and DUMP_ALL's own. -/
theorem heldUp_ctl (hi : entryPoll i = some p) : (heldUp i p w s).ctl = { accepted w s.ctl with
    mpc := some (.poll p), lastSr := (rxSeen s).toByte
    sum := (entered i (accepted w s.ctl)).sum, pidx := (entered i (accepted w s.ctl)).pidx } := by
  have hquiet : whileBusy p = id := by cases i <;> cases hi <;> rfl
  rw [heldUp, busyPoll_ctl, hquiet, mapCtl_ctl, entered_eq, rxSeen_mapCtl]
  rfl

@[simp] theorem heldUp_cfg (i : Instr) (p : Poll) (w : HostWord) (s : State) : (heldUp i p w s).cfg = s.cfg := by
  simp [heldUp]
@[simp] theorem heldUp_wire (i : Instr) (p : Poll) (w : HostWord) (s : State) :
    (heldUp i p w s).bus.wire = s.bus.wire ++ [rdsrFrame] := by simp [heldUp]
@[simp] theorem heldUp_inbox (i : Instr) (p : Poll) (w : HostWord) (s : State) :
    (heldUp i p w s).env.inbox = s.env.inbox := by simp [heldUp]

theorem heldUp_dev (i : Instr) (p : Poll) (w : HostWord) (s : State) :
    (heldUp i p w s).dev = { (deviceTurn s).dev with fb := (heldUp i p w s).dev.fb } := by
  simpa [heldUp] using busyPoll_dev p (s.mapCtl fun c => entered i (accepted w c))

theorem BusFree.heldUp (h : BusFree s) (i : Instr) (p : Poll) (w : HostWord) : BusFree (heldUp i p w s) :=
  BusFree.busyPoll (by exact h) p

theorem rxSeen_bit0 (h : BusyNext s) : (rxSeen s).toByte.getLsbD 0 = true := by
  rw [(toByte_bits _).1, rxSeen_busyBit h]

/-- Settles O14: the operation is held up at its first poll (`exec_heldUp`). -/
theorem readyWaitStaysInProgressWhileBusy : Obligations.ReadyWaitStaysInProgressWhileBusy := by
  intro s i p hi idle free busy
  have hentry := entryPoll_of_firstPoll hi
  obtain ⟨w, m, hb⟩ := bodyOf_entryPoll hentry
  have hctl := heldUp_ctl (w := w) (s := s) hentry
  refine ⟨_, exec_heldUp hentry hb idle free busy (pollInv_entered hi _ _ _), ?_, ?_, ?_, ?_, ?_, ?_, ?_, ?_,
    heldUp_dev i p w s, heldUp_wire i p w s, (free.heldUp i p w).1, heldUp_cfg i p w s⟩
  case refine_3 => rw [hctl]; exact rxSeen_bit0 busy
  all_goals simp [hctl, accepted]

/-- The same request made there again writes what the registers hold already (rule R33). -/
theorem heldUp_requested (hi : entryPoll i = some p) :
    ({ heldUp i p w s with ctl := { (heldUp i p w s).ctl with seq := .idle } } : State).mapCtl (accepted w) =
      heldUp i p w s := by
  have hctl : accepted w { (heldUp i p w s).ctl with seq := .idle } = (heldUp i p w s).ctl := by
    rw [heldUp_ctl hi]
    rfl
  exact congrArg (fun c => { heldUp i p w s with ctl := c }) hctl

/-- See `heldUp_requested`. -/
theorem heldUp_entered (hi : entryPoll i = some p) : entered i (heldUp i p w s).ctl = (heldUp i p w s).ctl := by
  rw [heldUp_ctl hi]
  cases i <;> rfl

/-- The step that polls again from there is the operation itself, requested there (rules R182, R246). -/
theorem step_heldUp (hi : entryPoll i = some p) (hb : bodyOf i = .request w m) (free : BusFree s)
    (hin : s.env.inbox = []) (inv : PollInv s.cfg (entered i (accepted w s.ctl)) s.dev p) :
    step (heldUp i p w s) =
      exec i { heldUp i p w s with ctl := { (heldUp i p w s).ctl with seq := .idle } } := by
  have hrequested := heldUp_requested (w := w) (s := s) hi
  have hentered := heldUp_entered (w := w) (s := s) hi
  have hctl := heldUp_ctl (w := w) (s := s) hi
  have hwaits : WaitsAt p _ (heldUp i p w s) := busyPoll_waitsAt (by exact free) p
  have htin : (heldUp i p w s).env.inbox = [] := by rw [heldUp_inbox]; exact hin
  generalize heldUp i p w s = t at *
  have hrun : m t = resumeOp p t := by
    rw [body_entered hi hb hwaits.free.2 (by rw [hentered]; exact hwaits.pollInv inv)]
    exact congrArg (fun c => resumeOp p { t with ctl := c }) hentered
  calc step t = runAct (resumeOp p) t := step_resume (by rw [hctl, accepted_seq]) (by rw [hctl]) (.inl htin)
    _ = runAct m t := by simp only [runAct, hrun]
    _ = runAct m (({ t with ctl := { t.ctl with seq := .idle } } : State).mapCtl (accepted w)) := by rw [hrequested]
    _ = request w m { t with ctl := { t.ctl with seq := .idle } } := (request_idle rfl).symm
    _ = exec i { t with ctl := { t.ctl with seq := .idle } } := by rw [exec_body, hb]

/-- Settles O15: the operation is held up (`exec_heldUp`), and the step from there is its request (`step_heldUp`). -/
theorem busyStartOnlyDelaysTheOperation : Obligations.BusyStartOnlyDelaysTheOperation := by
  intro s i p hi idle free hin busy
  obtain ⟨w, m, hb, hentry, inv⟩ : ∃ w m, bodyOf i = .request w m ∧ entryPoll i = some p ∧
      PollInv s.cfg (entered i (accepted w s.ctl)) s.dev p := by
    rcases hi with hi | ⟨len, rfl, rfl, hlen, hcap, hpage⟩
    · obtain ⟨w, m, hb⟩ := bodyOf_entryPoll (entryPoll_of_firstPoll hi)
      exact ⟨w, m, hb, entryPoll_of_firstPoll hi, pollInv_entered hi _ _ _⟩
    · exact ⟨_, _, rfl, rfl, checked_iff.mp ⟨by simpa [entered] using hlen, by simpa [entered, size] using hcap,
        by simpa [entered] using hpage⟩⟩
  have hctl := heldUp_ctl (w := w) (s := s) hentry
  refine ⟨_, exec_heldUp hentry hb idle free busy inv, ?_, ?_, ?_, ?_, ?_, ?_, ?_, heldUp_dev i p w s,
    free.heldUp i p w, heldUp_wire i p w s, step_heldUp hentry hb free hin inv⟩
  all_goals simp [hctl, accepted]

/-! ### A device that is never ready -/

/-- The operation in progress stands at the poll `p`, from where it may go on, with nothing due from outside. -/
structure Standing (p : Poll) (s : State) : Prop where
  busy  : s.ctl.seq = .exec
  mpc   : s.ctl.mpc = some (.poll p)
  inv   : PollInv s.cfg s.ctl s.dev p
  free  : BusFree s
  inbox : s.env.inbox = []

theorem Standing.step (h : Standing p s) : step s = runAct (resumeOp p) s := step_resume h.busy h.mpc (.inl h.inbox)

/-- After a busy poll the operation stands at that poll. -/
theorem standing_busyPoll (busy : s.ctl.seq = .exec) (inv : PollInv s.cfg s.ctl s.dev p) (free : BusFree s)
    (hin : s.env.inbox = []) : Standing p (busyPoll p s) := by
  have hwaits := busyPoll_waitsAt free p
  exact ⟨by rw [hwaits.ctl]; exact busy, by rw [hwaits.ctl], hwaits.pollInv inv, hwaits.free,
    (busyPoll_inbox p s).trans hin⟩

/-- No poll of this device ever reads ready: it is absent, or it is busy and never completes (rules R128, R163, R186). -/
def NeverReady (s : State) : Prop :=
  s.cfg.present = false ∨ s.cfg.fair = false ∧ s.dev.dbusy = true ∧ s.env.turns = []

theorem NeverReady.turn (h : NeverReady s) : s.cfg.present = false ∨
    s.cfg.fair = false ∧ (deviceTurn s).dev.dbusy = true ∧ (deviceTurn s).env.turns = [] := by
  refine h.imp id fun ⟨hfair, hb, hturns⟩ => ⟨hfair, ?_⟩
  simp [deviceTurn, turnTaken, hfair, hb, hturns]

theorem NeverReady.busyNext (h : NeverReady s) : BusyNext s := h.turn.imp id fun ⟨_, hb, _⟩ => hb

theorem NeverReady.busyPoll (h : NeverReady s) (p : Poll) : NeverReady (busyPoll p s) := by
  unfold NeverReady
  rw [busyPoll_cfg, busyPoll_turns, busyPoll_dev]
  exact h.turn

/-- A busy poll writes no result. -/
@[simp] theorem busyPoll_result (p : Poll) (s : State) : (busyPoll p s).ctl.result = s.ctl.result := by
  rw [busyPoll_ctl, whileBusy_log]

/-- The wait goes on for as long as the device is polled (rule R186). -/
theorem run_neverReady (n : Nat) (h : Standing p s) (never : NeverReady s) :
    ∃ u, Host.Core.run Sys2Proof.core n s = .next u ∧ u.ctl.seq = .exec ∧ u.ctl.mpc = some (.poll p) ∧
      u.ctl.result = s.ctl.result := by
  induction n generalizing s with
  | zero => exact ⟨s, rfl, h.busy, h.mpc, rfl⟩
  | succ n ih =>
    have hstep : Machine.step s = .next (busyPoll p s) :=
      h.step.trans (runAct_suspended (resumeOp_stays h.free h.inv never.busyNext))
    obtain ⟨u, hrun, hseq, hmpc, hresult⟩ := ih (standing_busyPoll h.busy h.inv h.free h.inbox) (never.busyPoll p)
    exact ⟨u, (run_succ n hstep).trans hrun, hseq, hmpc, hresult.trans (busyPoll_result p s)⟩

/-- Settles O16: a request stands at its first poll after one step (`exec_heldUp`), and from every poll the wait goes
on (`run_neverReady`, by induction on the number of steps). -/
theorem neverReadyDeviceHangsTheReadyWait : Obligations.NeverReadyDeviceHangsTheReadyWait := by
  refine ⟨fun s i p n hi idle free hin never => ?_, fun s p n busy mpc inv free hin never =>
    run_neverReady n ⟨busy, mpc, inv, free, hin⟩ never⟩
  have hentry := entryPoll_of_firstPoll hi
  obtain ⟨w, m, hb⟩ := bodyOf_entryPoll hentry
  have inv := pollInv_entered hi s.cfg (accepted w s.ctl) s.dev
  have hseq : (entered i (accepted w s.ctl)).seq = .exec := by rw [entered_eq, accepted_seq]
  have hresult : (entered i (accepted w s.ctl)).result = s.ctl.result := by rw [entered_eq]; rfl
  have hstands : Standing p (heldUp i p w s) := standing_busyPoll hseq inv free hin
  obtain ⟨u, hrun, useq, umpc, uresult⟩ := run_neverReady n hstands (NeverReady.busyPoll (by exact never) p)
  refine ⟨_, u, exec_heldUp hentry hb idle free (NeverReady.busyNext never) inv, hrun, useq, umpc, uresult.trans ?_⟩
  rw [heldUp, busyPoll_result, mapCtl_ctl, hresult]

end Sys2Proof.Machine
end


section
/-!
A device that is ready at the poll: the operation in progress then runs to its end in that step, but for CHIP_ERASE,
which may wait once more after its `CE` frame. With a fair device every wait is therefore over after as many polls as
the schedule lets pass (spec/42_status_ready.md rule R187).
-/

namespace Sys2Proof.Machine

variable {α : Type} {p : Poll} {m : Act α} {a : α} {f : α → Act Unit} {s t u : State}

/-! ### AWAIT_READY -/

theorem awaitReadyOp_ready (free : BusFree s) (ready : ReadyNext s) :
    awaitReadyOp s = .ok () ((afterStatus s).mapCtl (finished 0x00)) :=
  (bind_ok (awaitReady_ready .awaitPoll nop free ready)).trans (endWith_free resOk (by simpa using free.2))

/-- Settles O13: the wait returns after its first status read (`awaitReadyOp_ready`). -/
theorem awaitReadyReturnsWhenReady : Obligations.AwaitReadyReturnsWhenReady := by
  intro s idle free ready
  have hop := awaitReadyOp_ready (free.mapCtl (accepted (hostWord 0x03 0))) (ready.mapCtl _)
  have hw : hostWord 0x03 0 = 0x00000003 := by decide
  refine ⟨_, (statusSeen s).toByte, request_ok idle hop, ?_, statusSeen_bit1 s, ?_, ?_, rfl, rfl, rfl⟩
  · rw [statusSeen_bit0]; exact ready.2
  · rw [← hw]; simp
  · simp

/-! ### An action that ends its operation -/

/-- The action runs to its last statement and ends the operation. -/
def Finishes (m : Act Unit) (s : State) : Prop := ∃ t, m s = .ok () t ∧ t.ctl.seq = .idle

theorem Finishes.bind (h : m s = .ok a u) (hf : Finishes (f a) u) : Finishes (m >>= f) s := by
  unfold Finishes
  rw [bind_ok h]
  exact hf

theorem finishes_endWith (code : Byte) (due : s.env.due = []) : Finishes (endWith code) s :=
  ⟨_, endWith_free code due, rfl⟩

theorem Finishes.label {l : MicroPos} {f : Unit → Act Unit} (due : s.env.due = []) (hf : Finishes (f ()) (s.atLabel l)) :
    Finishes (label l >>= f) s := .bind (label_free l due) hf

theorem Finishes.updCtl {g : Controller → Controller} {f : Unit → Act Unit} (hf : Finishes (f ()) (s.mapCtl g)) :
    Finishes (updCtl g >>= f) s := .bind (updCtl_apply g s) hf

/-- A ready-wait passes, and the rest ends the operation. -/
theorem Finishes.awaitReady {onBusy : Act Unit} {f : Unit → Act Unit} (free : BusFree s) (ready : ReadyNext s)
    (hf : Finishes (f ()) ((afterStatus s).atLabel (.poll p))) : Finishes (awaitReady p onBusy >>= f) s :=
  .bind (awaitReady_ready p onBusy free ready) hf

theorem eraseWaitOp_finishes (free : BusFree s) (ready : ReadyNext s) : Finishes eraseWaitOp s := by
  refine .awaitReady free ready (.bind (ask_apply _) ?_)
  show Finishes (if _ then _ else _) _
  split <;> exact finishes_endWith _ (by simpa using free.2)

/-! ### The gate -/

/-- The gate passes a device that is ready at its poll, which is then idle, with the outcome `ok`. -/
theorem gate_passes (here : Poll) (free : BusFree s) (ready : ReadyNext s) : ∃ ok u, gate here s = .ok ok u ∧
    Gated s u ok ∧ BusFree u ∧ u.env.inbox = s.env.inbox ∧ u.env.turns = (deviceTurn s).env.turns := by
  obtain ⟨sr, -, -, hctl⟩ := afterGate_ctl ready
  have hdev := afterGate_dev ready
  have hfree : BusFree (afterGate s) := ⟨rfl, (afterGate_due s).trans free.2⟩
  have hidle : (afterGate s).dev.dbusy = false := by rw [hdev]; exact ready.2
  have hlatch : (afterGate s).dev.dwel = latchAfterWren s.cfg (deviceTurn s).dev := by rw [hdev]
  have hm := gate_ready here free ready
  split at hm
  · next hl =>
    exact ⟨true, _, hm, ⟨rfl, ready.1, hidle, hlatch.trans hl, by simp [hctl]⟩, hfree, afterGate_inbox s,
      afterGate_turns ready⟩
  · next hl =>
    exact ⟨false, _, hm, ⟨rfl, ready.1, hidle, hlatch.trans (by simpa using hl), by simp [hctl]⟩, hfree,
      afterGate_inbox s, afterGate_turns ready⟩

/-- A device that the gate has passed stays ready. -/
theorem Gated.readyNext {ok : Bool} (h : Gated s u ok) : ReadyNext u :=
  ⟨h.present, by rw [deviceTurn_idle h.idle]; exact h.idle⟩

theorem writeEnableOp_finishes (free : BusFree s) (ready : ReadyNext s) : Finishes writeEnableOp s := by
  obtain ⟨ok, u, hm, -, hfree, -⟩ := gate_passes .enableGate free ready
  refine .bind hm ?_
  split <;> exact finishes_endWith _ hfree.2

/-! ### WRITE_DATA -/

theorem wireAddr_toNat {k : CursorWord} (h : k.toNat < 2 ^ 24) : (wireAddr k).toNat = k.toNat := by
  simp only [wireAddr, BitVec.extractLsb'_toNat, Nat.shiftRight_zero]
  omega

theorem dataBytes_length (d : Vector Byte 256) {l : LenWord} (h : l.toNat ≤ 256) : (dataBytes d l).length = l.toNat := by
  simp only [dataBytes, List.length_take, Vector.length_toList]
  omega

/-- The program of a WRITE_DATA that passed its checks is one the device accepts (rules R156, R157). -/
theorem Checked.legal {c : Config} {k : Controller} (h : Checked c k) :
    programIllegal c (wireAddr k.cursor) (dataBytes k.data k.lenl) = false := by
  obtain ⟨hsome, hfits, hpage⟩ := h
  have hpos : k.lenl.toNat ≠ 0 := fun h0 => hsome (BitVec.eq_of_toNat_eq h0)
  have hsize := size_le c
  have hend : size c = endAddr c + 1 := rfl
  rw [Bool.eq_false_iff, Ne, programIllegal_iff, wireAddr_toNat (by omega), dataBytes_length _ (by omega)]
  omega

/-- A legal `PP` frame on a present device goes out, whether the device takes it or not (rules R142, R156). -/
theorem issuePp_legal {a : FlashAddr} {bytes : List Byte} (free : BusFree s) (hp : s.cfg.present = true)
    (legal : programIllegal s.cfg a bytes = false) : ∃ u, issuePp a bytes s = .ok () u ∧ BusFree u := by
  have hframe := issuePp_present a bytes free.1 free.2 hp
  have hdev : ppDevice s.cfg (deviceTurn s).dev a bytes ≠ none := by
    unfold ppDevice
    split <;> simp [legal]
  split at hframe
  · exact ⟨_, hframe, rfl, by simpa [afterDraws] using free.2⟩
  · next hnone => exact absurd hnone hdev

theorem writeReadyOp_finishes (free : BusFree s) (ready : ReadyNext s) (inv : PollInv s.cfg s.ctl s.dev .writeReady) :
    Finishes writeReadyOp s := by
  obtain ⟨hlen, hcap, hpage, -⟩ := inv
  have hchecked : Checked s.cfg s.ctl := checked_iff.mpr ⟨hlen, hcap, hpage⟩
  have hsend : BusFree (((afterStatus s).atLabel (.poll .writeReady)).atLabel .writeSend) := free.afterStatus
  obtain ⟨u, hm, hfree⟩ := issuePp_legal hsend ready.1 hchecked.legal
  exact .awaitReady free ready <| .label hsend.2 <| .bind (ask_apply _) <| .bind hm <| .label hfree.2 <|
    .bind (delay_apply _ _) <| .label hfree.2 <| .updCtl <| finishes_endWith _ hfree.2

theorem writeGateOp_finishes (free : BusFree s) (ready : ReadyNext s) (inv : PollInv s.cfg s.ctl s.dev .writeGate) :
    Finishes writeGateOp s := by
  obtain ⟨ok, u, hm, hgated, hfree, -⟩ := gate_passes .writeGate free ready
  refine .bind hm ?_
  cases ok with
  | false => exact finishes_endWith _ hfree.2
  | true =>
    refine .label hfree.2 (.bind (ask_apply _) ?_)
    show Finishes (if _ then _ else _) _
    split
    · next hwp =>
      exact writeReadyOp_finishes (hfree.atLabel _) (hgated.readyNext.mapCtl _) (hgated.writeReady inv hwp)
    · exact finishes_endWith _ hfree.2

/-! ### SCAN and DUMP_ALL -/

/-- What `openRead_answers` says, with the bytes the device received. -/
theorem openRead_received (a : FlashAddr) (free : BusFree s) (idle : DeviceIdle s) :
    ∃ u, openRead a s = .ok () u ∧ Reading u a.toNat ∧ u.dev.fb = readFrame a 0 := by
  obtain ⟨u, hm, hread, -⟩ := openRead_answers a free idle.1 idle.2
  have hopen := openRead_idle a free.1 free.2 idle.1 idle.2
  rw [hm] at hopen
  cases hopen
  exact ⟨_, hm, hread, rfl⟩

/-- On a ready device SCAN's read of the array comes to its end (rules R228, R231). -/
theorem scanSearch_answers (free : BusFree s) (ready : ReadyNext s) :
    ∃ found u, scanSearch s = .ok found u ∧ u.env.due = [] := by
  have hfree : BusFree (((afterStatus s).atLabel (.poll .scanPoll)).atLabel .scanOpen) := free.afterStatus
  obtain ⟨x, hopen, xread, xfb⟩ := openRead_received 0x000000 hfree ready
  obtain ⟨y, hy⟩ : ∃ y : State, (x.mapCtl fun c => { c with run := 0, addr := 0 }) = y := ⟨_, rfl⟩
  have yread : Reading y 0 := by
    rw [← hy]
    exact ⟨xread.cs, xread.noReset, xread.present, xread.idle, xread.command, xread.address⟩
  have yfb : y.dev.fb = readFrame 0 0 := by rw [← hy]; exact xfb
  obtain ⟨found, z, n, hstream, zcfg, zenv, zcs, -, -, -, zfb, -⟩ :=
    scanStream_addr yread (by rw [← hy]; rfl) (by rw [← hy]; rfl)
  have zdue : z.env.due = [] := by rw [zenv]; exact yread.noReset
  obtain ⟨u, hclose, udue⟩ : ∃ u, deselect (z.atLabel .scanClose) = .ok () u ∧ u.env.due = [] :=
    ⟨_, deselect_read zcs zdue (by rw [atLabel_cfg, zcfg]; exact yread.present)
      (by rw [atLabel_dev, zfb, yfb]; exact readFrame_append 0 n), zdue⟩
  refine ⟨found, u, ?_, udue⟩
  rw [scanSearch, bind_ok (awaitReady_ready .scanPoll nop free ready), bind_ok (label_free _ (by simpa using free.2)),
    bind_ok hopen, bind_ok (updCtl_apply _ _), hy, bind_ok (ask_apply _), bind_ok hstream, bind_ok (label_free _ zdue),
    bind_ok hclose, pure_apply]

theorem scanOp_finishes (free : BusFree s) (ready : ReadyNext s) : Finishes scanOp s := by
  obtain ⟨found, u, hm, due⟩ := scanSearch_answers free ready
  rw [scanOp_eq]
  refine .bind hm ?_
  cases found with
  | true => exact .label due <| .updCtl <| .label due <| .updCtl <| finishes_endWith _ due
  | false => exact .label due <| .updCtl <| .label due <| .updCtl <| finishes_endWith _ due

theorem dumpResumeOp_finishes (free : BusFree s) (ready : ReadyNext s) (inv : PollInv s.cfg s.ctl s.dev .dumpPoll) :
    Finishes dumpResumeOp s := by
  have hlt : s.ctl.pidx.toNat < npages s.cfg := inv
  obtain ⟨n, hn⟩ := Nat.exists_eq_add_one.mpr (Nat.sub_pos_of_lt hlt)
  refine .bind (ask_apply s) ?_
  rw [hn]
  obtain ⟨t, hm, -, -, -, -, hctl, -⟩ := dumpPages_spec (s := deviceTurn s) (p := s.ctl.pidx.toNat) (n := n + 1)
    ⟨by simpa using free.1, by simpa using free.2⟩ (by simpa using ready.1) ready.2
    (by simp only [deviceTurn_cfg]; omega) (by simp)
  exact ⟨t, (dumpPages_deviceTurn free ready).trans hm, by rw [hctl]; rfl⟩

/-! ### The schedule -/

/-- A turn takes choices off the schedule only. -/
theorem deviceTurn_turns_le (s : State) : (deviceTurn s).env.turns.length ≤ s.env.turns.length := by
  unfold deviceTurn
  split
  · split <;> simp
  · exact le_rfl

/-- A fair device stays busy at an opportunity only if the schedule lets it pass (rule R163, log entry 4). -/
theorem deviceTurn_turns_lt (hfair : s.cfg.fair = true) (hb : (deviceTurn s).dev.dbusy = true) :
    (deviceTurn s).env.turns.length < s.env.turns.length := by
  rw [deviceTurn_dbusy, Bool.and_eq_true, Bool.not_eq_true'] at hb
  obtain ⟨hbusy, hpass⟩ := hb
  have hturns : (deviceTurn s).env.turns = s.env.turns.tail := by simp [deviceTurn, hbusy, hpass]
  cases h : s.env.turns with
  | nil => simp [turnTaken, h, hfair] at hpass
  | cons b rest => rw [hturns, h]; exact Nat.lt_succ_self _

/-! ### CHIP_ERASE -/

/-- The step ends at CHIP_ERASE's second wait, with the parameters of `s` and fewer choices on the schedule. -/
structure WaitsAgain (s u : State) : Prop where
  stands : Standing .eraseWait u
  cfg    : u.cfg = s.cfg
  turns  : u.env.turns.length < s.env.turns.length

theorem WaitsAgain.since (h : WaitsAgain t u) (hcfg : t.cfg = s.cfg) (hle : t.env.turns.length ≤ s.env.turns.length) :
    WaitsAgain s u := ⟨h.stands, h.cfg.trans hcfg, Nat.lt_of_lt_of_le h.turns hle⟩

/-- CHIP_ERASE after its `CE` frame, in the same step: it ends, or waits for the erase (rule R211). -/
theorem eraseWaitOp_ends_or_waits (busy : s.ctl.seq = .exec) (inv : PollInv s.cfg s.ctl s.dev .eraseWait)
    (free : BusFree s) (hin : s.env.inbox = []) (hp : s.cfg.present = true) (hfair : s.cfg.fair = true) :
    Finishes eraseWaitOp s ∨ ∃ u, eraseWaitOp s = .error .suspended u ∧ WaitsAgain s u := by
  by_cases ready : ReadyNext s
  · exact .inl (eraseWaitOp_finishes free ready)
  · have hbusy := busyNext_of_not_readyNext ready
    have hb : (deviceTurn s).dev.dbusy = true := hbusy.resolve_left (by simp [hp])
    refine .inr ⟨_, resumeOp_stays (p := .eraseWait) free inv hbusy, standing_busyPoll busy inv free hin,
      busyPoll_cfg _ s, ?_⟩
    rw [busyPoll_turns]
    exact deviceTurn_turns_lt hfair hb

/-- A `CE` frame after the gate takes no choice off the schedule and no move off the inbox. -/
theorem issueCe_env {ok : Bool} (h : Gated s t ok) (free : BusFree t) (hm : issueCe t = .ok () u) :
    u.env.turns = t.env.turns ∧ u.env.inbox = t.env.inbox := by
  have hframe := issueCe_present free.1 free.2 h.present
  rw [hm] at hframe
  cases hframe
  simp [deviceTurn_idle h.idle]

theorem Gated.atLabel {ok : Bool} (h : Gated s u ok) (l : MicroPos) : Gated s (u.atLabel l) ok :=
  ⟨h.cfg, h.present, h.idle, h.latch, by rw [atLabel_ctl, h.ctl]⟩

/-- CHIP_ERASE at a ready device ends, or waits for the erase that it started (rules R211, R213). -/
theorem chipEraseOp_ends_or_waits (h : Standing .eraseGate s) (ready : ReadyNext s) (hfair : s.cfg.fair = true) :
    Finishes chipEraseOp s ∨ ∃ u, chipEraseOp s = .error .suspended u ∧ WaitsAgain s u := by
  obtain ⟨ok, g, hgate, hgated, gfree, ginbox, gturns⟩ := gate_passes .eraseGate h.free ready
  by_cases hskip : ok = false ∧ g.cfg.eraseAbort = true
  · refine .inl (.bind hgate (.bind (ask_apply g) ?_))
    rw [if_pos hskip]
    exact finishes_endWith _ gfree.2
  · obtain ⟨v, hce, vcfg, vctl, vfree, -, vinv⟩ := issueCe_pollInv (hgated.atLabel .eraseSend) (gfree.atLabel _)
    obtain ⟨vturns, vinbox⟩ := issueCe_env (hgated.atLabel .eraseSend) (gfree.atLabel _) hce
    have hcfg : v.cfg = s.cfg := vcfg.trans hgated.cfg
    have hseq : v.ctl.seq = .exec := by rw [vctl, (hgated.atLabel _).ctl]; exact h.busy
    have hinbox : v.env.inbox = [] := vinbox.trans (ginbox.trans h.inbox)
    have hturns : v.env.turns.length ≤ s.env.turns.length := by
      rw [vturns, atLabel_env, gturns]; exact deviceTurn_turns_le s
    have hop : chipEraseOp s = eraseWaitOp v := by
      rw [chipEraseOp, bind_ok hgate, bind_ok (ask_apply g), if_neg hskip, bind_ok (label_free _ gfree.2), bind_ok hce]
    rw [Finishes, hop]
    exact (eraseWaitOp_ends_or_waits hseq vinv vfree hinbox (by rw [hcfg]; exact ready.1) (by rw [hcfg]; exact hfair)).imp
      id fun ⟨u, hm, hwaits⟩ => ⟨u, hm, hwaits.since hcfg hturns⟩

/-! ### Every wait -/

/-- The step of an operation that stands at a ready device: it ends the operation, or leaves CHIP_ERASE at its second
wait. -/
theorem resumeOp_ready (h : Standing p s) (ready : ReadyNext s) (hfair : s.cfg.fair = true) :
    Finishes (resumeOp p) s ∨ p = .eraseGate ∧ ∃ u, resumeOp p s = .error .suspended u ∧ WaitsAgain s u := by
  cases p with
  | awaitPoll => exact .inl ⟨_, awaitReadyOp_ready h.free ready, rfl⟩
  | enableGate => exact .inl (writeEnableOp_finishes h.free ready)
  | eraseGate => exact (chipEraseOp_ends_or_waits h ready hfair).imp id fun hwait => ⟨rfl, hwait⟩
  | eraseWait => exact .inl (eraseWaitOp_finishes h.free ready)
  | scanPoll => exact .inl (scanOp_finishes h.free ready)
  | writeGate => exact .inl (writeGateOp_finishes h.free ready h.inv)
  | writeReady => exact .inl (writeReadyOp_finishes h.free ready h.inv)
  | dumpPoll => exact .inl (dumpResumeOp_finishes h.free ready h.inv)

/-- What is said of the end of a wait: the operation is over, and AWAIT_READY has its result (rule R183). -/
def WaitOver (p : Poll) (t : State) : Prop :=
  t.ctl.seq = .idle ∧ (p = .awaitPoll → t.ctl.result = 0x00 ∧ t.ctl.lastSr.getLsbD 0 = false ∧ t.dev.dbusy = false)

theorem waitOver_of_finishes (free : BusFree s) (ready : ReadyNext s) (hm : resumeOp p s = .ok () t)
    (hseq : t.ctl.seq = .idle) : WaitOver p t := by
  refine ⟨hseq, ?_⟩
  rintro rfl
  have hop : EStateM.Result.ok () t = .ok () _ := hm.symm.trans (awaitReadyOp_ready free ready)
  cases hop
  exact ⟨rfl, (statusSeen_bit0 s).trans ready.2, ready.2⟩

/-- The wait of a fair device is over after at most one step more than the schedule is long: a busy poll takes a
choice off it (`deviceTurn_turns_lt`), and so does the erase that CHIP_ERASE waits for (`chipEraseOp_ends_or_waits`). -/
theorem run_waitOver (h : Standing p s) (hp : s.cfg.present = true) (hfair : s.cfg.fair = true) :
    ∃ n t, 1 ≤ n ∧ n ≤ s.env.turns.length + 1 ∧ Host.Core.run Sys2Proof.core n s = .next t ∧ WaitOver p t := by
  induction hlen : s.env.turns.length using Nat.strong_induction_on generalizing s p with
  | _ len ih =>
    have more {q : Poll} {u : State} (hstep : Machine.step s = .next u) (hu : Standing q u) (hcfg : u.cfg = s.cfg)
        (hlt : u.env.turns.length < len) (hover : ∀ t, WaitOver q t → WaitOver p t) :
        ∃ n t, 1 ≤ n ∧ n ≤ len + 1 ∧ Host.Core.run Sys2Proof.core n s = .next t ∧ WaitOver p t := by
      obtain ⟨n, t, -, hn, hrun, ht⟩ := ih _ hlt hu (by rw [hcfg]; exact hp) (by rw [hcfg]; exact hfair) rfl
      exact ⟨n + 1, t, by omega, by omega, (run_succ n hstep).trans hrun, hover t ht⟩
    by_cases ready : ReadyNext s
    · rcases resumeOp_ready h ready hfair with ⟨t, hm, hseq⟩ | ⟨rfl, u, hm, hu⟩
      · exact ⟨1, t, le_rfl, by omega, run_succ 0 (h.step.trans (runAct_ok hm)),
          waitOver_of_finishes h.free ready hm hseq⟩
      · exact more (h.step.trans (runAct_suspended hm)) hu.stands hu.cfg (hlen ▸ hu.turns) fun t ht => ⟨ht.1, nofun⟩
    · have busy := busyNext_of_not_readyNext ready
      have hb : (deviceTurn s).dev.dbusy = true := busy.resolve_left (by simp [hp])
      exact more (h.step.trans (runAct_suspended (resumeOp_stays h.free h.inv busy)))
        (standing_busyPoll h.busy h.inv h.free h.inbox) (busyPoll_cfg p s)
        (by rw [busyPoll_turns, ← hlen]; exact deviceTurn_turns_lt hfair hb) fun _ ht => ht

/-- Settles O17, by induction on the length of the schedule (`run_waitOver`). -/
theorem fairDeviceEndsTheReadyWait : Obligations.FairDeviceEndsTheReadyWait :=
  fun _ _ busy mpc inv free hin hp hfair => run_waitOver ⟨busy, mpc, inv, free, hin⟩ hp hfair

end Sys2Proof.Machine
end


section
/-!
WRITE_ENABLE on a device that is ready at the first poll (spec/43_write_enable.md): the gate, then the result that its
outcome stands for (rule R198). The device is then ready again, so that a second request does the same (rule R200).
-/

namespace Sys2Proof.Machine

variable {s : State}

/-- The outcome of the gate and the end of the operation that it leads to, in the controller (rules R197, R198, R201). -/
def latchReported (latch : Bool) (c : Controller) : Controller :=
  if latch = true then finished 0x00 { c with ok := true }
  else finished 0x02 { c with ok := false, wp := false, log := c.log ++ [.welFail] }

/-- The state after WRITE_ENABLE on a ready device (`exec_writeEnable`). -/
def afterEnable (s : State) : State :=
  (afterGate (s.mapCtl (accepted 0x00000004))).mapCtl (latchReported (latchAfterWren s.cfg (deviceTurn s).dev))

theorem writeEnableOp_ready (free : BusFree s) (ready : ReadyNext s) : writeEnableOp s =
    .ok () ((afterGate s).mapCtl (latchReported (latchAfterWren s.cfg (deviceTurn s).dev))) := by
  have due : (afterGate s).env.due = [] := (afterGate_due s).trans free.2
  have hgate := gate_ready .enableGate free ready
  cases hlatch : latchAfterWren s.cfg (deviceTurn s).dev with
  | true =>
    rw [hlatch, if_pos rfl] at hgate
    exact (bind_ok hgate).trans (endWith_free resOk due)
  | false =>
    rw [hlatch, if_neg Bool.false_ne_true] at hgate
    exact (bind_ok hgate).trans (endWith_free resWel due)

theorem exec_writeEnable (idle : s.ctl.seq = .idle) (free : BusFree s) (ready : ReadyNext s) :
    exec .writeEnable s = .next (afterEnable s) := by
  have hw : hostWord 0x04 0 = 0x00000004 := by decide
  have hop := writeEnableOp_ready (free.mapCtl (accepted 0x00000004)) (ready.mapCtl _)
  rw [deviceTurn_mapCtl] at hop
  exact request_ok idle (by rw [hw]; exact hop)

theorem afterEnable_dev (ready : ReadyNext s) : (afterEnable s).dev =
    { (deviceTurn s).dev with dwel := latchAfterWren s.cfg (deviceTurn s).dev, fb := rdsrFrame } := by
  simpa [afterEnable] using afterGate_dev (ready.mapCtl (accepted 0x00000004))

theorem afterEnable_idle (s : State) : (afterEnable s).ctl.seq = .idle := by
  rw [afterEnable, mapCtl_ctl, latchReported]
  split <;> rfl

theorem BusFree.afterEnable (free : BusFree s) : BusFree (afterEnable s) := ⟨rfl, (afterGate_due _).trans free.2⟩

theorem ReadyNext.afterEnable (ready : ReadyNext s) : ReadyNext (afterEnable s) := by
  have hidle : (Machine.afterEnable s).dev.dbusy = false := by rw [afterEnable_dev ready]; exact ready.2
  exact ⟨ready.1, by rw [deviceTurn_idle hidle]; exact hidle⟩

/-- Settles O18: the operation ends in `afterEnable` (`exec_writeEnable`), whose registers and device are the gate's
(`afterGate_ctl`, `afterEnable_dev`). -/
theorem writeEnableReportsTheLatch : Obligations.WriteEnableReportsTheLatch := by
  intro s idle free ready
  obtain ⟨sr, hbusy, hwel, hctl⟩ := afterGate_ctl (ready.mapCtl (accepted 0x00000004))
  rw [deviceTurn_mapCtl] at hwel
  refine ⟨afterEnable s, sr, exec_writeEnable idle free ready, hbusy, hwel, ?_, afterEnable_dev ready,
    afterGate_wire _, rfl, rfl⟩
  rw [afterEnable, mapCtl_ctl, hctl]
  rfl

/-- A device that does not refuse write-enable has its latch set, and is reported so (rules R147, R198). -/
theorem afterEnable_accepted (ready : ReadyNext s) (accepts : s.cfg.wrenReject = false) :
    (afterEnable s).ctl.result = 0x00 ∧ (afterEnable s).dev.dwel = true := by
  have hlatch : latchAfterWren s.cfg (deviceTurn s).dev = true := by simp [latchAfterWren, accepts]
  rw [afterEnable_dev ready, afterEnable, hlatch]
  exact ⟨rfl, rfl⟩

/-- Settles O19: the first WRITE_ENABLE leaves what the second needs, so that `exec_writeEnable` holds of both. -/
theorem writeEnableTwiceKeepsTheLatch : Obligations.WriteEnableTwiceKeepsTheLatch := by
  intro s idle free ready accepts
  obtain ⟨tresult, tlatch⟩ := afterEnable_accepted ready accepts
  obtain ⟨uresult, ulatch⟩ := afterEnable_accepted ready.afterEnable accepts
  exact ⟨_, _, exec_writeEnable idle free ready,
    exec_writeEnable (afterEnable_idle s) free.afterEnable ready.afterEnable, tresult, tlatch, uresult, ulatch⟩

end Sys2Proof.Machine
end

section
/-!
CHIP_ERASE (spec/44_chip_erase.md), said once for each of its two parts: from its request to its last wait, which is the
gate and the `CE` frame, and that wait, which ends the operation at a ready poll and logs one event at a busy one
(rules R211, R212, R214). An erase that was started is done when the wait is over (rule R213).
-/

namespace Sys2Proof.Machine

variable {latch : Bool} {c : Controller} {s t v : State}

/-! ### The wait after the CE frame -/

/-- The state after the poll that ends the wait: the result is what the gate saw (rule R214). -/
def afterErase (s : State) : State :=
  (afterStatus s).mapCtl (finished (if s.ctl.ok = true then 0x00 else 0x02))

theorem afterErase_ctl (s : State) : (afterErase s).ctl =
    finished (if s.ctl.ok = true then 0x00 else 0x02) { s.ctl with lastSr := (statusSeen s).toByte } := rfl

theorem afterErase_dev (s : State) : (afterErase s).dev = { (deviceTurn s).dev with fb := rdsrFrame } := rfl

theorem eraseWaitOp_ready (free : BusFree s) (ready : ReadyNext s) : eraseWaitOp s = .ok () (afterErase s) := by
  have due : ((afterStatus s).atLabel (.poll .eraseWait)).env.due = [] := by simpa using free.2
  rw [eraseWaitOp, bind_ok (awaitReady_ready _ _ free ready), bind_ok (ask_apply _), afterErase]
  show (if s.ctl.ok = true then _ else _ : Act Unit) _ = _
  split
  · exact endWith_free resOk due
  · exact endWith_free resWel due

theorem eraseWaitOp_stays (free : BusFree s) (busy : BusyNext s) :
    eraseWaitOp s = .error .suspended (busyPoll .eraseWait s) := bind_error (awaitReady_stays .eraseWait free busy)

/-! ### The gate and the CE frame -/

/-- What the gate leaves in the controller for the outcome `latch` (rules R197, R201). -/
def gateReported (latch : Bool) (c : Controller) : Controller :=
  { c with ok := latch, wp := c.wp && latch, log := if latch = true then c.log else c.log ++ [.welFail] }

theorem gate_reports (here : Poll) (free : BusFree s) (ready : ReadyNext s)
    (hlatch : latchAfterWren s.cfg (deviceTurn s).dev = latch) :
    ∃ l, gate here s = .ok latch (((afterGate s).mapCtl (gateReported latch)).atLabel l) := by
  have hgate := gate_ready here free ready
  cases latch with
  | true => exact ⟨.gateCheck here, by simp [hgate, hlatch, gateReported, State.atLabel, State.mapCtl]⟩
  | false => exact ⟨.gateOff here, by simp [hgate, hlatch, gateReported, State.atLabel, State.mapCtl]⟩

/-- CHIP_ERASE has come from `s`, where the controller held `c`, through its gate and the `CE` frame to its last wait:
the device erases if its latch took (rules R150, R211). -/
structure CeSent (latch : Bool) (c : Controller) (s v : State) : Prop where
  free : BusFree v
  cfg  : v.cfg = s.cfg
  ctl  : v.ctl = { gateReported latch c with mpc := v.ctl.mpc, lastSr := v.ctl.lastSr }
  dev  : v.dev = { (deviceTurn s).dev with
    dwel := latch, dbusy := latch, dpend := if latch = true then .erase else (deviceTurn s).dev.dpend, fb := ceFrame }
  wire : v.bus.wire = s.bus.wire ++ [rdsrFrame, wrenFrame, rdsrFrame, ceFrame]
  turn : turnTaken v = turnTaken (deviceTurn s)

theorem issueCe_afterGate (free : BusFree s) (ready : ReadyNext s)
    (hlatch : latchAfterWren s.cfg (deviceTurn s).dev = latch) (l : MicroPos) :
    ∃ v, issueCe (((afterGate s).mapCtl (gateReported latch)).atLabel l) = .ok () v ∧ CeSent latch s.ctl s v := by
  have due : (afterGate s).env.due = [] := (afterGate_due s).trans free.2
  have idle : (deviceTurn s).dev.dbusy = false := ready.2
  have hturns := afterGate_turns ready
  have hdev := afterGate_dev ready
  rw [hlatch] at hdev
  have hframe := issueCe_present (s := ((afterGate s).mapCtl (gateReported latch)).atLabel l) rfl due ready.1
  rw [deviceTurn_idle (by simp [hdev, idle])] at hframe
  refine ⟨_, hframe, ⟨rfl, due⟩, rfl, rfl, ?_, ?_, ?_⟩
  · cases latch <;> simp [hdev, idle, startErase, ceFrame]
  · simp [afterGate_wire, ceFrame]
  · simp [turnTaken, hturns]

/-- CHIP_ERASE whose gate failed, with `P_ERASE_ABORT`: no `CE` frame (rule R214). -/
theorem chipEraseOp_aborts (free : BusFree s) (ready : ReadyNext s)
    (fails : latchAfterWren s.cfg (deviceTurn s).dev = false) (abort : s.cfg.eraseAbort = true) :
    chipEraseOp s = .ok () ((afterGate s).mapCtl fun c => finished 0x02 (gateReported false c)) := by
  obtain ⟨l, hgate⟩ := gate_reports .eraseGate free ready fails
  rw [chipEraseOp, bind_ok hgate, bind_ok (ask_apply _), if_pos ⟨rfl, abort⟩]
  exact endWith_free resWel ((afterGate_due s).trans free.2)

/-- Every other CHIP_ERASE comes to its last wait after the `CE` frame (rule R211). -/
theorem chipEraseOp_sends (free : BusFree s) (ready : ReadyNext s)
    (hlatch : latchAfterWren s.cfg (deviceTurn s).dev = latch) (sends : ¬ (latch = false ∧ s.cfg.eraseAbort = true)) :
    ∃ v, chipEraseOp s = eraseWaitOp v ∧ CeSent latch s.ctl s v := by
  obtain ⟨l, hgate⟩ := gate_reports .eraseGate free ready hlatch
  obtain ⟨v, hce, hsent⟩ := issueCe_afterGate free ready hlatch .eraseSend
  refine ⟨v, ?_, hsent⟩
  rw [chipEraseOp, bind_ok hgate, bind_ok (ask_apply _), if_neg (by exact sends),
    bind_ok (label_free _ (by exact (afterGate_due s).trans free.2)), atLabel_atLabel, bind_ok hce]

/-- The device at the poll after `CE`, when it completes the erase just before (rules R160, R162). -/
theorem CeSent.dev_completed (h : CeSent true c s t) (taken : turnTaken t = true) :
    (deviceTurn t).dev = { (deviceTurn s).dev with
      dmem := memErase, dpend := .none, dbusy := false, dwel := false, fb := ceFrame } := by
  rw [deviceTurn_dev, h.dev, if_pos ⟨rfl, taken⟩]
  rfl

/-! ### An erase that finished -/

/-- What CHIP_ERASE promises of the device (rule R213). -/
structure Erased (d : Device) : Prop where
  array : d.dmem = memErase
  idle  : d.dbusy = false
  latch : d.dwel = false

/-- If the gate saw the latch, the poll that ends the wait finds the erase done. -/
def ErasedWhenReady (s : State) : Prop := ReadyNext s → s.ctl.ok = true → Erased (deviceTurn s).dev

/-- An operation that ended its step with `OK` left the array erased. -/
def ErasedIfOk (t : State) : Prop := t.ctl.seq = .idle → t.ctl.result = 0x00 → Erased t.dev

theorem DeviceInv.deviceTurn (h : DeviceInv s.cfg s.dev) : DeviceInv s.cfg (deviceTurn s).dev := by
  rw [deviceTurn_dev]
  split
  · exact .move (.complete (And.left ‹_›)) h
  · exact h

/-- A device that is not busy has nothing pending, so that the erase the invariant speaks of has completed. -/
theorem erasedWhenReady_of_inv (hd : DeviceInv s.cfg s.dev) (inv : PollInv s.cfg s.ctl s.dev .eraseWait) :
    ErasedWhenReady s := by
  intro ready hok
  rcases inv.deviceTurn hok with pending | ⟨array, idle, latch⟩
  · exact absurd (hd.deviceTurn.pendingBusy.mpr ready.2) (by simp [pending])
  · exact ⟨array, idle, latch⟩

theorem CeSent.erasedWhenReady (h : CeSent latch c s t) : ErasedWhenReady t := by
  intro ready hok
  rw [h.ctl] at hok
  obtain rfl : latch = true := hok
  have taken : turnTaken t = true := by
    have hidle := ready.2
    rw [deviceTurn_dbusy, h.dev] at hidle
    simpa using hidle
  rw [h.dev_completed taken]
  exact ⟨rfl, rfl, rfl⟩

/-- A busy poll does not end the operation. -/
theorem erasedIfOk_busyPoll (p : Poll) (running : s.ctl.seq = .exec) : ErasedIfOk (busyPoll p s) := by
  intro idle
  rw [busyPoll_ctl, whileBusy_log] at idle
  exact absurd (running.symm.trans idle) (by decide)

theorem erasedIfOk_of_failed (h : t.ctl.result = 0x02) : ErasedIfOk t := fun _ ok => by simp [h] at ok

theorem eraseWaitOp_erased (free : BusFree s) (running : s.ctl.seq = .exec) (erased : ErasedWhenReady s) :
    Leads eraseWaitOp s ErasedIfOk := by
  by_cases ready : ReadyNext s
  · refine .ok (eraseWaitOp_ready free ready) ?_
    by_cases hok : s.ctl.ok = true
    · obtain ⟨array, idle, latch⟩ := erased ready hok
      exact fun _ _ => ⟨array, idle, latch⟩
    · exact erasedIfOk_of_failed (if_neg hok)
  · exact .suspended (awaitReady_stays .eraseWait free (busyNext_of_not_readyNext ready))
      (erasedIfOk_busyPoll _ running)

theorem chipEraseOp_erased (free : BusFree s) (running : s.ctl.seq = .exec) : Leads chipEraseOp s ErasedIfOk := by
  by_cases ready : ReadyNext s
  · by_cases aborts : latchAfterWren s.cfg (deviceTurn s).dev = false ∧ s.cfg.eraseAbort = true
    · exact .ok (chipEraseOp_aborts free ready aborts.1 aborts.2) (erasedIfOk_of_failed rfl)
    · obtain ⟨v, hop, hsent⟩ := chipEraseOp_sends free ready rfl aborts
      rw [Leads, hop]
      exact eraseWaitOp_erased hsent.free (by rw [hsent.ctl]; exact running) hsent.erasedWhenReady
  · exact .suspended (bind_error (awaitReady_stays .eraseGate free (busyNext_of_not_readyNext ready)))
      (erasedIfOk_busyPoll _ running)

/-- With nothing due, a step ends where its action leads. -/
theorem Leads.run_free {m : Act Unit} {Q : State → Prop} (h : Leads m s Q) (he : Erasable m) (free : BusFree s)
    (ht : runAct m s = .next t) : Q t := by
  rcases runAct_next ht with hm | hm | ⟨u, hm, -⟩
  · exact h t (.inl hm)
  · exact h t (.inr hm)
  · have hreset := he s
    rw [hm] at hreset
    have hnone : resetsDue s = 0 := by simp [resetsDue, free.2]
    exact absurd (hnone ▸ hreset) (Nat.not_lt_zero _)

/-- Settles O23: the invariant has an erase pending or done at the last wait (`erasedWhenReady_of_inv`), and so does
the `CE` frame after a gate that saw the latch (`CeSent.erasedWhenReady`). -/
theorem finishedEraseLeavesTheArrayErased : Obligations.FinishedEraseLeavesTheArrayErased := by
  intro s t inv free hrun idle ok
  have herased : ErasedIfOk t := by
    rcases hrun with hexec | ⟨running, hmpc | hmpc, hin, hstep⟩
    · obtain ⟨-, hop⟩ := request_next (body := chipEraseOp) hexec
      exact (chipEraseOp_erased (free.mapCtl _) rfl).run_free (erasable_resumeOp .eraseGate) (free.mapCtl _) hop
    · rw [step_resume running hmpc hin] at hstep
      exact (chipEraseOp_erased free running).run_free (erasable_resumeOp .eraseGate) free hstep
    · rw [step_resume running hmpc hin] at hstep
      obtain ⟨p, hp, hpoll⟩ := inv.atPoll running
      cases hmpc.symm.trans hp
      exact (eraseWaitOp_erased free running (erasedWhenReady_of_inv inv.device hpoll)).run_free
        (erasable_resumeOp .eraseWait) free hstep
  obtain ⟨array, hbusy, latch⟩ := herased idle ok
  exact ⟨fun a _ => by rw [array]; exact readByte_memErase a, hbusy, latch⟩

/-! ### A request on a ready device -/

theorem CeSent.of_mapCtl {f : Controller → Controller} (h : CeSent latch c (s.mapCtl f) v) : CeSent latch c s v :=
  ⟨h.free, h.cfg, h.ctl, by simpa using h.dev, h.wire, h.turn.trans (by rw [deviceTurn_mapCtl]; rfl)⟩

theorem exec_chipErase (idle : s.ctl.seq = .idle) :
    exec .chipErase s = runAct chipEraseOp (s.mapCtl (accepted 0x00000005)) := by
  have hw : hostWord 0x05 0 = 0x00000005 := by decide
  have hrequest : exec .chipErase s = runAct chipEraseOp (s.mapCtl (accepted (hostWord 0x05 0))) := request_idle idle
  rwa [hw] at hrequest

theorem exec_chipErase_sends (idle : s.ctl.seq = .idle) (free : BusFree s) (ready : ReadyNext s)
    (hlatch : latchAfterWren s.cfg (deviceTurn s).dev = latch) (sends : ¬ (latch = false ∧ s.cfg.eraseAbort = true)) :
    ∃ v, exec .chipErase s = runAct eraseWaitOp v ∧ CeSent latch (accepted 0x00000005 s.ctl) s v := by
  obtain ⟨v, hop, hsent⟩ := chipEraseOp_sends (free.mapCtl (accepted 0x00000005)) (ready.mapCtl _)
    (by rw [deviceTurn_mapCtl]; exact hlatch) sends
  exact ⟨v, by rw [exec_chipErase idle, runAct, hop, runAct], hsent.of_mapCtl⟩

/-- The wait passes at the first poll after `CE` if the device did not take the erase, or completes it before
(rules R143, R162). -/
theorem CeSent.readyNext (h : CeSent latch c s v) (ready : ReadyNext s)
    (done : latch = true → turnTaken (deviceTurn s) = true) : ReadyNext v := by
  refine ⟨by rw [h.cfg]; exact ready.1, ?_⟩
  rw [deviceTurn_dbusy, h.dev, h.turn]
  cases latch with
  | true => simp [done rfl]
  | false => rfl

theorem CeSent.polled_wire (h : CeSent latch c s v) :
    v.bus.wire ++ [rdsrFrame] = s.bus.wire ++ [rdsrFrame, wrenFrame, rdsrFrame, ceFrame, rdsrFrame] := by
  rw [h.wire, List.append_assoc]
  rfl

/-- The registers at the end are those that the gate left, with the last status byte and the result (rule R214). -/
theorem CeSent.ended_ctl (h : CeSent latch c s v) : (afterErase v).ctl = finished (if latch = true then 0x00 else 0x02)
    { gateReported latch c with lastSr := (statusSeen v).toByte } := by
  rw [afterErase_ctl, h.ctl]
  rfl

/-- Settles O20: the operation comes to its last wait (`exec_chipErase_sends`), where the erase has completed
(`CeSent.dev_completed`) and the operation ends (`eraseWaitOp_ready`). -/
theorem chipEraseErasesTheArray : Obligations.ChipEraseErasesTheArray := by
  intro s idle free ready latch taken
  obtain ⟨v, hexec, hsent⟩ := exec_chipErase_sends idle free ready latch (by simp)
  have hdev := hsent.dev_completed (hsent.turn.trans taken)
  refine ⟨afterErase v, (statusSeen v).toByte, hexec.trans (runAct_ok (eraseWaitOp_ready hsent.free
    (hsent.readyNext ready fun _ => taken))), ?_, ?_, ?_, ?_⟩
  · rw [statusSeen_bit0, hdev]
  · rw [statusSeen_bit1, hdev]
  · rw [hsent.ended_ctl]
    simp [gateReported]
  · rw [afterErase_dev, hdev]
    exact ⟨fun a _ => readByte_memErase a, memWf_memErase, rfl, rfl, rfl, hsent.polled_wire, rfl, hsent.cfg⟩

/-! ### A device that is still erasing -/

/-- A device that is there answers the poll with a status byte, so that the frame stands in its buffer. -/
theorem busyPoll_present (p : Poll) (hp : s.cfg.present = true) :
    (busyPoll p s).dev = { (deviceTurn s).dev with fb := rdsrFrame } := by
  simp [busyPoll, afterRead, hp]

/-- The device at the poll after `CE`, when it is still erasing (rules R150, R212). -/
theorem CeSent.dev_pending (h : CeSent true c s v) (pending : turnTaken v = false) : (deviceTurn v).dev =
    { (deviceTurn s).dev with dbusy := true, dwel := true, dpend := .erase, fb := ceFrame } := by
  rw [deviceTurn_dev, h.dev, if_neg (by simp [pending])]
  rfl

/-- CHIP_ERASE on a device that is still erasing at the poll after `CE` (rules R211, R212). -/
theorem chipErase_waits (idle : s.ctl.seq = .idle) (free : BusFree s) (ready : ReadyNext s)
    (latch : latchAfterWren s.cfg (deviceTurn s).dev = true) (pending : turnTaken (deviceTurn s) = false) :
    ∃ t sr, exec .chipErase s = .next t ∧ sr.getLsbD 0 = true ∧ sr.getLsbD 1 = true ∧
      t.ctl = { accepted 0x00000005 s.ctl with
        lastSr := sr, ok := true, mpc := some (.poll .eraseWait), log := s.ctl.log ++ [.eraseProgress] } ∧
      t.dev = { (deviceTurn s).dev with dbusy := true, dwel := true, dpend := .erase, fb := rdsrFrame } ∧
      t.bus.wire = s.bus.wire ++ [rdsrFrame, wrenFrame, rdsrFrame, ceFrame, rdsrFrame] ∧ t.cfg = s.cfg := by
  obtain ⟨v, hexec, hsent⟩ := exec_chipErase_sends idle free ready latch (by simp)
  have hdev := hsent.dev_pending (hsent.turn.trans pending)
  have hp : v.cfg.present = true := by rw [hsent.cfg]; exact ready.1
  have hbusy : BusyNext v := .inr (by rw [hdev])
  obtain ⟨hbit0, hbit1⟩ := rxSeen_bits hp
  refine ⟨_, (rxSeen v).toByte, hexec.trans (runAct_suspended (eraseWaitOp_stays hsent.free hbusy)), ?_, ?_, ?_, ?_, ?_,
    ?_⟩
  · rw [hbit0, hdev]
  · rw [hbit1, hdev]
  · rw [busyPoll_ctl, hsent.ctl]
    simp [whileBusy, gateReported]
  · rw [busyPoll_present _ hp, hdev]
  · rw [busyPoll_wire, hsent.polled_wire]
  · rw [busyPoll_cfg, hsent.cfg]

/-- Settles O21: the request stops at its last wait (`chipErase_waits`), and each step there is one poll, busy
(`eraseWaitOp_stays`) or ready (`eraseWaitOp_ready`). -/
theorem chipEraseReportsProgressWhileBusy : Obligations.ChipEraseReportsProgressWhileBusy := by
  refine ⟨fun s => chipErase_waits, fun s running mpc free hin => ⟨fun busy => ?_, fun ready => ?_⟩⟩
  · refine ⟨_, (rxSeen s).toByte, (step_resume running mpc hin).trans (runAct_suspended (eraseWaitOp_stays free busy)),
      rxSeen_bit0 busy, ?_, busyPoll_dev _ s, busyPoll_wire _ s, (free.busyPoll _).1, busyPoll_cfg _ s,
      busyPoll_inbox _ s⟩
    rw [busyPoll_ctl, ← mpc]
    rfl
  · exact ⟨_, (statusSeen s).toByte, (step_resume running mpc hin).trans (runAct_ok (eraseWaitOp_ready free ready)),
      by rw [statusSeen_bit0]; exact ready.2, statusSeen_bit1 s, afterErase_ctl s, afterErase_dev s, rfl, rfl, rfl,
      afterStatus_inbox s⟩

/-! ### A gate that failed -/

theorem dwel_of_latch_failed {g : Config} {d : Device} (h : latchAfterWren g d = false) : d.dwel = false := by
  simp only [latchAfterWren, Bool.or_eq_false_iff] at h
  exact h.1

/-- A device whose latch did not take ignores the `CE` frame, and is as the gate found it (rules R147, R150). -/
theorem CeSent.dev_ignored (h : CeSent false c s v) (idle : (deviceTurn s).dev.dbusy = false)
    (dwel : (deviceTurn s).dev.dwel = false) : (deviceTurn v).dev = { (deviceTurn s).dev with fb := ceFrame } := by
  rw [deviceTurn_idle (by rw [h.dev]), h.dev]
  simp [idle, dwel]

/-- Settles O22: with `P_ERASE_ABORT` the operation ends after its gate (`chipEraseOp_aborts`); without, the device
ignores the `CE` frame (`CeSent.dev_ignored`) and the operation ends at the poll after it (`eraseWaitOp_ready`). -/
theorem chipEraseAfterFailedGate : Obligations.ChipEraseAfterFailedGate := by
  intro s idle free ready fails
  have dwel := dwel_of_latch_failed fails
  by_cases abort : s.cfg.eraseAbort = true
  · have hop := chipEraseOp_aborts (free.mapCtl (accepted 0x00000005)) (ready.mapCtl _)
      (by rw [deviceTurn_mapCtl]; exact fails) abort
    obtain ⟨sr, hbusy, hwel, hctl⟩ := afterGate_ctl (ready.mapCtl (accepted 0x00000005))
    have hdev := afterGate_dev (ready.mapCtl (accepted 0x00000005))
    simp only [deviceTurn_mapCtl, mapCtl_cfg, mapCtl_dev, mapCtl_ctl, fails] at hwel hctl hdev
    refine ⟨_, sr, (exec_chipErase idle).trans (runAct_ok hop), hbusy, hwel, ?_, ?_, ?_, rfl⟩
    · rw [mapCtl_ctl, hctl]
      simp [gateReported]
    · rw [mapCtl_dev, hdev, ← dwel]
    · rw [mapCtl_bus, afterGate_wire, if_pos abort, mapCtl_bus]
  · obtain ⟨v, hexec, hsent⟩ := exec_chipErase_sends idle free ready fails (by simp [abort])
    have hdev := hsent.dev_ignored ready.2 dwel
    refine ⟨afterErase v, (statusSeen v).toByte, hexec.trans (runAct_ok (eraseWaitOp_ready hsent.free
      (hsent.readyNext ready nofun))), ?_, ?_, ?_, ?_, ?_, hsent.cfg⟩
    · rw [statusSeen_bit0, hdev]; exact ready.2
    · rw [statusSeen_bit1, hdev]; exact dwel
    · rw [hsent.ended_ctl]
      simp [gateReported]
    · rw [afterErase_dev, hdev]
    · rw [if_neg abort]
      exact hsent.polled_wire

end Sys2Proof.Machine
end

section
/-!
SCAN (spec/45_scan.md): what its stream of the array stops at, read as the statements say it (rules R225, R230), and the
whole operation on a ready device, from the request to the end of its `READ` frame and on to its result.
-/

namespace Sys2Proof.Machine

variable {n e : Nat} {found : Bool} {g : Config} {m : Memory} {run : BitVec 5} {addr : CursorWord} {s t u : State}

/-! ### What the stream stops at -/

/-- What SCAN's answer says of the array `m`, with `RUN` and `ADDR` at the end of the stream and the number of bytes
streamed: the first run of 16, or none (rules R229 to R231). -/
inductive ScanVerdict (g : Config) (m : Memory) (run : BitVec 5) (addr : CursorWord) : Bool → Nat → Prop where
  | hit {e : Nat} (first : FirstRunEndsAt g m e) (run16 : run = 16) (atEnd : addr = cursorOf e) :
      ScanVerdict g m run addr true (e + 1)
  | miss (none : NoRun g m) (pastEnd : addr = cursorOf (size g)) : ScanVerdict g m run addr false (size g)

theorem not_runEndsAt (h : runAt m (e + 1) ≤ 15) : ¬ RunEndsAt m e := by
  rw [runEndsAt_iff]
  omega

theorem ScanHit.firstRunEndsAt (h : ScanHit s t 0 e) : FirstRunEndsAt s.cfg s.dev.dmem e :=
  ⟨Nat.lt_succ_iff.mp h.lt, runEndsAt_iff.mpr h.run16.ge, fun e' lt => not_runEndsAt (h.first e' e'.zero_le lt)⟩

theorem ScanMiss.noRun (h : ScanMiss s t 0 n) : NoRun s.cfg s.dev.dmem :=
  fun e le => not_runEndsAt (h.none e e.zero_le (Nat.lt_succ_of_le le))

theorem FirstRunEndsAt.unique {e' : Nat} (h : FirstRunEndsAt g m e) (h' : FirstRunEndsAt g m e') : e' = e :=
  have ⟨_, ends, least⟩ := h
  have ⟨_, ends', least'⟩ := h'
  le_antisymm (Nat.le_of_not_lt fun lt => least' e lt ends) (Nat.le_of_not_lt fun lt => least e' lt ends')

/-- An array with a first run is answered with that run. -/
theorem ScanVerdict.of_firstRun (h : ScanVerdict g m run addr found n) (first : FirstRunEndsAt g m e) :
    found = true ∧ n = e + 1 ∧ run = 16 ∧ addr = cursorOf e := by
  have ⟨le, ends, _⟩ := first
  cases h with
  | hit first' run16 atEnd =>
    obtain rfl := first.unique first'
    exact ⟨rfl, rfl, run16, atEnd⟩
  | miss none _ => exact absurd ends (none e le)

theorem ScanVerdict.of_noRun (h : ScanVerdict g m run addr found n) (none : NoRun g m) :
    found = false ∧ n = size g ∧ addr = cursorOf (size g) := by
  cases h with
  | hit first _ _ =>
    obtain ⟨le, ends, -⟩ := first
    exact absurd ends (none _ le)
  | miss _ pastEnd => exact ⟨rfl, rfl, pastEnd⟩

/-- SCAN's stream came from `s` to `t` in its open frame by `n` bytes from address 0. -/
structure Streamed (n : Nat) (s t : State) : Prop where
  cfg  : t.cfg = s.cfg
  env  : t.env = s.env
  cs   : t.bus.cs = true
  wire : t.bus.wire = s.bus.wire
  mosi : t.bus.mosi = s.bus.mosi ++ List.replicate n 0
  ctl  : t.ctl = { s.ctl with mpc := t.ctl.mpc, run := t.ctl.run, addr := t.ctl.addr }
  dev  : t.dev = { s.dev with fb := s.dev.fb ++ List.replicate n 0, daddr := cursorOf n }

/-- `scanStream_spec` from address 0. -/
theorem scanStream_verdict (h : Reading s 0) (run : s.ctl.run = 0) (addr : s.ctl.addr = 0) :
    ∃ found n t, scanStream (size s.cfg) s = .ok found t ∧ Streamed n s t ∧
      ScanVerdict s.cfg s.dev.dmem t.ctl.run t.ctl.addr found n := by
  obtain ⟨t, found, hm, cfg, env, cs, wire, ctl, dev, hhit, hmiss⟩ :=
    scanStream_spec h (Nat.add_zero _) (by rw [run]; rfl) (by simp [runAt]) addr
  refine ⟨found, ?_⟩
  cases found with
  | true =>
    obtain ⟨e, hit⟩ := hhit rfl
    exact ⟨e + 1, t, hm, ⟨cfg, env, cs, wire, hit.mosi, ctl, by rw [dev, hit.fb, hit.daddr]; rfl⟩,
      .hit hit.firstRunEndsAt hit.run hit.addr⟩
  | false =>
    have miss := hmiss rfl
    exact ⟨size s.cfg, t, hm, ⟨cfg, env, cs, wire, miss.mosi, ctl, by rw [dev, miss.fb, miss.daddr]⟩,
      .miss miss.noRun miss.addr⟩

/-! ### The search on a ready device -/

/-- SCAN's state at the head of its stream: the poll was ready and the `READ` frame is open at address 0 (rule R228). -/
def scanOpened (s : State) : State :=
  { afterStatus s with
    ctl := { (afterStatus s).ctl with mpc := some .scanOpen, run := 0, addr := 0 }
    bus := { (afterStatus s).bus with
      cs := true, mosi := readFrame 0 0, miso := drawn (afterStatus s).env.drawCount 4 }
    dev := { (deviceTurn s).dev with fb := readFrame 0 0, daddr := 0 }
    env := { (afterStatus s).env with drawCount := (afterStatus s).env.drawCount + 4 } }

theorem scanOpened_due (free : BusFree s) : (scanOpened s).env.due = [] := free.afterStatus.2

theorem scanOpened_reading (free : BusFree s) (ready : ReadyNext s) : Reading (scanOpened s) 0 :=
  ⟨rfl, scanOpened_due free, ready.1, ready.2, ⟨_, _, _, _, rfl⟩, rfl⟩

theorem scanSearch_opened (free : BusFree s) (ready : ReadyNext s) : scanSearch s =
    (do let found ← scanStream (size s.cfg); label .scanClose; deselect; return found : Act Bool) (scanOpened s) := by
  have due : (afterStatus s).env.due = [] := free.afterStatus.2
  have hopen := openRead_idle (s := (afterStatus s).atLabel .scanOpen) 0 rfl due ready.1 ready.2
  rw [scanSearch, bind_ok (awaitReady_ready .scanPoll nop free ready), bind_ok (label_free _ (by exact due)),
    atLabel_atLabel, bind_ok hopen, bind_ok (updCtl_apply _ _), bind_ok (ask_apply _)]
  rfl

/-- SCAN has come from `s`, where the controller held `c`, to the end of its `READ` frame of `n` bytes (rules R228,
R231). -/
structure Searched (n : Nat) (c : Controller) (s u : State) : Prop where
  free : BusFree u
  cfg  : u.cfg = s.cfg
  ctl  : u.ctl = { c with
    mpc := u.ctl.mpc, lastSr := (statusSeen s).toByte, run := u.ctl.run, addr := u.ctl.addr }
  dev  : u.dev = { (deviceTurn s).dev with fb := readFrame 0 n, daddr := cursorOf n }
  wire : u.bus.wire = s.bus.wire ++ [rdsrFrame, readFrame 0 n]

/-- On a ready device the search comes to the end of its frame with what it found (rules R228 to R231). -/
theorem scanSearch_verdict (free : BusFree s) (ready : ReadyNext s) : ∃ found n u, scanSearch s = .ok found u ∧
    Searched n s.ctl s u ∧ ScanVerdict s.cfg (deviceTurn s).dev.dmem u.ctl.run u.ctl.addr found n := by
  obtain ⟨found, n, t, hstream, ht, verdict⟩ := scanStream_verdict (scanOpened_reading free ready) rfl rfl
  have due : t.env.due = [] := by rw [ht.env]; exact scanOpened_due free
  have hfb : t.dev.fb = readFrame 0 n := by rw [ht.dev]; exact readFrame_append 0 n
  have hclose := deselect_read (t := t.atLabel .scanClose) ht.cs due
    (by rw [atLabel_cfg, ht.cfg]; exact ready.1) hfb
  refine ⟨found, n, _, (scanSearch_opened free ready).trans ((bind_ok hstream).trans ((bind_ok (label_free _ due)).trans
    ((bind_ok hclose).trans (pure_apply _ _)))), ⟨⟨rfl, due⟩, ht.cfg, ?_, ?_, ?_⟩, verdict⟩
  · rw [atLabel_ctl, ht.ctl]
    rfl
  · rw [atLabel_dev, ht.dev]
    simp only [scanOpened, readFrame_append]
  · rw [atLabel_bus, ht.wire, ht.mosi]
    show (s.bus.wire ++ [rdsrFrame]) ++ [readFrame 0 0 ++ List.replicate n 0] = _
    rw [readFrame_append, List.append_assoc]
    rfl

/-! ### The result -/

theorem scanOutcome_found (due : u.env.due = []) : scanOutcome true u = .ok () (u.mapCtl fun c =>
    finished 0x00 { c with cursor := alignDown16 c.addr, wp := true }) := by
  rw [scanOutcome, if_pos rfl, bind_ok (label_free _ due), bind_ok (updCtl_apply _ _),
    bind_ok (label_free _ (by exact due)), bind_ok (updCtl_apply _ _), endWith_free _ (by exact due)]
  rfl

theorem scanOutcome_exhausted (due : u.env.due = []) : scanOutcome false u = .ok () (u.mapCtl fun c =>
    finished 0x06 { c with log := c.log ++ [.noRegion], wp := false }) := by
  rw [scanOutcome, if_neg Bool.false_ne_true, bind_ok (label_free _ due), bind_ok (emit_apply _ _),
    bind_ok (label_free _ (by exact due)), bind_ok (updCtl_apply _ _), endWith_free _ (by exact due)]
  rfl

/-- A SCAN request on a ready device: the search, and what SCAN does with its answer. -/
theorem exec_scan (idle : s.ctl.seq = .idle) (free : BusFree s) (ready : ReadyNext s) :
    ∃ found n u, exec .scan s = runAct (scanOutcome found) u ∧ Searched n (accepted 0x00000006 s.ctl) s u ∧
      ScanVerdict s.cfg (deviceTurn s).dev.dmem u.ctl.run u.ctl.addr found n := by
  have hw : hostWord 0x06 0 = 0x00000006 := by decide
  have hrequest : exec .scan s = runAct scanOp (s.mapCtl (accepted (hostWord 0x06 0))) := request_idle idle
  obtain ⟨found, n, u, hsearch, hu, verdict⟩ :=
    scanSearch_verdict (free.mapCtl (accepted 0x00000006)) (ready.mapCtl (accepted 0x00000006))
  refine ⟨found, n, u, ?_, ⟨hu.free, hu.cfg, ?_, ?_, hu.wire⟩, ?_⟩
  · rw [hrequest, hw, scanOp_eq, runAct, bind_ok hsearch, runAct]
  · simpa using hu.ctl
  · simpa using hu.dev
  · simpa using verdict

/-- `ADDR & ~0xF` is the smallest multiple of 16 at or above the first byte of the run that ends at `e` (rule R229). -/
theorem alignDown16_run (h : FirstRunEndsAt g m e) :
    (alignDown16 (cursorOf e)).toNat % 16 = 0 ∧ e - 15 ≤ (alignDown16 (cursorOf e)).toNat ∧
      (alignDown16 (cursorOf e)).toNat < e - 15 + 16 := by
  obtain ⟨le, ⟨ge15, -⟩, -⟩ := h
  have inArray : e < size g := Nat.lt_succ_of_le le
  have fits := size_le g
  rw [alignDown16_cursorOf e (by omega)]
  omega

/-- Settles O24: the search answers with the first run (`ScanVerdict.of_firstRun`), and the cursor is its last address
rounded down (`alignDown16_run`). -/
theorem scanFindsTheFirstErasedRun : Obligations.ScanFindsTheFirstErasedRun := by
  intro s e idle free ready first
  obtain ⟨found, n, u, hexec, hu, verdict⟩ := exec_scan idle free ready
  obtain ⟨rfl, rfl, run, addr⟩ := verdict.of_firstRun first
  refine ⟨_, (statusSeen s).toByte, hexec.trans (runAct_ok (scanOutcome_found hu.free.2)), ?_, statusSeen_bit1 s, ?_⟩
  · rw [statusSeen_bit0]
    exact ready.2
  · obtain ⟨aligned, above, least⟩ := alignDown16_run first
    rw [← addr] at aligned above least
    refine ⟨aligned, above, least, ?_, hu.dev, hu.wire, hu.free.1, hu.cfg⟩
    rw [mapCtl_ctl, hu.ctl, run, addr]
    rfl

/-- Settles O25: the search answers that there is no run (`ScanVerdict.of_noRun`), after the whole array. -/
theorem scanExhaustionDisablesWrites : Obligations.ScanExhaustionDisablesWrites := by
  intro s idle free ready none
  obtain ⟨found, n, u, hexec, hu, verdict⟩ := exec_scan idle free ready
  obtain ⟨rfl, rfl, addr⟩ := verdict.of_noRun none
  refine ⟨_, (statusSeen s).toByte, hexec.trans (runAct_ok (scanOutcome_exhausted hu.free.2)), ?_, statusSeen_bit1 s,
    ?_, hu.dev, hu.wire, hu.free.1, hu.cfg⟩
  · rw [statusSeen_bit0]
    exact ready.2
  · rw [mapCtl_ctl, hu.ctl, addr]
    rfl

end Sys2Proof.Machine
end

section
/-!
WRITE_DATA (spec/46_page_program.md), said once for each of its parts: the checks, of which the first that fails ends
the operation before any frame (rules R247, R248, R252 to R254); the gate, after which the write is skipped without the
latch or without `WP` (rule R249); the `PP` frame and the advance of the cursor (rules R246, R250, R251).
-/

namespace Sys2Proof.Machine

variable {len : LenWord} {latch : Bool} {g : Config} {c : Controller} {s : State}

theorem exec_writeData (idle : s.ctl.seq = .idle) :
    exec (.writeData len) s = runAct writeDataOp (s.mapCtl (accepted (hostWord 0x07 len))) := request_idle idle

/-! ### The checks -/

/-- The end of a WRITE_DATA by the first check that fails, in the controller (rules R247, R248, R252, R253). -/
def writeRefused (g : Config) (c : Controller) : Controller :=
  if c.lenl = 0 then finished 0x07 c
  else if c.cursor.toNat + c.lenl.toNat > endAddr g + 1 then
    haltedWith 0x05 { c with log := c.log ++ [.capacityExhausted] }
  else finished 0x04 { c with log := c.log ++ [.pageBoundary] }

theorem writeDataOp_refused (due : s.env.due = []) (fails : ¬ Checked s.cfg s.ctl) :
    writeDataOp s = .ok () (s.mapCtl (writeRefused s.cfg)) := by
  rw [writeDataOp, bind_ok (label_free _ due), bind_ok (ask_apply _)]
  by_cases zero : s.ctl.lenl = 0
  · rw [if_pos (by exact zero), endWith_free _ (by exact due)]
    simp only [State.mapCtl, writeRefused, if_pos zero]
    rfl
  rw [if_neg (by exact zero)]
  by_cases past : s.ctl.cursor.toNat + s.ctl.lenl.toNat > endAddr s.cfg + 1
  · rw [if_pos (by simpa [overCapacity] using past), bind_ok (label_free _ (by exact due)), bind_ok (emit_apply _ _),
      bind_ok (label_free _ (by exact due)), halt_apply]
    simp only [State.mapCtl, writeRefused, if_neg zero, if_pos past]
    rfl
  · have fits : overCapacity s.cfg s.ctl.cursor s.ctl.lenl = false := by simpa [overCapacity] using past
    have crosses : crossesPage s.ctl.cursor s.ctl.lenl = true :=
      Bool.eq_true_of_not_eq_false fun onPage => fails (checked_iff.mpr ⟨zero, fits, onPage⟩)
    rw [if_neg (by simp [fits]), if_pos (by exact crosses), bind_ok (label_free _ (by exact due)),
      bind_ok (emit_apply _ _), endWith_free _ (by exact due)]
    simp only [State.mapCtl, writeRefused, if_neg zero, if_neg past]
    rfl

/-- Settles O26: the operation ends by the first check that fails (`writeDataOp_refused`). -/
theorem writeChecksComeBeforeTheBus : Obligations.WriteChecksComeBeforeTheBus := by
  intro s len idle due fails
  have hop := writeDataOp_refused (s := s.mapCtl (accepted (hostWord 0x07 len))) due fun checked => by
    obtain ⟨nonzero, fits, onPage⟩ := checked
    rw [mapCtl_ctl, accepted_lenl] at nonzero fits onPage
    rcases fails with zero | past | crosses
    · exact nonzero zero
    · exact absurd fits (Nat.not_le.mpr past)
    · exact absurd onPage (Nat.not_le.mpr crosses)
  refine ⟨_, (exec_writeData idle).trans (runAct_ok hop), ?_, rfl, rfl, rfl⟩
  simp only [mapCtl_ctl, mapCtl_cfg, writeRefused, accepted_lenl, accepted_cursor, accepted_log]

/-! ### The gate -/

theorem checked_accepted (nonzero : len ≠ 0) (fits : c.cursor.toNat + len.toNat ≤ endAddr g + 1)
    (onPage : c.cursor.toNat % 256 + len.toNat ≤ 256) : Checked g (accepted (hostWord 0x07 len) c) := by
  constructor <;> rwa [accepted_lenl]

/-- A request that passes the checks goes to the gate (rule R246). -/
theorem exec_writeData_checked (idle : s.ctl.seq = .idle) (due : s.env.due = [])
    (checked : Checked s.cfg (accepted (hostWord 0x07 len) s.ctl)) :
    exec (.writeData len) s = runAct writeGateOp (s.mapCtl (accepted (hostWord 0x07 len))) := by
  rw [exec_writeData idle, runAct, writeDataOp_checked (by exact due) (checked_iff.mp checked), runAct]

/-- Without the latch, or without `WP`, the write is skipped after the gate (rules R197, R249). -/
theorem writeGateOp_skips (free : BusFree s) (ready : ReadyNext s)
    (hlatch : latchAfterWren s.cfg (deviceTurn s).dev = latch) (skips : s.ctl.wp = false ∨ latch = false) :
    writeGateOp s = .ok () ((afterGate s).mapCtl fun c =>
      finished (if latch = true then 0x03 else 0x02) (gateReported latch c)) := by
  have due : (afterGate s).env.due = [] := (afterGate_due s).trans free.2
  obtain ⟨l, hgate⟩ := gate_reports .writeGate free ready hlatch
  rw [writeGateOp, bind_ok hgate]
  cases latch with
  | false => exact endWith_free resWel due
  | true =>
    have hwp : s.ctl.wp = false := skips.resolve_right nofun
    have unpermitted : ¬ ((s.ctl.wp && true) = true) := by simp [hwp]
    rw [if_pos rfl, bind_ok (label_free _ (by exact due)), bind_ok (ask_apply _), if_neg (by exact unpermitted)]
    exact endWith_free resNotPermitted due

/-- Settles O28: the operation passes its checks (`exec_writeData_checked`) and ends after its gate
(`writeGateOp_skips`). -/
theorem writeWithoutPermissionIsSkipped : Obligations.WriteWithoutPermissionIsSkipped := by
  intro s len idle free ready nonzero fits onPage skips
  have hready := ready.mapCtl (accepted (hostWord 0x07 len))
  have hexec := exec_writeData_checked idle free.2 (checked_accepted nonzero fits onPage)
  have hop := writeGateOp_skips (free.mapCtl (accepted (hostWord 0x07 len))) hready (by rw [deviceTurn_mapCtl]; rfl)
    skips
  obtain ⟨sr, hbusy, hwel, hctl⟩ := afterGate_ctl hready
  have hdev := afterGate_dev hready
  simp only [deviceTurn_mapCtl, mapCtl_cfg, mapCtl_dev, mapCtl_ctl] at hwel hctl hdev
  refine ⟨_, sr, hexec.trans (runAct_ok hop), hbusy, hwel, ?_, hdev, afterGate_wire _, rfl, rfl⟩
  rw [mapCtl_ctl, hctl]
  cases latchAfterWren s.cfg (deviceTurn s).dev <;> simp [gateReported]

/-! ### The program -/

/-- A WRITE_DATA that the gate and `WP` let pass goes on to its second ready-wait (rules R246, R249). -/
theorem writeGateOp_permitted (free : BusFree s) (ready : ReadyNext s)
    (hlatch : latchAfterWren s.cfg (deviceTurn s).dev = true) (wp : s.ctl.wp = true) :
    writeGateOp s = writeReadyOp ((afterGate s).mapCtl (gateReported true)) := by
  have due : (afterGate s).env.due = [] := (afterGate_due s).trans free.2
  have permitted : (s.ctl.wp && true) = true := by simp [wp]
  obtain ⟨l, hgate⟩ := gate_reports .writeGate free ready hlatch
  rw [writeGateOp, bind_ok hgate, if_pos rfl, bind_ok (label_free _ (by exact due)), bind_ok (ask_apply _),
    if_pos (by exact permitted)]
  simp only [writeReadyOp, bind_apply, awaitReady_atLabel]

theorem wireAddr_eq (a : CursorWord) : wireAddr a = a.setWidth 24 := (BitVec.setWidth_eq_extractLsb' (by decide)).symm

/-- The exact sum is the register's value: no checked write wraps the cursor (rules R79, R251). -/
theorem Checked.advanced_toNat (h : Checked g c) :
    (Machine.advanced c.cursor c.lenl).toNat = c.cursor.toNat + c.lenl.toNat := by
  have fits := h.fits
  have hsize := size_le g
  exact Nat.mod_eq_of_lt (by omega)

theorem Checked.dataBytes_ne_nil (h : Checked g c) : dataBytes c.data c.lenl ≠ [] := by
  have nonzero : c.lenl.toNat ≠ 0 := fun zero => h.some (BitVec.eq_of_toNat_eq zero)
  have onPage := h.onPage
  have length : (dataBytes c.data c.lenl).length = c.lenl.toNat := dataBytes_length _ (by omega)
  exact List.ne_nil_of_length_pos (by omega)

/-- A legal `PP` frame on an idle device whose latch is set starts its program (rules R155, R156). -/
theorem issuePp_starts {a : FlashAddr} {bytes : List Byte} (free : BusFree s) (idle : DeviceIdle s)
    (dwel : s.dev.dwel = true) (nonempty : bytes ≠ []) (legal : programIllegal s.cfg a bytes = false) :
    issuePp a bytes s = .ok () (afterDraws s (ppFrame a bytes)
      { s.dev with dbusy := true, dpend := .prog a bytes, fb := ppFrame a bytes }) := by
  obtain ⟨present, ready⟩ := idle
  have hframe := issuePp_present a bytes free.1 free.2 present
  rwa [deviceTurn_idle ready, ppDevice_started ready dwel nonempty legal] at hframe

/-- The `PP` frame of a WRITE_DATA (rule R155). -/
def writeFrame (c : Controller) : List Byte := ppFrame (wireAddr c.cursor) (dataBytes c.data c.lenl)

theorem writeFrame_eq (h : c.lenl = len) :
    writeFrame c = ppFrame (c.cursor.setWidth 24) (c.data.toList.take len.toNat) := by
  rw [writeFrame, wireAddr_eq, dataBytes, h]

/-- The state after a WRITE_DATA whose program the device took, from its second ready-wait (rules R246, R250, R251). -/
def afterProgram (s : State) : State :=
  let started := { s.dev with
    dbusy := true, dpend := .prog (wireAddr s.ctl.cursor) (dataBytes s.ctl.data s.ctl.lenl), fb := writeFrame s.ctl }
  (afterDraws (afterStatus s) (writeFrame s.ctl) started).mapCtl fun c =>
    finished 0x00 { c with cursor := advanced c.cursor c.lenl }

theorem afterProgram_ctl (s : State) : (afterProgram s).ctl = finished 0x00 { s.ctl with
    lastSr := (statusSeen s).toByte, cursor := advanced s.ctl.cursor s.ctl.lenl } := rfl

theorem afterProgram_dev (h : s.ctl.lenl = len) : (afterProgram s).dev = { s.dev with
    dbusy := true, dpend := .prog (s.ctl.cursor.setWidth 24) (s.ctl.data.toList.take len.toNat)
    fb := writeFrame s.ctl } := by
  rw [← wireAddr_eq, ← h]
  rfl

theorem afterProgram_wire (s : State) : (afterProgram s).bus.wire = s.bus.wire ++ [rdsrFrame, writeFrame s.ctl] :=
  List.append_assoc _ [_] [_]

theorem writeReadyOp_programs (free : BusFree s) (idle : DeviceIdle s) (dwel : s.dev.dwel = true)
    (checked : Checked s.cfg s.ctl) : writeReadyOp s = .ok () (afterProgram s) := by
  have due : (afterStatus s).env.due = [] := free.afterStatus.2
  have turn : deviceTurn s = s := deviceTurn_idle idle.2
  have hdev : (afterStatus s).dev = { s.dev with fb := rdsrFrame } := by rw [afterStatus_dev, turn]
  have hframe := issuePp_starts (free.afterStatus.atLabel .writeSend) ⟨idle.1, by rw [atLabel_dev, hdev]; exact idle.2⟩
    (by rw [atLabel_dev, hdev]; exact dwel) checked.dataBytes_ne_nil checked.legal
  rw [atLabel_dev, hdev] at hframe
  rw [writeReadyOp, bind_ok (awaitReady_ready _ _ free ⟨idle.1, by rw [turn]; exact idle.2⟩),
    bind_ok (label_free _ (by exact due)), atLabel_atLabel, bind_ok (ask_apply _)]
  refine (bind_ok hframe).trans ?_
  rw [bind_ok (label_free _ (by exact due)), bind_ok (delay_apply _ _), bind_ok (label_free _ (by exact due)),
    bind_ok (updCtl_apply _ _), endWith_free _ (by exact due)]
  rfl

/-- The state before the second ready-wait of a permitted WRITE_DATA (`writeGateOp_permitted`). -/
def beforeProgram (len : LenWord) (s : State) : State :=
  (afterGate (s.mapCtl (accepted (hostWord 0x07 len)))).mapCtl (gateReported true)

theorem beforeProgram_dev (ready : ReadyNext s) (takes : latchAfterWren s.cfg (deviceTurn s).dev = true) :
    (beforeProgram len s).dev = { (deviceTurn s).dev with dwel := true, fb := rdsrFrame } := by
  have hdev := afterGate_dev (ready.mapCtl (accepted (hostWord 0x07 len)))
  simp only [deviceTurn_mapCtl, mapCtl_cfg, mapCtl_dev, takes] at hdev
  exact hdev

theorem beforeProgram_ctl (len : LenWord) (s : State) : (beforeProgram len s).ctl =
    { accepted (hostWord 0x07 len) s.ctl with lastSr := (beforeProgram len s).ctl.lastSr, ok := true } := by
  simp [beforeProgram, gateReported, afterGate, afterWren]

theorem exec_writeData_programs (idle : s.ctl.seq = .idle) (free : BusFree s) (ready : ReadyNext s)
    (checked : Checked s.cfg (accepted (hostWord 0x07 len) s.ctl)) (wp : s.ctl.wp = true)
    (takes : latchAfterWren s.cfg (deviceTurn s).dev = true) :
    exec (.writeData len) s = .next (afterProgram (beforeProgram len s)) := by
  have hdev := beforeProgram_dev (len := len) ready takes
  have hgate := writeGateOp_permitted (free.mapCtl (accepted (hostWord 0x07 len))) (ready.mapCtl _)
    (by rw [deviceTurn_mapCtl]; exact takes) wp
  have idleNow : DeviceIdle (beforeProgram len s) := ⟨ready.1, by rw [hdev]; exact ready.2⟩
  have hprogram := writeReadyOp_programs (s := beforeProgram len s) ⟨rfl, (afterGate_due _).trans free.2⟩ idleNow
    (by rw [hdev]) ⟨checked.some, checked.fits, checked.onPage⟩
  exact (exec_writeData_checked idle free.2 checked).trans (runAct_ok (hgate.trans hprogram))

/-- Settles O27: the operation passes its checks and its gate (`exec_writeData_programs`), and ends in
`afterProgram`. -/
theorem writeDataStartsTheProgram : Obligations.WriteDataStartsTheProgram := by
  intro s len idle free ready nonzero fits onPage wp takes
  have checked := checked_accepted nonzero fits onPage
  have hdev := beforeProgram_dev (len := len) ready takes
  have turn : deviceTurn (beforeProgram len s) = beforeProgram len s := deviceTurn_idle (by rw [hdev]; exact ready.2)
  have lenl : (beforeProgram len s).ctl.lenl = len := accepted_lenl 0x07 len s.ctl
  refine ⟨_, (statusSeen (beforeProgram len s)).toByte, exec_writeData_programs idle free ready checked wp takes,
    ?_, ?_, ?_, ?_, ?_, ?_, rfl, rfl⟩
  · rw [statusSeen_bit0, turn, hdev]; exact ready.2
  · rw [statusSeen_bit1, turn, hdev]
  · exact checked.advanced_toNat.trans (by rw [accepted_lenl]; rfl)
  · rw [afterProgram_ctl, beforeProgram_ctl]
    rfl
  · rw [afterProgram_dev lenl, writeFrame_eq lenl, hdev]
    rfl
  · rw [afterProgram_wire, writeFrame_eq lenl]
    exact (congrArg (· ++ _) (afterGate_wire _)).trans (List.append_assoc ..)

end Sys2Proof.Machine
end


section
/-!
READ_ID (spec/47_identity_dump.md): its one frame, whichever device it meets, and what the operation makes of the two
bytes that the frame returned (rules R271 to R273).
-/

namespace Sys2Proof.Machine

variable {m d : Byte} {fb : List Byte} {s u : State}

/-! ### The frame -/

/-- An RDID frame went from `s` to `u` and left `fb` in the device's frame buffer (rules R145, R146). -/
structure RdidSent (fb : List Byte) (s u : State) : Prop where
  free : BusFree u
  cfg  : u.cfg = s.cfg
  ctl  : u.ctl = s.ctl
  dev  : u.dev = { (deviceTurn s).dev with fb := fb }
  wire : u.bus.wire = s.bus.wire ++ [rdidFrame]

theorem rdidSent_ready (free : BusFree s) (ready : ReadyNext s) :
    ∃ u, issueRdid s = .ok (s.cfg.devMfr, s.cfg.devDev) u ∧ RdidSent rdidFrame s u := by
  obtain ⟨present, idle⟩ := ready
  have due : (deviceTurn s).env.due = [] := by simpa using free.2
  have hframe := issueRdid_idle (by simpa using free.1) due (by simpa using present) idle
  rw [← issueRdid_deviceTurn free.1 free.2 idle, deviceTurn_cfg] at hframe
  exact ⟨_, hframe, ⟨rfl, due⟩, by simp, by simp, rfl, by simp⟩

/-- With no device both bytes are 0xFF, and no frame buffer takes the frame (rules R128, R140). -/
theorem rdidSent_absent (free : BusFree s) (absent : s.cfg.present = false) :
    ∃ u, issueRdid s = .ok (0xFF, 0xFF) u ∧ RdidSent (deviceTurn s).dev.fb s u :=
  ⟨_, issueRdid_absent free.1 free.2 absent, ⟨rfl, by simpa using free.2⟩, by simp, by simp, rfl, rfl⟩

theorem rdidSent_busy (free : BusFree s) (present : s.cfg.present = true) (busy : (deviceTurn s).dev.dbusy = true) :
    ∃ u, issueRdid s = .ok (Config.freeByte (s.env.drawCount + 4), Config.freeByte (s.env.drawCount + 5)) u ∧
      RdidSent rdidFrame s u :=
  ⟨_, issueRdid_refused free.1 free.2 present busy, ⟨rfl, by simpa [afterDraws] using free.2⟩, by simp [afterDraws],
    by simp [afterDraws], rfl, by simp [afterDraws]⟩

/-! ### The operation -/

/-- What READ_ID leaves in the controller for the pair `(m, d)` (rule R271). -/
def identified (g : Config) (m d : Byte) (c : Controller) : Controller :=
  if m = g.expMfr ∧ d = g.expDev then
    finished 0x00 { c with idreg := d ++ m, idv := true, idmm := false, log := c.log ++ [.idRead m d] }
  else
    finished 0x01 { c with
      idreg := d ++ m, idv := true, idmm := true, log := c.log ++ [.idRead m d, .idMismatch m d] }

theorem identified_idreg (g : Config) (m d : Byte) (c : Controller) : (identified g m d c).idreg = d ++ m := by
  unfold identified
  split <;> rfl

theorem identified_mpc (g : Config) (m d : Byte) (c : Controller) (l : Option MicroPos) :
    identified g m d { c with mpc := l } = identified g m d c := rfl

theorem idMatches_iff {g : Config} : idMatches g m d = true ↔ m = g.expMfr ∧ d = g.expDev := by
  simp [idMatches]

/-- READ_ID reports whatever pair its frame returns (rules R271, R273). -/
theorem readIdOp_identifies (due : s.env.due = []) (hframe : issueRdid (s.atLabel .idFrame) = .ok (m, d) u)
    (udue : u.env.due = []) : readIdOp s = .ok () (u.mapCtl (identified u.cfg m d)) := by
  refine (bind_ok (label_free _ due)).trans ((bind_ok hframe).trans ((bind_ok (label_free .idPair udue)).trans ?_))
  rw [bind_ok (updCtl_apply _ _), bind_ok (label_free _ (by exact udue)), bind_ok (updCtl_apply _ _),
    bind_ok (label_free _ (by exact udue)), bind_ok (emit_apply _ _), bind_ok (label_free _ (by exact udue)),
    bind_ok (ask_apply _)]
  by_cases expected : m = u.cfg.expMfr ∧ d = u.cfg.expDev
  · rw [if_pos (idMatches_iff.mpr (by exact expected)), bind_ok (updCtl_apply _ _), endWith_free _ (by exact udue)]
    simp only [State.mapCtl, identified, if_pos expected]
    rfl
  · rw [if_neg (mt idMatches_iff.mp (by exact expected)), bind_ok (updCtl_apply _ _),
      bind_ok (label_free _ (by exact udue)), bind_ok (emit_apply _ _), endWith_free _ (by exact udue)]
    simp only [State.mapCtl, identified, if_neg expected, State.atLabel, List.append_assoc]
    rfl

/-- The state in which a READ_ID request sends its frame. -/
def identifying (s : State) : State := (s.mapCtl (accepted 0x00000001)).atLabel .idFrame

theorem ReadyNext.identifying (ready : ReadyNext s) : ReadyNext (identifying s) := (ready.mapCtl _).mapCtl _

/-- A READ_ID request, from its frame to its end: the pair is reported, and the device is as the frame left it
(rules R271, R272). -/
theorem exec_readId (idle : s.ctl.seq = .idle) (due : s.env.due = [])
    (hframe : issueRdid (identifying s) = .ok (m, d) u) (sent : RdidSent fb (identifying s) u) :
    ∃ t, exec .readId s = .next t ∧ t.ctl = identified s.cfg m d (accepted 0x00000001 s.ctl) ∧
      t.dev = { (deviceTurn s).dev with fb := fb } ∧ t.bus.wire = s.bus.wire ++ [rdidFrame] ∧ t.bus.cs = false ∧
      t.cfg = s.cfg := by
  have hw : hostWord 0x01 0 = 0x00000001 := by decide
  have hop := readIdOp_identifies (s := s.mapCtl (accepted 0x00000001)) due hframe sent.free.2
  refine ⟨u.mapCtl (identified u.cfg m d), request_ok idle (by rw [hw]; exact hop), ?_, ?_, sent.wire, sent.free.1,
    sent.cfg⟩
  · rw [mapCtl_ctl, sent.ctl, sent.cfg]
    exact identified_mpc ..
  · simpa [identifying] using sent.dev

/-- Settles O29: on a ready device (`rdidSent_ready`) and on none (`rdidSent_absent`) the frame returns the pair that
the operation reports (`exec_readId`). -/
theorem readIdReportsTheIdentity : Obligations.ReadIdReportsTheIdentity := by
  intro s m d idle free device
  have freeNow : BusFree (identifying s) := free
  obtain ⟨fb, u, hframe, sent⟩ : ∃ fb u, issueRdid (identifying s) = .ok (m, d) u ∧ RdidSent fb (identifying s) u := by
    rcases device with ⟨present, ready, rfl, rfl⟩ | ⟨absent, rfl, rfl⟩
    · exact ⟨_, rdidSent_ready freeNow (ReadyNext.mapCtl (ReadyNext.mapCtl ⟨present, ready⟩ _) _)⟩
    · exact ⟨_, rdidSent_absent freeNow absent⟩
  obtain ⟨t, hexec, hctl, hdev, hwire, hcs, hcfg⟩ := exec_readId idle free.2 hframe sent
  have hidreg : t.ctl.idreg = d ++ m := by rw [hctl, identified_idreg]
  refine ⟨t, hexec, ?_, ?_, ?_, ?_, hwire, hcs, hcfg⟩
  · rw [hidreg, BitVec.extractLsb'_append_eq_right]
  · rw [hidreg, BitVec.extractLsb'_append_eq_left]
  · rw [hidreg]
    exact hctl
  · rw [hdev]

/-- Settles O30: the refused frame returns two draws (`rdidSent_busy`), and the operation reports them as any other
pair (`exec_readId`). -/
theorem readIdOnBusyDeviceEndsAnyway : Obligations.ReadIdOnBusyDeviceEndsAnyway := by
  intro s idle free present busy
  obtain ⟨u, hframe, sent⟩ := rdidSent_busy (s := identifying s) free present (by simpa [identifying] using busy)
  obtain ⟨t, hexec, hctl, hdev, hwire, -⟩ := exec_readId idle free.2 hframe sent
  exact ⟨t, _, _, hexec, rfl, rfl, hctl, hdev, hwire⟩

end Sys2Proof.Machine
end

section
/-!
DUMP_ALL (spec/47_identity_dump.md) on a device that is ready at the first poll: the whole array, page by page, and the
checksum at its end (rules R281 to R285); then the array that is erased throughout (rule R287).
-/

namespace Sys2Proof.Machine

variable {mem : Memory} {a n : Nat} {c : Controller} {s t : State}

/-- The checksum of a sum kept modulo 256 (rules R79, R283). -/
theorem checksumOf_ofNat (n : Nat) : (checksumOf (BitVec.ofNat 8 n)).toNat = (256 - n % 256) % 256 := by
  simp [checksumOf]

/-- DUMP_ALL has come from `s`, where the controller held `c`, to its end `t` (rules R281 to R285). -/
structure Dumped (c : Controller) (s t : State) : Prop where
  free     : BusFree t
  cfg      : t.cfg = s.cfg
  ctl      : t.ctl = finished 0x00 { c with
    checksum := t.ctl.checksum, lastSr := t.ctl.lastSr, addr := t.ctl.addr, sum := t.ctl.sum, pidx := t.ctl.pidx
    log := c.log ++ dumpEvents (deviceTurn s).dev.dmem 0 (size s.cfg) ++ [.dumpChecksum t.ctl.checksum] }
  checksum : t.ctl.checksum.toNat = (256 - byteSum (deviceTurn s).dev.dmem 0 (size s.cfg) % 256) % 256
  polled   : t.ctl.lastSr.getLsbD 0 = false
  dev      : t.dev = { (deviceTurn s).dev with fb := t.dev.fb, daddr := t.dev.daddr }
  wire     : t.bus.wire = s.bus.wire ++ pageFrames 0 (npages s.cfg)

theorem dumpResumeOp_first (first : s.ctl.pidx = 0) : dumpResumeOp s = dumpPages 0 (npages s.cfg) s := by
  rw [dumpResumeOp, bind_ok (ask_apply s), first]
  rfl

/-- The dump from its first page, with `SUM` clear, once the device is ready (`dumpPages_spec`). -/
theorem dumpPages_dumps (free : BusFree s) (ready : ReadyNext s) (sum : s.ctl.sum = 0) :
    ∃ t, dumpPages 0 (npages s.cfg) s = .ok () t ∧ Dumped s.ctl s t := by
  obtain ⟨n, pages⟩ := Nat.exists_eq_add_one.mpr (npages_pos s.cfg)
  obtain ⟨t, hm, cfg, due, cs, wire, ctl, checksum, polled, dev⟩ := dumpPages_spec (s := deviceTurn s) (p := 0)
    (n := n + 1) ⟨by simpa using free.1, by simpa using free.2⟩ (by simpa using ready.1) ready.2
    (by rw [deviceTurn_cfg, pages, Nat.zero_add]) nofun
  rw [← dumpPages_deviceTurn free ready, ← pages] at hm
  rw [← pages, deviceTurn_ctl, ← size_eq_npages] at ctl
  rw [← pages, deviceTurn_ctl, sum, ← size_eq_npages, zero_add] at checksum
  rw [← pages, deviceTurn_bus] at wire
  exact ⟨t, hm, ⟨cs, due⟩, cfg.trans (deviceTurn_cfg s), ctl, by rw [checksum, checksumOf_ofNat], polled, dev, wire⟩

/-- A DUMP_ALL request on a ready device. -/
theorem exec_dumpAll (idle : s.ctl.seq = .idle) (free : BusFree s) (ready : ReadyNext s) :
    ∃ t, exec .dumpAll s = .next t ∧ Dumped (accepted 0x00000008 s.ctl) s t := by
  have hw : hostWord 0x08 0 = 0x00000008 := by decide
  obtain ⟨t, hpages, tfree, cfg, ctl, checksum, polled, dev, wire⟩ := dumpPages_dumps
    (s := (s.mapCtl (accepted 0x00000008)).mapCtl (entered .dumpAll)) free ((ready.mapCtl _).mapCtl _) rfl
  have hop : dumpAllOp (s.mapCtl (accepted 0x00000008)) = .ok () t :=
    (dumpAllOp_entered (by exact free.2)).trans ((dumpResumeOp_first rfl).trans hpages)
  simp only [deviceTurn_mapCtl, mapCtl_dev] at ctl checksum dev
  exact ⟨t, request_ok idle (by rw [hw]; exact hop), tfree, cfg, ctl, checksum, polled, dev, wire⟩

/-- The checksum closes the sum to 0 modulo 256 (rule R283). -/
theorem Dumped.sum_closed (h : Dumped c s t) :
    (byteSum (deviceTurn s).dev.dmem 0 (size s.cfg) + t.ctl.checksum.toNat) % 256 = 0 := by
  rw [h.checksum]
  omega

/-- Settles O31: the dump ends in `Dumped` (`exec_dumpAll`), and its checksum closes the sum (`Dumped.sum_closed`). -/
theorem dumpAllReportsEveryByteAndTheChecksum : Obligations.DumpAllReportsEveryByteAndTheChecksum := by
  intro s idle free ready
  obtain ⟨t, hexec, dumped⟩ := exec_dumpAll idle free ready
  refine ⟨t, hexec, dumped.checksum, dumped.sum_closed, dumped.ctl, dumped.polled, dumped.dev, ?_, dumped.free.1,
    dumped.cfg⟩
  rw [dumped.wire, pageFrames, List.range_eq_range']

/-! ### An erased array -/

theorem byteSum_erased (erased : ∀ b, a ≤ b → b < a + n → readByte mem b = 0xFF) : byteSum mem a n = 255 * n := by
  induction n generalizing a with
  | zero => rfl
  | succ n ih =>
    have first : (readByte mem a).toNat = 255 := by rw [erased a le_rfl (by omega)]; rfl
    have rest := ih (a := a + 1) fun b above below => erased b (by omega) (by omega)
    rw [byteSum_succ, first, rest]
    omega

theorem erasedSum_mod (g : Config) : 255 * size g % 256 = 0 := by
  rw [size_eq_npages]
  omega

/-- Settles O32: the sum of an erased array is 0 modulo 256 (`byteSum_erased`, `erasedSum_mod`), so that the dump
(`exec_dumpAll`) has nothing to negate. -/
theorem erasedArrayHasChecksumZero : Obligations.ErasedArrayHasChecksumZero := by
  intro s idle free ready erased
  have hsum : byteSum (deviceTurn s).dev.dmem 0 (size s.cfg) = 255 * size s.cfg :=
    byteSum_erased fun b _ below => erased b (by rw [Nat.zero_add] at below; exact Nat.le_of_lt_succ below)
  obtain ⟨t, hexec, dumped⟩ := exec_dumpAll idle free ready
  refine ⟨hsum, erasedSum_mod s.cfg, t, hexec, BitVec.eq_of_toNat_eq ?_⟩
  rw [dumped.checksum, hsum, erasedSum_mod]
  rfl

end Sys2Proof.Machine
end

section
/-!
No host operation ends in a model fault (spec/60_exceptions.md rule R327), first with nothing due inside it: a device
that is not ready only holds it up at its poll, and at a ready device it runs to its end.
-/

namespace Sys2Proof.Machine

variable {α : Type} {a : α} {m : Act α} {i : Instr} {p : Poll} {w : HostWord} {s u : State}

/-- The action does not end in a model fault. -/
def Faultless (m : Act α) (s : State) : Prop := ∀ f u, m s ≠ .error (.fault f) u

theorem Faultless.ok (h : m s = .ok a u) : Faultless m s := fun f v hf => by rw [h] at hf; cases hf

theorem Faultless.suspended (h : m s = .error .suspended u) : Faultless m s := fun f v hf => by rw [h] at hf; cases hf

theorem Finishes.faultless {m : Act Unit} (h : Finishes m s) : Faultless m s :=
  let ⟨_, hm, _⟩ := h
  .ok hm

theorem eraseWaitOp_faultless (free : BusFree s) (inv : PollInv s.cfg s.ctl s.dev .eraseWait) :
    Faultless eraseWaitOp s := by
  by_cases ready : ReadyNext s
  · exact (eraseWaitOp_finishes free ready).faultless
  · exact .suspended (resumeOp_stays (p := .eraseWait) free inv (busyNext_of_not_readyNext ready))

/-- CHIP_ERASE at a ready device: its gate passes, and what it may still have to wait for is its own erase. -/
theorem chipEraseOp_faultless (free : BusFree s) (ready : ReadyNext s) : Faultless chipEraseOp s := by
  obtain ⟨ok, g, hgate, hgated, gfree, -⟩ := gate_passes .eraseGate free ready
  by_cases hskip : ok = false ∧ g.cfg.eraseAbort = true
  · have hends : Finishes chipEraseOp s := .bind hgate <| .bind (ask_apply g) <| by
      rw [if_pos hskip]
      exact finishes_endWith _ gfree.2
    exact hends.faultless
  · obtain ⟨v, hce, -, -, vfree, -, vinv⟩ := issueCe_pollInv (hgated.atLabel .eraseSend) (gfree.atLabel _)
    have hop : chipEraseOp s = eraseWaitOp v := by
      rw [chipEraseOp, bind_ok hgate, bind_ok (ask_apply g), if_neg hskip, bind_ok (label_free _ gfree.2), bind_ok hce]
    rw [Faultless, hop]
    exact eraseWaitOp_faultless vfree vinv

/-- An operation that goes on from a poll as the invariant has it. -/
theorem resumeOp_faultless (free : BusFree s) (inv : PollInv s.cfg s.ctl s.dev p) : Faultless (resumeOp p) s := by
  by_cases ready : ReadyNext s
  · cases p with
    | awaitPoll => exact .ok (awaitReadyOp_ready free ready)
    | enableGate => exact (writeEnableOp_finishes free ready).faultless
    | eraseGate => exact chipEraseOp_faultless free ready
    | eraseWait => exact (eraseWaitOp_finishes free ready).faultless
    | scanPoll => exact (scanOp_finishes free ready).faultless
    | writeGate => exact (writeGateOp_finishes free ready inv).faultless
    | writeReady => exact (writeReadyOp_finishes free ready inv).faultless
    | dumpPoll => exact (dumpResumeOp_finishes free ready inv).faultless
  · exact .suspended (resumeOp_stays free inv (busyNext_of_not_readyNext ready))

/-- An operation from its request to its first poll, and on. -/
theorem entered_faultless {m : Act Unit} (hi : entryPoll i = some p) (hb : bodyOf i = .request w m) (free : BusFree s)
    (inv : PollInv s.cfg (entered i s.ctl) s.dev p) : Faultless m s := by
  rw [Faultless, body_entered hi hb free.2 inv]
  exact resumeOp_faultless (free.mapCtl _) inv

theorem request_faultless {m : Act Unit} (hb : bodyOf i = .request w m) (free : BusFree s) : Faultless m s := by
  have waits {p : Poll} (hi : firstPoll i = some p) : Faultless m s :=
    entered_faultless (entryPoll_of_firstPoll hi) hb free (pollInv_entered hi _ _ _)
  cases i with
  | readId =>
    cases hb
    obtain ⟨⟨m, d⟩, u, hframe, ufree, -⟩ := issueRdid_free (free.atLabel .idFrame)
    exact .ok (readIdOp_identifies free.2 hframe ufree.2)
  | readStatus =>
    cases hb
    obtain ⟨r, u, hread, ufree, -⟩ := readStatus_free (free.atLabel .statusRead)
    exact .ok ((bind_ok (label_free _ free.2)).trans ((bind_ok hread).trans (endWith_free _ ufree.2)))
  | writeData len =>
    by_cases checked : Checked s.cfg s.ctl
    · exact entered_faultless (p := .writeGate) rfl hb free (checked_iff.mp checked)
    · cases hb
      exact .ok (writeDataOp_refused free.2 checked)
  | awaitReady => exact waits rfl
  | writeEnable => exact waits rfl
  | chipErase => exact waits rfl
  | scan => exact waits rfl
  | dumpAll => exact waits rfl
  | rdid | wren | rdsr | ce | read | pp => cases hb

end Sys2Proof.Machine
end

section
/-!
A reset that arrives in the middle of a host operation (spec/70_reset_and_hazards.md rule R341): the device then ends
the frame in progress on the bytes received so far, and these are never a program that the device model gives no
meaning (spec/41_flash_commands.md rules R156, R157). No frame that an operation sends is a `PP` frame but WRITE_DATA's
last, whose first bytes are a legal program when the whole is.
-/

namespace Sys2Proof.Machine

variable {α : Type} {P : State → Prop} {c : Config} {a : FlashAddr} {bytes : List Byte} {s t u : State}

/-! ### A frame that ends early -/

/-- The first bytes of a legal program are a legal program: the bounds ask for no least length (rules R156, R157). -/
theorem programIllegal_take (k : Nat) (legal : programIllegal c a bytes = false) :
    programIllegal c a (bytes.take k) = false := by
  rw [Bool.eq_false_iff, Ne, programIllegal_iff] at legal ⊢
  rw [List.length_take]
  omega

/-- The device gives the frame of these bytes a meaning (rules R156, R157). -/
def Meaningful (c : Config) (sent : List Byte) : Prop :=
  ∀ b1 b2 b3 data, sent = 0x02 :: b1 :: b2 :: b3 :: data → programIllegal c (addrOfBytes b1 b2 b3) data = false

/-- A legal `PP` frame means something wherever it is cut (rule R341). -/
theorem meaningful_ppFrame_take (n : Nat) (legal : programIllegal c a bytes = false) :
    Meaningful c ((ppFrame a bytes).take n) := by
  intro b1 b2 b3 data h
  rcases n with _ | _ | _ | _ | n <;> simp [ppFrame, addrBytes] at h
  obtain ⟨rfl, rfl, rfl, rfl⟩ := h
  rw [addrOfBytes_addrBytes]
  exact programIllegal_take n legal

/-- Only a `PP` frame may be one that the device faults at. -/
theorem meaningful_of_head (h : ∀ rest, bytes ≠ 0x02 :: rest) : Meaningful c bytes :=
  fun _ _ _ _ hb => absurd hb (h _)

/-- A reset that arrives here ends in no fault. -/
def Resettable (s : State) : Prop := s.bus.cs = true → s.cfg.present = true → Meaningful s.cfg s.dev.fb

/-- `EndFrame` on bytes that mean something does not fault. -/
theorem endFrame_meaningful :
    Triple (fun s => Meaningful s.cfg s.dev.fb) endFrame (fun _ _ => True) fun _ _ => False := by
  refine Triple.askThen fun s hs => .ite (fun _ => .nop fun _ _ => trivial) fun _ => ?_
  split
  · exact .ite (fun _ => .upd _ fun _ _ => trivial) fun _ => .nop fun _ _ => trivial
  · exact .ite (fun _ => .upd _ fun _ _ => trivial) fun _ => .nop fun _ _ => trivial
  · next hc =>
    obtain ⟨_, hpp⟩ := fb_of_frameCommand hc
    split
    · next hfb =>
      rw [hpp] at hfb
      cases hfb
      refine .ite (fun _ => Triple.askThen fun u hu => ?_) fun _ => .nop fun _ _ => trivial
      subst hu
      rw [if_neg (by simp [hs _ _ _ _ hpp])]
      exact .upd _ fun _ _ => trivial
    · exact .nop fun _ _ => trivial
  · exact .nop fun _ _ => trivial

/-- The reset itself, which ends the frame in progress (rule R341). -/
theorem resetController_resettable : Triple Resettable resetController (fun _ _ => True) fun _ _ => False := by
  refine Triple.askThen fun s hs => .ite (fun hcs => .bind (Q := fun _ _ => True) ?_ fun _ => .upd _ fun _ _ => trivial)
    fun _ => .upd _ fun _ _ => trivial
  refine .bind (Q := fun _ u => u.cfg = s.cfg ∧ u.dev = s.dev) (.upd _ fun u hu => by subst hu; exact ⟨rfl, rfl⟩)
    fun _ => Triple.askThen fun u hu => .ite (fun hp => ?_) fun _ => .nop fun _ _ => trivial
  refine endFrame_meaningful.conseq ?_ (fun _ _ h => h) fun _ _ h => h
  rintro _ rfl
  rw [hu.1, hu.2]
  exact hs hcs (hu.1 ▸ hp)

/-! ### The bus primitives -/

/-- The parameters are `c`, and if a frame is in progress its command is not `PP`. -/
def Unprogramming (c : Config) (s : State) : Prop :=
  s.cfg = c ∧ (s.bus.cs = true → s.cfg.present = true → ∃ b rest, s.dev.fb = b :: rest ∧ b ≠ 0x02)

/-- The parameters are `c`, and a present device has received `sent` in the frame in progress. -/
def FrameSoFar (c : Config) (sent : List Byte) (s : State) : Prop :=
  s.cfg = c ∧ (s.cfg.present = true → s.dev.fb = sent)

theorem onFlash_unprogramming : OnFlash (Unprogramming c) := fun s t hcfg hbus hdev h => by
  unfold Unprogramming at h ⊢
  rwa [hcfg, hbus, hdev]

theorem onFlash_frameSoFar {sent : List Byte} : OnFlash (FrameSoFar c sent) := fun s t hcfg _ hdev h => by
  unfold FrameSoFar at h ⊢
  rwa [hcfg, hdev]

theorem Unprogramming.resettable (h : Unprogramming c s) : Resettable s := fun hcs hp => by
  obtain ⟨b, rest, hfb, hb⟩ := h.2 hcs hp
  exact meaningful_of_head fun _ h => hb (by rw [hfb] at h; injection h)

theorem Unprogramming.released (hcfg : s.cfg = c) (hcs : s.bus.cs = false) : Unprogramming c s :=
  ⟨hcfg, fun h => by rw [hcs] at h; cases h⟩

theorem FrameSoFar.resettable (h : FrameSoFar c bytes s) (hm : Meaningful c bytes) : Resettable s := fun _ hp => by
  rw [h.1, h.2 hp]; exact hm

/-- `Select()` opens a frame in which nothing has been received (rule R121). -/
theorem select_resettable : Passes Resettable (Unprogramming c) (FrameSoFar c []) select := by
  refine .bind (passes_tick onFlash_unprogramming fun _ => Unprogramming.resettable) fun _ =>
    Triple.askThen fun s hs => .ite (fun _ => .leave _ fun _ h => h ▸ hs.resettable) fun _ => ?_
  refine .bind (Q := fun _ u => u.cfg = s.cfg) (.upd _ fun u hu => by rw [deviceTurn_cfg, hu]) fun _ =>
    .bind (Q := fun _ u => u.cfg = s.cfg) (.upd _ fun _ h => h) fun _ => .ite (fun _ => ?_) fun hp => ?_
  · exact .upd _ fun u hu => ⟨hu.trans hs.1, fun _ => rfl⟩
  · exact .nop fun u hu => ⟨hu.trans hs.1, fun h => absurd (hu ▸ h) hp⟩

/-- A byte of a frame that means something before and after it. -/
theorem xfer_frameSoFar {sent : List Byte} {b : Byte} (h : Meaningful c sent) (h' : Meaningful c (sent ++ [b])) :
    Passes Resettable (FrameSoFar c sent) (FrameSoFar c (sent ++ [b])) (xfer b) :=
  passes_xfer onFlash_frameSoFar onFlash_frameSoFar (fun _ hs => hs.resettable h) (fun _ hs => hs.resettable h')
    (fun s absent hs => ⟨hs.1, fun hp => by simp [absent] at hp⟩)
    (fun s _ hs => ⟨hs.1, fun hp => congrArg (· ++ [b]) (hs.2 hp)⟩) (fun _ _ h => h) fun _ _ h => h

theorem xferAll_frameSoFar {sent : List Byte} (h : ∀ n, Meaningful c (sent ++ bytes.take n)) :
    Passes Resettable (FrameSoFar c sent) (FrameSoFar c (sent ++ bytes)) (xferAll bytes) := by
  induction bytes generalizing sent with
  | nil => rw [List.append_nil]; exact .pure _
  | cons b bs ih =>
    rw [List.append_cons]
    refine .bind (xfer_frameSoFar (by simpa using h 0) (by simpa using h 1)) fun _ => ih fun n => ?_
    simpa using h (n + 1)

/-- A command byte that does not open a `PP` frame. -/
theorem command_resettable {b : Byte} (hb : b ≠ 0x02) :
    Passes Resettable (FrameSoFar c []) (Unprogramming c) (xfer b) := by
  refine (xfer_frameSoFar (by simp [Meaningful]) (meaningful_of_head fun _ h => hb ?_)).weaken fun s hs => ?_
  · simpa using congrArg List.head? h
  · exact ⟨hs.1, fun _ hp => ⟨b, [], hs.2 hp, hb⟩⟩

theorem xfer_resettable (b : Byte) : Passes Resettable (Unprogramming c) (Unprogramming c) (xfer b) :=
  passes_xfer onFlash_unprogramming onFlash_unprogramming (fun _ => Unprogramming.resettable)
    (fun _ => Unprogramming.resettable) (fun _ _ h => h)
    (fun s _ hs => ⟨hs.1, fun hcs hp => let ⟨d, rest, hfb, hd⟩ := hs.2 hcs hp; ⟨d, rest ++ [b], by simp [hfb], hd⟩⟩)
    (fun _ _ h => h) fun _ _ h => h

/-- A frame that closes leaves none in progress, whatever it was (rule R122). -/
theorem deselect_resettable (hP : OnFlash P) (hc : ∀ s, P s → s.cfg = c) (hl : ∀ s, P s → Resettable s) :
    Passes Resettable P (Unprogramming c) deselect := by
  have safe (s : State) (h : s.cfg = c ∧ s.bus.cs = false) : Resettable s := (Unprogramming.released h.1 h.2).resettable
  refine passes_deselect hP hl (.bind (Q := fun s => s.cfg = c ∧ s.bus.cs = false)
    (.upd fun s hs => ⟨hc s hs, rfl⟩) fun _ => .bind .ask fun _ => .ite (fun _ => ?_) fun _ =>
      Passes.nop.weaken fun _ h => .released h.1 h.2)
  have kept {s : State} (h : s.cfg = c ∧ s.bus.cs = false) : Unprogramming c s := .released h.1 h.2
  exact passes_endFrame safe (fun _ => kept) (fun _ => kept) (fun _ _ => kept) fun _ _ _ _ => kept

end Sys2Proof.Machine
end

section
/-!
The host operations at every point where a reset can arrive in them (spec/70_reset_and_hazards.md rule R341), and the
step: none ends in a model fault, whether a reset arrives in it or not (spec/60_exceptions.md rule R327). `FrameRules`
does not say this, since it speaks of frames of any bytes, and not every `PP` frame may be cut; so the operations are
followed with what they send.
-/

namespace Sys2Proof.Machine

variable {α : Type} {c : Config} {a : FlashAddr} {bytes : List Byte} {i : Instr} {p : Poll} {w : HostWord} {s t : State}

/-! ### The shared operations -/

/-- The action begins and ends with no `PP` frame in progress, and a reset that arrives in it ends in no fault. -/
def Withstands (c : Config) (m : Act α) : Prop := Passes Resettable (Unprogramming c) (Unprogramming c) m

theorem withstands_updCtl (f : Controller → Controller) : Withstands c (updCtl f) := .updCtl onFlash_unprogramming f

theorem withstands_label (l : MicroPos) : Withstands c (label l) :=
  passes_label onFlash_unprogramming (fun _ => Unprogramming.resettable) l

theorem withstands_endWith (code : Byte) : Withstands c (endWith code) :=
  .bind (withstands_label _) fun _ => withstands_updCtl _

theorem withstands_deselect : Withstands c deselect :=
  deselect_resettable onFlash_unprogramming (fun _ h => h.1) fun _ => Unprogramming.resettable

theorem withstands_xferAll (bs : List Byte) : Withstands c (xferAll bs) := passes_xferAll xfer_resettable bs

/-- A complete frame that means something wherever it is cut. -/
theorem withstands_frame (h : ∀ n, Meaningful c (bytes.take n)) : Withstands c (frame bytes) :=
  .bind select_resettable fun _ => .bind (xferAll_frameSoFar h) fun _ =>
    deselect_resettable onFlash_frameSoFar (fun _ hs => hs.1) fun _ hs =>
      hs.resettable (by simpa using h bytes.length)

theorem withstands_issuePp (legal : programIllegal c a bytes = false) : Withstands c (issuePp a bytes) := by
  rw [issuePp_frame]
  exact withstands_frame fun n => meaningful_ppFrame_take n legal

/-- A frame of one byte is too short to be a program (rule R143). -/
theorem withstands_frame_single (b : Byte) : Withstands c (frame [b]) :=
  withstands_frame fun n b1 b2 b3 data h => by cases n <;> simp at h

theorem withstands_readStatus : Withstands c readStatus :=
  .bind select_resettable fun _ => .bind (command_resettable (by decide)) fun _ => .bind (xfer_resettable _) fun _ =>
    .bind withstands_deselect fun _ => .bind (withstands_updCtl _) fun _ => .pure _

theorem withstands_issueRdid : Withstands c issueRdid :=
  .bind select_resettable fun _ => .bind (command_resettable (by decide)) fun _ => .bind (withstands_xferAll _) fun _ =>
    .bind (xfer_resettable _) fun _ => .bind (xfer_resettable _) fun _ => .bind withstands_deselect fun _ => .pure _

theorem withstands_openRead (a : FlashAddr) : Withstands c (openRead a) :=
  .bind select_resettable fun _ => .bind (command_resettable (by decide)) fun _ => withstands_xferAll _

theorem withstands_awaitReady (here : Poll) (f : Controller → Controller) : Withstands c (awaitReady here (updCtl f)) :=
  .bind (withstands_label _) fun _ => .bind withstands_readStatus fun _ => .ite (fun _ => .bind (withstands_updCtl f)
    fun _ => .bind (.pure _) fun _ => .leave fun _ => Unprogramming.resettable) fun _ => .nop

theorem withstands_gate (here : Poll) : Withstands c (gate here) :=
  .bind (withstands_awaitReady here id) fun _ => .bind (withstands_label _) fun _ =>
    .bind (withstands_frame_single _) fun _ => .bind (withstands_label _) fun _ => .bind withstands_readStatus fun _ =>
      .ite (fun _ => .bind (withstands_updCtl _) fun _ => .pure _) fun _ => .bind (withstands_label _) fun _ =>
        .bind (withstands_updCtl _) fun _ => .bind (withstands_label _) fun _ => .bind (withstands_updCtl _) fun _ =>
          .pure _

/-! ### The operations without a program -/

theorem withstands_readStatusOp : Withstands c readStatusOp :=
  .bind (withstands_label _) fun _ => .bind withstands_readStatus fun _ => withstands_endWith _

theorem withstands_awaitReadyOp : Withstands c awaitReadyOp :=
  .bind (withstands_awaitReady _ id) fun _ => withstands_endWith _

theorem withstands_writeEnableOp : Withstands c writeEnableOp :=
  .bind (withstands_gate _) fun _ => .ite (fun _ => withstands_endWith _) fun _ => withstands_endWith _

theorem withstands_eraseWaitOp : Withstands c eraseWaitOp :=
  .bind (withstands_awaitReady _ _) fun _ => .bind .ask fun _ =>
    .ite (fun _ => withstands_endWith _) fun _ => withstands_endWith _

theorem withstands_chipEraseOp : Withstands c chipEraseOp :=
  .bind (withstands_gate _) fun _ => .bind .ask fun _ => .ite (fun _ => withstands_endWith _) fun _ =>
    .bind (withstands_label _) fun _ => .bind (withstands_frame_single _) fun _ => withstands_eraseWaitOp

theorem withstands_readIdOp : Withstands c readIdOp :=
  .bind (withstands_label _) fun _ => .bind withstands_issueRdid fun _ => .bind (withstands_label _) fun _ =>
    .bind (withstands_updCtl _) fun _ => .bind (withstands_label _) fun _ => .bind (withstands_updCtl _) fun _ =>
      .bind (withstands_label _) fun _ => .bind (withstands_updCtl _) fun _ => .bind (withstands_label _) fun _ =>
        .bind .ask fun _ => .ite (fun _ => .bind (withstands_updCtl _) fun _ => withstands_endWith _) fun _ =>
          .bind (withstands_updCtl _) fun _ => .bind (withstands_label _) fun _ => .bind (withstands_updCtl _) fun _ =>
            withstands_endWith _

theorem withstands_scanStream (n : Nat) : Withstands c (scanStream n) := by
  induction n with
  | zero => exact .pure _
  | succ n ih =>
    exact .bind (withstands_label _) fun _ => .bind (xfer_resettable _) fun _ => .bind (withstands_updCtl _) fun _ =>
      .bind .ask fun _ => .ite (fun _ => .pure _) fun _ => .bind (withstands_updCtl _) fun _ => ih

theorem withstands_scanSearch : Withstands c scanSearch :=
  .bind (withstands_awaitReady _ id) fun _ => .bind (withstands_label _) fun _ => .bind (withstands_openRead _) fun _ =>
    .bind (withstands_updCtl _) fun _ => .bind .ask fun _ => .bind (withstands_scanStream _) fun _ =>
      .bind (withstands_label _) fun _ => .bind withstands_deselect fun _ => .pure _

theorem withstands_scanOp : Withstands c scanOp := by
  rw [scanOp_eq]
  refine .bind withstands_scanSearch fun found => .ite (fun _ => ?_) fun _ => ?_
  all_goals
    exact .bind (withstands_label _) fun _ => .bind (withstands_updCtl _) fun _ => .bind (withstands_label _) fun _ =>
      .bind (withstands_updCtl _) fun _ => withstands_endWith _

theorem withstands_dumpBytes (base i n : Nat) : Withstands c (dumpBytes base i n) := by
  induction n generalizing i with
  | zero => exact .nop
  | succ n ih =>
    exact .bind (withstands_label _) fun _ => .bind (withstands_updCtl _) fun _ =>
      .bind (.bind .ask fun _ => .ite (fun _ => withstands_updCtl _) fun _ => .nop) fun _ =>
        .bind (xfer_resettable _) fun _ => .bind (withstands_updCtl _) fun _ => .bind (withstands_updCtl _) fun _ =>
          ih _

theorem withstands_dumpPages (n k : Nat) : Withstands c (dumpPages n k) := by
  induction k generalizing n with
  | zero =>
    exact .bind (withstands_label _) fun _ => .bind (withstands_updCtl _) fun _ => .bind (withstands_label _) fun _ =>
      .bind .ask fun _ => .bind (withstands_updCtl _) fun _ => withstands_endWith _
  | succ k ih =>
    exact .bind (withstands_updCtl _) fun _ => .bind (withstands_awaitReady _ id) fun _ =>
      .bind (withstands_label _) fun _ => .bind (withstands_openRead _) fun _ =>
        .bind (withstands_dumpBytes _ _ _) fun _ => .bind (withstands_label _) fun _ =>
          .bind withstands_deselect fun _ => ih _

theorem withstands_dumpAllOp : Withstands c dumpAllOp :=
  .bind (withstands_label _) fun _ => .bind (withstands_updCtl _) fun _ => .bind .ask fun _ => withstands_dumpPages _ _

/-! ### WRITE_DATA -/

/-- An operation may go on to a `PP` frame: its write has passed the checks (rules R247, R248, R252). -/
def MayProgram (c : Config) (s : State) : Prop := Unprogramming c s ∧ Checked c s.ctl

/-- The checks look at `LENL` and `CURSOR` alone. -/
theorem Checked.congr {k k' : Controller} (h : Checked c k) (hlen : k'.lenl = k.lenl) (hcur : k'.cursor = k.cursor) :
    Checked c k' := by
  obtain ⟨hsome, hfits, hpage⟩ := h
  exact ⟨by rwa [hlen], by rwa [hlen, hcur], by rwa [hlen, hcur]⟩

theorem stable_checked : Stable (Checked c) := by
  refine .of ?_ ?_ ?_ ?_ ?_ ?_ ?_ ?_ ?_ <;> (intros; rename_i h; exact h.congr rfl rfl)

/-- What the ready-wait and the gate write leaves a checked write checked. -/
theorem Withstands.mayProgram {m : Act α} (h : Withstands c m) (hk : Keeps (Checked c) (Checked c) False m) :
    Passes Resettable (MayProgram c) (MayProgram c) m :=
  (Triple.and h hk.triple).conseq (fun _ h => h) (fun _ _ h => h) fun _ _ h => h.1

/-- What withstands a reset does so from fewer states. -/
theorem Withstands.after {m : Act α} {P : State → Prop} (h : Withstands c m) (hP : ∀ s, P s → Unprogramming c s) :
    Passes Resettable P (Unprogramming c) m := Triple.conseq h hP (fun _ _ h => h) fun _ _ h => h

theorem writeReadyOp_resettable : Passes Resettable (MayProgram c) (Unprogramming c) writeReadyOp := by
  refine .bind ((withstands_awaitReady _ id).mayProgram (keeps_awaitReady stable_checked.toPolls _ .nop)) fun _ =>
    .bind ((withstands_label _).mayProgram (keeps_label stable_checked.toPolls _)) fun _ =>
      Triple.askThen fun s hs => ?_
  obtain ⟨hun, hchecked⟩ := hs
  show Passes Resettable (· = s) (Unprogramming c) _
  exact .bind ((withstands_issuePp hchecked.legal).after fun _ h => h ▸ hun) fun _ =>
    .bind (withstands_label _) fun _ => .bind (.pure _) fun _ => .bind (withstands_label _) fun _ =>
      .bind (withstands_updCtl _) fun _ => withstands_endWith _

theorem writeGateOp_resettable : Passes Resettable (MayProgram c) (Unprogramming c) writeGateOp :=
  have ends (code : Byte) : Passes Resettable (MayProgram c) (Unprogramming c) (endWith code) :=
    (withstands_endWith code).after fun _ h => h.1
  .bind ((withstands_gate _).mayProgram (keeps_gate stable_checked _)) fun _ => .ite (fun _ =>
    .bind ((withstands_label _).mayProgram (keeps_label stable_checked.toPolls _)) fun _ =>
      .bind .ask fun _ => .ite (fun _ => writeReadyOp_resettable) fun _ => ends _) fun _ => ends _

theorem withstands_writeDataOp : Withstands c writeDataOp := by
  refine .bind (withstands_label _) fun _ => Triple.askThen fun s hs => ?_
  have here {m : Act Unit} (h : Withstands c m) : Passes Resettable (· = s) (Unprogramming c) m :=
    h.after fun _ h => h ▸ hs
  refine .ite (fun _ => here (withstands_endWith _)) fun hlen => .ite (fun _ => here ?_) fun hcap =>
    .ite (fun _ => here ?_) fun hpage => Triple.conseq writeGateOp_resettable ?_ (fun _ _ h => h) fun _ _ h => h
  · exact .bind (withstands_label _) fun _ => .bind (withstands_updCtl _) fun _ => .bind (withstands_label _) fun _ =>
      withstands_updCtl _
  · exact .bind (withstands_label _) fun _ => .bind (withstands_updCtl _) fun _ => withstands_endWith _
  · rintro _ rfl
    exact ⟨hs, checked_iff.mpr ⟨hlen, by simpa [hs.1] using hcap, by simpa using hpage⟩⟩

/-! ### Every operation -/

theorem withstands_request {m : Act Unit} (hb : bodyOf i = .request w m) : Withstands c m := by
  cases i <;> cases hb
  case readId => exact withstands_readIdOp
  case readStatus => exact withstands_readStatusOp
  case awaitReady => exact withstands_awaitReadyOp
  case writeEnable => exact withstands_writeEnableOp
  case chipErase => exact withstands_chipEraseOp
  case scan => exact withstands_scanOp
  case writeData => exact withstands_writeDataOp
  case dumpAll => exact withstands_dumpAllOp

theorem resumeOp_resettable (p : Poll) :
    Passes Resettable (fun s => Unprogramming c s ∧ PollInv c s.ctl s.dev p) (Unprogramming c) (resumeOp p) := by
  cases p with
  | awaitPoll => exact withstands_awaitReadyOp.after fun _ h => h.1
  | enableGate => exact withstands_writeEnableOp.after fun _ h => h.1
  | eraseGate => exact withstands_chipEraseOp.after fun _ h => h.1
  | eraseWait => exact withstands_eraseWaitOp.after fun _ h => h.1
  | scanPoll => exact withstands_scanOp.after fun _ h => h.1
  | writeGate =>
    exact Triple.conseq writeGateOp_resettable (fun _ h => ⟨h.1, checked_iff.mpr h.2⟩) (fun _ _ h => h) fun _ _ h => h
  | writeReady =>
    exact Triple.conseq writeReadyOp_resettable
      (fun _ ⟨hun, hlen, hcap, hpage, _⟩ => ⟨hun, checked_iff.mpr ⟨hlen, hcap, hpage⟩⟩) (fun _ _ h => h) fun _ _ h => h
  | dumpPoll =>
    have hdump : Withstands c dumpResumeOp := .bind .ask fun _ => withstands_dumpPages _ _
    exact hdump.after fun _ h => h.1

/-! ### Every step -/

/-- A step faults only where its action does with no one looking, or where the reset that arrives in it does. -/
theorem runAct_ne_fault {m : Act Unit} {P Q : State → Prop} (he : Erasable m) (hm : Faultless m s.unwatched)
    (hr : Passes Resettable P Q m) (hs : P s) (f : Fault) : runAct m s ≠ .fault f := by
  have erased := he s
  have exits := hr s hs
  intro hf
  unfold runAct at hf
  cases h : m s with
  | ok _ t => rw [h] at hf; cases hf
  | error e t =>
    rw [h] at hf erased exits
    cases e with
    | suspended => cases hf
    | resetArrived =>
      obtain ⟨u, hu⟩ := afterReset_fault hf
      have hreset := resetController_resettable t exits
      rwa [hu] at hreset
    | fault g => exact hm g _ erased.1

theorem request_ne_fault {m : Act Unit} (hcs : s.bus.cs = false) (he : Erasable m)
    (hm : Faultless m (s.mapCtl (accepted w)).unwatched) (hr : Withstands s.cfg m) (f : Fault) :
    request w m s ≠ .fault f := by
  by_cases idle : s.ctl.seq = .idle
  · rw [request_idle idle]
    exact runAct_ne_fault (s := s.mapCtl (accepted w)) he hm hr (.released rfl hcs) f
  · rw [request_notIdle idle]
    simp

/-- A request word, whether it decodes or not. -/
theorem issueWord_ne_fault (h : Inv s) (v : HostWord) (f : Fault) : issueCode (.word v) s ≠ .fault f := by
  have free : BusFree (s.mapCtl (accepted v)).unwatched := ⟨h.csReleased, rfl⟩
  obtain ⟨m, hm, ⟨i, hb⟩ | rfl⟩ := issueCode_word v s <;> rw [hm]
  · exact request_ne_fault h.csReleased (erasable_request hb) (request_faultless hb free) (withstands_request hb) f
  · exact request_ne_fault h.csReleased (erasable_endWith _) (.ok (endWith_free _ free.2)) (withstands_endWith _) f

theorem machineTurn_ne_fault (h : Inv s) (f : Fault) : machineTurn s ≠ .fault f := by
  unfold machineTurn
  split
  · next p busy mpc =>
    obtain ⟨q, hq, inv⟩ := h.atPoll busy
    cases mpc.symm.trans hq
    exact runAct_ne_fault (erasable_resumeOp p) (resumeOp_faultless ⟨h.csReleased, rfl⟩ inv) (resumeOp_resettable p)
      ⟨.released rfl h.csReleased, inv⟩ f
  all_goals simp

/-- Settles O51: with nothing due no operation faults (`request_faultless`, `resumeOp_faultless`), and a reset that
arrives in one ends a frame that means something to the device (`withstands_request`, `resumeOp_resettable`). -/
theorem hostOperationsNeverFault : Obligations.HostOperationsNeverFault := by
  intro s f h hdirect
  cases hin : s.env.inbox with
  | nil => simpa only [step, moveStep, hin] using machineTurn_ne_fault h f
  | cons move rest =>
    simp only [step, moveStep, hin]
    cases move with
    | issue code =>
      cases code with
      | word v => exact issueWord_ne_fault h.pop v f
      | frame bytes => exact absurd hin (hdirect bytes rest)
    | wait =>
      simp only
      split
      · exact machineTurn_ne_fault h f
      · simp
    | deviceDone =>
      simp only
      split <;> simp
    | writeReg r v =>
      cases r with
      | cmd => exact issueWord_ne_fault h.pop v f
      | data j =>
        simp only [hostWrite]
        split <;> simp
      | ctrlstat | result | cursor | idreg | lastSr | checksum => simp [hostWrite]
    | reset => simp [afterReset, resetController_released (s := popInbox s) h.csReleased]
    | readReg | readAfter | resetAfter => simp

end Sys2Proof.Machine
end

section
/-!
A reset that was due and arrives in a step (spec/70_reset_and_hazards.md rules R340, R341; spec/10_state.md rule R43):
wherever it falls it leaves the reset values, and due at once it ends an operation at its first label.
-/

namespace Sys2Proof.Machine

variable {α β : Type} {i : Instr} {w : HostWord} {s t : State}

/-! ### A reset that arrives -/

/-- The reset values of rule R43, with the chip-select released. -/
def ResetLeft (t : State) : Prop := AtResetValues t.ctl ∧ t.bus.cs = false

theorem resetController_left (h : resetController s = .ok () t) : ResetLeft t := by
  have hr := resetController_ok s trivial
  rw [h] at hr
  exact ⟨by rw [hr.1]; exact atResetValues_reset, hr.2⟩

/-- A step that takes a due reset off ends with it, for every action that runs as with no one looking otherwise. -/
theorem Erasable.resetLeft {m : Act Unit} (he : Erasable m) (ht : runAct m s = .next t)
    (hlt : resetsDue t < resetsDue s) : ResetLeft t := by
  rcases he.run_cases ht with ⟨hsame, -⟩ | ⟨-, u, -, hu⟩
  · exact absurd hlt (Nat.not_lt.mpr hsame.ge)
  · exact resetController_left hu

/-- An instruction that answers has run its pseudocode, as a request or as a frame. -/
theorem exec_next (h : exec i s = .next t) :
    ∃ m, Erasable m ∧ ∃ f, runAct m (s.mapCtl f) = .next t ∧ exec i s.unwatched = runAct m (s.mapCtl f).unwatched := by
  have he := erasable_body i
  rw [exec_body] at h ⊢
  cases hb : bodyOf i with
  | request w m =>
    rw [hb] at h he
    obtain ⟨idle, hrun⟩ := request_next h
    exact ⟨m, he, accepted w, hrun, request_idle (by exact idle)⟩
  | frame m =>
    rw [hb] at h he
    obtain ⟨hs, hrun⟩ := putFrame_next h
    exact ⟨m, he, id, hrun, putFrame_running (by exact hs)⟩

theorem exec_resetLeft (ht : exec i s = .next t) (hlt : resetsDue t < resetsDue s) : ResetLeft t := by
  obtain ⟨m, he, f, hrun, -⟩ := exec_next ht
  exact he.resetLeft hrun hlt

/-- A reset that falls later than the instruction changes nothing in it. -/
theorem exec_unreset (ht : exec i s = .next t) (hsame : resetsDue t = resetsDue s) :
    exec i s.unwatched = .next t.unwatched := by
  obtain ⟨m, he, f, hrun, hexec⟩ := exec_next ht
  rcases he.run_cases hrun with ⟨-, hm⟩ | ⟨hlt, -⟩
  · exact hexec.trans hm
  · exact absurd hlt (Nat.not_lt.mpr hsame.ge)

/-- A step without pseudocode of its own takes no due reset off. -/
theorem step_resetLeft (ht : step s = .next t) (hlt : resetsDue t < resetsDue s) : ResetLeft t := by
  have undue (hle : resetsDue s ≤ resetsDue t) : ResetLeft t := absurd hlt (Nat.not_lt.mpr hle)
  cases step_cases ht with
  | request i v m hb _ run => exact (erasable_request hb).resetLeft run hlt
  | illegal v _ run => exact (erasable_endWith _).resetLeft run hlt
  | frame i m _ _ hb _ _ run => exact (erasable_frameBody hb).resetLeft run hlt
  | rawFrame _ bytes _ _ run => exact (erasable_frame bytes).resetLeft run hlt
  | resume p _ _ run => exact (erasable_resumeOp p).resetLeft run hlt
  | reset _ _ run => exact resetController_left run
  | turn ht => exact undue (by simp [ht, resetsDue])
  | due d ht => exact undue (by simp [ht, resetsDue])
  | data | done | pop | read => subst_vars; exact undue le_rfl

/-! ### A reset due at once -/

/-- A reset due at once ends the action before anything but the controller's registers is touched. -/
def CutAtOnce (m : Act α) : Prop :=
  ∀ s rest, s.env.due = ⟨0, .reset⟩ :: rest →
    ∃ f, m s = .error .resetArrived ((s.mapCtl f).mapEnv fun e => { e with due := rest })

theorem CutAtOnce.bind {m : Act α} {f : α → Act β} (h : CutAtOnce m) : CutAtOnce (m >>= f) := fun s rest hd =>
  let ⟨g, hg⟩ := h s rest hd
  ⟨g, bind_error hg⟩

theorem cutAtOnce_tick : CutAtOnce tick := fun s rest hd => ⟨id, by simp only [tick, hd, serve]; rfl⟩

theorem CutAtOnce.updCtl {g : Controller → Controller} {f : Unit → Act β} (h : CutAtOnce (f ())) :
    CutAtOnce (Machine.updCtl g >>= f) := fun s rest hd =>
  let ⟨k, hk⟩ := h (s.mapCtl g) rest hd
  ⟨fun c => k (g c), (bind_ok (updCtl_apply g s)).trans hk⟩

theorem cutAtOnce_label (p : MicroPos) : CutAtOnce (label p) := .updCtl cutAtOnce_tick

theorem cutAtOnce_awaitReady (here : Poll) (m : Act Unit) : CutAtOnce (awaitReady here m) := (cutAtOnce_label _).bind

theorem cutAtOnce_gate (here : Poll) : CutAtOnce (gate here) := (cutAtOnce_awaitReady _ _).bind

theorem cutAtOnce_dumpPages (p n : Nat) : CutAtOnce (dumpPages p n) := by
  cases n with
  | zero => exact (cutAtOnce_label _).bind
  | succ n => exact .updCtl (cutAtOnce_awaitReady _ _).bind

theorem cutAtOnce_request {m : Act Unit} (hb : bodyOf i = .request w m) : CutAtOnce m := by
  cases i <;> cases hb
  case readId => exact (cutAtOnce_label _).bind
  case readStatus => exact (cutAtOnce_label _).bind
  case awaitReady => exact (cutAtOnce_awaitReady _ _).bind
  case writeEnable => exact (cutAtOnce_gate _).bind
  case chipErase => exact (cutAtOnce_gate _).bind
  case scan => exact (cutAtOnce_awaitReady _ _).bind
  case writeData => exact (cutAtOnce_label _).bind
  case dumpAll => exact (cutAtOnce_label _).bind

theorem cutAtOnce_resumeOp (p : Poll) : CutAtOnce (resumeOp p) := by
  cases p with
  | awaitPoll => exact (cutAtOnce_awaitReady _ _).bind
  | enableGate => exact (cutAtOnce_gate _).bind
  | eraseGate => exact (cutAtOnce_gate _).bind
  | eraseWait => exact (cutAtOnce_awaitReady _ _).bind
  | scanPoll => exact (cutAtOnce_awaitReady _ _).bind
  | writeGate => exact (cutAtOnce_gate _).bind
  | writeReady => exact (cutAtOnce_awaitReady _ _).bind
  | dumpPoll => exact fun s rest hd => cutAtOnce_dumpPages _ _ s rest hd

/-- The reset then sets the registers, and nothing else has changed but that it is no longer due. -/
theorem CutAtOnce.run {m : Act Unit} {rest : List Due} (h : CutAtOnce m) (hcs : s.bus.cs = false)
    (hd : s.env.due = ⟨0, .reset⟩ :: rest) :
    ∃ t, runAct m s = .next t ∧ AtResetValues t.ctl ∧ t.bus = s.bus ∧ t.dev = s.dev ∧ t.cfg = s.cfg ∧
      t.env.due = rest := by
  obtain ⟨f, hm⟩ := h s rest hd
  refine ⟨resetFields ((s.mapCtl f).mapEnv fun e => { e with due := rest }), ?_, atResetValues_reset, rfl, rfl, rfl,
    rfl⟩
  simp only [runAct, hm, afterReset]
  rw [resetController_released (by exact hcs)]

/-- Settles O60: a due reset that arrives is the end of its step (`exec_resetLeft`, `step_resetLeft`), at once it cuts
every operation at its first label (`CutAtOnce.run`), and one that falls later is as good as not due
(`exec_unreset`). -/
theorem resetInsideAnOperationEndsIt : Obligations.ResetInsideAnOperationEndsIt := by
  refine ⟨fun _ _ _ => exec_resetLeft, fun _ _ => step_resetLeft, fun s i rest hi idle hcs hd => ?_,
    fun s p rest busy mpc hin hcs hd => ?_, fun _ _ _ => exec_unreset⟩
  · obtain ⟨w, m, hb⟩ : ∃ w m, bodyOf i = .request w m := by cases i <;> cases hi <;> exact ⟨_, _, rfl⟩
    rw [exec_body, hb]
    simp only [request_idle idle]
    exact (cutAtOnce_request hb).run (s := s.mapCtl (accepted w)) hcs hd
  · rw [step_resume busy mpc hin]
    exact (cutAtOnce_resumeOp p).run hcs hd

end Sys2Proof.Machine
end

section
/-!
Where no operation runs (spec/60_exceptions.md): a request word that decodes to none (rule R309), and the halted
controller, which takes no step (rule R313).
-/

namespace Sys2Proof.Machine

variable {i : Instr} {s t : State}

/-- Settles O6: the request is taken and ends at once, with nothing sent (`endWith_free`). -/
theorem illegalWordReportsOnlyItsCode : Obligations.IllegalWordReportsOnlyItsCode := by
  intro s w e rest idle due hin hd
  have hstep : step s = request w (endWith resIllegalOp) (popInbox s) := by
    simp only [step, moveStep, hin, issueCode, hd, illegalRequest]
  exact ⟨_, hstep.trans (request_ok (by exact idle) (endWith_free resIllegalOp (by exact due))), rfl, rfl, rfl, rfl⟩

/-- A halted controller runs no instruction (rules R33, R313). -/
theorem exec_halted (h : s.ctl.seq = .halted) : ∃ r, exec i s = .refused r := by
  rw [exec_body]
  cases bodyOf i with
  | request w m => exact ⟨_, request_notIdle (by simp [h])⟩
  | frame m => exact ⟨.frameNotIdle, by simp only [putFrame, h]⟩

/-- No move but a reset writes a register of a halted controller. -/
theorem step_halted_ctl (h : s.ctl.seq = .halted) (ht : step s = .next t) (hr : ∀ rest, s.env.inbox ≠ .reset :: rest) :
    t.ctl = s.ctl := by
  have notIdle : s.ctl.seq ≠ .idle := by simp [h]
  cases step_cases ht with
  | request _ _ _ _ idle | illegal _ idle | frame _ _ _ _ _ _ idle | rawFrame _ _ _ idle | data _ _ idle =>
    exact absurd idle notIdle
  | resume _ busy => rw [h] at busy; cases busy
  | reset rest inbox => exact absurd inbox (hr rest)
  | turn ht => rw [ht, deviceTurn_ctl]
  | done | pop | read | due => subst_vars; rfl

/-- Settles O8: no instruction runs (`exec_halted`), with no move due only the device may step (`step_turn`), and no
move but a reset writes a register (`step_halted_ctl`). -/
theorem haltedControllerKeepsItsRegisters : Obligations.HaltedControllerKeepsItsRegisters := by
  intro s h
  refine ⟨fun i => exec_halted h, fun hin => ?_, fun r rest hin => ?_, fun t => step_halted_ctl h⟩
  · exact ⟨_, step_turn (by simp [h]) hin, deviceTurn_ctl s, deviceTurn_bus s, deviceTurn_cfg s, rfl⟩
  · exact ⟨_, hostReadHasNoEffect.1 s r rest hin, rfl⟩

end Sys2Proof.Machine
end

section
/-!
A reset inside a `PP` frame (spec/70_reset_and_hazards.md rule R341): the bus primitives before it run as if nothing
were due, the next one is cut at once, and the device ends the frame on the bytes it has received
(spec/41_flash_commands.md rule R143).
-/

namespace Sys2Proof.Machine

variable {a : FlashAddr} {sent more data : List Byte} {due : List Due} {s u v : State}

/-! ### A frame that a reset cuts -/

/-- A reset due at once ends a frame at its next byte, or at its deselect. -/
theorem cutAtOnce_restOfFrame (more : List Byte) : CutAtOnce (do xferAll more; deselect : Act Unit) := by
  cases more with
  | nil => exact cutAtOnce_tick.bind
  | cons b bs => exact CutAtOnce.bind (CutAtOnce.bind cutAtOnce_tick.bind)

/-- Up to the reset a frame runs as if nothing were due: `u` is where it stands then (rule R341, log entry 5). -/
theorem frame_cut (hd : s.env.due = ⟨sent.length + 1, .reset⟩ :: due) (hopen : select s.unwatched = .ok () v)
    (hsent : xferAll sent v = .ok () u) :
    ∃ f, frame (sent ++ more) s = .error .resetArrived ((u.mapCtl f).watch due s.env.seen) := by
  have hsel := select_later hd
  rw [hopen] at hsel
  have hrun : xferAll sent (v.watch (⟨sent.length, .reset⟩ :: due) s.env.seen) =
      .ok () (u.watch (⟨0, .reset⟩ :: due) s.env.seen) :=
    xferAll_later (s := v.watch _ _) (by simp) (by
      show xferAll sent v.unwatched = _
      rw [erasable_select.unwatched hopen]
      exact hsent)
  obtain ⟨f, hcut⟩ := cutAtOnce_restOfFrame more (u.watch (⟨0, .reset⟩ :: due) s.env.seen) due rfl
  refine ⟨f, ?_⟩
  rw [frame, xferAll_append, bind_ok hsel, bind_assoc, bind_ok hrun]
  exact hcut

/-! ### The `PP` frame -/

/-- A `PP` frame on a present device that is not busy, after the data bytes `data`. -/
theorem ppFrame_received (free : BusFree s) (present : s.cfg.present = true) (idle : s.dev.dbusy = false) :
    ∃ v u, select s = .ok () v ∧ xferAll (ppFrame a data) v = .ok () u ∧ u.bus.cs = true ∧ u.cfg = s.cfg ∧
      u.dev = { s.dev with fb := ppFrame a data } := by
  have hsel := select_free free.1 free.2
  rw [deviceTurn_idle idle, if_pos present] at hsel
  have hcmd := xfer_command (s := { s with
    bus := { s.bus with cs := true, mosi := [], miso := [] }, dev := { s.dev with fb := [] } }) (c := 0x02) rfl free.2
    present rfl
  have hdraws : ReturnsDraw { s.dev with fb := [0x02] } := ⟨by simp, .inr (.inr (.inr (.inl rfl)))⟩
  exact ⟨_, _, hsel, (bind_ok hcmd).trans (xferAll_returnsDraw _ rfl (by exact free.2) (by exact present) hdraws), rfl,
    rfl, rfl⟩

/-- The end of a legal `PP` frame on an idle device with its latch set: with data the program is pending (rules R143,
R156). -/
theorem endFrame_ppFrame (hfb : s.dev.fb = ppFrame a data) (idle : s.dev.dbusy = false) (latch : s.dev.dwel = true)
    (legal : programIllegal s.cfg a data = false) :
    endFrame s = .ok () (if data = [] then s else
      s.mapDev fun d => { d with dbusy := true, dpend := .prog a data }) := by
  cases data with
  | nil => simp [endFrame, bind_apply, refusedFrame, idle, hfb, frameCommand, commandOf, ppFrame, addrBytes]
  | cons b bs =>
    simp [endFrame, bind_apply, refusedFrame, idle, latch, legal, hfb, frameCommand, commandOf, ppFrame, addrBytes,
      startProgram]

/-- A reset that arrives there. -/
theorem resetController_ppFrame (hcs : s.bus.cs = true) (present : s.cfg.present = true)
    (hfb : s.dev.fb = ppFrame a data) (idle : s.dev.dbusy = false) (latch : s.dev.dwel = true)
    (legal : programIllegal s.cfg a data = false) :
    ∃ t, resetController s = .ok () t ∧ t.cfg = s.cfg ∧
      t.dev = if data = [] then s.dev else { s.dev with dbusy := true, dpend := .prog a data } := by
  have hend := endFrame_ppFrame (s := s.mapBus fun b => { b with cs := false, wire := b.wire ++ [b.mosi] }) hfb idle
    latch legal
  have hrel : releaseCs s = .ok () _ := (bind_ok (upd_apply _ _)).trans <| (bind_ok (ask_apply _)).trans <|
    (congrFun (if_pos present) _).trans hend
  have hreset : resetController s = .ok () _ := (bind_ok (ask_apply s)).trans <| (congrFun (if_pos hcs) _).trans <|
    (bind_ok hrel).trans (upd_apply _ _)
  refine ⟨_, hreset, ?_, ?_⟩ <;> split <;> rfl

/-- Settles O48: the frame is cut after `k` data bytes (`frame_cut`), and the device programs these
(`resetController_ppFrame`), which are legal as all of them are (`programIllegal_take`). -/
theorem resetInsideAProgramFrame : Obligations.ResetInsideAProgramFrame := by
  intro s a bytes k due hs hcs present idle latch legal hk hd
  obtain ⟨v, u, hopen, hsent, ucs, ucfg, udev⟩ :=
    ppFrame_received (s := s.unwatched) (a := a) (data := bytes.take k) ⟨hcs, rfl⟩ present idle
  have hlen : (ppFrame a (bytes.take k)).length + 1 = 5 + k := by
    simp only [ppFrame, addrBytes, List.length_cons, List.length_append, List.length_take, List.length_nil]
    omega
  obtain ⟨f, hcut⟩ := frame_cut (more := bytes.drop k) (by rw [hlen]; exact hd) hopen hsent
  have hbytes : ppFrame a (bytes.take k) ++ bytes.drop k = ppFrame a bytes := by simp [ppFrame]
  rw [hbytes, ← issuePp_frame] at hcut
  obtain ⟨t, hreset, tcfg, tdev⟩ := resetController_ppFrame (s := (u.mapCtl f).watch due s.env.seen) (a := a)
    (data := bytes.take k) ucs (by simpa [ucfg] using present) (by simp [udev]) (by simpa [udev] using idle)
    (by simpa [udev] using latch) (by simpa [ucfg] using programIllegal_take k legal)
  have hexec : exec (.pp a bytes) s = .next t := by
    refine (putFrame_running hs).trans ?_
    simp only [runAct, hcut, afterReset, hreset]
  obtain ⟨hvalues, hreleased⟩ := resetController_left hreset
  refine ⟨t, hexec, hvalues, hreleased, ?_, tcfg.trans ucfg⟩
  rw [tdev, watch_dev, mapCtl_dev, udev]
  rcases Nat.eq_zero_or_pos k with rfl | hpos
  · simp
  · have hdata : bytes.take k ≠ [] := List.ne_nil_of_length_pos (by rw [List.length_take]; omega)
    rw [if_neg hdata, if_neg (by omega)]
    rfl

end Sys2Proof.Machine
end
